-- ==== Sys2Proof/Word.lean ====
section
/-! DEFINITION. The word types of the machine: XLEN = 32 (00_scope.md R9, R11), bytes and
half-words (R10), and the 5-bit register number of an instruction field (30_encoding.md R78). -/

namespace Sys2Proof

/-- A 32-bit register value, address or instruction word (R10, R11). -/
abbrev Word := BitVec 32

/-- A byte, the smallest addressable unit (R10). -/
abbrev Byte := BitVec 8

/-- A half-word (R10). -/
abbrev Half := BitVec 16

/-- A register number 0..31, as an instruction names it (R78). -/
abbrev Reg := BitVec 5

/-- One of the four coprocessor numbers `z` (R78). -/
abbrev CopNum := BitVec 2

end Sys2Proof
end

