-- ==== Sys2Proof/Syntax.lean ====
section
/-! DEFINITION. The instructions: one constructor per row of spec/opcode_table.json, with the operand
fields 30_encoding.md R77, R78 give it. Fields that the format leaves unused (R86) are no operands,
but for the `rt` field of BLTZ and BGEZ, whose every value decodes (R83). -/

namespace Sys2Proof

/-- The instruction set (30_encoding.md R81 to R85). Operands stand in the order of the assembler
syntax (R90). -/
inductive Instr where
  -- SPECIAL: shifts (R118 to R123)
  | sll (rd rt : Reg) (shamt : BitVec 5)
  | srl (rd rt : Reg) (shamt : BitVec 5)
  | sra (rd rt : Reg) (shamt : BitVec 5)
  | sllv (rd rt rs : Reg)
  | srlv (rd rt rs : Reg)
  | srav (rd rt rs : Reg)
  -- SPECIAL: register jumps and traps (R155, R156, R175, R176)
  | jr (rs : Reg)
  | jalr (rd rs : Reg)
  | syscall (code : BitVec 20)
  | brk (code : BitVec 20)
  -- SPECIAL: HI/LO, multiply and divide (R134 to R141)
  | mfhi (rd : Reg)
  | mthi (rs : Reg)
  | mflo (rd : Reg)
  | mtlo (rs : Reg)
  | mult (rs rt : Reg)
  | multu (rs rt : Reg)
  | div (rs rt : Reg)
  | divu (rs rt : Reg)
  -- SPECIAL: three-register arithmetic and logic (R108 to R117)
  | add (rd rs rt : Reg)
  | addu (rd rs rt : Reg)
  | sub (rd rs rt : Reg)
  | subu (rd rs rt : Reg)
  | and (rd rs rt : Reg)
  | or (rd rs rt : Reg)
  | xor (rd rs rt : Reg)
  | nor (rd rs rt : Reg)
  | slt (rd rs rt : Reg)
  | sltu (rd rs rt : Reg)
  -- REGIMM (R83, R149 to R152); `rt` is the selector field
  | bltz (rs : Reg) (rt : BitVec 5) (imm : Half)
  | bgez (rs : Reg) (rt : BitVec 5) (imm : Half)
  | bltzal (rs : Reg) (imm : Half)
  | bgezal (rs : Reg) (imm : Half)
  -- jumps (R153, R154)
  | j (target : BitVec 26)
  | jal (target : BitVec 26)
  -- branches (R145 to R148)
  | beq (rs rt : Reg) (imm : Half)
  | bne (rs rt : Reg) (imm : Half)
  | blez (rs : Reg) (imm : Half)
  | bgtz (rs : Reg) (imm : Half)
  -- immediate arithmetic and logic (R124 to R131)
  | addi (rt rs : Reg) (imm : Half)
  | addiu (rt rs : Reg) (imm : Half)
  | slti (rt rs : Reg) (imm : Half)
  | sltiu (rt rs : Reg) (imm : Half)
  | andi (rt rs : Reg) (imm : Half)
  | ori (rt rs : Reg) (imm : Half)
  | xori (rt rs : Reg) (imm : Half)
  | lui (rt : Reg) (imm : Half)
  -- loads and stores (R162 to R173); `rs` is the base
  | lb (rt : Reg) (imm : Half) (rs : Reg)
  | lh (rt : Reg) (imm : Half) (rs : Reg)
  | lwl (rt : Reg) (imm : Half) (rs : Reg)
  | lw (rt : Reg) (imm : Half) (rs : Reg)
  | lbu (rt : Reg) (imm : Half) (rs : Reg)
  | lhu (rt : Reg) (imm : Half) (rs : Reg)
  | lwr (rt : Reg) (imm : Half) (rs : Reg)
  | sb (rt : Reg) (imm : Half) (rs : Reg)
  | sh (rt : Reg) (imm : Half) (rs : Reg)
  | swl (rt : Reg) (imm : Half) (rs : Reg)
  | sw (rt : Reg) (imm : Half) (rs : Reg)
  | swr (rt : Reg) (imm : Half) (rs : Reg)
  -- coprocessor loads and stores (R184 to R186, R195, R196); `rt` is the coprocessor's register
  | lwc0 (rt : BitVec 5) (imm : Half) (rs : Reg)
  | lwc1 (rt : BitVec 5) (imm : Half) (rs : Reg)
  | lwc2 (rt : BitVec 5) (imm : Half) (rs : Reg)
  | lwc3 (rt : BitVec 5) (imm : Half) (rs : Reg)
  | swc0 (rt : BitVec 5) (imm : Half) (rs : Reg)
  | swc1 (rt : BitVec 5) (imm : Half) (rs : Reg)
  | swc2 (rt : BitVec 5) (imm : Half) (rs : Reg)
  | swc3 (rt : BitVec 5) (imm : Half) (rs : Reg)
  -- COP0 (R178 to R180); `rd` is the coprocessor's register
  | mfc0 (rt : Reg) (rd : BitVec 5)
  | mtc0 (rt : Reg) (rd : BitVec 5)
  | rfe
  -- the absent coprocessors, any other bits (R182, R183)
  | cop1 (bits : BitVec 26)
  | cop3 (bits : BitVec 26)
  -- COP2 (R191 to R194, R197)
  | mfc2 (rt : Reg) (rd : BitVec 5)
  | cfc2 (rt : Reg) (rd : BitVec 5)
  | mtc2 (rt : Reg) (rd : BitVec 5)
  | ctc2 (rt : Reg) (rd : BitVec 5)
  | cop2Command (cofun : BitVec 25)
  deriving DecidableEq, Repr

end Sys2Proof
end

