-- ==== Sys2Proof/WellFormed.lean ====
section
/-! DEFINITION. Which terms of `Instr` are instructions: those that some word encodes. Every operand
has the width of its field, so every value of it is encoded by a word, but for the selector field of
BLTZ and BGEZ (30_encoding.md R83). -/

namespace Sys2Proof

/-- R83: `rt` selects BLTZ when it is even and does not link, that is `rt[4:1]` is not 0b1000. -/
def selectsBltz (rt : BitVec 5) : Bool :=
  !rt.getLsbD 0 && rt.extractLsb' 1 4 != 0b1000#4

/-- R83: `rt` selects BGEZ when it is odd and does not link. -/
def selectsBgez (rt : BitVec 5) : Bool :=
  rt.getLsbD 0 && rt.extractLsb' 1 4 != 0b1000#4

/-- Whether a term is an instruction of the encoding. -/
def Instr.wellFormed : Instr → Bool
  | .bltz _ rt _ => selectsBltz rt
  | .bgez _ rt _ => selectsBgez rt
  | .sll _ _ _ | .srl _ _ _ | .sra _ _ _ | .sllv _ _ _ | .srlv _ _ _ | .srav _ _ _ => true
  | .jr _ | .jalr _ _ | .syscall _ | .brk _ => true
  | .mfhi _ | .mthi _ | .mflo _ | .mtlo _ | .mult _ _ | .multu _ _ | .div _ _ | .divu _ _ => true
  | .add _ _ _ | .addu _ _ _ | .sub _ _ _ | .subu _ _ _ | .and _ _ _ | .or _ _ _ => true
  | .xor _ _ _ | .nor _ _ _ | .slt _ _ _ | .sltu _ _ _ => true
  | .bltzal _ _ | .bgezal _ _ | .j _ | .jal _ | .beq _ _ _ | .bne _ _ _ | .blez _ _ | .bgtz _ _ => true
  | .addi _ _ _ | .addiu _ _ _ | .slti _ _ _ | .sltiu _ _ _ | .andi _ _ _ | .ori _ _ _ => true
  | .xori _ _ _ | .lui _ _ => true
  | .lb _ _ _ | .lh _ _ _ | .lwl _ _ _ | .lw _ _ _ | .lbu _ _ _ | .lhu _ _ _ | .lwr _ _ _ => true
  | .sb _ _ _ | .sh _ _ _ | .swl _ _ _ | .sw _ _ _ | .swr _ _ _ => true
  | .lwc0 _ _ _ | .lwc1 _ _ _ | .lwc2 _ _ _ | .lwc3 _ _ _ => true
  | .swc0 _ _ _ | .swc1 _ _ _ | .swc2 _ _ _ | .swc3 _ _ _ => true
  | .mfc0 _ _ | .mtc0 _ _ | .rfe | .cop1 _ | .cop3 _ => true
  | .mfc2 _ _ | .cfc2 _ _ | .mtc2 _ _ | .ctc2 _ _ | .cop2Command _ => true

end Sys2Proof
end

