-- ==== Sys2Proof/Decode.lean ====
section
/-! DEFINITION. Decoding (30_encoding.md R76 to R89), total on every word and rejecting by name, and
the encoder. Both are written from the encoding tables R81 to R85. -/

namespace Sys2Proof

/-- What a word is (R89): an instruction of the opcode table, a reserved encoding (R87), or a word of
coprocessor `z` that has no row of its own (R84). Whether a coprocessor word raises CpU depends on SR
and is decided when it executes. -/
inductive Decoded where
  | instr (i : Instr)
  | reserved
  | unmodelledCop (z : CopNum)
  deriving DecidableEq, Repr

/-- Why a sequence of bytes holds no instruction word. -/
inductive DecodeError where
  /-- Fewer than the four bytes of a word (R76) are left. -/
  | truncated
  deriving DecidableEq, Repr

/-! The fields of R77. -/

def fieldOp (w : Word) : BitVec 6 := w.extractLsb' 26 6
def fieldRs (w : Word) : BitVec 5 := w.extractLsb' 21 5
def fieldRt (w : Word) : BitVec 5 := w.extractLsb' 16 5
def fieldRd (w : Word) : BitVec 5 := w.extractLsb' 11 5
def fieldShamt (w : Word) : BitVec 5 := w.extractLsb' 6 5
def fieldFunct (w : Word) : BitVec 6 := w.extractLsb' 0 6
def fieldImm (w : Word) : Half := w.extractLsb' 0 16
def fieldTarget (w : Word) : BitVec 26 := w.extractLsb' 0 26
def fieldCode (w : Word) : BitVec 20 := w.extractLsb' 6 20
def fieldCofun (w : Word) : BitVec 25 := w.extractLsb' 0 25
/-- Bit 25: 1 in a coprocessor operation, 0 in a coprocessor move (R77). -/
def fieldCo (w : Word) : Bool := w.getLsbD 25

/-- op = 0: `funct` selects (R82); the other values are reserved (R87). -/
def decodeSpecial (w : Word) : Decoded :=
  match fieldFunct w with
  | 0x00#6 => .instr (.sll (fieldRd w) (fieldRt w) (fieldShamt w))
  | 0x02#6 => .instr (.srl (fieldRd w) (fieldRt w) (fieldShamt w))
  | 0x03#6 => .instr (.sra (fieldRd w) (fieldRt w) (fieldShamt w))
  | 0x04#6 => .instr (.sllv (fieldRd w) (fieldRt w) (fieldRs w))
  | 0x06#6 => .instr (.srlv (fieldRd w) (fieldRt w) (fieldRs w))
  | 0x07#6 => .instr (.srav (fieldRd w) (fieldRt w) (fieldRs w))
  | 0x08#6 => .instr (.jr (fieldRs w))
  | 0x09#6 => .instr (.jalr (fieldRd w) (fieldRs w))
  | 0x0C#6 => .instr (.syscall (fieldCode w))
  | 0x0D#6 => .instr (.brk (fieldCode w))
  | 0x10#6 => .instr (.mfhi (fieldRd w))
  | 0x11#6 => .instr (.mthi (fieldRs w))
  | 0x12#6 => .instr (.mflo (fieldRd w))
  | 0x13#6 => .instr (.mtlo (fieldRs w))
  | 0x18#6 => .instr (.mult (fieldRs w) (fieldRt w))
  | 0x19#6 => .instr (.multu (fieldRs w) (fieldRt w))
  | 0x1A#6 => .instr (.div (fieldRs w) (fieldRt w))
  | 0x1B#6 => .instr (.divu (fieldRs w) (fieldRt w))
  | 0x20#6 => .instr (.add (fieldRd w) (fieldRs w) (fieldRt w))
  | 0x21#6 => .instr (.addu (fieldRd w) (fieldRs w) (fieldRt w))
  | 0x22#6 => .instr (.sub (fieldRd w) (fieldRs w) (fieldRt w))
  | 0x23#6 => .instr (.subu (fieldRd w) (fieldRs w) (fieldRt w))
  | 0x24#6 => .instr (.and (fieldRd w) (fieldRs w) (fieldRt w))
  | 0x25#6 => .instr (.or (fieldRd w) (fieldRs w) (fieldRt w))
  | 0x26#6 => .instr (.xor (fieldRd w) (fieldRs w) (fieldRt w))
  | 0x27#6 => .instr (.nor (fieldRd w) (fieldRs w) (fieldRt w))
  | 0x2A#6 => .instr (.slt (fieldRd w) (fieldRs w) (fieldRt w))
  | 0x2B#6 => .instr (.sltu (fieldRd w) (fieldRs w) (fieldRt w))
  | _ => .reserved

/-- op = 1: every value of `rt` decodes (R83). -/
def decodeRegimm (w : Word) : Decoded :=
  if fieldRt w = 0b10000#5 then .instr (.bltzal (fieldRs w) (fieldImm w))
  else if fieldRt w = 0b10001#5 then .instr (.bgezal (fieldRs w) (fieldImm w))
  else if (fieldRt w).getLsbD 0 then .instr (.bgez (fieldRs w) (fieldRt w) (fieldImm w))
  else .instr (.bltz (fieldRs w) (fieldRt w) (fieldImm w))

/-- op = 16: the COP0 words (R84, row z = 0). -/
def decodeCop0 (w : Word) : Decoded :=
  if fieldCo w then
    if fieldFunct w = 0x10#6 then .instr .rfe else .unmodelledCop 0
  else
    match fieldRs w with
    | 0x00#5 => .instr (.mfc0 (fieldRt w) (fieldRd w))
    | 0x04#5 => .instr (.mtc0 (fieldRt w) (fieldRd w))
    | _ => .unmodelledCop 0

/-- op = 18: the COP2 words (R84, row z = 2). -/
def decodeCop2 (w : Word) : Decoded :=
  if fieldCo w then .instr (.cop2Command (fieldCofun w))
  else
    match fieldRs w with
    | 0x00#5 => .instr (.mfc2 (fieldRt w) (fieldRd w))
    | 0x02#5 => .instr (.cfc2 (fieldRt w) (fieldRd w))
    | 0x04#5 => .instr (.mtc2 (fieldRt w) (fieldRd w))
    | 0x06#5 => .instr (.ctc2 (fieldRt w) (fieldRd w))
    | _ => .unmodelledCop 2

/-- The decoder of R89: the primary opcode selects (R81); the other values are reserved (R87). -/
def decode (w : Word) : Decoded :=
  match fieldOp w with
  | 0x00#6 => decodeSpecial w
  | 0x01#6 => decodeRegimm w
  | 0x02#6 => .instr (.j (fieldTarget w))
  | 0x03#6 => .instr (.jal (fieldTarget w))
  | 0x04#6 => .instr (.beq (fieldRs w) (fieldRt w) (fieldImm w))
  | 0x05#6 => .instr (.bne (fieldRs w) (fieldRt w) (fieldImm w))
  | 0x06#6 => .instr (.blez (fieldRs w) (fieldImm w))
  | 0x07#6 => .instr (.bgtz (fieldRs w) (fieldImm w))
  | 0x08#6 => .instr (.addi (fieldRt w) (fieldRs w) (fieldImm w))
  | 0x09#6 => .instr (.addiu (fieldRt w) (fieldRs w) (fieldImm w))
  | 0x0A#6 => .instr (.slti (fieldRt w) (fieldRs w) (fieldImm w))
  | 0x0B#6 => .instr (.sltiu (fieldRt w) (fieldRs w) (fieldImm w))
  | 0x0C#6 => .instr (.andi (fieldRt w) (fieldRs w) (fieldImm w))
  | 0x0D#6 => .instr (.ori (fieldRt w) (fieldRs w) (fieldImm w))
  | 0x0E#6 => .instr (.xori (fieldRt w) (fieldRs w) (fieldImm w))
  | 0x0F#6 => .instr (.lui (fieldRt w) (fieldImm w))
  | 0x10#6 => decodeCop0 w
  | 0x11#6 => .instr (.cop1 (fieldTarget w))
  | 0x12#6 => decodeCop2 w
  | 0x13#6 => .instr (.cop3 (fieldTarget w))
  | 0x20#6 => .instr (.lb (fieldRt w) (fieldImm w) (fieldRs w))
  | 0x21#6 => .instr (.lh (fieldRt w) (fieldImm w) (fieldRs w))
  | 0x22#6 => .instr (.lwl (fieldRt w) (fieldImm w) (fieldRs w))
  | 0x23#6 => .instr (.lw (fieldRt w) (fieldImm w) (fieldRs w))
  | 0x24#6 => .instr (.lbu (fieldRt w) (fieldImm w) (fieldRs w))
  | 0x25#6 => .instr (.lhu (fieldRt w) (fieldImm w) (fieldRs w))
  | 0x26#6 => .instr (.lwr (fieldRt w) (fieldImm w) (fieldRs w))
  | 0x28#6 => .instr (.sb (fieldRt w) (fieldImm w) (fieldRs w))
  | 0x29#6 => .instr (.sh (fieldRt w) (fieldImm w) (fieldRs w))
  | 0x2A#6 => .instr (.swl (fieldRt w) (fieldImm w) (fieldRs w))
  | 0x2B#6 => .instr (.sw (fieldRt w) (fieldImm w) (fieldRs w))
  | 0x2E#6 => .instr (.swr (fieldRt w) (fieldImm w) (fieldRs w))
  | 0x30#6 => .instr (.lwc0 (fieldRt w) (fieldImm w) (fieldRs w))
  | 0x31#6 => .instr (.lwc1 (fieldRt w) (fieldImm w) (fieldRs w))
  | 0x32#6 => .instr (.lwc2 (fieldRt w) (fieldImm w) (fieldRs w))
  | 0x33#6 => .instr (.lwc3 (fieldRt w) (fieldImm w) (fieldRs w))
  | 0x38#6 => .instr (.swc0 (fieldRt w) (fieldImm w) (fieldRs w))
  | 0x39#6 => .instr (.swc1 (fieldRt w) (fieldImm w) (fieldRs w))
  | 0x3A#6 => .instr (.swc2 (fieldRt w) (fieldImm w) (fieldRs w))
  | 0x3B#6 => .instr (.swc3 (fieldRt w) (fieldImm w) (fieldRs w))
  | _ => .reserved

/-! The byte order of an instruction word (R76, 20_memory.md R61): little-endian. -/

/-- The word whose bytes, from the lowest address up, are `b0`, `b1`, `b2`, `b3`. -/
def wordOfBytes (b0 b1 b2 b3 : Byte) : Word := b3 ++ b2 ++ b1 ++ b0

/-- The bytes of a word, from the lowest address up. -/
def bytesOfWord (w : Word) : List Byte :=
  [w.extractLsb' 0 8, w.extractLsb' 8 8, w.extractLsb' 16 8, w.extractLsb' 24 8]

/-- Decode the first instruction of a sequence of bytes; the rest follows it. A decoder always consumes
exactly 4 bytes (R76). -/
def decodeBytes : List Byte → Except DecodeError (Decoded × List Byte)
  | b0 :: b1 :: b2 :: b3 :: rest => .ok (decode (wordOfBytes b0 b1 b2 b3), rest)
  | _ => .error .truncated

/-- The instruction word whose low `nbits` bits are those of `w`, the bits above them zero. -/
def tableWord (nbits w : Nat) : Word := BitVec.ofNat 32 (w % 2 ^ nbits)

/-- The instruction the decoder reads from an opcode-table word, laid out in memory order. -/
def decodeTableWord (nbits w : Nat) : Option Instr :=
  match decodeBytes (bytesOfWord (tableWord nbits w)) with
  | .ok (.instr i, _) => some i
  | .ok (.reserved, _) => none
  | .ok (.unmodelledCop _, _) => none
  | .error _ => none

/-! The encoder. Unused fields (R86) are written as zeros. -/

/-- R-type of SPECIAL (op = 0). -/
def encodeR (rs rt rd shamt : BitVec 5) (funct : BitVec 6) : Word :=
  0x00#6 ++ rs ++ rt ++ rd ++ shamt ++ funct

/-- I-type. -/
def encodeI (op : BitVec 6) (rs rt : BitVec 5) (imm : Half) : Word :=
  op ++ rs ++ rt ++ imm

/-- J-type, and the words of an absent coprocessor. -/
def encodeJ (op : BitVec 6) (target : BitVec 26) : Word :=
  op ++ target

/-- COP-move. -/
def encodeMove (op : BitVec 6) (sub rt rd : BitVec 5) : Word :=
  op ++ sub ++ rt ++ rd ++ 0#11

/-- COP-function. -/
def encodeCo (op : BitVec 6) (cofun : BitVec 25) : Word :=
  op ++ 1#1 ++ cofun

/-- Trap format (SYSCALL, BREAK). -/
def encodeTrap (code : BitVec 20) (funct : BitVec 6) : Word :=
  0x00#6 ++ code ++ funct

/-- The word of an instruction. -/
def encode : Instr → Word
  | .sll rd rt sa => encodeR 0 rt rd sa 0x00
  | .srl rd rt sa => encodeR 0 rt rd sa 0x02
  | .sra rd rt sa => encodeR 0 rt rd sa 0x03
  | .sllv rd rt rs => encodeR rs rt rd 0 0x04
  | .srlv rd rt rs => encodeR rs rt rd 0 0x06
  | .srav rd rt rs => encodeR rs rt rd 0 0x07
  | .jr rs => encodeR rs 0 0 0 0x08
  | .jalr rd rs => encodeR rs 0 rd 0 0x09
  | .syscall code => encodeTrap code 0x0C
  | .brk code => encodeTrap code 0x0D
  | .mfhi rd => encodeR 0 0 rd 0 0x10
  | .mthi rs => encodeR rs 0 0 0 0x11
  | .mflo rd => encodeR 0 0 rd 0 0x12
  | .mtlo rs => encodeR rs 0 0 0 0x13
  | .mult rs rt => encodeR rs rt 0 0 0x18
  | .multu rs rt => encodeR rs rt 0 0 0x19
  | .div rs rt => encodeR rs rt 0 0 0x1A
  | .divu rs rt => encodeR rs rt 0 0 0x1B
  | .add rd rs rt => encodeR rs rt rd 0 0x20
  | .addu rd rs rt => encodeR rs rt rd 0 0x21
  | .sub rd rs rt => encodeR rs rt rd 0 0x22
  | .subu rd rs rt => encodeR rs rt rd 0 0x23
  | .and rd rs rt => encodeR rs rt rd 0 0x24
  | .or rd rs rt => encodeR rs rt rd 0 0x25
  | .xor rd rs rt => encodeR rs rt rd 0 0x26
  | .nor rd rs rt => encodeR rs rt rd 0 0x27
  | .slt rd rs rt => encodeR rs rt rd 0 0x2A
  | .sltu rd rs rt => encodeR rs rt rd 0 0x2B
  | .bltz rs rt imm => encodeI 0x01 rs rt imm
  | .bgez rs rt imm => encodeI 0x01 rs rt imm
  | .bltzal rs imm => encodeI 0x01 rs 0b10000 imm
  | .bgezal rs imm => encodeI 0x01 rs 0b10001 imm
  | .j target => encodeJ 0x02 target
  | .jal target => encodeJ 0x03 target
  | .beq rs rt imm => encodeI 0x04 rs rt imm
  | .bne rs rt imm => encodeI 0x05 rs rt imm
  | .blez rs imm => encodeI 0x06 rs 0 imm
  | .bgtz rs imm => encodeI 0x07 rs 0 imm
  | .addi rt rs imm => encodeI 0x08 rs rt imm
  | .addiu rt rs imm => encodeI 0x09 rs rt imm
  | .slti rt rs imm => encodeI 0x0A rs rt imm
  | .sltiu rt rs imm => encodeI 0x0B rs rt imm
  | .andi rt rs imm => encodeI 0x0C rs rt imm
  | .ori rt rs imm => encodeI 0x0D rs rt imm
  | .xori rt rs imm => encodeI 0x0E rs rt imm
  | .lui rt imm => encodeI 0x0F 0 rt imm
  | .lb rt imm rs => encodeI 0x20 rs rt imm
  | .lh rt imm rs => encodeI 0x21 rs rt imm
  | .lwl rt imm rs => encodeI 0x22 rs rt imm
  | .lw rt imm rs => encodeI 0x23 rs rt imm
  | .lbu rt imm rs => encodeI 0x24 rs rt imm
  | .lhu rt imm rs => encodeI 0x25 rs rt imm
  | .lwr rt imm rs => encodeI 0x26 rs rt imm
  | .sb rt imm rs => encodeI 0x28 rs rt imm
  | .sh rt imm rs => encodeI 0x29 rs rt imm
  | .swl rt imm rs => encodeI 0x2A rs rt imm
  | .sw rt imm rs => encodeI 0x2B rs rt imm
  | .swr rt imm rs => encodeI 0x2E rs rt imm
  | .lwc0 rt imm rs => encodeI 0x30 rs rt imm
  | .lwc1 rt imm rs => encodeI 0x31 rs rt imm
  | .lwc2 rt imm rs => encodeI 0x32 rs rt imm
  | .lwc3 rt imm rs => encodeI 0x33 rs rt imm
  | .swc0 rt imm rs => encodeI 0x38 rs rt imm
  | .swc1 rt imm rs => encodeI 0x39 rs rt imm
  | .swc2 rt imm rs => encodeI 0x3A rs rt imm
  | .swc3 rt imm rs => encodeI 0x3B rs rt imm
  | .mfc0 rt rd => encodeMove 0x10 0x00 rt rd
  | .mtc0 rt rd => encodeMove 0x10 0x04 rt rd
  | .rfe => encodeCo 0x10 0x10
  | .cop1 bits => encodeJ 0x11 bits
  | .cop3 bits => encodeJ 0x13 bits
  | .mfc2 rt rd => encodeMove 0x12 0x00 rt rd
  | .cfc2 rt rd => encodeMove 0x12 0x02 rt rd
  | .mtc2 rt rd => encodeMove 0x12 0x04 rt rd
  | .ctc2 rt rd => encodeMove 0x12 0x06 rt rd
  | .cop2Command cofun => encodeCo 0x12 cofun

end Sys2Proof
end

