-- ==== Sys2Proof/Config.lean ====
section
/-! DEFINITION. The implementation parameters of 00_scope.md R9, as one record of plain data that
the machine's state carries unchanged, and the free values (the spec's `draw()`, R15) as constants
without a body. -/

namespace Sys2Proof

/-- IE_STACK_LEVELS (R9, R32; D3): four levels as the document says, three as on the R3000A. -/
inductive IeStackLevels where
  | four
  | three
  deriving DecidableEq, Repr

/-- NESTED_BRANCH_POLICY (R9, R100; D4). -/
inductive NestedBranchPolicy where
  | firstWins
  | mipsChain
  deriving DecidableEq, Repr

/-- ISTAT_ACK_POLARITY (R9, R218; D16). -/
inductive AckPolarity where
  | oneClears
  | zeroClears
  deriving DecidableEq, Repr

/-- HILO_HAZARD (R9, R142; D45). -/
inductive HiloHazard where
  | sequential
  | undefinedAfter
  deriving DecidableEq, Repr

/-- The external devices that own address ranges (R56, R57, R58). They are outside the CORE block. -/
inductive ExtDevice where
  | expansion1
  | expansion2
  | expansion3
  | memoryControl
  | padsAndSerial
  | ramSize
  | timers
  | disc
  | graphics
  | pictureDecoder
  | sound
  deriving DecidableEq, Repr

/-- One row of DEVICE_MAP: `size` bytes from physical address `base` belong to `dev` (R57). -/
structure DevRange where
  base : Nat
  size : Nat
  dev : ExtDevice
  deriving DecidableEq, Repr

/-- One class of CYCLE_COST: every instruction word `w` with `w &&& mask = pattern` costs `cost` cycles
(R245, "fixed cost per class"). -/
structure CostRow where
  mask : Word
  pattern : Word
  cost : Nat
  deriving DecidableEq, Repr

/-- The external rows of DEVICE_MAP in its default form (R57). -/
def defaultDeviceMap : List DevRange :=
  [ ⟨0x1F801000, 0x24, .memoryControl⟩,
    ⟨0x1F801040, 0x20, .padsAndSerial⟩,
    ⟨0x1F801060, 0x04, .ramSize⟩,
    ⟨0x1F801100, 0x30, .timers⟩,
    ⟨0x1F801800, 0x04, .disc⟩,
    ⟨0x1F801810, 0x08, .graphics⟩,
    ⟨0x1F801820, 0x08, .pictureDecoder⟩,
    ⟨0x1F801C00, 0x400, .sound⟩,
    ⟨0x1F802000, 0x1000, .expansion2⟩ ]

/-- The parameters of R9 that are OPEN or have an alternative. The defaults are the spec's own
(IE_STACK_LEVELS, NESTED_BRANCH_POLICY, ISTAT_ACK_POLARITY, GTE_IRQ_QUIRK, HILO_HAZARD, CHOP_GAP_BUSY,
DEVICE_MAP) or, for the costs, those its test vectors use (R245). -/
structure Params where
  /-- IE_STACK_LEVELS. -/
  ieStackLevels : IeStackLevels := .four
  /-- NESTED_BRANCH_POLICY. -/
  nestedBranch : NestedBranchPolicy := .firstWins
  /-- ISTAT_ACK_POLARITY. -/
  ackPolarity : AckPolarity := .oneClears
  /-- GTE_IRQ_QUIRK. -/
  gteIrqQuirk : Bool := false
  /-- HILO_HAZARD. -/
  hiloHazard : HiloHazard := .sequential
  /-- CHOP_GAP_BUSY: what CHCR.BUSY reads between chop bursts. -/
  chopGapBusy : Bool := true
  /-- CYCLE_COST(w): the first row whose class holds `w` gives the cost. -/
  cycleCostRows : List CostRow := []
  /-- CYCLE_COST(w) of a word that is in no row. -/
  cycleCostOther : Nat := 1
  /-- CYCLE_COST(none): the cost of a fetch that faulted. -/
  cycleCostNone : Nat := 1
  /-- EXC_ENTRY_COST. -/
  excEntryCost : Nat := 0
  /-- DMA_WORD_CYCLES. -/
  dmaWordCycles : Nat := 1
  /-- DMA_DREQ_POLL. -/
  dmaDreqPoll : Nat := 1
  /-- DEVICE_MAP: the I/O ranges of the external devices. -/
  deviceMap : List DevRange := defaultDeviceMap
  /-- Whether BOOT_CHECKSUM is configured (R250). -/
  bootChecksumOn : Bool := false
  deriving DecidableEq, Repr

namespace Config

/-! Free values. They have no body: nothing can be proved of what they answer. -/

/-- FREE VALUE (DESIGN CHOICE, log entry 1): the `n`-th 32-bit `draw()` of a run (R15). -/
opaque freeWord : Nat → Word

/-- FREE VALUE (DESIGN CHOICE, log entry 1): the `n`-th latency that the geometry coprocessor reports
for a command (R188, R190). -/
opaque freeLatency : Nat → Nat

/-- FREE VALUE (DESIGN CHOICE, log entry 13): the BOOT_CHECKSUM function, which no source gives (R250). -/
opaque bootChecksum : List Byte → Bool

end Config

/-- L of R32: the number of levels of the interrupt-enable/mode stack. -/
def IeStackLevels.count : IeStackLevels → Nat
  | .four => 4
  | .three => 3

/-- The low 2L bits of SR, which hold the stack (R203). -/
def IeStackLevels.stackMask : IeStackLevels → Word
  | .four => 0x000000FF
  | .three => 0x0000003F

/-- The bits of the stack's top level, `0b11 << 2(L-1)` (R180). -/
def IeStackLevels.topMask : IeStackLevels → Word
  | .four => 0x000000C0
  | .three => 0x00000030

/-- SR_WMASK (R33). -/
def IeStackLevels.srWriteMask : IeStackLevels → Word
  | .four => 0xF247FFFF
  | .three => 0xF247FF3F

/-- CYCLE_COST(w) (R245). -/
def Params.cycleCost (p : Params) (w : Word) : Nat :=
  match p.cycleCostRows.find? (fun row => w &&& row.mask == row.pattern) with
  | some row => row.cost
  | none => p.cycleCostOther

/-- The ranges R9 and R256 ask of the parameters: every CYCLE_COST, DMA_WORD_CYCLES and DMA_DREQ_POLL
at least 1. (The other ranges hold by the types.) Every DEVICE_MAP is accepted, also one whose rows overlap,
leave the I/O range or cover a CORE entry (DESIGN CHOICE, log entry 36: no rule calls one invalid). -/
def Params.valid (p : Params) : Bool :=
  p.cycleCostRows.all (fun row => decide (1 ≤ row.cost)) && decide (1 ≤ p.cycleCostOther)
    && decide (1 ≤ p.cycleCostNone) && decide (1 ≤ p.dmaWordCycles) && decide (1 ≤ p.dmaDreqPoll)

end Sys2Proof
end

