-- ==== Sys2Proof/Machine/State.lean ====
section
/-! DEFINITION. The state of the machine as plain data: every piece of state of 10_state.md, the
model's own bookkeeping fields (inputs, recorded interface calls, hazard history), the reasons a step
can stop, and the state after reset. -/

namespace Sys2Proof.Machine

/-- Why the machine stops with a fault. There is none: every misbehaviour of emulated software is a CPU
exception, taken as a next state, or a refusal (00_scope.md R20, 40_execution.md R106). Safe. -/
inductive Fault where
  deriving DecidableEq, Repr

/-- Why a step is refused (R15): the spec's own `refuse(...)` reasons, one constructor each
(93_implementation_defined.md §3), and the host's `notModelled`. Every refusal is safe: the model stops
where the hardware may go on. -/
inductive Refusal where
  /-- `exec`'s arm of an instruction that has no meaning yet. Safe. -/
  | notModelled (mnemonic : String)
  /-- UNMODELLED_COP: a usable word of an absent coprocessor or a coprocessor operation no source
  describes (R84, R85, R181 to R186, R198); raised by the coprocessor instructions. Safe. -/
  | unmodelledCop
  /-- REVERSE_ENDIAN: a data access in user mode with SR.RE = 1 (R61 to R63). Safe. -/
  | reverseEndian
  /-- FETCH_FROM_DEVICE: an instruction fetch from a device region (R62). Safe. -/
  | fetchFromDevice
  /-- MASKED_DEVICE_WRITE: SWL or SWR to a device with a mask no device handler takes (R64). Safe. -/
  | maskedDeviceWrite
  /-- DCIC_ENABLE: an MTC0 of a nonzero value to DCIC (R42, R179). Safe. -/
  | dcicEnable
  /-- NARROW_DEVICE_ACCESS: a narrow access to the interrupt or DMA controller (R215, R224). Safe. -/
  | narrowDeviceAccess
  /-- UNMODELLED_DEVICE_REG: a DMA offset that holds no register (R224). Safe. -/
  | unmodelledDeviceReg
  /-- DMA_BUSY_WRITE: a CPU write to a channel register while the channel is not Idle (R224). Safe. -/
  | dmaBusyWrite
  /-- DMA_CONFIG: a DMA start with a configuration the hardware does not define (R231). Safe. -/
  | dmaConfig
  /-- `raise(k)` with `k >= 11` by an external device (R217). Safe. -/
  | deviceContract
  deriving DecidableEq, Repr

/-! ## The CPU core -/

/-- The 32 general registers (R21). Reads and writes go through `RegFile.read` and `RegFile.write`. -/
abbrev RegFile := Vector Word 32

/-- The result of a branch or jump (R28, R98). -/
inductive BranchTarget where
  | taken (t : Word)
  | notTaken
  deriving DecidableEq, Repr

/-- The pending-branch slot `Slot(target, bpc)` (R28). -/
structure BranchSlot where
  target : BranchTarget
  bpc : Word
  deriving DecidableEq, Repr

/-- The pending-load slot `Load(r, v)` (R29). -/
structure LoadSlot where
  reg : Reg
  val : Word
  deriving DecidableEq, Repr

/-- The registers of the system-control coprocessor that hold state (R31 to R42). Cause is kept by its
stored fields: IP[2] is the interrupt controller's signal (R37) and the other bits read 0 (R35). PRID is
a constant (R41); JUMPDEST holds nothing (R42). -/
structure Cop0 where
  /-- SR, register 12 (R32). -/
  sr : Word
  /-- Cause.ExcCode, bits 6:2 of register 13 (R35). -/
  excCode : BitVec 5
  /-- Cause.IP[1:0], bits 9:8 of register 13. -/
  ipSw : BitVec 2
  /-- Cause.CE, bits 29:28 of register 13. -/
  ce : BitVec 2
  /-- Cause.BD, bit 31 of register 13. -/
  bd : Bool
  /-- EPC, register 14 (R39). -/
  epc : Word
  /-- BadVaddr, register 8 (R40). -/
  badVaddr : Word
  /-- BPC, register 3 (R42). -/
  bpc : Word
  /-- BDA, register 5 (R42). -/
  bda : Word
  /-- DCIC, register 7 (R42). -/
  dcic : Word
  /-- BDAM, register 9 (R42). -/
  bdam : Word
  /-- BPCM, register 11 (R42). -/
  bpcm : Word
  deriving DecidableEq, Repr

/-- The interrupt controller's registers, one bit per source (R44). -/
structure IrqCtl where
  stat : BitVec 11
  mask : BitVec 11
  deriving DecidableEq, Repr

/-! ## The DMA controller -/

/-- `phase[n]` (R45). -/
inductive DmaPhase where
  | idle
  | active
  | chopWait
  deriving DecidableEq, Repr

/-- One DMA channel (R45). -/
structure DmaChannel where
  /-- MADR (R226). -/
  madr : BitVec 24
  /-- BCR (R227). -/
  bcr : Word
  /-- CHCR as stored (R228). -/
  chcr : Word
  /-- The model's own: MADR's value is unspecified since a request or linked-list start (R226). -/
  madrOpen : Bool
  /-- The model's own: BCR's value is unspecified since a request start (R227). -/
  bcrOpen : Bool
  phase : DmaPhase
  /-- `addr[n]`, the current RAM address. -/
  addr : BitVec 24
  wordsLeft : Nat
  blocksLeft : Nat
  /-- `list_ptr[n]`, the current linked-list pointer. -/
  listPtr : BitVec 24
  deriving DecidableEq, Repr

/-- The number of a DMA channel, N_DMA = 7 (R45). -/
abbrev ChanNum := Fin 7

/-- The DMA controller (R45). DICR is kept by its stored fields: bits 23:0 and FLAG; MFLAG is computed
(R230). -/
structure Dma where
  chan : Vector DmaChannel 7
  /-- DPCR (R229). -/
  dpcr : Word
  /-- DICR bits 23:0 (R230). -/
  dicrCtl : BitVec 24
  /-- DICR.FLAG, bits 30:24 (R230). -/
  dicrFlag : BitVec 7
  deriving DecidableEq, Repr

/-! ## The scheduler -/

/-- The source identity of an event (R46, R243). -/
inductive Source where
  | dma (n : ChanNum)
  | ext (d : ExtDevice)
  deriving DecidableEq, Repr

/-- A scheduler event `(target, seq, source, payload)` (R46). -/
structure Event where
  target : Nat
  seq : Nat
  source : Source
  payload : Nat
  deriving DecidableEq, Repr

/-- The scheduler (R46). The queue is a multiset; it stands here in insertion order. -/
structure Sched where
  cycle : Nat
  nextSeq : Nat
  queue : List Event
  deriving DecidableEq, Repr

/-! ## What the outside supplies and what it receives -/

/-- A `schedule(delay, source, payload)` call of an external device (R242). -/
structure SchedRequest where
  delay : Nat
  dev : ExtDevice
  payload : Nat
  deriving DecidableEq, Repr

/-- What an external device's event handler may do to the CORE block (R243). -/
inductive DevAction where
  | raise (k : Nat)
  | schedule (r : SchedRequest)
  deriving DecidableEq, Repr

/-- The external inputs of the coming steps (the model's own field): each list is read from its head,
and reads as its default once it is used up. -/
structure Inputs where
  /-- The number of draws made so far: the index of the next free value (R15). -/
  drawIndex : Nat
  /-- STALL_COST of the coming completed instruction steps (R245); default 0. -/
  stalls : List Nat
  /-- DREQ at the coming samples (R234); default 1. -/
  dreq : List Bool
  /-- What the external devices schedule from their coming register-handler calls (R242); default nothing. -/
  regReplies : List (List SchedRequest)
  /-- What the external devices do in their coming event-handler calls (R243); default nothing. -/
  evtReplies : List (List DevAction)
  deriving DecidableEq, Repr

/-- A call across an interface of the CORE block (R58, R188, R233). -/
inductive ExtCall where
  | gteReadData (n : BitVec 5)
  | gteReadCtrl (n : BitVec 5)
  | gteWriteData (n : BitVec 5) (v : Word)
  | gteWriteCtrl (n : BitVec 5) (v : Word)
  | gteCommand (cofun : BitVec 25)
  | devRead (d : ExtDevice) (offset bytes : Nat)
  | devWrite (d : ExtDevice) (offset bytes : Nat) (v : Word)
  | dmaRead (n : ChanNum)
  | dmaWrite (n : ChanNum) (v : Word)
  | devEvent (d : ExtDevice) (payload : Nat)
  deriving DecidableEq, Repr

/-- The model-only history that HILO_HAZARD = UNDEFINED needs (R142). -/
structure HiloHist where
  /-- The last completed instruction was MFHI or MFLO. -/
  readLast : Bool
  /-- The completed instruction before the last one was MFHI or MFLO. -/
  readBefore : Bool
  /-- A multiply or divide has completed and no MFHI or MFLO since. -/
  mulDivOpen : Bool
  deriving DecidableEq, Repr

/-! ## Memory -/

/-- The memory image (R48): RAM, SCRATCH and BIOS as one list of (physical address, byte) pairs. -/
abbrev Memory := List Host.Cell

/-! ## The machine -/

/-- The whole state (10_state.md). -/
structure State where
  /-- The parameters of R9; no step changes them. -/
  cfg : Params
  /-- x[0] .. x[31] (R21). -/
  regs : RegFile
  /-- HI, LO (R25). -/
  hi : Word
  lo : Word
  /-- The address of the next instruction to be fetched (R27). -/
  pc : Word
  /-- The pending-branch slot (R28). -/
  bslot : Option BranchSlot
  /-- The pending-load slot (R29). -/
  lslot : Option LoadSlot
  /-- COP0 (R31). -/
  cop0 : Cop0
  /-- The interrupt controller (R44). -/
  irq : IrqCtl
  /-- The DMA controller (R45). -/
  dma : Dma
  /-- The scheduler (R46). -/
  sched : Sched
  /-- The cycle at which the last COP2 command's latency has elapsed (R47). -/
  gteReady : Nat
  /-- RAM, SCRATCH, BIOS (R48). -/
  mem : Memory
  /-- CACHE_CTRL (R48, R59). -/
  cacheCtrl : Word
  /-- The model's own: the HI/LO hazard history (R142). -/
  hist : HiloHist
  /-- The model's own: the external inputs. -/
  inputs : Inputs
  /-- The model's own: the interface calls made so far, the latest first. -/
  calls : List ExtCall
  /-- The mark `refused` (R49). -/
  refusedMark : Option Refusal
  deriving DecidableEq, Repr

/-- RESET_VECTOR (R9, R27). -/
def resetVector : Word := 0xBFC00000

/-- COP0 after reset: BEV = 1, IEc = KUc = 0 (R34); the values no source gives are zero (DESIGN CHOICE,
log entries 3 and 4). -/
def Cop0.reset : Cop0 :=
  { sr := 0x00400000, excCode := 0, ipSw := 0, ce := 0, bd := false, epc := 0, badVaddr := 0,
    bpc := 0, bda := 0, dcic := 0, bdam := 0, bpcm := 0 }

/-- A DMA channel after reset (R45, R239). `addr` and `listPtr`, which "internal counters 0" may not mean, are
0 (DESIGN CHOICE, log entry 32). -/
def DmaChannel.reset : DmaChannel :=
  { madr := 0, bcr := 0, chcr := 0, madrOpen := false, bcrOpen := false, phase := .idle, addr := 0,
    wordsLeft := 0, blocksLeft := 0, listPtr := 0 }

/-- The DMA controller after reset (R45, R239). -/
def Dma.reset : Dma :=
  { chan := Vector.replicate 7 DmaChannel.reset, dpcr := 0x07654321, dicrCtl := 0, dicrFlag := 0 }

/-- The inputs of a machine without device models: every list at its default (log entries 8 to 10). -/
def Inputs.reset : Inputs :=
  { drawIndex := 0, stalls := [], dreq := [], regReplies := [], evtReplies := [] }

/-- The machine right after reset (R50, R251). -/
def State.reset : State :=
  { cfg := {}
    regs := Vector.replicate 32 0
    hi := 0
    lo := 0
    pc := resetVector
    bslot := none
    lslot := none
    cop0 := Cop0.reset
    irq := { stat := 0, mask := 0 }
    dma := Dma.reset
    sched := { cycle := 0, nextSeq := 0, queue := [] }
    gteReady := 0
    mem := []
    cacheCtrl := 0
    hist := { readLast := false, readBefore := false, mulDivOpen := false }
    inputs := Inputs.reset
    calls := []
    refusedMark := none }

end Sys2Proof.Machine
end

