-- ==== Sys2Proof/Machine/Ops.lean ====
section
/-! DEFINITION. The operations every instruction is built from: memory cells, the register file, the
fields of SR and Cause, draws and recorded calls, `schedule`, the commit of an instruction's results
(40_execution.md R99, R100), taking an exception (60_exceptions.md R201) and the return from one
(45_system.md R180). -/

namespace Sys2Proof.Machine

/-! ## Memory cells -/

/-- What an address that the memory does not list reads as (DESIGN CHOICE, log entry 2). -/
def unlistedByte : Byte := 0

/-- The byte at an address. -/
def Memory.get : Memory → Nat → Byte
  | [], _ => unlistedByte
  | (b, v) :: rest, a => if a = b then v else Memory.get rest a

/-- The memory with byte `v` at address `a`, in the canonical form. -/
def Memory.set : Memory → Nat → Byte → Memory
  | [], a, v => if v = unlistedByte then [] else [(a, v)]
  | (b, w) :: rest, a, v =>
    if a < b then
      if v = unlistedByte then (b, w) :: rest else (a, v) :: (b, w) :: rest
    else if a = b then
      if v = unlistedByte then rest else (a, v) :: rest
    else (b, w) :: Memory.set rest a v

/-- The canonical form: addresses strictly rising, no entry equal to what an unlisted address reads as. -/
def Memory.wf : Memory → Bool
  | [] => true
  | [(_, v)] => v != unlistedByte
  | (a, v) :: (b, w) :: rest => decide (a < b) && v != unlistedByte && Memory.wf ((b, w) :: rest)

/-- The little-endian value of `n` bytes from `a` up (R61), zero-extended to a word. -/
def Memory.readLE (m : Memory) (a : Nat) : Nat → Word
  | 0 => 0
  | n + 1 => (Memory.readLE m (a + 1) n <<< 8) ||| (m.get a).setWidth 32

/-- The low `n` bytes of `v` written little-endian from `a` up (R61). -/
def Memory.writeLE (m : Memory) (a : Nat) : Nat → Word → Memory
  | 0, _ => m
  | n + 1, v => Memory.writeLE (m.set a (v.setWidth 8)) (a + 1) n (v >>> 8)

/-- Byte `v[8k+7:8k]` of a word. -/
def byteOf (v : Word) (k : Nat) : Byte := v.extractLsb' (8 * k) 8

/-- Byte `k` of `v` written at `a + k` for each `k` in 0..3 with `mask[k] = 1` (R64). -/
def Memory.writeMasked (m : Memory) (a : Nat) (mask : BitVec 4) (v : Word) : Memory :=
  let put (k : Nat) (m : Memory) := if mask.getLsbD k then m.set (a + k) (byteOf v k) else m
  put 3 (put 2 (put 1 (put 0 m)))

/-! ## General registers -/

/-- `x[r]`: register 0 always reads as zero (R21), and no other register is treated apart (R23). -/
def RegFile.read (f : RegFile) (r : Reg) : Word :=
  if r = 0 then 0 else f[r.toNat]'r.isLt

/-- `x[r] <- v`: a write to register 0 is discarded (R21), and no other register is treated apart (R23). -/
def RegFile.write (f : RegFile) (r : Reg) (v : Word) : RegFile :=
  if r = 0 then f else f.set r.toNat v r.isLt

/-- `x[r]` as an instruction reads it, before the pending load commits (R97). -/
def State.x (s : State) (r : Reg) : Word := RegFile.read s.regs r

/-! ## Fields of SR (R32) -/

def State.userMode (s : State) : Bool := s.cop0.sr.getLsbD 1
def State.intEnable (s : State) : Bool := s.cop0.sr.getLsbD 0
def State.intMask (s : State) : BitVec 8 := s.cop0.sr.extractLsb' 8 8
def State.cacheIsolated (s : State) : Bool := s.cop0.sr.getLsbD 16
def State.bootVectors (s : State) : Bool := s.cop0.sr.getLsbD 22
def State.reverseEndian (s : State) : Bool := s.cop0.sr.getLsbD 25

/-- SR.CU[z]. -/
def State.cu (s : State) (z : CopNum) : Bool := s.cop0.sr.getLsbD (28 + z.toNat)

/-- `Usable(z)` (R200). -/
def State.usable (s : State) (z : CopNum) : Bool :=
  if z = 0 then !s.userMode || s.cu 0 else s.cu z

/-! ## Cause (R35, R37) -/

/-- The interrupt controller's pending signal (R44, R221). -/
def State.irqPending (s : State) : Bool := s.irq.stat &&& s.irq.mask != 0

/-- Cause.IP[7:0] (R35, R209): only lines 2, 1 and 0 are connected. -/
def State.causeIp (s : State) : BitVec 8 :=
  0#5 ++ BitVec.ofBool s.irqPending ++ s.cop0.ipSw

/-- Cause as register 13 reads (R35). -/
def State.causeWord (s : State) : Word :=
  BitVec.ofBool s.cop0.bd ++ 0#1 ++ s.cop0.ce ++ 0#12 ++ s.causeIp ++ 0#1 ++ s.cop0.excCode ++ 0#2

/-- `irq_taken`, computed at the start of every step (R93). -/
def State.irqTaken (s : State) : Bool :=
  s.intEnable && (s.intMask &&& s.causeIp != 0)

/-! ## Draws, recorded calls and the event queue -/

/-- The state after a draw. -/
def State.nextDraw (s : State) : State :=
  { s with inputs := { s.inputs with drawIndex := s.inputs.drawIndex + 1 } }

/-- `draw()`: a free 32-bit value (R15). -/
def State.drawn (s : State) : Word := Config.freeWord s.inputs.drawIndex

/-- Record a call across an interface. -/
def State.record (s : State) (c : ExtCall) : State := { s with calls := c :: s.calls }

/-- `cycle <- cycle + c` (R245, R246). -/
def State.addCycles (s : State) (c : Nat) : State :=
  { s with sched := { s.sched with cycle := s.sched.cycle + c } }

/-- `schedule(delay, source, payload)` (R242). -/
def State.schedule (s : State) (delay : Nat) (source : Source) (payload : Nat) : State :=
  { s with sched :=
      { s.sched with
        nextSeq := s.sched.nextSeq + 1
        queue := s.sched.queue ++ [⟨s.sched.cycle + delay, s.sched.nextSeq, source, payload⟩] } }

/-! ## Exceptions -/

/-- The exceptions with their information (R199, R201). -/
inductive Exc where
  | int
  | adEL (badvaddr : Word)
  | adES (badvaddr : Word)
  | ibe
  | dbe
  | syscall
  | bp
  | ri
  | cpU (z : CopNum)
  | ov
  deriving DecidableEq, Repr

/-- Cause.ExcCode of an exception (R199). -/
def Exc.code : Exc → BitVec 5
  | .int => 0
  | .adEL _ => 4
  | .adES _ => 5
  | .ibe => 6
  | .dbe => 7
  | .syscall => 8
  | .bp => 9
  | .ri => 10
  | .cpU _ => 11
  | .ov => 12

/-- Cause.CE: the coprocessor number for CpU, else 0 (R201 step 2; D52). -/
def Exc.ce : Exc → BitVec 2
  | .cpU z => z
  | .int | .adEL _ | .adES _ | .ibe | .dbe | .syscall | .bp | .ri | .ov => 0

/-- BadVaddr after an exception: written by AdEL and AdES only (R40, R199). -/
def Exc.badVaddr (e : Exc) (old : Word) : Word :=
  match e with
  | .adEL a => a
  | .adES a => a
  | .int | .ibe | .dbe | .syscall | .bp | .ri | .cpU _ | .ov => old

/-- Push the interrupt-enable/mode stack (R203). -/
def pushSr (l : IeStackLevels) (sr : Word) : Word :=
  (sr &&& ~~~l.stackMask) ||| (((sr &&& l.stackMask) <<< 2) &&& l.stackMask)

/-- Pop the interrupt-enable/mode stack: the return from exception (R180). -/
def popSr (l : IeStackLevels) (sr : Word) : Word :=
  (sr &&& ~~~l.stackMask) ||| ((sr &&& l.stackMask) &&& l.topMask) ||| ((sr &&& l.stackMask) >>> 2)

/-- The exception vector that SR.BEV selects (R204). -/
def State.vector (s : State) : Word := if s.bootVectors then 0xBFC00180 else 0x80000080

/-- The register file with the pending load committed (R99 step 1, R201 step 1). -/
def commitPending (l : Option LoadSlot) (f : RegFile) : RegFile :=
  match l with
  | some p => RegFile.write f p.reg p.val
  | none => f

/-- TAKING AN EXCEPTION (R201): `faultPc` is the address of the instruction, `slot` the address of its
branch when it stands in a delay slot. Entry costs EXC_ENTRY_COST cycles. -/
def exceptionEntry (e : Exc) (faultPc : Word) (slot : Option Word) (s : State) : State :=
  { s with
    regs := commitPending s.lslot s.regs
    lslot := none
    cop0 :=
      { s.cop0 with
        excCode := e.code
        bd := slot.isSome
        ce := e.ce
        epc := slot.getD faultPc
        badVaddr := e.badVaddr s.cop0.badVaddr
        sr := pushSr s.cfg.ieStackLevels s.cop0.sr }
    pc := s.vector
    bslot := none
    sched := { s.sched with cycle := s.sched.cycle + s.cfg.excEntryCost } }

/-- The address of the branch whose delay slot the instruction at `pc` is, if it is one (R96). -/
def State.slotBranch (s : State) : Option Word := s.bslot.map BranchSlot.bpc

/-- The exception of the instruction at `pc` (R102), or the interrupt before it (R94). -/
def takeException (e : Exc) (s : State) : State := exceptionEntry e s.pc s.slotBranch s

/-- RETURN FROM EXCEPTION: RFE's effect on SR (R180). -/
def returnFromException (s : State) : State :=
  { s with cop0 := { s.cop0 with sr := popSr s.cfg.ieStackLevels s.cop0.sr } }

/-! ## Results of an instruction and their commit -/

/-- What an instruction does with HI and LO, as far as the hazard of R142 asks. -/
inductive HiloUse where
  | none
  /-- MFHI, MFLO. -/
  | read
  /-- MULT, MULTU, DIV, DIVU. -/
  | mulDiv
  /-- MTHI. -/
  | moveHi
  /-- MTLO. -/
  | moveLo
  deriving DecidableEq, Repr

/-- What executing an instruction produces besides its immediate effects (R98). -/
structure Effect where
  /-- The direct register write. -/
  wreg : Option (Reg × Word) := none
  /-- The delayed register write. -/
  lnew : Option LoadSlot := none
  /-- The branch result. -/
  branch : Option BranchTarget := none
  /-- For the hazard history only. -/
  hilo : HiloUse := .none
  deriving DecidableEq, Repr

/-- The outcome of a part of an instruction: a value and the state so far, an exception, in which case
nothing done so far counts (R14, R102), or a refusal (R15). -/
inductive Res (α : Type) where
  | ok (v : α) (s : State)
  | exc (e : Exc)
  | stop (r : Refusal)

/-- Go on with a part's value. -/
def Res.bind {α β : Type} (r : Res α) (f : α → State → Res β) : Res β :=
  match r with
  | .ok v s => f v s
  | .exc e => .exc e
  | .stop r => .stop r

/-- R99: the register file after the commit. A new delayed load of the same register cancels the pending
one (D8); the direct write wins over the pending load (D7). -/
def commitRegs (e : Effect) (l : Option LoadSlot) (f : RegFile) : RegFile :=
  let f1 := if l.map LoadSlot.reg = e.lnew.map LoadSlot.reg then f else commitPending l f
  match e.wreg with
  | some (r, v) => RegFile.write f1 r v
  | none => f1

/-- R100: where `pc` goes after the instruction at `pc`. -/
def State.nextPc (s : State) : Word :=
  match s.bslot with
  | some ⟨.taken t, _⟩ => t
  | some ⟨.notTaken, _⟩ => s.pc + 4
  | none => s.pc + 4

/-- R100: the pending-branch slot after the instruction at `pc`. -/
def State.nextSlot (s : State) (b : Option BranchTarget) : Option BranchSlot :=
  match b with
  | none => none
  | some t =>
    if s.bslot.isNone then some ⟨t, s.pc⟩
    else
      match s.cfg.nestedBranch with
      | .firstWins => none
      | .mipsChain => some ⟨t, s.pc⟩

/-- The hazard history after a completed instruction (R142). -/
def HiloHist.advance (h : HiloHist) (u : HiloUse) : HiloHist :=
  { readLast := u == .read
    readBefore := h.readLast
    mulDivOpen := u == .mulDiv || (h.mulDivOpen && u != .read) }

/-- The commit of a completed instruction (R99, R100), and its STALL_COST (R245). `s` is the state after
the instruction's immediate effects. -/
def commit (e : Effect) (s : State) : State :=
  { s with
    regs := commitRegs e s.lslot s.regs
    lslot := e.lnew
    pc := s.nextPc
    bslot := s.nextSlot e.branch
    hist := s.hist.advance e.hilo
    inputs := { s.inputs with stalls := s.inputs.stalls.tail }
    sched := { s.sched with cycle := s.sched.cycle + s.inputs.stalls.headD 0 } }

/-- Finish the instruction step that began in `s`: commit, take the exception (R102), or refuse. -/
def finish (s : State) (r : Res Effect) : Host.Outcome State Fault Refusal :=
  match r with
  | .ok e s' => .next (commit e s')
  | .exc e => .next (takeException e s)
  | .stop r => .refused r

/-- HILO_HAZARD = UNDEFINED (R142): after an instruction that has written HI or LO, the registers the
hazard leaves undefined are draws. With SEQUENTIAL nothing changes. -/
def applyHiloHazard (u : HiloUse) (s : State) : State :=
  match s.cfg.hiloHazard with
  | .sequential => s
  | .undefinedAfter =>
    if s.hist.readLast || s.hist.readBefore then
      { s with hi := s.drawn, lo := s.nextDraw.drawn, inputs := s.nextDraw.nextDraw.inputs }
    else if s.hist.mulDivOpen then
      match u with
      | .moveHi => { s with lo := s.drawn, inputs := s.nextDraw.inputs }
      | .moveLo => { s with hi := s.drawn, inputs := s.nextDraw.inputs }
      | .none | .read | .mulDiv => s
    else s

end Sys2Proof.Machine
end

