-- ==== Sys2Proof/Machine/Flags.lean ====
section
/-! DEFINITION. The conditions instructions compute. The CPU has no flags (10_state.md R26): signed
overflow raises Ov (41_alu.md R107), and comparisons go into a register or a branch. -/

namespace Sys2Proof.Machine

/-- Whether an exact integer lies outside [-2^31, 2^31-1] (R107). -/
def outsideS32 (n : Int) : Bool := decide (n < -2147483648) || decide (2147483647 < n)

/-- The exact signed sum of ADD and ADDI (R107). -/
def signedSum (a b : Word) : Int := a.toInt + b.toInt

/-- The exact signed difference of SUB (R107). -/
def signedDiff (a b : Word) : Int := a.toInt - b.toInt

/-- A truth value as SLT and its kin write it (R116). -/
def boolWord (b : Bool) : Word := if b then 1 else 0

/-- `s32(a) < s32(b)`. -/
def ltSigned (a b : Word) : Bool := decide (a.toInt < b.toInt)

/-- `u32(a) < u32(b)`. -/
def ltUnsigned (a b : Word) : Bool := decide (a.toNat < b.toNat)

/-- The branch result of a condition: taken to `t`, or not taken (R143). -/
def branchIf (c : Bool) (t : Word) : BranchTarget := if c then .taken t else .notTaken

end Sys2Proof.Machine
end

