-- ==== Sys2Proof/Machine/Operands.lean ====
section
/-! DEFINITION. Operand forms (30_encoding.md R79, R80; 43_branch.md R144; 44_loadstore.md R160). -/

namespace Sys2Proof.Machine

/-- The register that JAL, BLTZAL and BGEZAL write without naming it (R22). -/
abbrev linkReg : Reg := 31

/-- The assembler names of the registers (R23); `$30` is also called `s8`. A convention of software: no
instruction's meaning reads a name, and none singles out a register but 0 and `linkReg`. -/
def registerNames : List String :=
  ["zero", "at", "v0", "v1", "a0", "a1", "a2", "a3", "t0", "t1", "t2", "t3", "t4", "t5", "t6", "t7",
    "s0", "s1", "s2", "s3", "s4", "s5", "s6", "s7", "t8", "t9", "k0", "k1", "gp", "sp", "fp", "ra"]

/-- The assembler name of a register (R23). -/
def registerName (r : Reg) : String := registerNames[r.toNat]'r.isLt

/-- `sext_16(imm16)` (R79). -/
def sext16 (imm : Half) : Word := imm.signExtend 32

/-- `zext_16(imm16)` (R79). -/
def zext16 (imm : Half) : Word := imm.setWidth 32

/-- `sext_8(b)` of the low byte of a value (R162). -/
def sextByte (v : Word) : Word := (v.setWidth 8).signExtend 32

/-- `sext_16` of the low half-word of a value (R164). -/
def sextHalf (v : Word) : Word := (v.setWidth 16).signExtend 32

/-- `imm16 ++ 0x0000`, LUI's operand (R79). -/
def upperImm (imm : Half) : Word := imm ++ 0#16

/-- The effective address of every load and store (R160). -/
def State.ea (s : State) (rs : Reg) (imm : Half) : Word := s.x rs + sext16 imm

/-- `a & ~3`: the aligned word an address lies in. -/
def alignedWord (a : Word) : Word := a &&& 0xFFFFFFFC

/-- The PC-relative branch target (R144). -/
def State.branchTo (s : State) (imm : Half) : Word := s.pc + 4#32 + (sext16 imm <<< 2)

/-- The region target of J and JAL (R144). -/
def State.jumpTo (s : State) (target : BitVec 26) : Word :=
  ((s.pc + 4#32) &&& 0xF0000000#32) ||| (target.setWidth 32 <<< 2)

/-- The link value of JAL, JALR, BLTZAL and BGEZAL: the address after the delay slot (R143). -/
def State.linkValue (s : State) : Word := s.pc + 8

/-- The shift amount of SLLV, SRLV and SRAV: `x[rs][4:0]` (R79). -/
def State.shiftAmount (s : State) (rs : Reg) : Nat := ((s.x rs).setWidth 5).toNat

/-- The merge operand of LWL and LWR (R97, R167): the value the pending load is about to commit when it
targets the same register. -/
def State.mergeOperand (s : State) (rt : Reg) : Word :=
  match s.lslot with
  | some l => if l.reg = rt then l.val else s.x rt
  | none => s.x rt

end Sys2Proof.Machine
end

