-- ==== Sys2Proof/Machine/Alu.lean ====
section
/-! DEFINITION. The integer ALU instructions (41_alu.md R107 to R131). -/

namespace Sys2Proof.Machine

/-- Complete with the direct write `x[r] <- v` (R98). -/
def writeResult (r : Reg) (v : Word) (s : State) : Host.Outcome State Fault Refusal :=
  finish s (.ok { wreg := some (r, v) } s)

/-- ADD, ADDI, SUB: write the exact integer's low 32 bits, or raise Ov when it does not fit (R107). -/
def writeChecked (r : Reg) (n : Int) (s : State) : Host.Outcome State Fault Refusal :=
  if outsideS32 n then finish s (.exc .ov) else writeResult r (BitVec.ofInt 32 n) s

/-- SLL (R118). -/
def execSll (rd rt : Reg) (shamt : BitVec 5) (s : State) : Host.Outcome State Fault Refusal :=
  writeResult rd (s.x rt <<< shamt.toNat) s

/-- SRL (R119). -/
def execSrl (rd rt : Reg) (shamt : BitVec 5) (s : State) : Host.Outcome State Fault Refusal :=
  writeResult rd (s.x rt >>> shamt.toNat) s

/-- SRA (R120). -/
def execSra (rd rt : Reg) (shamt : BitVec 5) (s : State) : Host.Outcome State Fault Refusal :=
  writeResult rd ((s.x rt).sshiftRight shamt.toNat) s

/-- SLLV (R121). -/
def execSllv (rd rt rs : Reg) (s : State) : Host.Outcome State Fault Refusal :=
  writeResult rd (s.x rt <<< s.shiftAmount rs) s

/-- SRLV (R122). -/
def execSrlv (rd rt rs : Reg) (s : State) : Host.Outcome State Fault Refusal :=
  writeResult rd (s.x rt >>> s.shiftAmount rs) s

/-- SRAV (R123). -/
def execSrav (rd rt rs : Reg) (s : State) : Host.Outcome State Fault Refusal :=
  writeResult rd ((s.x rt).sshiftRight (s.shiftAmount rs)) s

/-- ADD (R108). -/
def execAdd (rd rs rt : Reg) (s : State) : Host.Outcome State Fault Refusal :=
  writeChecked rd (signedSum (s.x rs) (s.x rt)) s

/-- ADDU (R109). -/
def execAddu (rd rs rt : Reg) (s : State) : Host.Outcome State Fault Refusal :=
  writeResult rd (s.x rs + s.x rt) s

/-- SUB (R110). -/
def execSub (rd rs rt : Reg) (s : State) : Host.Outcome State Fault Refusal :=
  writeChecked rd (signedDiff (s.x rs) (s.x rt)) s

/-- SUBU (R111). -/
def execSubu (rd rs rt : Reg) (s : State) : Host.Outcome State Fault Refusal :=
  writeResult rd (s.x rs - s.x rt) s

/-- AND (R112). -/
def execAnd (rd rs rt : Reg) (s : State) : Host.Outcome State Fault Refusal :=
  writeResult rd (s.x rs &&& s.x rt) s

/-- OR (R113). -/
def execOr (rd rs rt : Reg) (s : State) : Host.Outcome State Fault Refusal :=
  writeResult rd (s.x rs ||| s.x rt) s

/-- XOR (R114). -/
def execXor (rd rs rt : Reg) (s : State) : Host.Outcome State Fault Refusal :=
  writeResult rd (s.x rs ^^^ s.x rt) s

/-- NOR (R115). -/
def execNor (rd rs rt : Reg) (s : State) : Host.Outcome State Fault Refusal :=
  writeResult rd (~~~(s.x rs ||| s.x rt)) s

/-- SLT (R116). -/
def execSlt (rd rs rt : Reg) (s : State) : Host.Outcome State Fault Refusal :=
  writeResult rd (boolWord (ltSigned (s.x rs) (s.x rt))) s

/-- SLTU (R117). -/
def execSltu (rd rs rt : Reg) (s : State) : Host.Outcome State Fault Refusal :=
  writeResult rd (boolWord (ltUnsigned (s.x rs) (s.x rt))) s

/-- ADDI (R124). -/
def execAddi (rt rs : Reg) (imm : Half) (s : State) : Host.Outcome State Fault Refusal :=
  writeChecked rt (signedSum (s.x rs) (sext16 imm)) s

/-- ADDIU (R125). -/
def execAddiu (rt rs : Reg) (imm : Half) (s : State) : Host.Outcome State Fault Refusal :=
  writeResult rt (s.x rs + sext16 imm) s

/-- SLTI (R126). -/
def execSlti (rt rs : Reg) (imm : Half) (s : State) : Host.Outcome State Fault Refusal :=
  writeResult rt (boolWord (ltSigned (s.x rs) (sext16 imm))) s

/-- SLTIU (R127): the immediate is sign-extended, then compared unsigned. -/
def execSltiu (rt rs : Reg) (imm : Half) (s : State) : Host.Outcome State Fault Refusal :=
  writeResult rt (boolWord (ltUnsigned (s.x rs) (sext16 imm))) s

/-- ANDI (R128). -/
def execAndi (rt rs : Reg) (imm : Half) (s : State) : Host.Outcome State Fault Refusal :=
  writeResult rt (s.x rs &&& zext16 imm) s

/-- ORI (R129). -/
def execOri (rt rs : Reg) (imm : Half) (s : State) : Host.Outcome State Fault Refusal :=
  writeResult rt (s.x rs ||| zext16 imm) s

/-- XORI (R130). -/
def execXori (rt rs : Reg) (imm : Half) (s : State) : Host.Outcome State Fault Refusal :=
  writeResult rt (s.x rs ^^^ zext16 imm) s

/-- LUI (R131). -/
def execLui (rt : Reg) (imm : Half) (s : State) : Host.Outcome State Fault Refusal :=
  writeResult rt (upperImm imm) s

end Sys2Proof.Machine
end

