-- ==== Sys2Proof/Machine/Branch.lean ====
section
/-! DEFINITION. Branches and jumps (43_branch.md R143 to R159). When a branch is entered is the commit's
business (40_execution.md R100). -/

namespace Sys2Proof.Machine

/-- Complete with a branch result (R143). -/
def branchResult (b : BranchTarget) (s : State) : Host.Outcome State Fault Refusal :=
  finish s (.ok { branch := some b } s)

/-- Complete with a branch result and the link write `x[r] <- ipc + 8` (R143). -/
def branchAndLink (r : Reg) (b : BranchTarget) (s : State) : Host.Outcome State Fault Refusal :=
  finish s (.ok { wreg := some (r, s.linkValue), branch := some b } s)

/-- BEQ (R145). -/
def execBeq (rs rt : Reg) (imm : Half) (s : State) : Host.Outcome State Fault Refusal :=
  branchResult (branchIf (s.x rs == s.x rt) (s.branchTo imm)) s

/-- BNE (R146). -/
def execBne (rs rt : Reg) (imm : Half) (s : State) : Host.Outcome State Fault Refusal :=
  branchResult (branchIf (s.x rs != s.x rt) (s.branchTo imm)) s

/-- BLEZ (R147). -/
def execBlez (rs : Reg) (imm : Half) (s : State) : Host.Outcome State Fault Refusal :=
  branchResult (branchIf (decide ((s.x rs).toInt ≤ 0)) (s.branchTo imm)) s

/-- BGTZ (R148). -/
def execBgtz (rs : Reg) (imm : Half) (s : State) : Host.Outcome State Fault Refusal :=
  branchResult (branchIf (decide (0 < (s.x rs).toInt)) (s.branchTo imm)) s

/-- BLTZ (R149). -/
def execBltz (rs : Reg) (imm : Half) (s : State) : Host.Outcome State Fault Refusal :=
  branchResult (branchIf (decide ((s.x rs).toInt < 0)) (s.branchTo imm)) s

/-- BGEZ (R150). -/
def execBgez (rs : Reg) (imm : Half) (s : State) : Host.Outcome State Fault Refusal :=
  branchResult (branchIf (decide (0 ≤ (s.x rs).toInt)) (s.branchTo imm)) s

/-- BLTZAL (R151): it links whether or not it is taken. -/
def execBltzal (rs : Reg) (imm : Half) (s : State) : Host.Outcome State Fault Refusal :=
  branchAndLink linkReg (branchIf (decide ((s.x rs).toInt < 0)) (s.branchTo imm)) s

/-- BGEZAL (R152): it links whether or not it is taken. -/
def execBgezal (rs : Reg) (imm : Half) (s : State) : Host.Outcome State Fault Refusal :=
  branchAndLink linkReg (branchIf (decide (0 ≤ (s.x rs).toInt)) (s.branchTo imm)) s

/-- J (R153). -/
def execJ (target : BitVec 26) (s : State) : Host.Outcome State Fault Refusal :=
  branchResult (.taken (s.jumpTo target)) s

/-- JAL (R154). -/
def execJal (target : BitVec 26) (s : State) : Host.Outcome State Fault Refusal :=
  branchAndLink linkReg (.taken (s.jumpTo target)) s

/-- JR (R155). -/
def execJr (rs : Reg) (s : State) : Host.Outcome State Fault Refusal :=
  branchResult (.taken (s.x rs)) s

/-- JALR (R156): the target is read before the link write. -/
def execJalr (rd rs : Reg) (s : State) : Host.Outcome State Fault Refusal :=
  branchAndLink rd (.taken (s.x rs)) s

end Sys2Proof.Machine
end

