-- ==== Sys2Proof/Machine/Irq.lean ====
section
/-! DEFINITION. The interrupt controller (60_exceptions.md §8, R214 to R223). -/

namespace Sys2Proof.Machine

/-- The access widths of the bus (R51). -/
inductive Width where
  | byte
  | half
  | word
  deriving DecidableEq, Repr

/-- The number of bytes an access moves. -/
def Width.bytes : Width → Nat
  | .byte => 1
  | .half => 2
  | .word => 4

/-- The low `n*8` bits of a value, zero-extended. -/
def Width.trunc (w : Width) (v : Word) : Word :=
  match w with
  | .byte => (v.setWidth 8).setWidth 32
  | .half => (v.setWidth 16).setWidth 32
  | .word => v

/-- The bit of source `k` (R216). -/
def sourceBit (k : Nat) : BitVec 11 := 1#11 <<< k

/-- `raise(k)` for `k` in 0..10: the flag is set, whatever I_MASK holds (R217). -/
def latchSource (k : Nat) (s : State) : State :=
  { s with irq := { s.irq with stat := s.irq.stat ||| sourceBit k } }

/-- `raise(k)` as an external device calls it; `k >= 11` is refused (R217). -/
def raiseSource (k : Nat) (s : State) : Res Unit :=
  if k < 11 then .ok () (latchSource k s) else .stop .deviceContract

/-- `write_status_ack(v)` (R218). -/
def ackSources (v : BitVec 11) (s : State) : State :=
  match s.cfg.ackPolarity with
  | .oneClears => { s with irq := { s.irq with stat := s.irq.stat &&& ~~~v } }
  | .zeroClears => { s with irq := { s.irq with stat := s.irq.stat &&& v } }

/-- `write_mask(v)` (R219). -/
def setIrqMask (v : BitVec 11) (s : State) : State :=
  { s with irq := { s.irq with mask := v } }

/-- A register of the controller (R214). -/
inductive IrqReg where
  | stat
  | mask
  deriving DecidableEq, Repr

/-- Which register an access reaches: a word or half-word at offset 0 or 4; every other access is
refused (R215). -/
def irqRegAt (o : Nat) (w : Width) : Option IrqReg :=
  if w = .byte then none
  else if o = 0 then some .stat
  else if o = 4 then some .mask
  else none

/-- A CPU read of the controller: no side effect (R214, R215, R220). -/
def irqRead (o : Nat) (w : Width) (s : State) : Res Word :=
  match irqRegAt o w with
  | some .stat => .ok (s.irq.stat.setWidth 32) s
  | some .mask => .ok (s.irq.mask.setWidth 32) s
  | none => .stop .narrowDeviceAccess

/-- A CPU write to the controller (R214, R215, R218, R219); bits 31:11 are ignored. -/
def irqWrite (o : Nat) (w : Width) (v : Word) (s : State) : Res Unit :=
  match irqRegAt o w with
  | some .stat => .ok () (ackSources (v.setWidth 11) s)
  | some .mask => .ok () (setIrqMask (v.setWidth 11) s)
  | none => .stop .narrowDeviceAccess

end Sys2Proof.Machine
end

