-- ==== Sys2Proof/Machine/Dma.lean ====
section
/-! DEFINITION. The DMA controller (60_exceptions.md §9, R224 to R239) and its path to RAM
(20_memory.md R70). -/

namespace Sys2Proof.Machine

/-- RAM_SIZE (R9). -/
def ramSize : Nat := 0x200000

/-! ## Channels and their registers -/

/-- Channel `n`. -/
def State.chan (s : State) (n : ChanNum) : DmaChannel := s.dma.chan[n]

/-- The state with channel `n` replaced. -/
def State.setChan (s : State) (n : ChanNum) (c : DmaChannel) : State :=
  { s with dma := { s.dma with chan := s.dma.chan.set n c } }

/-- CHCR[n] as the controller sees it: channel 6 always steps backward (R228). -/
def chcrOf (n : ChanNum) (c : DmaChannel) : Word :=
  if n = 6 then c.chcr ||| 0x00000002 else c.chcr

/-- What a write of `v` to CHCR[n] stores (R228). -/
def chcrStored (n : ChanNum) (v : Word) : Word :=
  if n = 6 then v &&& 0x51000000 else v &&& 0x71770703

/-! The fields of CHCR (R228). -/

def chcrDir (v : Word) : Bool := v.getLsbD 0
def chcrStep (v : Word) : Bool := v.getLsbD 1
def chcrChop (v : Word) : Bool := v.getLsbD 8
def chcrSync (v : Word) : BitVec 2 := v.extractLsb' 9 2
def chcrDwin (v : Word) : Nat := (v.extractLsb' 16 3).toNat
def chcrCwin (v : Word) : Nat := (v.extractLsb' 20 3).toNat
def chcrBusy (v : Word) : Bool := v.getLsbD 24
def chcrTrig (v : Word) : Bool := v.getLsbD 28

/-- BUSY, bit 24. -/
def chcrBusyBit : Word := 0x01000000

/-- TRIG, bit 28. -/
def chcrTrigBit : Word := 0x10000000

/-- CHCR[n] as the CPU reads it: between chop bursts BUSY reads CHOP_GAP_BUSY (R228). -/
def chcrRead (cfg : Params) (n : ChanNum) (c : DmaChannel) : Word :=
  let v := chcrOf n c
  match c.phase with
  | .chopWait => if cfg.chopGapBusy then v ||| chcrBusyBit else v &&& ~~~chcrBusyBit
  | .idle | .active => v

/-- A count field of BCR: 0 means 0x10000 (R227). -/
def countField (v : BitVec 16) : Nat := if v = 0 then 0x10000 else v.toNat

/-- BCR[15:0]: the word count, or the block size BS. -/
def bcrLow (v : Word) : Nat := countField (v.extractLsb' 0 16)

/-- BCR[31:16]: the block count BA. -/
def bcrHigh (v : Word) : Nat := countField (v.extractLsb' 16 16)

/-- DPCR's enable bit of channel `n` (R229). -/
def State.dmaEnabled (s : State) (n : ChanNum) : Bool := s.dma.dpcr.getLsbD (4 * n + 3)

/-! ## DICR (R230, R238) -/

/-- MFLAG: `FORCE or (MEN and (EN & FLAG) != 0)` (R230). -/
def dicrMaster (ctl : BitVec 24) (flag : BitVec 7) : Bool :=
  ctl.getLsbD 15 || (ctl.getLsbD 23 && (ctl.extractLsb' 16 7 &&& flag != 0))

/-- DICR as the CPU reads it (R230). -/
def State.dicrWord (s : State) : Word :=
  BitVec.ofBool (dicrMaster s.dma.dicrCtl s.dma.dicrFlag) ++ s.dma.dicrFlag ++ s.dma.dicrCtl

/-- DICR changes: MFLAG is recomputed, and its 0 to 1 edge raises source 3 (R238). -/
def State.setDicr (s : State) (ctl : BitVec 24) (flag : BitVec 7) : State :=
  let s1 := { s with dma := { s.dma with dicrCtl := ctl, dicrFlag := flag } }
  if !dicrMaster s.dma.dicrCtl s.dma.dicrFlag && dicrMaster ctl flag then latchSource 3 s1 else s1

/-- The flag bit of channel `n`. -/
def flagBit (n : ChanNum) : BitVec 7 := 1#7 <<< n.val

/-! ## Starting a transfer (R231) -/

/-- `StartCond(n)`. -/
def startCond (s : State) (n : ChanNum) : Bool :=
  let c := s.chan n
  let v := chcrOf n c
  c.phase == .idle && chcrBusy v && s.dmaEnabled n && (chcrSync v != 0 || chcrTrig v)

/-- A start reads MADR and BCR; a register whose value is unspecified gives a draw (R226, R227). -/
def resolveOpen (n : ChanNum) (s : State) : State :=
  let c := s.chan n
  let s1 := if c.madrOpen then (s.setChan n { c with madr := s.drawn.setWidth 24 }).nextDraw else s
  if c.bcrOpen then (s1.setChan n { s1.chan n with bcr := s1.drawn }).nextDraw else s1

/-- The channel as `DmaStart(n)` leaves it. A linked-list start keeps BCR's written value (DESIGN CHOICE, log
entry 34: R227 names no draw of BCR in that mode, D58 does). -/
def startedChan (c : DmaChannel) (sync : BitVec 2) : DmaChannel :=
  let c1 := { c with phase := .active, chcr := c.chcr &&& ~~~chcrTrigBit, addr := c.madr }
  match sync with
  | 0#2 => { c1 with wordsLeft := bcrLow c.bcr }
  | 1#2 => { c1 with blocksLeft := bcrHigh c.bcr, madrOpen := true, bcrOpen := true }
  | _ => { c1 with listPtr := c.madr, madrOpen := true }

/-- `DmaStart(n)`. -/
def dmaStart (n : ChanNum) (s : State) : Res Unit :=
  let v := chcrOf n (s.chan n)
  if chcrSync v = 3 || (chcrSync v = 2 && !chcrDir v) then .stop .dmaConfig
  else
    let s1 := resolveOpen n s
    .ok () ((s1.setChan n (startedChan (s1.chan n) (chcrSync v))).schedule 0 (.dma n) 0)

/-- Start each of the channels for which StartCond holds, in the order of the list. -/
def dmaStartAll : List ChanNum → State → Res Unit
  | [], s => .ok () s
  | n :: rest, s =>
    if startCond s n then (dmaStart n s).bind fun _ s1 => dmaStartAll rest s1
    else dmaStartAll rest s

/-- Every channel, in increasing order. -/
def allChannels : List ChanNum := [0, 1, 2, 3, 4, 5, 6]

/-! ## Register accesses (R224) -/

/-- A register of the controller. -/
inductive DmaReg where
  | madr (n : ChanNum)
  | bcr (n : ChanNum)
  | chcr (n : ChanNum)
  | dpcr
  | dicr
  deriving DecidableEq, Repr

/-- The channel of an offset below 0x70. -/
def chanAt (o : Nat) : ChanNum := ⟨o / 16 % 7, Nat.mod_lt _ (by decide)⟩

/-- The register at offset `o` from 0x1F80_1080, if there is one (R224). -/
def dmaRegAt (o : Nat) : Option DmaReg :=
  if o = 0x70 then some .dpcr
  else if o = 0x74 then some .dicr
  else if 0x70 ≤ o then none
  else if o % 16 = 0 then some (.madr (chanAt o))
  else if o % 16 = 4 then some (.bcr (chanAt o))
  else if o % 16 = 8 then some (.chcr (chanAt o))
  else none

/-- The value a CPU read of a DMA register gives. -/
def dmaRegRead (r : DmaReg) (s : State) : Res Word :=
  match r with
  | .madr n =>
    if (s.chan n).madrOpen then .ok ((s.drawn.setWidth 24).setWidth 32) s.nextDraw
    else .ok ((s.chan n).madr.setWidth 32) s
  | .bcr n =>
    if (s.chan n).bcrOpen then .ok s.drawn s.nextDraw
    else .ok (s.chan n).bcr s
  | .chcr n => .ok (chcrRead s.cfg n (s.chan n)) s
  | .dpcr => .ok s.dma.dpcr s
  | .dicr => .ok s.dicrWord s

/-- A CPU read of the DMA controller: only words are defined (R224). Where R224 gives two reasons, for a byte
or half-word at an offset without a register, the reason is the width (DESIGN CHOICE, log entry 37). -/
def dmaRead (o : Nat) (w : Width) (s : State) : Res Word :=
  if w ≠ .word then .stop .narrowDeviceAccess
  else
    match dmaRegAt o with
    | some r => dmaRegRead r s
    | none => .stop .unmodelledDeviceReg

/-- A write to a register of channel `n`, refused while the channel is not Idle (R224). -/
def writeChan (n : ChanNum) (c : DmaChannel) (s : State) : Res Unit :=
  if (s.chan n).phase = .idle then .ok () (s.setChan n c) else .stop .dmaBusyWrite

/-- A CPU write to a DMA register (R226 to R231). -/
def dmaRegWrite (r : DmaReg) (v : Word) (s : State) : Res Unit :=
  match r with
  | .madr n => writeChan n { s.chan n with madr := v.setWidth 24, madrOpen := false } s
  | .bcr n => writeChan n { s.chan n with bcr := v, bcrOpen := false } s
  | .chcr n =>
    (writeChan n { s.chan n with chcr := chcrStored n v } s).bind fun _ s1 =>
      dmaStartAll allChannels s1
  | .dpcr => dmaStartAll allChannels { s with dma := { s.dma with dpcr := v } }
  | .dicr =>
    .ok () (s.setDicr (v.setWidth 24 &&& 0xFF803F) (s.dma.dicrFlag &&& ~~~(v.extractLsb' 24 7)))

/-- A CPU write to the DMA controller: only words are defined (R224); of two reasons the width's is given, as
in `dmaRead` (DESIGN CHOICE, log entry 37). -/
def dmaWrite (o : Nat) (w : Width) (v : Word) (s : State) : Res Unit :=
  if w ≠ .word then .stop .narrowDeviceAccess
  else
    match dmaRegAt o with
    | some r => dmaRegWrite r v s
    | none => .stop .unmodelledDeviceReg

/-! ## Moving data (R70, R232 to R237) -/

/-- The RAM address of a DMA word access (R70). -/
def dmaKey (a : BitVec 24) : Nat := (a &&& 0x1FFFFC).toNat % ramSize

/-- `RAMword(a)`. -/
def State.ramWord (s : State) (a : BitVec 24) : Word := s.mem.readLE (dmaKey a) 4

/-- `RAMword(a) <- v`. -/
def State.setRamWord (s : State) (a : BitVec 24) (v : Word) : State :=
  { s with mem := s.mem.writeLE (dmaKey a) 4 v }

/-- The word the OTC generator supplies (R232). -/
def otcWord (a : BitVec 24) (last : Bool) : Word :=
  if last then 0x00FFFFFF else ((a - 4) &&& 0x1FFFFF).setWidth 32

/-- The data of `TransferWord(n, last)` (R232, R233). -/
def moveWord (n : ChanNum) (last : Bool) (s : State) : State :=
  let c := s.chan n
  if n = 6 then s.setRamWord c.addr (otcWord c.addr last)
  else if chcrDir c.chcr then s.record (.dmaWrite n (s.ramWord c.addr))
  else ((s.setRamWord c.addr s.drawn).record (.dmaRead n)).nextDraw

/-- The address after one word (R232). -/
def steppedAddr (n : ChanNum) (c : DmaChannel) : BitVec 24 :=
  if chcrStep (chcrOf n c) then c.addr - 4 else c.addr + 4

/-- `TransferWord(n, last)` (R232). -/
def transferWord (n : ChanNum) (last : Bool) (s : State) : State :=
  let s1 := moveWord n last s
  s1.setChan n { s1.chan n with addr := steppedAddr n (s1.chan n) }

/-- `k` words of a manual transfer; the last word of the transfer is the one with `words_left = 1` (R235). -/
def transferManual (n : ChanNum) : Nat → State → State
  | 0, s => s
  | k + 1, s =>
    let s1 := transferWord n ((s.chan n).wordsLeft == 1) s
    transferManual n k (s1.setChan n { s1.chan n with wordsLeft := (s1.chan n).wordsLeft - 1 })

/-- `k` words of a request-mode block (R235). -/
def transferBlock (n : ChanNum) : Nat → State → State
  | 0, s => s
  | k + 1, s => transferBlock n k (transferWord n false s)

/-- The payload of a linked-list node: `k` words from address `a` up go to the device (R235). -/
def sendPayload (n : ChanNum) : Nat → BitVec 24 → State → State
  | 0, _, s => s
  | k + 1, a, s => sendPayload n k (a + 4) (s.record (.dmaWrite n (s.ramWord a)))

/-- `Complete(n)` (R237). -/
def dmaComplete (n : ChanNum) (s : State) : State :=
  let c := s.chan n
  let s1 := s.setChan n { c with chcr := c.chcr &&& ~~~chcrBusyBit, phase := .idle }
  if s.dma.dicrCtl.getLsbD (16 + n) then s1.setDicr s.dma.dicrCtl (s.dma.dicrFlag ||| flagBit n)
  else s1

/-- The state after a sample of DREQ (R234). -/
def State.nextDreq (s : State) : State :=
  { s with inputs := { s.inputs with dreq := s.inputs.dreq.tail } }

/-- `DREQ(n)` as the next sample reads (R234). -/
def State.dreqNow (s : State) : Bool := s.inputs.dreq.headD true

/-- The burst of a manual-mode event (R235, R236). -/
def burstSize (c : DmaChannel) : Nat :=
  if chcrChop c.chcr then min (2 ^ chcrDwin c.chcr) c.wordsLeft else c.wordsLeft

/-- A manual-mode event (R235). -/
def runManual (n : ChanNum) (s : State) : State :=
  let burst := burstSize (s.chan n)
  let s1 := (transferManual n burst s).addCycles (burst * s.cfg.dmaWordCycles)
  let c := s1.chan n
  if c.wordsLeft = 0 then dmaComplete n s1
  else (s1.setChan n { c with phase := .chopWait }).schedule (2 ^ chcrCwin c.chcr) (.dma n) 0

/-- A request-mode event with DREQ = 1 (R235). -/
def runBlock (n : ChanNum) (s : State) : State :=
  let bs := bcrLow (s.chan n).bcr
  let s1 := (transferBlock n bs s).addCycles (bs * s.cfg.dmaWordCycles)
  let s2 := s1.setChan n { s1.chan n with blocksLeft := (s1.chan n).blocksLeft - 1 }
  if (s2.chan n).blocksLeft = 0 then dmaComplete n s2
  else s2.schedule s.cfg.dmaDreqPoll (.dma n) 0

/-- A linked-list event with DREQ = 1: one node (R235). -/
def runNode (n : ChanNum) (s : State) : State :=
  let p := (s.chan n).listPtr
  let h := s.ramWord p
  let count := (h.extractLsb' 24 8).toNat
  let s1 := (sendPayload n count (p + 4) s).addCycles ((count + 1) * s.cfg.dmaWordCycles)
  if h.getLsbD 23 then dmaComplete n s1
  else (s1.setChan n { s1.chan n with listPtr := h.setWidth 24 }).schedule s.cfg.dmaDreqPoll (.dma n) 0

/-- An event that waits on DREQ: sample it, and run or poll again (R234, R235). -/
def onDreq (n : ChanNum) (run : State → State) (s : State) : State :=
  if s.dreqNow then run s.nextDreq
  else s.nextDreq.schedule s.cfg.dmaDreqPoll (.dma n) 0

/-- The event `Dma(n), Run` (R235). -/
def dmaRun (n : ChanNum) (s : State) : Res Unit :=
  let s1 := s.setChan n { s.chan n with phase := .active }
  match chcrSync (chcrOf n (s.chan n)) with
  | 0#2 => .ok () (runManual n s1)
  | 1#2 => .ok () (onDreq n (runBlock n) s1)
  | 2#2 => .ok () (onDreq n (runNode n) s1)
  | _ => .stop .dmaConfig

end Sys2Proof.Machine
end

