-- ==== Sys2Proof/Machine/Bus.lean ====
section
/-! DEFINITION. The bus (20_memory.md): translation, the physical address map, device regions and the
CPU's access primitives MemRead, MemWrite and MemWriteMasked. -/

namespace Sys2Proof.Machine

/-! ## Translation (R54) -/

/-- The segments that reach physical memory (R19, R54). -/
inductive Segment where
  | kuseg
  | kseg0
  | kseg1
  deriving DecidableEq, Repr

/-- A translated address (R54). -/
inductive Translated where
  | phys (p : Nat) (seg : Segment)
  | cacheCtrl
  | unmapped
  deriving DecidableEq, Repr

/-- `va & 0x1FFF_FFFF` as a physical address. -/
def physOf (va : Word) : Nat := (va.extractLsb' 0 29).toNat

/-- Translate(va) (R54). -/
def translate (va : Word) : Translated :=
  match va.extractLsb' 29 3 with
  | 0b000#3 => .phys (physOf va) .kuseg
  | 0b100#3 => .phys (physOf va) .kseg0
  | 0b101#3 => .phys (physOf va) .kseg1
  | 0b110#3 => if va &&& 0xFFFFFFFC = 0xFFFE0130 then .cacheCtrl else .unmapped
  | 0b111#3 => if va &&& 0xFFFFFFFC = 0xFFFE0130 then .cacheCtrl else .unmapped
  | _ => .unmapped

/-! ## The physical address map (R56, R57) -/

/-- RAM_WINDOW, SCRATCH_BASE, SCRATCH_SIZE, BIOS_BASE, BIOS_SIZE (R9). -/
def ramWindow : Nat := 0x800000
def scratchBase : Nat := 0x1F800000
def scratchSize : Nat := 0x400
def biosBase : Nat := 0x1FC00000
def biosSize : Nat := 0x80000

/-- A region and the offset in it (R56, R57, R62). -/
inductive Region where
  | ram (o : Nat)
  | scratch (o : Nat)
  | bios (o : Nat)
  | cacheCtrl
  /-- The interrupt controller (R214). -/
  | irqCtl (o : Nat)
  /-- The DMA controller (R224). -/
  | dmaCtl (o : Nat)
  | device (d : ExtDevice) (o : Nat)
  | unmapped
  deriving DecidableEq, Repr

/-- Whether `p` lies in the `size` bytes from `base`. -/
def within (p base size : Nat) : Bool := decide (base ≤ p) && decide (p < base + size)

/-- The external device at an I/O address, by DEVICE_MAP (R57). Where rows of a configured map overlap, the
first in the list owns the address (DESIGN CHOICE, log entry 35: no rule says which does). -/
def deviceAt (map : List DevRange) (p : Nat) : Region :=
  match map.find? (fun d => within p d.base d.size) with
  | some d => .device d.dev (p - d.base)
  | none => .unmapped

/-- The region of a physical address reached through a segment (R56, R57). -/
def physRegion (map : List DevRange) (p : Nat) (seg : Segment) : Region :=
  if within p 0 ramWindow then .ram (p % ramSize)
  else if within p 0x1F000000 0x800000 then .device .expansion1 (p - 0x1F000000)
  else if within p scratchBase scratchSize then
    if seg = .kseg1 then .unmapped else .scratch (p - scratchBase)
  else if within p 0x1F801070 0x8 then .irqCtl (p - 0x1F801070)
  else if within p 0x1F801080 0x80 then .dmaCtl (p - 0x1F801080)
  else if within p 0x1F801000 0x2000 then deviceAt map p
  else if within p 0x1FA00000 0x200000 then .device .expansion3 (p - 0x1FA00000)
  else if within p biosBase biosSize then .bios (p - biosBase)
  else .unmapped

/-- Region(t) of a translated address (R56, R62). -/
def regionOf (map : List DevRange) : Translated → Region
  | .phys p seg => physRegion map p seg
  | .cacheCtrl => .cacheCtrl
  | .unmapped => .unmapped

/-- The region of a virtual address. -/
def State.region (s : State) (va : Word) : Region := regionOf s.cfg.deviceMap (translate va)

/-- Where a region's bytes stand in the memory image. -/
def Region.key : Region → Option Nat
  | .ram o => some o
  | .scratch o => some (scratchBase + o)
  | .bios o => some (biosBase + o)
  | .cacheCtrl | .irqCtl _ | .dmaCtl _ | .device _ _ | .unmapped => none

/-- The region's bytes if a CPU store reaches them: BIOS is read-only (R60). -/
def Region.storeKey : Region → Option Nat
  | .ram o => some o
  | .scratch o => some (scratchBase + o)
  | .bios _ | .cacheCtrl | .irqCtl _ | .dmaCtl _ | .device _ _ | .unmapped => none

/-- Whether cache isolation keeps a data access from memory (R69). -/
def State.isolated (s : State) (va : Word) : Bool :=
  s.cacheIsolated &&
    match translate va with
    | .phys _ .kuseg => true
    | .phys _ .kseg0 => true
    | .phys _ .kseg1 => false
    | .cacheCtrl => false
    | .unmapped => false

/-! ## External devices (R58) -/

/-- What a device's register handler schedules (R242). -/
def scheduleRequests : List SchedRequest → State → State
  | [], s => s
  | r :: rest, s => scheduleRequests rest (s.schedule r.delay (.ext r.dev) r.payload)

/-- One call of a register handler: the call is recorded and the device may schedule events. -/
def deviceCall (c : ExtCall) (s : State) : State :=
  scheduleRequests (s.inputs.regReplies.headD [])
    { s.record c with inputs := { s.inputs with regReplies := s.inputs.regReplies.tail } }

/-- `Dev_d.read(o, n)`: the answer is a draw (R58). -/
def deviceRead (d : ExtDevice) (o : Nat) (w : Width) (s : State) : Res Word :=
  .ok (w.trunc s.drawn) (deviceCall (.devRead d o w.bytes) s).nextDraw

/-- `Dev_d.write(o, n, v)` (R58). -/
def deviceWrite (d : ExtDevice) (o : Nat) (w : Width) (v : Word) (s : State) : Res Unit :=
  .ok () (deviceCall (.devWrite d o w.bytes (w.trunc v)) s)

/-! ## The CPU's access primitives (R62 to R64) -/

/-- The kind of a read (R62). -/
inductive Access where
  | fetch
  | load
  deriving DecidableEq, Repr

/-- `va mod n != 0` (R65). -/
def misaligned (va : Word) (w : Width) : Bool := va.toNat % w.bytes != 0

/-- R55: a user-mode address with bit 31 set. -/
def State.privileged (s : State) (va : Word) : Bool := s.userMode && va.getLsbD 31

/-- R61: a data access in user mode with SR.RE = 1. -/
def State.reversed (s : State) : Bool := s.userMode && s.reverseEndian

/-- The `n` bytes of CACHE_CTRL at `va mod 4` (R59, R62). -/
def cacheCtrlRead (v : Word) (va : Word) (w : Width) : Word :=
  w.trunc (v >>> (8 * (va.toNat % 4)))

/-- CACHE_CTRL with byte `k` replaced. -/
def setByte (old : Word) (k : Nat) (b : Byte) : Word :=
  (old &&& ~~~(0xFF#32 <<< (8 * k))) ||| (b.setWidth 32 <<< (8 * k))

/-- CACHE_CTRL after a write of `n` bytes at byte `k` (R59, R63). -/
def cacheCtrlWrite (old : Word) (k : Nat) : Nat → Word → Word
  | 0, _ => old
  | n + 1, v => cacheCtrlWrite (setByte old k (v.setWidth 8)) (k + 1) n (v >>> 8)

/-- CACHE_CTRL after a masked write (R64). -/
def cacheCtrlMasked (old : Word) (mask : BitVec 4) (v : Word) : Word :=
  let put (k : Nat) (w : Word) := if mask.getLsbD k then setByte w k (byteOf v k) else w
  put 3 (put 2 (put 1 (put 0 old)))

/-- The bus part of MemRead: the region answers (R62). -/
def busRead (va : Word) (w : Width) (k : Access) (s : State) : Res Word :=
  match s.region va with
  | .ram o => .ok (s.mem.readLE o w.bytes) s
  | .scratch o => .ok (s.mem.readLE (scratchBase + o) w.bytes) s
  | .bios o => .ok (s.mem.readLE (biosBase + o) w.bytes) s
  | .cacheCtrl => .ok (cacheCtrlRead s.cacheCtrl va w) s
  | .irqCtl o => if k = .fetch then .stop .fetchFromDevice else irqRead o w s
  | .dmaCtl o => if k = .fetch then .stop .fetchFromDevice else dmaRead o w s
  | .device d o => if k = .fetch then .stop .fetchFromDevice else deviceRead d o w s
  | .unmapped => if k = .fetch then .exc .ibe else .exc .dbe

/-- MemRead(va, n, kind) (R62); the value is zero-extended to a word. -/
def memRead (va : Word) (w : Width) (k : Access) (s : State) : Res Word :=
  if misaligned va w then .exc (.adEL va)
  else if s.privileged va then .exc (.adEL va)
  else if k = .load && s.reversed then .stop .reverseEndian
  else if k = .load && s.isolated va then .ok (w.trunc s.drawn) s.nextDraw
  else busRead va w k s

/-- The bus part of MemWrite (R63). -/
def busWrite (va : Word) (w : Width) (v : Word) (s : State) : Res Unit :=
  match s.region va with
  | .ram o => .ok () { s with mem := s.mem.writeLE o w.bytes v }
  | .scratch o => .ok () { s with mem := s.mem.writeLE (scratchBase + o) w.bytes v }
  | .bios _ => .ok () s
  | .cacheCtrl => .ok () { s with cacheCtrl := cacheCtrlWrite s.cacheCtrl (va.toNat % 4) w.bytes v }
  | .irqCtl o => irqWrite o w v s
  | .dmaCtl o => dmaWrite o w v s
  | .device d o => deviceWrite d o w v s
  | .unmapped => .exc .dbe

/-- MemWrite(va, n, v) (R63). -/
def memWrite (va : Word) (w : Width) (v : Word) (s : State) : Res Unit :=
  if misaligned va w then .exc (.adES va)
  else if s.privileged va then .exc (.adES va)
  else if s.reversed then .stop .reverseEndian
  else if s.isolated va then .ok () s
  else busWrite va w v s

/-- The aligned access a byte-enable mask stands for: the offset of its first byte and its width, if the
mask selects exactly an aligned byte, half-word or word (R64). -/
def maskAccess (mask : BitVec 4) : Option (Nat × Width) :=
  match mask with
  | 0b0001#4 => some (0, .byte)
  | 0b0010#4 => some (1, .byte)
  | 0b0100#4 => some (2, .byte)
  | 0b1000#4 => some (3, .byte)
  | 0b0011#4 => some (0, .half)
  | 0b1100#4 => some (2, .half)
  | 0b1111#4 => some (0, .word)
  | _ => none

/-- A masked write to a device region: MemWrite of the width the mask selects, or refused (R64, D44). -/
def maskedDevice (va : Word) (mask : BitVec 4) (v : Word) (s : State) : Res Unit :=
  match maskAccess mask with
  | some (k, w) => memWrite (va + BitVec.ofNat 32 k) w (v >>> (8 * k)) s
  | none => .stop .maskedDeviceWrite

/-- MemWriteMasked(va, m, v) for a word-aligned `va` (R64): the checks of MemWrite for a word at `va`,
then the bytes the mask selects. -/
def memWriteMasked (va : Word) (mask : BitVec 4) (v : Word) (s : State) : Res Unit :=
  if misaligned va .word then .exc (.adES va)
  else if s.privileged va then .exc (.adES va)
  else if s.reversed then .stop .reverseEndian
  else if s.isolated va then .ok () s
  else
    match s.region va with
    | .ram o => .ok () { s with mem := s.mem.writeMasked o mask v }
    | .scratch o => .ok () { s with mem := s.mem.writeMasked (scratchBase + o) mask v }
    | .bios _ => .ok () s
    | .cacheCtrl => .ok () { s with cacheCtrl := cacheCtrlMasked s.cacheCtrl mask v }
    | .irqCtl _ => maskedDevice va mask v s
    | .dmaCtl _ => maskedDevice va mask v s
    | .device _ _ => maskedDevice va mask v s
    | .unmapped => .exc .dbe

end Sys2Proof.Machine
end

