-- ==== Sys2Proof/Machine/LoadStore.lean ====
section
/-! DEFINITION. Loads and stores (44_loadstore.md R160 to R173). -/

namespace Sys2Proof.Machine

/-- A load: read memory at `va`, and complete with the delayed write of what `f` makes of the value (R161). -/
def loadWith (rt : Reg) (va : Word) (w : Width) (f : Word → Word) (s : State) :
    Host.Outcome State Fault Refusal :=
  finish s ((memRead va w .load s).bind fun v s1 => .ok { lnew := some ⟨rt, f v⟩ } s1)

/-- A store: write memory at `va`, and complete (R161). -/
def storeWith (va : Word) (w : Width) (v : Word) (s : State) : Host.Outcome State Fault Refusal :=
  finish s ((memWrite va w v s).bind fun _ s1 => .ok {} s1)

/-- A masked store inside the aligned word at `va`, and complete (R172, R173). -/
def storeMasked (va : Word) (mask : BitVec 4) (v : Word) (s : State) :
    Host.Outcome State Fault Refusal :=
  finish s ((memWriteMasked va mask v s).bind fun _ s1 => .ok {} s1)

/-- LB (R162). -/
def execLb (rt : Reg) (imm : Half) (rs : Reg) (s : State) : Host.Outcome State Fault Refusal :=
  loadWith rt (s.ea rs imm) .byte sextByte s

/-- LBU (R163). -/
def execLbu (rt : Reg) (imm : Half) (rs : Reg) (s : State) : Host.Outcome State Fault Refusal :=
  loadWith rt (s.ea rs imm) .byte (fun v => v) s

/-- LH (R164). -/
def execLh (rt : Reg) (imm : Half) (rs : Reg) (s : State) : Host.Outcome State Fault Refusal :=
  loadWith rt (s.ea rs imm) .half sextHalf s

/-- LHU (R165). -/
def execLhu (rt : Reg) (imm : Half) (rs : Reg) (s : State) : Host.Outcome State Fault Refusal :=
  loadWith rt (s.ea rs imm) .half (fun v => v) s

/-- LW (R166). -/
def execLw (rt : Reg) (imm : Half) (rs : Reg) (s : State) : Host.Outcome State Fault Refusal :=
  loadWith rt (s.ea rs imm) .word (fun v => v) s

/-- LWL's merge of the word `m` into `cur`, `k = ea mod 4` (R167). -/
def mergeLeft (k : BitVec 2) (cur m : Word) : Word :=
  match k with
  | 0#2 => (cur &&& 0x00FFFFFF#32) ||| (m <<< 24)
  | 1#2 => (cur &&& 0x0000FFFF#32) ||| (m <<< 16)
  | 2#2 => (cur &&& 0x000000FF#32) ||| (m <<< 8)
  | _ => m

/-- LWR's merge of the word `m` into `cur`, `k = ea mod 4` (R168). -/
def mergeRight (k : BitVec 2) (cur m : Word) : Word :=
  match k with
  | 0#2 => m
  | 1#2 => (cur &&& 0xFF000000#32) ||| (m >>> 8)
  | 2#2 => (cur &&& 0xFFFF0000#32) ||| (m >>> 16)
  | _ => (cur &&& 0xFFFFFF00#32) ||| (m >>> 24)

/-- `ea mod 4`. -/
def lane (a : Word) : BitVec 2 := a.setWidth 2

/-- LWL (R167). -/
def execLwl (rt : Reg) (imm : Half) (rs : Reg) (s : State) : Host.Outcome State Fault Refusal :=
  loadWith rt (alignedWord (s.ea rs imm)) .word
    (mergeLeft (lane (s.ea rs imm)) (s.mergeOperand rt)) s

/-- LWR (R168). -/
def execLwr (rt : Reg) (imm : Half) (rs : Reg) (s : State) : Host.Outcome State Fault Refusal :=
  loadWith rt (alignedWord (s.ea rs imm)) .word
    (mergeRight (lane (s.ea rs imm)) (s.mergeOperand rt)) s

/-- SB (R169). -/
def execSb (rt : Reg) (imm : Half) (rs : Reg) (s : State) : Host.Outcome State Fault Refusal :=
  storeWith (s.ea rs imm) .byte (s.x rt) s

/-- SH (R170). -/
def execSh (rt : Reg) (imm : Half) (rs : Reg) (s : State) : Host.Outcome State Fault Refusal :=
  storeWith (s.ea rs imm) .half (s.x rt) s

/-- SW (R171). -/
def execSw (rt : Reg) (imm : Half) (rs : Reg) (s : State) : Host.Outcome State Fault Refusal :=
  storeWith (s.ea rs imm) .word (s.x rt) s

/-- The byte-enable mask of SWL (R172). -/
def leftMask (k : BitVec 2) : BitVec 4 :=
  match k with
  | 0#2 => 0b0001
  | 1#2 => 0b0011
  | 2#2 => 0b0111
  | _ => 0b1111

/-- The value SWL puts on the byte lanes (R172). -/
def leftValue (k : BitVec 2) (v : Word) : Word :=
  match k with
  | 0#2 => v >>> 24
  | 1#2 => v >>> 16
  | 2#2 => v >>> 8
  | _ => v

/-- The byte-enable mask of SWR (R173). -/
def rightMask (k : BitVec 2) : BitVec 4 :=
  match k with
  | 0#2 => 0b1111
  | 1#2 => 0b1110
  | 2#2 => 0b1100
  | _ => 0b1000

/-- The value SWR puts on the byte lanes (R173). -/
def rightValue (k : BitVec 2) (v : Word) : Word :=
  match k with
  | 0#2 => v
  | 1#2 => v <<< 8
  | 2#2 => v <<< 16
  | _ => v <<< 24

/-- SWL (R172). -/
def execSwl (rt : Reg) (imm : Half) (rs : Reg) (s : State) : Host.Outcome State Fault Refusal :=
  storeMasked (alignedWord (s.ea rs imm)) (leftMask (lane (s.ea rs imm)))
    (leftValue (lane (s.ea rs imm)) (s.x rt)) s

/-- SWR (R173). -/
def execSwr (rt : Reg) (imm : Half) (rs : Reg) (s : State) : Host.Outcome State Fault Refusal :=
  storeMasked (alignedWord (s.ea rs imm)) (rightMask (lane (s.ea rs imm)))
    (rightValue (lane (s.ea rs imm)) (s.x rt)) s

end Sys2Proof.Machine
end

