-- ==== Sys2Proof/Machine/System.lean ====
section
/-! DEFINITION. Traps, COP0 access, RFE, the absent coprocessors and the words without a row of their
own (45_system.md R175 to R187; 46_cop2.md R198). -/

namespace Sys2Proof.Machine

/-- SYSCALL (R175): the code field is not read. -/
def execSyscall (s : State) : Host.Outcome State Fault Refusal :=
  finish s (.exc .syscall)

/-- BREAK (R176): the code field is not read. -/
def execBrk (s : State) : Host.Outcome State Fault Refusal :=
  finish s (.exc .bp)

/-- The usability check every coprocessor instruction makes first (R200). -/
def whenUsable (z : CopNum) (r : Res Effect) (s : State) : Host.Outcome State Fault Refusal :=
  if s.usable z then finish s r else finish s (.exc (.cpU z))

/-- PRID_VALUE (R41). -/
def pridValue : Word := 0x00000002

/-- COP0 register `n` as MFC0 reads it; `none` where the read is a draw (R31, R178). -/
def readCop0 (n : BitVec 5) (s : State) : Option Word :=
  match n with
  | 3#5 => some s.cop0.bpc
  | 5#5 => some s.cop0.bda
  | 7#5 => some s.cop0.dcic
  | 8#5 => some s.cop0.badVaddr
  | 9#5 => some s.cop0.bdam
  | 11#5 => some s.cop0.bpcm
  | 12#5 => some s.cop0.sr
  | 13#5 => some s.causeWord
  | 14#5 => some s.cop0.epc
  | 15#5 => some pridValue
  | _ => none

/-- MTC0 of `v` to COP0 register `n` (R31, R179). -/
def writeCop0 (n : BitVec 5) (v : Word) (s : State) : Res Unit :=
  match n with
  | 3#5 => .ok () { s with cop0 := { s.cop0 with bpc := v } }
  | 5#5 => .ok () { s with cop0 := { s.cop0 with bda := v } }
  | 7#5 => if v = 0 then .ok () { s with cop0 := { s.cop0 with dcic := 0 } } else .stop .dcicEnable
  | 9#5 => .ok () { s with cop0 := { s.cop0 with bdam := v } }
  | 11#5 => .ok () { s with cop0 := { s.cop0 with bpcm := v } }
  | 12#5 =>
    .ok () { s with cop0 := { s.cop0 with sr := v &&& s.cfg.ieStackLevels.srWriteMask } }
  | 13#5 => .ok () { s with cop0 := { s.cop0 with ipSw := v.extractLsb' 8 2 } }
  | _ => .ok () s

/-- MFC0 (R178): the result is delayed like a load. -/
def execMfc0 (rt : Reg) (rd : BitVec 5) (s : State) : Host.Outcome State Fault Refusal :=
  whenUsable 0
    (match readCop0 rd s with
      | some v => .ok { lnew := some ⟨rt, v⟩ } s
      | none => .ok { lnew := some ⟨rt, s.drawn⟩ } s.nextDraw) s

/-- MTC0 (R179): the register is written at once. -/
def execMtc0 (rt : Reg) (rd : BitVec 5) (s : State) : Host.Outcome State Fault Refusal :=
  whenUsable 0 ((writeCop0 rd (s.x rt) s).bind fun _ s1 => .ok {} s1) s

/-- RFE (R180). -/
def execRfe (s : State) : Host.Outcome State Fault Refusal :=
  whenUsable 0 (.ok {} (returnFromException s)) s

/-- An instruction of an absent coprocessor: CpU, or refused when it is marked usable (R182 to R185). -/
def absentCop (z : CopNum) (s : State) : Host.Outcome State Fault Refusal :=
  whenUsable z (.stop .unmodelledCop) s

/-- COP1 (R182). -/
def execCop1 (s : State) : Host.Outcome State Fault Refusal := absentCop 1 s

/-- COP3 (R183). -/
def execCop3 (s : State) : Host.Outcome State Fault Refusal := absentCop 3 s

/-- LWC1 (R184): no memory access is made. -/
def execLwc1 (s : State) : Host.Outcome State Fault Refusal := absentCop 1 s

/-- SWC1 (R184): no memory access is made. -/
def execSwc1 (s : State) : Host.Outcome State Fault Refusal := absentCop 1 s

/-- LWC3 (R185). -/
def execLwc3 (s : State) : Host.Outcome State Fault Refusal := absentCop 3 s

/-- SWC3 (R185). -/
def execSwc3 (s : State) : Host.Outcome State Fault Refusal := absentCop 3 s

/-- LWC0 (R186): refused in any mode and whatever SR.CU0 holds. -/
def execLwc0 (s : State) : Host.Outcome State Fault Refusal :=
  finish s (.stop .unmodelledCop)

/-- SWC0 (R186): refused in any mode and whatever SR.CU0 holds. -/
def execSwc0 (s : State) : Host.Outcome State Fault Refusal :=
  finish s (.stop .unmodelledCop)

/-- A reserved word (R87, R187). -/
def execReserved (s : State) : Host.Outcome State Fault Refusal :=
  finish s (.exc .ri)

/-- A COP0 or COP2 word without a row of its own: CpU, or refused when usable (R84, R181, R198). -/
def execOtherCop (z : CopNum) (s : State) : Host.Outcome State Fault Refusal :=
  whenUsable z (.stop .unmodelledCop) s

end Sys2Proof.Machine
end

