-- ==== Sys2Proof/Machine/Cop2.lean ====
section
/-! DEFINITION. The interface instructions of coprocessor 2 (46_cop2.md R188 to R197). The coprocessor is
an external oracle: what it answers is a draw, and every call is recorded (R188). -/

namespace Sys2Proof.Machine

/-- `Gte.read_data(n)` or `Gte.read_ctrl(n)`: a draw (R188). -/
def gteRead (c : ExtCall) (s : State) : Res Word := .ok s.drawn (s.record c).nextDraw

/-- `Gte.write_data(n, v)` or `Gte.write_ctrl(n, v)` (R188). -/
def gteWrite (c : ExtCall) (s : State) : Res Unit := .ok () (s.record c)

/-- A read of a coprocessor register into `rt`, delayed like a load (R191, R192). -/
def moveFromGte (rt : Reg) (c : ExtCall) (s : State) : Host.Outcome State Fault Refusal :=
  whenUsable 2 ((gteRead c s).bind fun v s1 => .ok { lnew := some ⟨rt, v⟩ } s1) s

/-- A write of a coprocessor register, at once (R193, R194). -/
def moveToGte (c : ExtCall) (s : State) : Host.Outcome State Fault Refusal :=
  whenUsable 2 ((gteWrite c s).bind fun _ s1 => .ok {} s1) s

/-- MFC2 (R191). -/
def execMfc2 (rt : Reg) (rd : BitVec 5) (s : State) : Host.Outcome State Fault Refusal :=
  moveFromGte rt (.gteReadData rd) s

/-- CFC2 (R192). -/
def execCfc2 (rt : Reg) (rd : BitVec 5) (s : State) : Host.Outcome State Fault Refusal :=
  moveFromGte rt (.gteReadCtrl rd) s

/-- MTC2 (R193). -/
def execMtc2 (rt : Reg) (rd : BitVec 5) (s : State) : Host.Outcome State Fault Refusal :=
  moveToGte (.gteWriteData rd (s.x rt)) s

/-- CTC2 (R194). -/
def execCtc2 (rt : Reg) (rd : BitVec 5) (s : State) : Host.Outcome State Fault Refusal :=
  moveToGte (.gteWriteCtrl rd (s.x rt)) s

/-- LWC2 (R195): the usability check comes first; on an exception no interface call is made. -/
def execLwc2 (rt : BitVec 5) (imm : Half) (rs : Reg) (s : State) : Host.Outcome State Fault Refusal :=
  whenUsable 2
    ((memRead (s.ea rs imm) .word .load s).bind fun v s1 =>
      (gteWrite (.gteWriteData rt v) s1).bind fun _ s2 => .ok {} s2) s

/-- SWC2 (R196): the usability check comes first. -/
def execSwc2 (rt : BitVec 5) (imm : Half) (rs : Reg) (s : State) : Host.Outcome State Fault Refusal :=
  whenUsable 2
    ((gteRead (.gteReadData rt) s).bind fun v s1 =>
      (memWrite (s.ea rs imm) .word v s1).bind fun _ s2 => .ok {} s2) s

/-- The stall before a command may issue: `max(0, gte_ready - cycle_at_issue)` (R190). -/
def State.gteStall (s : State) : Nat := s.gteReady - s.sched.cycle

/-- `Gte.command(cofun25)` after the stall (R190, R197). -/
def gteCommand (cofun : BitVec 25) (s : State) : State :=
  let latency := Config.freeLatency s.inputs.drawIndex
  { ((s.record (.gteCommand cofun)).nextDraw.addCycles s.gteStall) with
    gteReady := s.sched.cycle + s.gteStall + latency }

/-- A COP2 command (R197). -/
def execCop2Command (cofun : BitVec 25) (s : State) : Host.Outcome State Fault Refusal :=
  whenUsable 2 (.ok {} (gteCommand cofun s)) s

end Sys2Proof.Machine
end

