-- ==== Sys2Proof/Machine/MulDiv.lean ====
section
/-! DEFINITION. Multiply, divide and the HI/LO registers (42_muldiv.md R132 to R142). -/

namespace Sys2Proof.Machine

/-- Write HI and LO, apply the hazard of R142, and complete. -/
def writeHilo (u : HiloUse) (hi lo : Word) (s : State) : Host.Outcome State Fault Refusal :=
  finish s (.ok { hilo := u } (applyHiloHazard u { s with hi := hi, lo := lo }))

/-- HI and LO of an exact product (R132). -/
def writeProduct (p : BitVec 64) (s : State) : Host.Outcome State Fault Refusal :=
  writeHilo .mulDiv (p.extractLsb' 32 32) (p.extractLsb' 0 32) s

/-- MULT (R134). -/
def execMult (rs rt : Reg) (s : State) : Host.Outcome State Fault Refusal :=
  writeProduct (BitVec.ofInt 64 ((s.x rs).toInt * (s.x rt).toInt)) s

/-- MULTU (R135). -/
def execMultu (rs rt : Reg) (s : State) : Host.Outcome State Fault Refusal :=
  writeProduct (BitVec.ofNat 64 ((s.x rs).toNat * (s.x rt).toNat)) s

/-- The remainder (HI) and quotient (LO) of DIV (R136). -/
def divSigned (a b : Word) : Word × Word :=
  let n := a.toInt
  let d := b.toInt
  if d = 0 then (a, if 0 ≤ n then 0xFFFFFFFF else 0x00000001)
  else if a = 0x80000000 ∧ b = 0xFFFFFFFF then (0, 0x80000000)
  else
    let q := n.tdiv d
    (BitVec.ofInt 32 (n - q * d), BitVec.ofInt 32 q)

/-- The remainder (HI) and quotient (LO) of DIVU (R137). -/
def divUnsigned (a b : Word) : Word × Word :=
  if b = 0 then (a, 0xFFFFFFFF)
  else (BitVec.ofNat 32 (a.toNat % b.toNat), BitVec.ofNat 32 (a.toNat / b.toNat))

/-- DIV (R136). -/
def execDiv (rs rt : Reg) (s : State) : Host.Outcome State Fault Refusal :=
  let r := divSigned (s.x rs) (s.x rt)
  writeHilo .mulDiv r.1 r.2 s

/-- DIVU (R137). -/
def execDivu (rs rt : Reg) (s : State) : Host.Outcome State Fault Refusal :=
  let r := divUnsigned (s.x rs) (s.x rt)
  writeHilo .mulDiv r.1 r.2 s

/-- Complete with the direct write of HI or LO to a register (R138, R139). -/
def readHilo (rd : Reg) (v : Word) (s : State) : Host.Outcome State Fault Refusal :=
  finish s (.ok { wreg := some (rd, v), hilo := .read } s)

/-- MFHI (R138). -/
def execMfhi (rd : Reg) (s : State) : Host.Outcome State Fault Refusal :=
  readHilo rd s.hi s

/-- MFLO (R139). -/
def execMflo (rd : Reg) (s : State) : Host.Outcome State Fault Refusal :=
  readHilo rd s.lo s

/-- MTHI (R140). -/
def execMthi (rs : Reg) (s : State) : Host.Outcome State Fault Refusal :=
  writeHilo .moveHi (s.x rs) s.lo s

/-- MTLO (R141). -/
def execMtlo (rs : Reg) (s : State) : Host.Outcome State Fault Refusal :=
  writeHilo .moveLo s.hi (s.x rs) s

end Sys2Proof.Machine
end

