-- ==== Sys2Proof/Machine/Scheduler.lean ====
section
/-! DEFINITION. The scheduler's events (60_exceptions.md §10): which event is due and what firing it
does (R243, R244). -/

namespace Sys2Proof.Machine

/-- Whether `a` is consumed before `b`: the lesser target cycle, ties in insertion order (R243, R247). -/
def Event.before (a b : Event) : Bool :=
  decide (a.target < b.target) || (a.target == b.target && decide (a.seq < b.seq))

/-- Of the events of a list with `target <= cycle`, the one with the least `(target, seq)`. -/
def leastDue (cycle : Nat) : List Event → Option Event
  | [] => none
  | e :: rest =>
    match leastDue cycle rest with
    | none => if e.target ≤ cycle then some e else none
    | some d => if e.target ≤ cycle && e.before d then some e else some d

/-- The due event (R243). -/
def State.dueEvent (s : State) : Option Event := leastDue s.sched.cycle s.sched.queue

/-- Remove an event from the queue (R243). -/
def State.dequeue (s : State) (e : Event) : State :=
  { s with sched := { s.sched with queue := s.sched.queue.erase e } }

/-- What a device's event handler does, in order (R243). -/
def performActions : List DevAction → State → Res Unit
  | [], s => .ok () s
  | .raise k :: rest, s => (raiseSource k s).bind fun _ s1 => performActions rest s1
  | .schedule r :: rest, s => performActions rest (s.schedule r.delay (.ext r.dev) r.payload)

/-- The event handler of an external device (R243): what it does is an input. -/
def runDevice (d : ExtDevice) (payload : Nat) (s : State) : Res Unit :=
  performActions (s.inputs.evtReplies.headD [])
    { s.record (.devEvent d payload) with
      inputs := { s.inputs with evtReplies := s.inputs.evtReplies.tail } }

/-- The handler of an event's source (R243). -/
def runHandler (e : Event) (s : State) : Res Unit :=
  match e.source with
  | .dma n => dmaRun n s
  | .ext d => runDevice d e.payload s

/-- Fire an event: remove it and call its handler (R243). An event raises no CPU exception. -/
def fireEvent (e : Event) (s : State) : Host.Outcome State Fault Refusal :=
  match runHandler e (s.dequeue e) with
  | .ok _ s1 => .next s1
  | .exc x => .next (takeException x s)
  | .stop r => .refused r

end Sys2Proof.Machine
end

