-- ==== Sys2Proof/Machine/CpuStep.lean ====
section
/-! DEFINITION. One CPU step (40_execution.md R92 to R95): the interrupt step and the instruction step,
with their cycle costs (60_exceptions.md R245); and where a program word stands for the next fetch. -/

namespace Sys2Proof.Machine

/-- Apply a function to the next state, if there is one. -/
def mapNext (f : State → State) (o : Host.Outcome State Fault Refusal) :
    Host.Outcome State Fault Refusal :=
  match o with
  | .next s => .next (f s)
  | .fault r => .fault r
  | .refused r => .refused r

/-- The instruction fetch `MemRead(pc, 4, Fetch)` (R95). -/
def fetch (s : State) : Res Word := memRead s.pc .word .fetch s

/-- What a decoded word does (R89). -/
def execDecoded (d : Decoded) (s : State) : Host.Outcome State Fault Refusal :=
  match d with
  | .instr i => exec i s
  | .reserved => execReserved s
  | .unmodelledCop z => execOtherCop z s

/-- Execute the fetched word `w`, which costs CYCLE_COST(w) besides what its execution adds (R245). -/
def execWord (w : Word) (s : State) : Host.Outcome State Fault Refusal :=
  mapNext (fun t => t.addCycles (s.cfg.cycleCost w)) (execDecoded (decode w) s)

/-- An instruction step (R92, R95, R102). -/
def instructionStep (s : State) : Host.Outcome State Fault Refusal :=
  match fetch s with
  | .ok w s1 => execWord w s1
  | .exc e => .next ((takeException e s).addCycles s.cfg.cycleCostNone)
  | .stop r => .refused r

/-- GTE_IRQ_QUIRK (R94): the word at `pc`, if an interrupt step must execute it first. -/
def quirkWord (s : State) : Option Word :=
  if s.cfg.gteIrqQuirk && s.bslot.isNone && s.cu 2 then
    match fetch s with
    | .ok w _ =>
      match decode w with
      | .instr (.cop2Command _) => some w
      | _ => none
    | .exc _ => none
    | .stop _ => none
  else none

/-- An interrupt step (R94). -/
def interruptStep (s : State) : Host.Outcome State Fault Refusal :=
  match quirkWord s with
  | some w => mapNext (exceptionEntry .int s.pc none) (execWord w s)
  | none => .next (takeException .int s)

/-- One CPU step (R92, R93). -/
def cpuStep (s : State) : Host.Outcome State Fault Refusal :=
  if s.irqTaken then interruptStep s else instructionStep s

/-- One scheduler iteration (R244, R255): fire the due event, or take one CPU step. A state with the
mark `refused` has no further step (R49). -/
def iterate (s : State) : Host.Outcome State Fault Refusal :=
  match s.refusedMark with
  | some r => .refused r
  | none =>
    match s.dueEvent with
    | some e => fireEvent e s
    | none => cpuStep s

/-- The state with the word `w` stored at `pc`, where the next fetch reads it. BIOS is written too: the
host loads it before the first fetch (R250). Nothing changes where `pc` reaches no memory. -/
def storeWordAtPc (s : State) (w : Word) : State :=
  match (s.region s.pc).key with
  | some a => { s with mem := s.mem.writeLE a 4 w }
  | none =>
    match s.region s.pc with
    | .cacheCtrl => { s with cacheCtrl := w }
    | .ram _ | .scratch _ | .bios _ | .irqCtl _ | .dmaCtl _ | .device _ _ | .unmapped => s

end Sys2Proof.Machine
end

