-- ==== Sys2Proof/Machine/Step.lean ====
section
/-! DEFINITION. The machine's step: one scheduler iteration (60_exceptions.md R244). -/

namespace Sys2Proof.Machine

/-- One scheduler iteration: the firing of the due event, or one CPU step (R244). -/
def step (s : State) : Host.Outcome State Fault Refusal := iterate s

/-- `s` with an instruction word where the next fetch reads it (log entry 14). -/
def State.withFetchWord (s : State) (nbits w : Nat) : State :=
  storeWordAtPc s (tableWord nbits w)

end Sys2Proof.Machine
end

