-- ==== Sys2Proof/Machine/HostPort.lean ====
section
/-! DEFINITION. The host interface (70_reset_and_hazards.md R250, R255, R256; 60_exceptions.md R242,
R244): power-on with a boot image, stepping, and inspection. The host is no part of the emulated
machine; it acts between two steps. -/

namespace Sys2Proof.Machine

/-- Host-level errors (R20, R256). No step of the machine produces one. -/
inductive HostError where
  /-- `ConfigError::InvalidBootImage`: wrong size, or a failed BOOT_CHECKSUM (R250). Safe. -/
  | invalidBootImage
  /-- A parameter outside its range (R256). Safe. -/
  | invalidConfig
  /-- A snapshot that no state has (R20, R256). Safe. -/
  | malformedSnapshot
  /-- A host bus access to an Unmapped address (R255). Safe. -/
  | unmapped
  deriving DecidableEq, Repr

/-- The answer of a host operation. -/
inductive HostResult (α : Type) where
  /-- The operation's value and the state it leaves. -/
  | ok (v : α) (s : State)
  /-- A host-level error; the machine's state stays as it was (R256). -/
  | error (e : HostError)
  /-- A `refuse(...)`, with the state it has marked (R49, R256). -/
  | refused (r : Refusal) (s : State)

/-! ## Power-on (R250, R251) -/

/-- Whether a boot image is accepted (R250). -/
def bootImageOk (p : Params) (image : List Byte) : Bool :=
  image.length == biosSize && (!p.bootChecksumOn || Config.bootChecksum image)

/-- The bytes of an image stored from address `a` up. -/
def storeImage : List Byte → Nat → Memory → Memory
  | [], _, m => m
  | b :: rest, a, m => storeImage rest (a + 1) (m.set a b)

/-- Power-on: the parameters are checked (R256), the boot image is loaded (R250), and every other piece of
state has its reset value (R251). Where a parameter is out of range and the image is bad too, the answer is
`invalidConfig` (DESIGN CHOICE, log entry 31: no rule orders the two errors). -/
def powerOn (p : Params) (image : List Byte) : HostResult Unit :=
  if !p.valid then .error .invalidConfig
  else if bootImageOk p image then
    .ok () { State.reset with cfg := p, mem := storeImage image biosBase State.reset.mem }
  else .error .invalidBootImage

/-! ## Stepping (R244, R255) -/

/-- Set the mark `refused` (R49); a mark that is set stays as it is. -/
def State.mark (r : Refusal) (s : State) : State :=
  { s with refusedMark := s.refusedMark.or (some r) }

/-- One scheduler iteration as the host sees it: a refusal sets the mark `refused` and changes nothing
else (R49, R92). -/
def hostIterate (s : State) : State :=
  match step s with
  | .next t => t
  | .refused r => s.mark r

/-- `run_until(T)` (R244), within a number of iterations; `none` if they do not suffice. -/
def runUntil (T : Nat) : Nat → State → Option State
  | 0, _ => none
  | k + 1, s =>
    if s.refusedMark.isSome then some s
    else if s.dueEvent.isNone && decide (T ≤ s.sched.cycle) then some s
    else runUntil T k (hostIterate s)

/-- `schedule` called by the host (R242). -/
def hostSchedule (delay : Nat) (source : Source) (payload : Nat) (s : State) : State :=
  s.schedule delay source payload

/-! ## Inspection (R255) -/

/-- A register the host can read and write. -/
inductive HostReg where
  | general (r : Reg)
  | hi
  | lo
  | pc
  | cop0 (n : BitVec 5)
  deriving DecidableEq, Repr

/-- Read a register. JUMPDEST and a COP0 number without a register, which MFC0 reads as a draw, have no value
for the host, and no draw is made (DESIGN CHOICE, log entry 22). -/
def hostReadReg (r : HostReg) (s : State) : Option Word :=
  match r with
  | .general n => some (s.x n)
  | .hi => some s.hi
  | .lo => some s.lo
  | .pc => some s.pc
  | .cop0 n => readCop0 n s

/-- Write a COP0 register; the write bypasses the masks of MTC0 (R255). PRID and Cause.IP[7:2] are no
storage. -/
def hostWriteCop0 (n : BitVec 5) (v : Word) (s : State) : State :=
  match n with
  | 3#5 => { s with cop0 := { s.cop0 with bpc := v } }
  | 5#5 => { s with cop0 := { s.cop0 with bda := v } }
  | 7#5 => { s with cop0 := { s.cop0 with dcic := v } }
  | 8#5 => { s with cop0 := { s.cop0 with badVaddr := v } }
  | 9#5 => { s with cop0 := { s.cop0 with bdam := v } }
  | 11#5 => { s with cop0 := { s.cop0 with bpcm := v } }
  | 12#5 => { s with cop0 := { s.cop0 with sr := v } }
  | 13#5 =>
    { s with cop0 :=
        { s.cop0 with
          excCode := v.extractLsb' 2 5
          ipSw := v.extractLsb' 8 2
          ce := v.extractLsb' 28 2
          bd := v.getLsbD 31 } }
  | 14#5 => { s with cop0 := { s.cop0 with epc := v } }
  | _ => s

/-- Write a register. -/
def hostWriteReg (r : HostReg) (v : Word) (s : State) : State :=
  match r with
  | .general n => { s with regs := RegFile.write s.regs n v }
  | .hi => { s with hi := v }
  | .lo => { s with lo := v }
  | .pc => { s with pc := v }
  | .cop0 n => hostWriteCop0 n v s

/-- What the host gets of a part that began in `s`: an Unmapped address is a host error, not an exception
(R255); a refusal sets the mark of `s` and has no other effect (R49, R256). -/
def hostResult {α : Type} (s : State) (r : Res α) : HostResult α :=
  match r with
  | .ok v t => .ok v t
  | .exc _ => .error .unmapped
  | .stop r => .refused r (s.mark r)

/-- `n` bytes from `va` up, each read as a byte at its own address, little-endian. -/
def busReadBytes (va : Word) : Nat → State → Res Word
  | 0, s => .ok 0 s
  | n + 1, s =>
    (busRead va .byte .load s).bind fun b s1 =>
      (busReadBytes (va + 1) n s1).bind fun v s2 => .ok ((v <<< 8) ||| b) s2

/-- The low `n` bytes of `v` from `va` up, each written as a byte at its own address, little-endian. -/
def busWriteBytes (va : Word) : Nat → Word → State → Res Unit
  | 0, _, s => .ok () s
  | n + 1, v, s =>
    (busWrite va .byte (Width.byte.trunc v) s).bind fun _ s1 => busWriteBytes (va + 1) n (v >>> 8) s1

/-- A host bus read: the physical map without the CPU's alignment, privilege and cache-isolation checks; a
device register is reached as a CPU load reaches it (R255). DESIGN CHOICE: a misaligned read is its bytes,
each read at its own address (log entry 23), and the refusal of a data access in user mode with SR.RE = 1
is not made (log entry 33). -/
def hostBusRead (va : Word) (w : Width) (s : State) : HostResult Word :=
  hostResult s (if misaligned va w then busReadBytes va w.bytes s else busRead va w .load s)

/-- A host bus write (R255), with the choices of `hostBusRead` (log entries 23 and 33). -/
def hostBusWrite (va : Word) (w : Width) (v : Word) (s : State) : HostResult Unit :=
  hostResult s (if misaligned va w then busWriteBytes va w.bytes v s else busWrite va w v s)

end Sys2Proof.Machine
end

