-- ==== Sys2Proof/Safety.lean ====
section
/-! DEFINITION. What counts as a good state and a safe run: the invariants of the machine, each as a
decidable predicate, and runs that meet no refusal; and the vocabulary of the statements: what a completed
instruction leaves (R99, R100), what taking an exception leaves (R201), and the frame, which names
everything else. -/

namespace Sys2Proof.Machine

/-- The stored copy of `x[0]` is 0 (10_state.md R21, 40_execution.md R101). -/
def State.zeroRegOk (s : State) : Bool := s.regs[0] == 0

/-- Bits of SR outside SR_WMASK are 0 (R32, R33). -/
def State.srOk (s : State) : Bool := s.cop0.sr &&& ~~~s.cfg.ieStackLevels.srWriteMask == 0

/-- The memory image is in its canonical form. -/
def State.memOk (s : State) : Bool := s.mem.wf

/-- An address of RAM, SCRATCH or BIOS (R48, R56). -/
def inImage (a : Nat) : Bool :=
  decide (a < ramSize) || within a scratchBase scratchSize || within a biosBase biosSize

/-- The memory image lists addresses of RAM, SCRATCH and BIOS only. -/
def State.imageOk (s : State) : Bool := s.mem.all fun c => inImage c.1

/-- Under FIRST_WINS the branch of a pending slot stands just before `pc` (60_exceptions.md R202). -/
def State.slotOk (s : State) : Bool :=
  match s.cfg.nestedBranch with
  | .mipsChain => true
  | .firstWins =>
    match s.bslot with
    | none => true
    | some b => s.pc == b.bpc + 4

/-- Sequence numbers rise along the queue, all below a bound (R242). -/
def seqsRise : List Event → Nat → Bool
  | [], _ => true
  | [e], bound => decide (e.seq < bound)
  | e :: f :: rest, bound => decide (e.seq < f.seq) && seqsRise (f :: rest) bound

/-- The queue stands in insertion order and every sequence number has been given out (R242). -/
def State.queueOk (s : State) : Bool := seqsRise s.sched.queue s.sched.nextSeq

/-- The number of queued events of DMA channel `n`. -/
def dmaEvents (n : ChanNum) (q : List Event) : Nat := q.countP fun e => e.source == .dma n

/-- A channel that is not Idle has exactly one queued event, an Idle one none (R240). -/
def State.dmaQueueOk (s : State) : Bool :=
  allChannels.all fun n =>
    dmaEvents n s.sched.queue == if (s.chan n).phase == .idle then 0 else 1

/-- The bits of CHCR[n] that can be set (R228). -/
def chcrMask (n : ChanNum) : Word := if n = 6 then 0x51000000 else 0x71770703

/-- The other bits of each CHCR[n] are 0 (R228), and DICR's reserved bits (R230). -/
def State.dmaRegsOk (s : State) : Bool :=
  (allChannels.all fun n => (s.chan n).chcr &&& ~~~chcrMask n == 0)
    && s.dma.dicrCtl &&& ~~~0xFF803F == 0

/-- All of the invariants. -/
def State.good (s : State) : Bool :=
  s.zeroRegOk && s.srOk && s.memOk && s.imageOk && s.slotOk && s.queueOk && s.dmaQueueOk && s.dmaRegsOk

/-- The state is not marked refused (R49). -/
def State.running (s : State) : Bool := s.refusedMark.isNone

/-- `n` steps from `s` meet no refusal: each has a next state. -/
def safeRun : Nat → State → Prop
  | 0, _ => True
  | n + 1, s => ∃ t, step s = .next t ∧ safeRun n t

end Sys2Proof.Machine

namespace Sys2Proof.Claims

open Sys2Proof.Machine

/-! ## The vocabulary -/

/-- `s` with this step's entry of the stall input used up (R245; the model's own input list). -/
def stallTaken (s : State) : State :=
  { s with inputs := { s.inputs with stalls := s.inputs.stalls.tail } }

/-- Everything but the general registers, the two slots, `pc`, the cycle count and the hazard history is
in `t` as it is in `s`; memory is compared byte by byte. -/
structure Frame (s t : State) : Prop where
  cfg : t.cfg = s.cfg
  hi : t.hi = s.hi
  lo : t.lo = s.lo
  cop0 : t.cop0 = s.cop0
  irq : t.irq = s.irq
  dma : t.dma = s.dma
  queue : t.sched.queue = s.sched.queue
  nextSeq : t.sched.nextSeq = s.sched.nextSeq
  gteReady : t.gteReady = s.gteReady
  memory : ∀ a, t.mem.get a = s.mem.get a
  cacheCtrl : t.cacheCtrl = s.cacheCtrl
  inputs : t.inputs = s.inputs
  calls : t.calls = s.calls
  refusedMark : t.refusedMark = s.refusedMark

/-- R99: the general registers and the pending load after a direct write `wreg` and a delayed write
`lnew`. The direct write wins; the pending load takes effect unless a new load of the same register
cancels it; every other register keeps its value. -/
structure RegsAfter (s t : State) (wreg : Option (Reg × Word)) (lnew : Option LoadSlot) : Prop where
  zero : t.x 0 = 0
  direct : ∀ r v, wreg = some (r, v) → r ≠ 0 → t.x r = v
  loaded : ∀ l, s.lslot = some l → l.reg ≠ 0 → (∀ v, wreg ≠ some (l.reg, v)) →
    (∀ n, lnew = some n → n.reg ≠ l.reg) → t.x l.reg = l.val
  kept : ∀ r, (∀ v, wreg ≠ some (r, v)) →
    (∀ l, s.lslot = some l → l.reg = r → ∃ n, lnew = some n ∧ n.reg = r) → t.x r = s.x r
  pending : t.lslot = lnew

/-- R100: where a completed instruction leaves `pc` and the pending-branch slot. -/
structure PcAfter (s t : State) (branch : Option BranchTarget) : Prop where
  taken : ∀ a p, s.bslot = some ⟨.taken a, p⟩ → t.pc = a
  notTaken : ∀ p, s.bslot = some ⟨.notTaken, p⟩ → t.pc = s.pc + 4
  plain : s.bslot = none → t.pc = s.pc + 4
  noBranch : branch = none → t.bslot = none
  ownBranch : ∀ b, branch = some b → (s.bslot = none ∨ s.cfg.nestedBranch = .mipsChain) →
    t.bslot = some ⟨b, s.pc⟩
  discarded : ∀ b, branch = some b → s.bslot ≠ none → s.cfg.nestedBranch = .firstWins → t.bslot = none

/-- MFHI and MFLO. -/
def readsHilo : Instr → Bool
  | .mfhi _ => true
  | .mflo _ => true
  | _ => false

/-- MULT, MULTU, DIV and DIVU. -/
def multipliesOrDivides : Instr → Bool
  | .mult _ _ => true
  | .multu _ _ => true
  | .div _ _ => true
  | .divu _ _ => true
  | _ => false

/-- The registers, slots, `pc`, hazard history and cycle count after the completed instruction `i`, which
cost `extra` cycles beyond its stall input. -/
structure Completed (i : Instr) (s t : State) (wreg : Option (Reg × Word)) (lnew : Option LoadSlot)
    (branch : Option BranchTarget) (extra : Nat := 0) : Prop where
  regs : RegsAfter s t wreg lnew
  pc : PcAfter s t branch
  cycle : t.sched.cycle = s.sched.cycle + extra + s.inputs.stalls.headD 0
  history : t.hist =
    { readLast := readsHilo i
      readBefore := s.hist.readLast
      mulDivOpen := multipliesOrDivides i || (s.hist.mulDivOpen && !readsHilo i) }

/-- `i` has a next state, which is that of its own results, and nothing else changes. -/
def Completes (i : Instr) (s : State) (wreg : Option (Reg × Word)) (lnew : Option LoadSlot)
    (branch : Option BranchTarget) : Prop :=
  ∃ t, exec i s = .next t ∧ Completed i s t wreg lnew branch ∧ Frame (stallTaken s) t

/-- `i` completes with the direct write `x[r] <- v` and nothing else. -/
def Writes (i : Instr) (s : State) (r : Reg) (v : Word) : Prop := Completes i s (some (r, v)) none none

/-- `i` completes with the delayed write `x[r] <- v` and nothing else. -/
def Loads (i : Instr) (s : State) (r : Reg) (v : Word) : Prop := Completes i s none (some ⟨r, v⟩) none

/-- `i` completes with the branch result `b` and nothing else. -/
def Branches (i : Instr) (s : State) (b : BranchTarget) : Prop := Completes i s none none (some b)

/-- `i` completes with the branch result `b` and the link write `x[r] <- ipc + 8`. -/
def Links (i : Instr) (s : State) (r : Reg) (b : BranchTarget) : Prop :=
  Completes i s (some (r, s.pc + 8)) none (some b)

/-- `i` completes, writes no general register, and otherwise leaves what `after` says. -/
def Leaves (i : Instr) (s after : State) : Prop :=
  ∃ t, exec i s = .next t ∧ Completed i s t none none none ∧ Frame (stallTaken after) t

/-- `i` completes with the delayed write `x[r] <- v`, where `v` has taken one draw, and nothing else. -/
def LoadsDraw (i : Instr) (s : State) (r : Reg) (v : Word) : Prop :=
  ∃ t, exec i s = .next t ∧ Completed i s t none (some ⟨r, v⟩) none ∧ Frame (stallTaken s.nextDraw) t

/-- R231: the configurations of channel `n` that the hardware does not define. -/
abbrev BadDmaConfig (s : State) (n : ChanNum) : Prop :=
  (s.chan n).chcr.extractLsb' 9 2 = 3 ∨
    ((s.chan n).chcr.extractLsb' 9 2 = 2 ∧ (s.chan n).chcr.getLsbD 0 = false)

/-- R231: `t` is `s` after the start of each channel of a list for which StartCond holds, in its order. -/
def Started : List ChanNum → State → State → Prop
  | [], s, t => t = s
  | n :: rest, s, t =>
    (startCond s n = true → ∃ u, dmaStart n s = .ok () u ∧ Started rest u t) ∧
    (startCond s n = false → Started rest s t)

/-- `i` completes: it leaves `stored` and then starts the channels for which StartCond holds, in increasing
number (R231); or it is refused, where one of these has a configuration the hardware does not define. -/
def StoresAndStarts (i : Instr) (s stored : State) : Prop :=
  ((∃ m, startCond stored m = true ∧ BadDmaConfig stored m) → exec i s = .refused .dmaConfig) ∧
  ((∀ m, startCond stored m = true → ¬ BadDmaConfig stored m) →
    ∃ after, Started [0, 1, 2, 3, 4, 5, 6] stored after ∧ Leaves i s after)

/-- `s` with this sample's entry of the DREQ input used up (R234; the model's own input list). -/
def dreqTaken (s : State) : State :=
  { s with inputs := { s.inputs with dreq := s.inputs.dreq.tail } }

/-- R228, R232: the address of a channel after `i` words. -/
def dmaStep (c : DmaChannel) (i : Nat) : BitVec 24 :=
  if c.chcr.getLsbD 1 then c.addr - 4 * BitVec.ofNat 24 i else c.addr + 4 * BitVec.ofNat 24 i

/-- R232, R233, R235: `u` is `s` after channel `n`, one of 0 to 5, has moved `k` words, up or down from its
address: to the device each RAM word is sent, from the device each is a draw; the bus time is charged, and
nothing but the channel's own state changes beside. -/
structure DmaMoved (n : ChanNum) (k : Nat) (s u : State) : Prop where
  rest : u = { s with
    dma := u.dma, mem := u.mem, calls := u.calls, inputs := u.inputs, sched := u.sched }
  others : ∀ m, m ≠ n → u.chan m = s.chan m
  shared : u.dma.dpcr = s.dma.dpcr ∧ u.dma.dicrCtl = s.dma.dicrCtl ∧ u.dma.dicrFlag = s.dma.dicrFlag
  time : u.sched = { s.sched with cycle := s.sched.cycle + k * s.cfg.dmaWordCycles }
  toDevice : (s.chan n).chcr.getLsbD 0 = true →
    u.mem = s.mem ∧ u.inputs = s.inputs ∧
    u.calls = ((List.range k).map fun i =>
      ExtCall.dmaWrite n (s.ramWord (dmaStep (s.chan n) i))).reverse ++ s.calls
  fromDevice : (s.chan n).chcr.getLsbD 0 = false →
    u.calls = List.replicate k (ExtCall.dmaRead n) ++ s.calls ∧
    u.inputs = { s.inputs with drawIndex := s.inputs.drawIndex + k } ∧
    (∀ i < k, u.ramWord (dmaStep (s.chan n) i) = Config.freeWord (s.inputs.drawIndex + i)) ∧
    (∀ b : BitVec 24, (∀ i < k, dmaKey b ≠ dmaKey (dmaStep (s.chan n) i)) → u.ramWord b = s.ramWord b) ∧
    ∀ p, ramSize ≤ p → u.mem.get p = s.mem.get p

/-- R203: `new` is `old` with the interrupt-enable/mode stack pushed by one level of zeros. -/
def Pushed (l : IeStackLevels) (old new : Word) : Prop :=
  match l with
  | .four => new.extractLsb' 0 2 = 0 ∧ new.extractLsb' 2 6 = old.extractLsb' 0 6 ∧
      new.extractLsb' 8 24 = old.extractLsb' 8 24
  | .three => new.extractLsb' 0 2 = 0 ∧ new.extractLsb' 2 4 = old.extractLsb' 0 4 ∧
      new.extractLsb' 6 26 = old.extractLsb' 6 26

/-- R180: `new` is `old` with the stack popped by one level, the top level keeping its value. -/
def Popped (l : IeStackLevels) (old new : Word) : Prop :=
  match l with
  | .four => new.extractLsb' 0 6 = old.extractLsb' 2 6 ∧ new.extractLsb' 6 26 = old.extractLsb' 6 26
  | .three => new.extractLsb' 0 4 = old.extractLsb' 2 4 ∧ new.extractLsb' 4 28 = old.extractLsb' 4 28

/-- R201: what taking an exception leaves: `code` and `ce` in Cause, the bad address if there is one,
EPC and BD from `faultPc` or from the branch of its delay slot, the pending load committed, the stack
pushed, `pc` at the vector; nothing else changes. -/
structure Trapped (code : BitVec 5) (ce : BitVec 2) (bad : Option Word) (faultPc : Word)
    (slot : Option Word) (s t : State) : Prop where
  regs : RegsAfter s t none none
  excCode : t.cop0.excCode = code
  bd : t.cop0.bd = slot.isSome
  ce : t.cop0.ce = ce
  epc : t.cop0.epc = match slot with
    | some bpc => bpc
    | none => faultPc
  badVaddr : t.cop0.badVaddr = match bad with
    | some a => a
    | none => s.cop0.badVaddr
  sr : Pushed s.cfg.ieStackLevels s.cop0.sr t.cop0.sr
  ipSw : t.cop0.ipSw = s.cop0.ipSw
  debug : (t.cop0.bpc, t.cop0.bda, t.cop0.dcic, t.cop0.bdam, t.cop0.bpcm) =
    (s.cop0.bpc, s.cop0.bda, s.cop0.dcic, s.cop0.bdam, s.cop0.bpcm)
  pc : t.pc = if s.cop0.sr.getLsbD 22 then 0xBFC00180 else 0x80000080
  bslot : t.bslot = none
  cycle : t.sched.cycle = s.sched.cycle + s.cfg.excEntryCost
  hist : t.hist = s.hist
  frame : Frame { s with cop0 := t.cop0 } t

/-- `i` raises an exception, which is taken: the instruction itself has no effect (R102). -/
def Traps (i : Instr) (s : State) (code : BitVec 5) (ce : BitVec 2) (bad : Option Word) : Prop :=
  ∃ t, exec i s = .next t ∧ Trapped code ce bad s.pc (s.bslot.map BranchSlot.bpc) s t

/-- The effective address of a load or store (R160). -/
def eaOf (s : State) (rs : Reg) (imm : Half) : Word := s.x rs + imm.signExtend 32

/-- The aligned word an address lies in. -/
def wordOf (va : Word) : Word := va &&& 0xFFFFFFFC

/-- User mode (R210). -/
abbrev inUserMode (s : State) : Prop := s.cop0.sr.getLsbD 1 = true

/-- A data access at `va` is not turned away before its region is selected (R62, R63). -/
structure Reaches (s : State) (va : Word) (w : Width) : Prop where
  aligned : va.toNat % w.bytes = 0
  permitted : ¬ (inUserMode s ∧ va.getLsbD 31 = true)
  ordinary : ¬ (inUserMode s ∧ s.cop0.sr.getLsbD 25 = true)
  notIsolated : s.isolated va = false

/-- The byte an address reaches, when it reaches RAM, SCRATCH or BIOS. -/
def byteAt (s : State) (va : Word) : Option Byte := (s.region va).key.map s.mem.get

/-- The word an instruction fetch reads at `pc`, when it reaches memory or CACHE_CTRL (R95). -/
def fetched (s : State) : Option Word :=
  if s.pc.toNat % 4 = 0 ∧ ¬ (inUserMode s ∧ s.pc.getLsbD 31 = true) then
    match s.region s.pc with
    | .cacheCtrl => some s.cacheCtrl
    | r => r.key.map fun k =>
        wordOfBytes (s.mem.get k) (s.mem.get (k + 1)) (s.mem.get (k + 2)) (s.mem.get (k + 3))
  else none

/-- No event is due, no interrupt is taken and the mark is clear: the next step is an instruction step. -/
structure AtInstruction (s : State) : Prop where
  unmarked : s.refusedMark = none
  noEvent : s.dueEvent = none
  noInterrupt : s.irqTaken = false

/-- No sequence of R142 is under way, for an instruction that writes HI or LO. -/
def NoHazard (s : State) : Prop :=
  s.cfg.hiloHazard = .sequential ∨ (s.hist.readLast = false ∧ s.hist.readBefore = false)

/-- The bits of an instruction's word that R86 does not list as ignored. -/
def significant : Instr → Word
  | .sll _ _ _ | .srl _ _ _ | .sra _ _ _ => 0xFC1FFFFF
  | .sllv _ _ _ | .srlv _ _ _ | .srav _ _ _ => 0xFFFFF83F
  | .add _ _ _ | .addu _ _ _ | .sub _ _ _ | .subu _ _ _ | .and _ _ _ | .or _ _ _ => 0xFFFFF83F
  | .xor _ _ _ | .nor _ _ _ | .slt _ _ _ | .sltu _ _ _ => 0xFFFFF83F
  | .jr _ | .mthi _ | .mtlo _ => 0xFFE0003F
  | .jalr _ _ => 0xFFE0F83F
  | .mfhi _ | .mflo _ => 0xFC00F83F
  | .mult _ _ | .multu _ _ | .div _ _ | .divu _ _ => 0xFFFF003F
  | .blez _ _ | .bgtz _ _ => 0xFFE0FFFF
  | .lui _ _ => 0xFC1FFFFF
  | .mfc0 _ _ | .mtc0 _ _ | .mfc2 _ _ | .cfc2 _ _ | .mtc2 _ _ | .ctc2 _ _ => 0xFFFFF800
  | .rfe => 0xFE00003F
  | .bltz _ _ _ | .bgez _ _ _ | .bltzal _ _ | .bgezal _ _ | .j _ | .jal _ | .beq _ _ _ | .bne _ _ _ => 0xFFFFFFFF
  | .addi _ _ _ | .addiu _ _ _ | .slti _ _ _ | .sltiu _ _ _ | .andi _ _ _ | .ori _ _ _ | .xori _ _ _ => 0xFFFFFFFF
  | .syscall _ | .brk _ | .cop1 _ | .cop3 _ | .cop2Command _ => 0xFFFFFFFF
  | .lb _ _ _ | .lh _ _ _ | .lwl _ _ _ | .lw _ _ _ | .lbu _ _ _ | .lhu _ _ _ | .lwr _ _ _ => 0xFFFFFFFF
  | .sb _ _ _ | .sh _ _ _ | .swl _ _ _ | .sw _ _ _ | .swr _ _ _ => 0xFFFFFFFF
  | .lwc0 _ _ _ | .lwc1 _ _ _ | .lwc2 _ _ _ | .lwc3 _ _ _ => 0xFFFFFFFF
  | .swc0 _ _ _ | .swc1 _ _ _ | .swc2 _ _ _ | .swc3 _ _ _ => 0xFFFFFFFF

/-- The general register that an instruction writes, at once or delayed (R98), if it completes. -/
def destination : Instr → Option Reg
  | .sll rd _ _ | .srl rd _ _ | .sra rd _ _ | .sllv rd _ _ | .srlv rd _ _ | .srav rd _ _ => some rd
  | .add rd _ _ | .addu rd _ _ | .sub rd _ _ | .subu rd _ _ | .and rd _ _ | .or rd _ _ => some rd
  | .xor rd _ _ | .nor rd _ _ | .slt rd _ _ | .sltu rd _ _ => some rd
  | .jalr rd _ | .mfhi rd | .mflo rd => some rd
  | .bltzal _ _ | .bgezal _ _ | .jal _ => some 31
  | .addi rt _ _ | .addiu rt _ _ | .slti rt _ _ | .sltiu rt _ _ | .andi rt _ _ | .ori rt _ _ => some rt
  | .xori rt _ _ | .lui rt _ => some rt
  | .lb rt _ _ | .lh rt _ _ | .lwl rt _ _ | .lw rt _ _ | .lbu rt _ _ | .lhu rt _ _ => some rt
  | .lwr rt _ _ => some rt
  | .mfc0 rt _ | .mfc2 rt _ | .cfc2 rt _ => some rt
  | .jr _ | .syscall _ | .brk _ | .mthi _ | .mtlo _ | .mult _ _ | .multu _ _ | .div _ _ | .divu _ _ => none
  | .bltz _ _ _ | .bgez _ _ _ | .j _ | .beq _ _ _ | .bne _ _ _ | .blez _ _ | .bgtz _ _ => none
  | .sb _ _ _ | .sh _ _ _ | .swl _ _ _ | .sw _ _ _ | .swr _ _ _ => none
  | .lwc0 _ _ _ | .lwc1 _ _ _ | .lwc2 _ _ _ | .lwc3 _ _ _ => none
  | .swc0 _ _ _ | .swc1 _ _ _ | .swc2 _ _ _ | .swc3 _ _ _ => none
  | .mtc0 _ _ | .rfe | .cop1 _ | .cop3 _ | .mtc2 _ _ | .ctc2 _ _ | .cop2Command _ => none

/-- R93: the condition for an interrupt, from SR.IEc, SR.IM and the connected request bits (R209): the
controller's signal in bit 2, the software bits in bits 1 and 0. -/
abbrev InterruptHolds (s : State) : Prop :=
  s.cop0.sr.getLsbD 0 = true ∧
    ((s.cop0.sr.getLsbD 8 = true ∧ s.cop0.ipSw.getLsbD 0 = true) ∨
      (s.cop0.sr.getLsbD 9 = true ∧ s.cop0.ipSw.getLsbD 1 = true) ∨
      (s.cop0.sr.getLsbD 10 = true ∧ s.irq.stat &&& s.irq.mask ≠ 0))

end Sys2Proof.Claims
end

