-- ==== Sys2Proof/Certificates/Slice0/Obligations.lean ====
section
/-! DEFINITION. The statements for the provers, one `def Obligations.<Name> : Prop` each. Their
vocabulary (`Completes`, `Frame`, `Trapped` and the rest) stands in Sys2Proof/Safety.lean; the model's own
fields (`inputs`, `hist`, `calls`) are in the frame too. -/

section Statements

open Sys2Proof Sys2Proof.Machine Sys2Proof.Claims

/-! ## Decoding -/

/-- R92, R95, R245: where the fetched bytes decode to a well-formed instruction, the step is that
instruction's execution, and CYCLE_COST of its word is added to the cycle count. -/
def Obligations.StepRunsDecodedInstruction : Prop :=
  ∀ (s : State) (w : Word) (i : Instr), AtInstruction s → fetched s = some w →
    decodeBytes (bytesOfWord w) = .ok (.instr i, []) → i.wellFormed = true →
      step s = mapNext (fun t => t.addCycles (s.cfg.cycleCost w)) (exec i s)

/-- R81 to R86: the decoder reads back every well-formed instruction, with every operand at every value. -/
def Obligations.DecodeOfEncode : Prop :=
  ∀ i : Instr, i.wellFormed = true → decode (encode i) = .instr i

/-- R86, R89: a word that decodes to an instruction is that instruction's word in every bit that is not
an ignored field, and the instruction is well-formed. -/
def Obligations.EncodeOfDecode : Prop :=
  ∀ (w : Word) (i : Instr), decode w = .instr i →
    i.wellFormed = true ∧ w &&& significant i = encode i

/-- Example words of the spec's rules (R108, R118, R124, R145, R153, R156, R162, R173, R176, R178, R180,
R193, R197), as bits. -/
def Obligations.WrittenWordsDecode : Prop :=
  decode 0b000000_01000_01001_01010_00000_100000#32 = .instr (.add 10 8 9) ∧
  decode 0b000000_00000_01001_01010_00100_000000#32 = .instr (.sll 10 9 4) ∧
  decode 0b001000_01000_01001_1111111111111111#32 = .instr (.addi 9 8 0xFFFF) ∧
  decode 0b000100_01000_01001_0000000000000011#32 = .instr (.beq 8 9 3) ∧
  decode 0b000010_00000000000100100011010000#32 = .instr (.j 0x48D0) ∧
  decode 0b000000_01000_00000_11111_00000_001001#32 = .instr (.jalr 31 8) ∧
  decode 0b100000_00100_01000_1111111111111100#32 = .instr (.lb 8 0xFFFC 4) ∧
  decode 0b101110_00100_01000_0000000000000010#32 = .instr (.swr 8 2 4) ∧
  decode 0b000000_00000001001000110100_001101#32 = .instr (.brk 0x01234) ∧
  decode 0b010000_00000_01000_01100_00000000000#32 = .instr (.mfc0 8 12) ∧
  decode 0b010000_1_0000000000000000000_010000#32 = .instr .rfe ∧
  decode 0b010010_00100_01000_00101_00000000000#32 = .instr (.mtc2 8 5) ∧
  decode 0b010010_1_0000110000000000000000001#32 = .instr (.cop2Command 0x180001)

/-- R87, R181, R187, R198: the words outside the opcode table. Exactly the listed words are reserved, and
each of them takes RI (code 10); a COP0 word that is no MFC0, MTC0 or RFE, and a COP2 word with bit 25
clear that is no move, take CpU (code 11) when their coprocessor is unusable and are refused otherwise. -/
def Obligations.WordsOutsideTheTable : Prop :=
  ∀ (w : Word) (s : State),
    ((w.extractLsb' 26 6).toNat ∈
        [20, 21, 22, 23, 24, 25, 26, 27, 28, 29, 30, 31, 39, 44, 45, 47, 52, 53, 54, 55, 60, 61, 62, 63] ∨
      ((w.extractLsb' 26 6).toNat = 0 ∧ (w.extractLsb' 0 6).toNat ∈
        [1, 5, 10, 11, 14, 15, 20, 21, 22, 23, 28, 29, 30, 31, 40, 41, 44, 45, 46, 47, 48, 49, 50, 51, 52,
          53, 54, 55, 56, 57, 58, 59, 60, 61, 62, 63]) ↔ decode w = .reserved) ∧
    (decode w = .reserved → ∃ t, execDecoded (decode w) s = .next t ∧
      Trapped 10 0 none s.pc (s.bslot.map BranchSlot.bpc) s t) ∧
    (w.extractLsb' 26 6 = 16#6 →
      ¬ (w.getLsbD 25 = true ∧ w.extractLsb' 0 6 = 0x10#6) →
      ¬ (w.getLsbD 25 = false ∧ (w.extractLsb' 21 5 = 0#5 ∨ w.extractLsb' 21 5 = 4#5)) →
      ((inUserMode s ∧ s.cop0.sr.getLsbD 28 = false) →
        ∃ t, execDecoded (decode w) s = .next t ∧
          Trapped 11 0 none s.pc (s.bslot.map BranchSlot.bpc) s t) ∧
      (¬ (inUserMode s ∧ s.cop0.sr.getLsbD 28 = false) →
        execDecoded (decode w) s = .refused .unmodelledCop)) ∧
    (w.extractLsb' 26 6 = 18#6 → w.getLsbD 25 = false →
      ¬ (w.extractLsb' 21 5 = 0#5 ∨ w.extractLsb' 21 5 = 2#5 ∨ w.extractLsb' 21 5 = 4#5 ∨
        w.extractLsb' 21 5 = 6#5) →
      (s.cop0.sr.getLsbD 30 = false →
        ∃ t, execDecoded (decode w) s = .next t ∧
          Trapped 11 2 none s.pc (s.bslot.map BranchSlot.bpc) s t) ∧
      (s.cop0.sr.getLsbD 30 = true → execDecoded (decode w) s = .refused .unmodelledCop))

/-! ## Integer arithmetic and logic -/

/-- R109, R111 to R117: encoding and result of the three-register instructions that never trap. -/
def Obligations.RegisterResults : Prop :=
  ∀ (rd rs rt : Reg) (sa : BitVec 5) (s : State),
    (decode (encodeR rs rt rd sa 0x21) = .instr (.addu rd rs rt) ∧
      Writes (.addu rd rs rt) s rd (s.x rs + s.x rt)) ∧
    (decode (encodeR rs rt rd sa 0x23) = .instr (.subu rd rs rt) ∧
      Writes (.subu rd rs rt) s rd (s.x rs - s.x rt)) ∧
    (decode (encodeR rs rt rd sa 0x24) = .instr (.and rd rs rt) ∧
      Writes (.and rd rs rt) s rd (s.x rs &&& s.x rt)) ∧
    (decode (encodeR rs rt rd sa 0x25) = .instr (.or rd rs rt) ∧
      Writes (.or rd rs rt) s rd (s.x rs ||| s.x rt)) ∧
    (decode (encodeR rs rt rd sa 0x26) = .instr (.xor rd rs rt) ∧
      Writes (.xor rd rs rt) s rd (s.x rs ^^^ s.x rt)) ∧
    (decode (encodeR rs rt rd sa 0x27) = .instr (.nor rd rs rt) ∧
      Writes (.nor rd rs rt) s rd (~~~(s.x rs ||| s.x rt))) ∧
    (decode (encodeR rs rt rd sa 0x2A) = .instr (.slt rd rs rt) ∧
      Writes (.slt rd rs rt) s rd (if (s.x rs).toInt < (s.x rt).toInt then 1 else 0)) ∧
    (decode (encodeR rs rt rd sa 0x2B) = .instr (.sltu rd rs rt) ∧
      Writes (.sltu rd rs rt) s rd (if (s.x rs).toNat < (s.x rt).toNat then 1 else 0))

/-- R125 to R131: encoding and result of the immediate instructions that never trap. -/
def Obligations.ImmediateResults : Prop :=
  ∀ (rt rs : Reg) (imm : Half) (s : State),
    (decode (encodeI 0x09 rs rt imm) = .instr (.addiu rt rs imm) ∧
      Writes (.addiu rt rs imm) s rt (s.x rs + imm.signExtend 32)) ∧
    (decode (encodeI 0x0A rs rt imm) = .instr (.slti rt rs imm) ∧
      Writes (.slti rt rs imm) s rt (if (s.x rs).toInt < imm.toInt then 1 else 0)) ∧
    (decode (encodeI 0x0B rs rt imm) = .instr (.sltiu rt rs imm) ∧
      Writes (.sltiu rt rs imm) s rt (if (s.x rs).toNat < (imm.signExtend 32).toNat then 1 else 0)) ∧
    (decode (encodeI 0x0C rs rt imm) = .instr (.andi rt rs imm) ∧
      Writes (.andi rt rs imm) s rt (s.x rs &&& imm.setWidth 32)) ∧
    (decode (encodeI 0x0D rs rt imm) = .instr (.ori rt rs imm) ∧
      Writes (.ori rt rs imm) s rt (s.x rs ||| imm.setWidth 32)) ∧
    (decode (encodeI 0x0E rs rt imm) = .instr (.xori rt rs imm) ∧
      Writes (.xori rt rs imm) s rt (s.x rs ^^^ imm.setWidth 32)) ∧
    (decode (encodeI 0x0F rs rt imm) = .instr (.lui rt imm) ∧
      Writes (.lui rt imm) s rt (imm ++ 0#16))

/-- R118 to R123: encoding and result of the shifts; a variable amount counts in its low 5 bits. -/
def Obligations.ShiftResults : Prop :=
  ∀ (rd rt rs : Reg) (sa : BitVec 5) (s : State),
    (decode (encodeR rs rt rd sa 0x00) = .instr (.sll rd rt sa) ∧
      Writes (.sll rd rt sa) s rd (s.x rt <<< sa.toNat)) ∧
    (decode (encodeR rs rt rd sa 0x02) = .instr (.srl rd rt sa) ∧
      Writes (.srl rd rt sa) s rd (s.x rt >>> sa.toNat)) ∧
    (decode (encodeR rs rt rd sa 0x03) = .instr (.sra rd rt sa) ∧
      Writes (.sra rd rt sa) s rd ((s.x rt).sshiftRight sa.toNat)) ∧
    (decode (encodeR rs rt rd sa 0x04) = .instr (.sllv rd rt rs) ∧
      Writes (.sllv rd rt rs) s rd (s.x rt <<< ((s.x rs).toNat % 32))) ∧
    (decode (encodeR rs rt rd sa 0x06) = .instr (.srlv rd rt rs) ∧
      Writes (.srlv rd rt rs) s rd (s.x rt >>> ((s.x rs).toNat % 32))) ∧
    (decode (encodeR rs rt rd sa 0x07) = .instr (.srav rd rt rs) ∧
      Writes (.srav rd rt rs) s rd ((s.x rt).sshiftRight ((s.x rs).toNat % 32)))

/-- R107, R108, R110, R124: ADD, SUB and ADDI write the exact result when it is a signed 32-bit number,
and otherwise take Ov (code 12) and write nothing. -/
def Obligations.CheckedArithmetic : Prop :=
  ∀ (rd rs rt : Reg) (sa : BitVec 5) (imm : Half) (s : State),
    (decode (encodeR rs rt rd sa 0x20) = .instr (.add rd rs rt) ∧
      ∀ n, n = (s.x rs).toInt + (s.x rt).toInt →
        (-2147483648 ≤ n ∧ n ≤ 2147483647 → ∃ v : Word, v.toInt = n ∧ Writes (.add rd rs rt) s rd v) ∧
        (¬ (-2147483648 ≤ n ∧ n ≤ 2147483647) → Traps (.add rd rs rt) s 12 0 none)) ∧
    (decode (encodeR rs rt rd sa 0x22) = .instr (.sub rd rs rt) ∧
      ∀ n, n = (s.x rs).toInt - (s.x rt).toInt →
        (-2147483648 ≤ n ∧ n ≤ 2147483647 → ∃ v : Word, v.toInt = n ∧ Writes (.sub rd rs rt) s rd v) ∧
        (¬ (-2147483648 ≤ n ∧ n ≤ 2147483647) → Traps (.sub rd rs rt) s 12 0 none)) ∧
    (decode (encodeI 0x08 rs rt imm) = .instr (.addi rt rs imm) ∧
      ∀ n, n = (s.x rs).toInt + imm.toInt →
        (-2147483648 ≤ n ∧ n ≤ 2147483647 → ∃ v : Word, v.toInt = n ∧ Writes (.addi rt rs imm) s rt v) ∧
        (¬ (-2147483648 ≤ n ∧ n ≤ 2147483647) → Traps (.addi rt rs imm) s 12 0 none))

/-! ## Multiply, divide, HI and LO -/

/-- R132, R134, R135: HI and LO hold the exact 64-bit product. -/
def Obligations.ProductInHiLo : Prop :=
  ∀ (rs rt rd : Reg) (sa : BitVec 5) (s : State),
    decode (encodeR rs rt rd sa 0x18) = .instr (.mult rs rt) ∧
    decode (encodeR rs rt rd sa 0x19) = .instr (.multu rs rt) ∧
    (NoHazard s →
    (∃ t, exec (.mult rs rt) s = .next t ∧ Completed (.mult rs rt) s t none none none ∧
      (t.hi ++ t.lo).toInt = (s.x rs).toInt * (s.x rt).toInt ∧
      Frame { stallTaken s with hi := t.hi, lo := t.lo } t) ∧
    (∃ t, exec (.multu rs rt) s = .next t ∧ Completed (.multu rs rt) s t none none none ∧
      (t.hi ++ t.lo).toNat = (s.x rs).toNat * (s.x rt).toNat ∧
      Frame { stallTaken s with hi := t.hi, lo := t.lo } t))

/-- R136, R137: the quotient in LO and the remainder in HI, division by zero and the one overflowing
quotient included. -/
def Obligations.QuotientAndRemainder : Prop :=
  ∀ (rs rt rd : Reg) (sa : BitVec 5) (s : State),
    decode (encodeR rs rt rd sa 0x1A) = .instr (.div rs rt) ∧
    decode (encodeR rs rt rd sa 0x1B) = .instr (.divu rs rt) ∧
    (NoHazard s →
    (∃ t, exec (.div rs rt) s = .next t ∧ Completed (.div rs rt) s t none none none ∧
      Frame { stallTaken s with hi := t.hi, lo := t.lo } t ∧
      (s.x rt = 0 → t.hi = s.x rs ∧ t.lo = if 0 ≤ (s.x rs).toInt then 0xFFFFFFFF else 1) ∧
      (s.x rs = 0x80000000 → s.x rt = 0xFFFFFFFF → t.hi = 0 ∧ t.lo = 0x80000000) ∧
      (s.x rt ≠ 0 → ¬ (s.x rs = 0x80000000 ∧ s.x rt = 0xFFFFFFFF) →
        t.lo.toInt = (s.x rs).toInt.tdiv (s.x rt).toInt ∧
        t.hi.toInt = (s.x rs).toInt.tmod (s.x rt).toInt)) ∧
    (∃ t, exec (.divu rs rt) s = .next t ∧ Completed (.divu rs rt) s t none none none ∧
      Frame { stallTaken s with hi := t.hi, lo := t.lo } t ∧
      (s.x rt = 0 → t.hi = s.x rs ∧ t.lo = 0xFFFFFFFF) ∧
      (s.x rt ≠ 0 → t.lo.toNat = (s.x rs).toNat / (s.x rt).toNat ∧
        t.hi.toNat = (s.x rs).toNat % (s.x rt).toNat)))

/-- R138 to R141: the moves from and to HI and LO. -/
def Obligations.HiLoMoves : Prop :=
  ∀ (r p q : Reg) (sa : BitVec 5) (s : State),
    (decode (encodeR p q r sa 0x10) = .instr (.mfhi r) ∧ Writes (.mfhi r) s r s.hi) ∧
    (decode (encodeR p q r sa 0x12) = .instr (.mflo r) ∧ Writes (.mflo r) s r s.lo) ∧
    decode (encodeR r p q sa 0x11) = .instr (.mthi r) ∧
    decode (encodeR r p q sa 0x13) = .instr (.mtlo r) ∧
    (NoHazard s → (s.cfg.hiloHazard = .sequential ∨ s.hist.mulDivOpen = false) →
      Leaves (.mthi r) s { s with hi := s.x r } ∧ Leaves (.mtlo r) s { s with lo := s.x r })

/-- R142 with HILO_HAZARD = UNDEFINED: (a) a write of HI or LO within two instructions after MFHI or MFLO
leaves both registers draws; (b) MTHI (MTLO) after a multiply or divide and before any MFHI or MFLO leaves
LO (HI) a draw. (Which instructions count as the last two is the model's reading, log entry 12.) -/
def Obligations.HiLoHazard : Prop :=
  ∀ (rs rt : Reg) (s : State), s.cfg.hiloHazard = .undefinedAfter →
    ((s.hist.readLast = true ∨ s.hist.readBefore = true) →
      ∀ i ∈ [Instr.mult rs rt, .multu rs rt, .div rs rt, .divu rs rt, .mthi rs, .mtlo rs],
        Leaves i s { s.nextDraw.nextDraw with hi := s.drawn, lo := s.nextDraw.drawn }) ∧
    (s.hist.readLast = false → s.hist.readBefore = false → s.hist.mulDivOpen = true →
      Leaves (.mthi rs) s { s.nextDraw with hi := s.x rs, lo := s.drawn } ∧
      Leaves (.mtlo rs) s { s.nextDraw with lo := s.x rs, hi := s.drawn })

/-! ## Branches and jumps -/

/-- R83, R144 to R150: the conditional branches: their words, conditions and target. -/
def Obligations.ConditionalBranches : Prop :=
  ∀ (rs rt : Reg) (imm : Half) (s : State) (t : Word), t = s.pc + 4#32 + (imm.signExtend 32 <<< 2) →
    (decode (encodeI 0x04 rs rt imm) = .instr (.beq rs rt imm) ∧
      Branches (.beq rs rt imm) s (if s.x rs = s.x rt then .taken t else .notTaken)) ∧
    (decode (encodeI 0x05 rs rt imm) = .instr (.bne rs rt imm) ∧
      Branches (.bne rs rt imm) s (if s.x rs = s.x rt then .notTaken else .taken t)) ∧
    (decode (encodeI 0x06 rs rt imm) = .instr (.blez rs imm) ∧
      Branches (.blez rs imm) s (if (s.x rs).toInt ≤ 0 then .taken t else .notTaken)) ∧
    (decode (encodeI 0x07 rs rt imm) = .instr (.bgtz rs imm) ∧
      Branches (.bgtz rs imm) s (if (s.x rs).toInt ≤ 0 then .notTaken else .taken t)) ∧
    (rt.toNat % 2 = 0 → rt ≠ 16 → decode (encodeI 0x01 rs rt imm) = .instr (.bltz rs rt imm)) ∧
    Branches (.bltz rs rt imm) s (if (s.x rs).toInt < 0 then .taken t else .notTaken) ∧
    (rt.toNat % 2 = 1 → rt ≠ 17 → decode (encodeI 0x01 rs rt imm) = .instr (.bgez rs rt imm)) ∧
    Branches (.bgez rs rt imm) s (if (s.x rs).toInt < 0 then .notTaken else .taken t)

/-- R143, R144, R151 to R156: the jumps and the linking branches; the link is written whether or not the
branch is taken, and a register target is read before the link write. -/
def Obligations.JumpsAndLinks : Prop :=
  ∀ (rd rs p q : Reg) (sa : BitVec 5) (imm : Half) (target : BitVec 26) (s : State) (t j : Word),
    t = s.pc + 4#32 + (imm.signExtend 32 <<< 2) →
    j = ((s.pc + 4#32) &&& 0xF0000000#32) ||| (target.setWidth 32 <<< 2) →
    (decode (encodeI 0x01 rs 16 imm) = .instr (.bltzal rs imm) ∧
      Links (.bltzal rs imm) s 31 (if (s.x rs).toInt < 0 then .taken t else .notTaken)) ∧
    (decode (encodeI 0x01 rs 17 imm) = .instr (.bgezal rs imm) ∧
      Links (.bgezal rs imm) s 31 (if (s.x rs).toInt < 0 then .notTaken else .taken t)) ∧
    (decode (encodeJ 0x02 target) = .instr (.j target) ∧ Branches (.j target) s (.taken j)) ∧
    (decode (encodeJ 0x03 target) = .instr (.jal target) ∧ Links (.jal target) s 31 (.taken j)) ∧
    (decode (encodeR rs p q sa 0x08) = .instr (.jr rs) ∧ Branches (.jr rs) s (.taken (s.x rs))) ∧
    (decode (encodeR rs p rd sa 0x09) = .instr (.jalr rd rs) ∧
      Links (.jalr rd rs) s rd (.taken (s.x rs)))

/-- R100, R105, R159: whatever instruction stands in a delay slot, if it has a next state then either
control is at the branch's target (or behind the slot, if the branch is not taken), with no second branch
pending under FIRST_WINS, or an exception was taken that reports the branch and BD = 1. -/
def Obligations.DelaySlotLaw : Prop :=
  ∀ (i : Instr) (s t : State) (b : BranchSlot), s.bslot = some b → exec i s = .next t →
    ((∀ a, b.target = .taken a → t.pc = a) ∧ (b.target = .notTaken → t.pc = s.pc + 4) ∧
      (s.cfg.nestedBranch = .firstWins → t.bslot = none) ∧
      (∀ b', t.bslot = some b' → b'.bpc = s.pc)) ∨
    (t.pc = s.vector ∧ t.bslot = none ∧ t.cop0.epc = b.bpc ∧ t.cop0.bd = true)

/-- R97, R99, R104: whatever an instruction does, if it has a next state then every register but its
destination holds what it held before, or the value of the load that was pending for it. -/
def Obligations.OnlyTheDestinationChanges : Prop :=
  ∀ (i : Instr) (s t : State) (r : Reg), exec i s = .next t → destination i ≠ some r →
    (∀ v, s.lslot = some ⟨r, v⟩ → r ≠ 0 → t.x r = v) ∧
    ((∀ v, s.lslot ≠ some ⟨r, v⟩) → t.x r = s.x r)

/-- R21, R101: a read of register 0 gives 0 in every state, and no step changes the stored copy. -/
def Obligations.RegisterZero : Prop :=
  (∀ s : State, s.x 0 = 0) ∧
  ∀ s t : State, step s = .next t → s.zeroRegOk = true → t.zeroRegOk = true

/-! ## Loads and stores -/

/-- R160 to R166: the aligned loads from RAM, SCRATCH and BIOS, with their extensions. -/
def Obligations.LoadsFromMemory : Prop :=
  ∀ (rt rs : Reg) (imm : Half) (s : State) (va : Word) (k : Nat), va = eaOf s rs imm →
    (s.region va).key = some k →
    (Reaches s va .byte →
      Loads (.lb rt imm rs) s rt ((s.mem.get k).signExtend 32) ∧
      Loads (.lbu rt imm rs) s rt ((s.mem.get k).setWidth 32)) ∧
    (Reaches s va .half →
      Loads (.lh rt imm rs) s rt ((s.mem.get (k + 1) ++ s.mem.get k).signExtend 32) ∧
      Loads (.lhu rt imm rs) s rt ((s.mem.get (k + 1) ++ s.mem.get k).setWidth 32)) ∧
    (Reaches s va .word →
      Loads (.lw rt imm rs) s rt
        (s.mem.get (k + 3) ++ s.mem.get (k + 2) ++ s.mem.get (k + 1) ++ s.mem.get k))

/-- R167, R168: LWL and LWR, byte lane by byte lane; the other lanes come from the pending load of the
same register, if there is one, else from the register. -/
def Obligations.UnalignedLoads : Prop :=
  ∀ (rt rs : Reg) (imm : Half) (s : State) (va cur : Word) (k n : Nat), va = eaOf s rs imm →
    n = va.toNat % 4 → (s.region (wordOf va)).key = some k → Reaches s (wordOf va) .word →
    (∀ v, s.lslot = some ⟨rt, v⟩ → cur = v) → ((∀ v, s.lslot ≠ some ⟨rt, v⟩) → cur = s.x rt) →
    (∃ v, Loads (.lwl rt imm rs) s rt v ∧
      ∀ j < 4, byteOf v j = if 3 ≤ j + n then s.mem.get (k + (j + n - 3)) else byteOf cur j) ∧
    (∃ v, Loads (.lwr rt imm rs) s rt v ∧
      ∀ j < 4, byteOf v j = if j + n < 4 then s.mem.get (k + (j + n)) else byteOf cur j)

/-- R167, R168, R174: the pair LWR, LWL leaves pending the unaligned word that starts at the LWR's address,
whatever the register held and whatever load was pending before, but for one that changes the base register
between the two. -/
def Obligations.UnalignedPairLoadsWord : Prop :=
  ∀ (rt rs : Reg) (imm imm' : Half) (s : State) (va : Word), va = eaOf s rs imm →
    eaOf s rs imm' = va + 3 → (∀ v, s.lslot = some ⟨rs, v⟩ → rs = 0 ∨ rs = rt ∨ v = s.x rs) →
    (s.region (wordOf va)).key.isSome → (s.region (wordOf (va + 3))).key.isSome →
    Reaches s (wordOf va) .word → Reaches s (wordOf (va + 3)) .word →
    ∃ t u v, exec (.lwr rt imm rs) s = .next t ∧ exec (.lwl rt imm' rs) t = .next u ∧
      u.lslot = some ⟨rt, v⟩ ∧ ∀ j < 4, byteAt s (va + BitVec.ofNat 32 j) = some (byteOf v j)

/-- R63, R169 to R171: the aligned stores to RAM and SCRATCH: the bytes stored, and no others. -/
def Obligations.StoresToMemory : Prop :=
  ∀ (rt rs : Reg) (imm : Half) (s : State) (va : Word) (k : Nat) (w : Width) (i : Instr),
    va = eaOf s rs imm → (s.region va).storeKey = some k → Reaches s va w → s.memOk = true →
    i = (match w with
      | .byte => .sb rt imm rs
      | .half => .sh rt imm rs
      | .word => .sw rt imm rs) →
    ∃ t, exec i s = .next t ∧ Completed i s t none none none ∧
      Frame { stallTaken s with mem := t.mem } t ∧
      (∀ j < w.bytes, t.mem.get (k + j) = byteOf (s.x rt) j) ∧
      ∀ a, (a < k ∨ k + w.bytes ≤ a) → t.mem.get a = s.mem.get a

/-- R172, R173: SWL and SWR to RAM and SCRATCH: the bytes stored, and no others. -/
def Obligations.UnalignedStores : Prop :=
  ∀ (rt rs : Reg) (imm : Half) (s : State) (va : Word) (k n : Nat),
    va = eaOf s rs imm → n = va.toNat % 4 → (s.region (wordOf va)).storeKey = some k →
    Reaches s (wordOf va) .word → s.memOk = true →
    (∃ t, exec (.swl rt imm rs) s = .next t ∧ Completed (.swl rt imm rs) s t none none none ∧
      Frame { stallTaken s with mem := t.mem } t ∧
      (∀ j ≤ n, t.mem.get (k + j) = byteOf (s.x rt) (3 - n + j)) ∧
      ∀ a, (a < k ∨ k + n < a) → t.mem.get a = s.mem.get a) ∧
    (∃ t, exec (.swr rt imm rs) s = .next t ∧ Completed (.swr rt imm rs) s t none none none ∧
      Frame { stallTaken s with mem := t.mem } t ∧
      (∀ j, n ≤ j → j < 4 → t.mem.get (k + j) = byteOf (s.x rt) (j - n)) ∧
      ∀ a, (a < k + n ∨ k + 4 ≤ a) → t.mem.get a = s.mem.get a)

/-- R60, R63, R64, R69: a store to BIOS, and a store that cache isolation keeps from memory, complete and
change nothing; a load that cache isolation keeps from memory completes, and what it reads is a draw of
the access's width. -/
def Obligations.AccessesThatReachNoMemory : Prop :=
  ∀ (rt rs : Reg) (imm : Half) (s : State) (va : Word), va = eaOf s rs imm →
    ¬ (inUserMode s ∧ va.getLsbD 31 = true) → ¬ (inUserMode s ∧ s.cop0.sr.getLsbD 25 = true) →
    ((s.isolated va = true ∨ ∃ o, s.region va = .bios o) →
      Leaves (.sb rt imm rs) s s ∧ Leaves (.swl rt imm rs) s s ∧ Leaves (.swr rt imm rs) s s ∧
      (va.toNat % 2 = 0 → Leaves (.sh rt imm rs) s s) ∧
      (va.toNat % 4 = 0 → Leaves (.sw rt imm rs) s s)) ∧
    (s.isolated va = true → ∀ (i : Instr) (v : Word),
      ((i = .lb rt imm rs ∧ v = (s.drawn.setWidth 8).signExtend 32) ∨
        (i = .lbu rt imm rs ∧ v = (s.drawn.setWidth 8).setWidth 32) ∨
        (i = .lh rt imm rs ∧ va.toNat % 2 = 0 ∧ v = (s.drawn.setWidth 16).signExtend 32) ∨
        (i = .lhu rt imm rs ∧ va.toNat % 2 = 0 ∧ v = (s.drawn.setWidth 16).setWidth 32) ∨
        (i = .lw rt imm rs ∧ va.toNat % 4 = 0 ∧ v = s.drawn) ∨
        (i = .lwl rt imm rs ∧ va.toNat % 4 = 3 ∧ v = s.drawn) ∨
        (i = .lwr rt imm rs ∧ va.toNat % 4 = 0 ∧ v = s.drawn)) →
      ∃ t, exec i s = .next t ∧ Completed i s t none (some ⟨rt, v⟩) none ∧
        Frame (stallTaken s.nextDraw) t)

/-- R59: CACHE_CTRL at 0xFFFE0130 is storage, reached in kernel mode by every width. -/
def Obligations.CacheControlIsStorage : Prop :=
  ∀ (rt rs : Reg) (imm : Half) (s : State) (va : Word) (n : Nat), va = eaOf s rs imm →
    wordOf va = 0xFFFE0130 → n = va.toNat % 4 → ¬ inUserMode s →
    Loads (.lb rt imm rs) s rt ((byteOf s.cacheCtrl n).signExtend 32) ∧
    Loads (.lbu rt imm rs) s rt ((byteOf s.cacheCtrl n).setWidth 32) ∧
    (n % 2 = 0 → Loads (.lh rt imm rs) s rt ((s.cacheCtrl.extractLsb' (8 * n) 16).signExtend 32) ∧
      Loads (.lhu rt imm rs) s rt ((s.cacheCtrl.extractLsb' (8 * n) 16).setWidth 32)) ∧
    (n = 0 → Loads (.lw rt imm rs) s rt s.cacheCtrl) ∧
    ∀ (w : Width) (i : Instr), n % w.bytes = 0 →
      i = (match w with
        | .byte => .sb rt imm rs
        | .half => .sh rt imm rs
        | .word => .sw rt imm rs) →
      ∃ v, Leaves i s { s with cacheCtrl := v } ∧
        ∀ j < 4, byteOf v j =
          if n ≤ j ∧ j < n + w.bytes then byteOf (s.x rt) (j - n) else byteOf s.cacheCtrl j

/-- R55, R65, R199: address errors: a misaligned half-word or word, and in user mode an address with bit 31
set, take AdEL (code 4) on a load and AdES (code 5) on a store, with the address in BadVaddr; LWL, LWR,
SWL and SWR report the aligned address. -/
def Obligations.AddressErrors : Prop :=
  ∀ (rt rs : Reg) (imm : Half) (s : State) (va : Word), va = eaOf s rs imm →
    (va.toNat % 2 ≠ 0 →
      Traps (.lh rt imm rs) s 4 0 (some va) ∧ Traps (.lhu rt imm rs) s 4 0 (some va) ∧
      Traps (.sh rt imm rs) s 5 0 (some va)) ∧
    (va.toNat % 4 ≠ 0 →
      Traps (.lw rt imm rs) s 4 0 (some va) ∧ Traps (.sw rt imm rs) s 5 0 (some va) ∧
      (s.cop0.sr.getLsbD 30 = true →
        Traps (.lwc2 rt imm rs) s 4 0 (some va) ∧ Traps (.swc2 rt imm rs) s 5 0 (some va))) ∧
    (inUserMode s → va.getLsbD 31 = true →
      (∀ i ∈ [Instr.lb rt imm rs, .lbu rt imm rs, .lh rt imm rs, .lhu rt imm rs, .lw rt imm rs],
        Traps i s 4 0 (some va)) ∧
      (∀ i ∈ [Instr.sb rt imm rs, .sh rt imm rs, .sw rt imm rs], Traps i s 5 0 (some va)) ∧
      (∀ i ∈ [Instr.lwl rt imm rs, .lwr rt imm rs], Traps i s 4 0 (some (wordOf va))) ∧
      (∀ i ∈ [Instr.swl rt imm rs, .swr rt imm rs], Traps i s 5 0 (some (wordOf va))) ∧
      (s.cop0.sr.getLsbD 30 = true →
        Traps (.lwc2 rt imm rs) s 4 0 (some va) ∧ Traps (.swc2 rt imm rs) s 5 0 (some va)))

/-- R68, R199: a load or store that reaches Unmapped takes DBE (code 7), and BadVaddr is not written. -/
def Obligations.DataBusErrors : Prop :=
  ∀ (rt rs : Reg) (imm : Half) (s : State) (va : Word), va = eaOf s rs imm →
    s.region va = .unmapped → s.region (wordOf va) = .unmapped →
    (Reaches s va .byte →
      (∀ i ∈ [Instr.lb rt imm rs, .lbu rt imm rs, .sb rt imm rs, .lwl rt imm rs, .lwr rt imm rs,
          .swl rt imm rs, .swr rt imm rs], Traps i s 7 0 none)) ∧
    (Reaches s va .half →
      ∀ i ∈ [Instr.lh rt imm rs, .lhu rt imm rs, .sh rt imm rs], Traps i s 7 0 none) ∧
    (Reaches s va .word →
      (∀ i ∈ [Instr.lw rt imm rs, .sw rt imm rs], Traps i s 7 0 none) ∧
      (s.cop0.sr.getLsbD 30 = true →
        ∀ i ∈ [Instr.lwc2 rt imm rs, .swc2 rt imm rs], Traps i s 7 0 none))

/-- R61: a data access in user mode with SR.RE = 1, at an address that raises no address error, is
refused. -/
def Obligations.ReverseEndianRefused : Prop :=
  ∀ (rt rs : Reg) (imm : Half) (s : State), inUserMode s → s.cop0.sr.getLsbD 25 = true →
    (eaOf s rs imm).getLsbD 31 = false →
    (∀ i ∈ [Instr.lb rt imm rs, .lbu rt imm rs, .sb rt imm rs, .lwl rt imm rs, .lwr rt imm rs,
        .swl rt imm rs, .swr rt imm rs], exec i s = .refused .reverseEndian) ∧
    ((eaOf s rs imm).toNat % 2 = 0 →
      ∀ i ∈ [Instr.lh rt imm rs, .lhu rt imm rs, .sh rt imm rs], exec i s = .refused .reverseEndian) ∧
    ((eaOf s rs imm).toNat % 4 = 0 →
      (∀ i ∈ [Instr.lw rt imm rs, .sw rt imm rs], exec i s = .refused .reverseEndian) ∧
      (s.cop0.sr.getLsbD 30 = true →
        ∀ i ∈ [Instr.lwc2 rt imm rs, .swc2 rt imm rs], exec i s = .refused .reverseEndian))

/-- R52, R58, R161 (the recorded call and the draw are the model's form of the device oracle, log entries
1 and 10): a load from an external device is one call of that width at that offset, its value a draw; a
store is one call with the stored value. -/
def Obligations.DeviceAccesses : Prop :=
  ∀ (rt rs : Reg) (imm : Half) (s : State) (va : Word) (d : ExtDevice) (o : Nat), va = eaOf s rs imm →
    s.region va = .device d o → s.inputs.regReplies = [] →
    (Reaches s va .byte →
      (∃ t, exec (.lbu rt imm rs) s = .next t ∧
        Completed (.lbu rt imm rs) s t none (some ⟨rt, (s.drawn.setWidth 8).setWidth 32⟩) none ∧
        Frame (stallTaken (s.nextDraw.record (.devRead d o 1))) t) ∧
      Leaves (.sb rt imm rs) s (s.record (.devWrite d o 1 ((s.x rt).setWidth 8 |>.setWidth 32)))) ∧
    (Reaches s va .half →
      (∃ t, exec (.lhu rt imm rs) s = .next t ∧
        Completed (.lhu rt imm rs) s t none (some ⟨rt, (s.drawn.setWidth 16).setWidth 32⟩) none ∧
        Frame (stallTaken (s.nextDraw.record (.devRead d o 2))) t) ∧
      Leaves (.sh rt imm rs) s (s.record (.devWrite d o 2 ((s.x rt).setWidth 16 |>.setWidth 32)))) ∧
    (Reaches s va .word →
      (∃ t, exec (.lw rt imm rs) s = .next t ∧
        Completed (.lw rt imm rs) s t none (some ⟨rt, s.drawn⟩) none ∧
        Frame (stallTaken (s.nextDraw.record (.devRead d o 4))) t) ∧
      Leaves (.sw rt imm rs) s (s.record (.devWrite d o 4 (s.x rt))))

/-- R54, R56, R57: the address map, with the rows of the external devices in the default DEVICE_MAP. `g` is
the value of the top three address bits and `p` the other 29. -/
def Obligations.AddressMap : Prop :=
  ∀ (s : State) (va : Word) (g p : Nat), g = va.toNat / 2 ^ 29 → p = va.toNat % 2 ^ 29 →
    ((g = 0 ∨ g = 4 ∨ g = 5) →
      (p < 0x800000 → s.region va = .ram (p % 0x200000)) ∧
      (0x800000 ≤ p → p < 0x1F000000 → s.region va = .unmapped) ∧
      (0x1F000000 ≤ p → p < 0x1F800000 → s.region va = .device .expansion1 (p - 0x1F000000)) ∧
      (0x1F800000 ≤ p → p < 0x1F800400 →
        s.region va = if g = 5 then .unmapped else .scratch (p - 0x1F800000)) ∧
      (0x1F800400 ≤ p → p < 0x1F801000 → s.region va = .unmapped) ∧
      (0x1F801070 ≤ p → p < 0x1F801078 → s.region va = .irqCtl (p - 0x1F801070)) ∧
      (0x1F801080 ≤ p → p < 0x1F801100 → s.region va = .dmaCtl (p - 0x1F801080)) ∧
      (0x1F803000 ≤ p → p < 0x1FA00000 → s.region va = .unmapped) ∧
      (0x1FA00000 ≤ p → p < 0x1FC00000 → s.region va = .device .expansion3 (p - 0x1FA00000)) ∧
      (0x1FC00000 ≤ p → p < 0x1FC80000 → s.region va = .bios (p - 0x1FC00000)) ∧
      (0x1FC80000 ≤ p → s.region va = .unmapped) ∧
      (s.cfg.deviceMap = defaultDeviceMap →
        (0x1F801000 ≤ p → p < 0x1F801024 → s.region va = .device .memoryControl (p - 0x1F801000)) ∧
        (0x1F801024 ≤ p → p < 0x1F801040 → s.region va = .unmapped) ∧
        (0x1F801040 ≤ p → p < 0x1F801060 → s.region va = .device .padsAndSerial (p - 0x1F801040)) ∧
        (0x1F801060 ≤ p → p < 0x1F801064 → s.region va = .device .ramSize (p - 0x1F801060)) ∧
        (0x1F801064 ≤ p → p < 0x1F801070 → s.region va = .unmapped) ∧
        (0x1F801078 ≤ p → p < 0x1F801080 → s.region va = .unmapped) ∧
        (0x1F801100 ≤ p → p < 0x1F801130 → s.region va = .device .timers (p - 0x1F801100)) ∧
        (0x1F801130 ≤ p → p < 0x1F801800 → s.region va = .unmapped) ∧
        (0x1F801800 ≤ p → p < 0x1F801804 → s.region va = .device .disc (p - 0x1F801800)) ∧
        (0x1F801804 ≤ p → p < 0x1F801810 → s.region va = .unmapped) ∧
        (0x1F801810 ≤ p → p < 0x1F801818 → s.region va = .device .graphics (p - 0x1F801810)) ∧
        (0x1F801818 ≤ p → p < 0x1F801820 → s.region va = .unmapped) ∧
        (0x1F801820 ≤ p → p < 0x1F801828 → s.region va = .device .pictureDecoder (p - 0x1F801820)) ∧
        (0x1F801828 ≤ p → p < 0x1F801C00 → s.region va = .unmapped) ∧
        (0x1F801C00 ≤ p → p < 0x1F802000 → s.region va = .device .sound (p - 0x1F801C00)) ∧
        (0x1F802000 ≤ p → p < 0x1F803000 → s.region va = .device .expansion2 (p - 0x1F802000)))) ∧
    ((g = 1 ∨ g = 2 ∨ g = 3) → s.region va = .unmapped) ∧
    ((g = 6 ∨ g = 7) → s.region va = if wordOf va = 0xFFFE0130 then .cacheCtrl else .unmapped)

/-- R55, R62, R68, R95: a fetch from a misaligned `pc`, or in user mode from an address with bit 31 set,
takes AdEL; one from Unmapped takes IBE (code 6); one from a device is refused. -/
def Obligations.FetchErrors : Prop :=
  ∀ s : State, AtInstruction s →
    ((s.pc.toNat % 4 ≠ 0 ∨ (inUserMode s ∧ s.pc.getLsbD 31 = true)) →
      ∃ u, Trapped 4 0 (some s.pc) s.pc (s.bslot.map BranchSlot.bpc) s u ∧
        step s = .next (u.addCycles s.cfg.cycleCostNone)) ∧
    (s.pc.toNat % 4 = 0 → ¬ (inUserMode s ∧ s.pc.getLsbD 31 = true) →
      (s.region s.pc = .unmapped →
        ∃ u, Trapped 6 0 none s.pc (s.bslot.map BranchSlot.bpc) s u ∧
          step s = .next (u.addCycles s.cfg.cycleCostNone)) ∧
      ((∃ d o, s.region s.pc = .device d o) ∨ (∃ o, s.region s.pc = .irqCtl o) ∨
          (∃ o, s.region s.pc = .dmaCtl o) → step s = .refused .fetchFromDevice))

/-! ## System instructions -/

/-- R175, R176: SYSCALL and BREAK take their exceptions (codes 8 and 9) whatever their code field. -/
def Obligations.SyscallAndBreakTrap : Prop :=
  ∀ (code : BitVec 20) (s : State),
    (decode (encodeTrap code 0x0C) = .instr (.syscall code) ∧ Traps (.syscall code) s 8 0 none) ∧
    (decode (encodeTrap code 0x0D) = .instr (.brk code) ∧ Traps (.brk code) s 9 0 none)

/-- R35, R37, R177, R178: what MFC0 reads when COP0 is usable, a draw where there is no register; it takes
CpU with CE = 0 when COP0 is unusable. -/
def Obligations.Mfc0Reads : Prop :=
  ∀ (rt : Reg) (s : State), (∀ (n : BitVec 5) (low : BitVec 11),
      decode (0x10#6 ++ 0x00#5 ++ rt ++ n ++ low) = .instr (.mfc0 rt n) ∧
      (inUserMode s → s.cop0.sr.getLsbD 28 = false → Traps (.mfc0 rt n) s 11 0 none)) ∧
    (¬ (inUserMode s ∧ s.cop0.sr.getLsbD 28 = false) →
    Loads (.mfc0 rt 12) s rt s.cop0.sr ∧
    (∃ v, Loads (.mfc0 rt 13) s rt v ∧ v.extractLsb' 2 5 = s.cop0.excCode ∧
      v.extractLsb' 8 2 = s.cop0.ipSw ∧ v.extractLsb' 28 2 = s.cop0.ce ∧ v.getLsbD 31 = s.cop0.bd ∧
      v.getLsbD 10 = (s.irq.stat &&& s.irq.mask != 0) ∧ v &&& 0x4FFFF883 = 0) ∧
    Loads (.mfc0 rt 14) s rt s.cop0.epc ∧
    Loads (.mfc0 rt 8) s rt s.cop0.badVaddr ∧
    Loads (.mfc0 rt 15) s rt 0x00000002 ∧
    Loads (.mfc0 rt 3) s rt s.cop0.bpc ∧
    Loads (.mfc0 rt 5) s rt s.cop0.bda ∧
    Loads (.mfc0 rt 7) s rt s.cop0.dcic ∧
    Loads (.mfc0 rt 9) s rt s.cop0.bdam ∧
    Loads (.mfc0 rt 11) s rt s.cop0.bpcm ∧
    ∀ rd : BitVec 5, rd.toNat ∈ [0, 1, 2, 4, 6, 10] ∨ 16 ≤ rd.toNat →
      ∃ t, exec (.mfc0 rt rd) s = .next t ∧
        Completed (.mfc0 rt rd) s t none (some ⟨rt, s.drawn⟩) none ∧ Frame (stallTaken s.nextDraw) t)

/-- R33, R36, R42, R43, R177, R179: what MTC0 writes when COP0 is usable; it takes CpU with CE = 0 when
COP0 is unusable. -/
def Obligations.Mtc0Writes : Prop :=
  ∀ (rt : Reg) (s : State) (v : Word), v = s.x rt →
    (∀ (n : BitVec 5) (low : BitVec 11),
      decode (0x10#6 ++ 0x04#5 ++ rt ++ n ++ low) = .instr (.mtc0 rt n) ∧
      (inUserMode s → s.cop0.sr.getLsbD 28 = false → Traps (.mtc0 rt n) s 11 0 none)) ∧
    (¬ (inUserMode s ∧ s.cop0.sr.getLsbD 28 = false) →
    (s.cfg.ieStackLevels = .four →
      Leaves (.mtc0 rt 12) s { s with cop0 := { s.cop0 with sr := v &&& 0xF247FFFF } }) ∧
    (s.cfg.ieStackLevels = .three →
      Leaves (.mtc0 rt 12) s { s with cop0 := { s.cop0 with sr := v &&& 0xF247FF3F } }) ∧
    Leaves (.mtc0 rt 13) s { s with cop0 := { s.cop0 with ipSw := v.extractLsb' 8 2 } } ∧
    Leaves (.mtc0 rt 3) s { s with cop0 := { s.cop0 with bpc := v } } ∧
    Leaves (.mtc0 rt 5) s { s with cop0 := { s.cop0 with bda := v } } ∧
    Leaves (.mtc0 rt 9) s { s with cop0 := { s.cop0 with bdam := v } } ∧
    Leaves (.mtc0 rt 11) s { s with cop0 := { s.cop0 with bpcm := v } } ∧
    (v = 0 → Leaves (.mtc0 rt 7) s { s with cop0 := { s.cop0 with dcic := 0 } }) ∧
    (v ≠ 0 → exec (.mtc0 rt 7) s = .refused .dcicEnable) ∧
    ∀ rd : BitVec 5, rd.toNat ∈ [0, 1, 2, 4, 6, 8, 10, 14, 15] ∨ 16 ≤ rd.toNat →
      Leaves (.mtc0 rt rd) s s)

/-- R177, R180: RFE pops the interrupt-enable/mode stack and changes nothing else when COP0 is usable; it
takes CpU with CE = 0 when COP0 is unusable. -/
def Obligations.RfePopsStack : Prop :=
  ∀ s : State,
    (∀ mid : BitVec 19, decode (0x10#6 ++ 1#1 ++ mid ++ 0x10#6) = .instr .rfe) ∧
    (¬ (inUserMode s ∧ s.cop0.sr.getLsbD 28 = false) → ∃ sr, Popped s.cfg.ieStackLevels s.cop0.sr sr ∧
      Leaves .rfe s { s with cop0 := { s.cop0 with sr := sr } }) ∧
    (inUserMode s → s.cop0.sr.getLsbD 28 = false → Traps .rfe s 11 0 none)

/-- R182 to R186: the words of the absent coprocessors 1 and 3 take CpU when SR does not mark the
coprocessor usable and are refused when it does; LWC0 and SWC0 are always refused. -/
def Obligations.AbsentCoprocessors : Prop :=
  ∀ (rt : BitVec 5) (imm : Half) (rs : Reg) (bits : BitVec 26) (s : State),
    decode (encodeJ 0x11 bits) = .instr (.cop1 bits) ∧
    decode (encodeJ 0x13 bits) = .instr (.cop3 bits) ∧
    decode (encodeI 0x31 rs rt imm) = .instr (.lwc1 rt imm rs) ∧
    decode (encodeI 0x39 rs rt imm) = .instr (.swc1 rt imm rs) ∧
    decode (encodeI 0x33 rs rt imm) = .instr (.lwc3 rt imm rs) ∧
    decode (encodeI 0x3B rs rt imm) = .instr (.swc3 rt imm rs) ∧
    decode (encodeI 0x30 rs rt imm) = .instr (.lwc0 rt imm rs) ∧
    decode (encodeI 0x38 rs rt imm) = .instr (.swc0 rt imm rs) ∧
    (s.cop0.sr.getLsbD 29 = false →
      ∀ i ∈ [Instr.cop1 bits, .lwc1 rt imm rs, .swc1 rt imm rs], Traps i s 11 1 none) ∧
    (s.cop0.sr.getLsbD 29 = true →
      ∀ i ∈ [Instr.cop1 bits, .lwc1 rt imm rs, .swc1 rt imm rs], exec i s = .refused .unmodelledCop) ∧
    (s.cop0.sr.getLsbD 31 = false →
      ∀ i ∈ [Instr.cop3 bits, .lwc3 rt imm rs, .swc3 rt imm rs], Traps i s 11 3 none) ∧
    (s.cop0.sr.getLsbD 31 = true →
      ∀ i ∈ [Instr.cop3 bits, .lwc3 rt imm rs, .swc3 rt imm rs], exec i s = .refused .unmodelledCop) ∧
    ∀ i ∈ [Instr.lwc0 rt imm rs, .swc0 rt imm rs], exec i s = .refused .unmodelledCop

/-! ## Coprocessor 2 -/

/-- R188, R189, R191 to R196 (the recorded call and the draw are the model's form of the oracle, log entry
1): with SR.CU2 = 1 each transfer makes its interface call; LWC2 sends the word at its address, SWC2
stores the word the coprocessor answers. With SR.CU2 = 0 each takes CpU with CE = 2, in either mode. -/
def Obligations.Cop2Transfers : Prop :=
  ∀ (rt rs : Reg) (rd : BitVec 5) (imm : Half) (s : State) (va : Word) (k : Nat), va = eaOf s rs imm →
    (s.cop0.sr.getLsbD 30 = true →
      (∃ t, exec (.mfc2 rt rd) s = .next t ∧
        Completed (.mfc2 rt rd) s t none (some ⟨rt, s.drawn⟩) none ∧
        Frame (stallTaken (s.nextDraw.record (.gteReadData rd))) t) ∧
      (∃ t, exec (.cfc2 rt rd) s = .next t ∧
        Completed (.cfc2 rt rd) s t none (some ⟨rt, s.drawn⟩) none ∧
        Frame (stallTaken (s.nextDraw.record (.gteReadCtrl rd))) t) ∧
      Leaves (.mtc2 rt rd) s (s.record (.gteWriteData rd (s.x rt))) ∧
      Leaves (.ctc2 rt rd) s (s.record (.gteWriteCtrl rd (s.x rt))) ∧
      (Reaches s va .word → (s.region va).key = some k →
        Leaves (.lwc2 rd imm rs) s (s.record (.gteWriteData rd
          (s.mem.get (k + 3) ++ s.mem.get (k + 2) ++ s.mem.get (k + 1) ++ s.mem.get k)))) ∧
      (Reaches s va .word → (s.region va).storeKey = some k → s.memOk = true →
        ∃ t, exec (.swc2 rd imm rs) s = .next t ∧ Completed (.swc2 rd imm rs) s t none none none ∧
          Frame { stallTaken (s.nextDraw.record (.gteReadData rd)) with mem := t.mem } t ∧
          (∀ j < 4, t.mem.get (k + j) = byteOf s.drawn j) ∧
          ∀ a, (a < k ∨ k + 4 ≤ a) → t.mem.get a = s.mem.get a)) ∧
    (s.cop0.sr.getLsbD 30 = false →
      ∀ i ∈ [Instr.mfc2 rt rd, .cfc2 rt rd, .mtc2 rt rd, .ctc2 rt rd, .lwc2 rd imm rs, .swc2 rd imm rs],
        Traps i s 11 2 none)

/-- R189, R190, R197: a COP2 command waits until the last command's latency has elapsed, is sent with its
25-bit code, and its own latency counts from its issue; with SR.CU2 = 0 it takes CpU with CE = 2. -/
def Obligations.Cop2CommandStalls : Prop :=
  ∀ (cofun : BitVec 25) (s : State),
    decode (encodeCo 0x12 cofun) = .instr (.cop2Command cofun) ∧
    (s.cop0.sr.getLsbD 30 = true → ∃ (t : State) (latency : Nat),
      exec (.cop2Command cofun) s = .next t ∧
      Completed (.cop2Command cofun) s t none none none (s.gteReady - s.sched.cycle) ∧
      t.gteReady = max s.sched.cycle s.gteReady + latency ∧
      Frame { stallTaken (s.nextDraw.record (.gteCommand cofun)) with gteReady := t.gteReady } t) ∧
    (s.cop0.sr.getLsbD 30 = false → Traps (.cop2Command cofun) s 11 2 none)

/-! ## Exceptions and interrupts -/

/-- R199, R201 to R204: exception entry, for every exception. -/
def Obligations.ExceptionEntry : Prop :=
  ∀ (s : State) (p a : Word) (slot : Option Word) (z : CopNum),
    Trapped 0 0 none p slot s (exceptionEntry .int p slot s) ∧
    Trapped 4 0 (some a) p slot s (exceptionEntry (.adEL a) p slot s) ∧
    Trapped 5 0 (some a) p slot s (exceptionEntry (.adES a) p slot s) ∧
    Trapped 6 0 none p slot s (exceptionEntry .ibe p slot s) ∧
    Trapped 7 0 none p slot s (exceptionEntry .dbe p slot s) ∧
    Trapped 8 0 none p slot s (exceptionEntry .syscall p slot s) ∧
    Trapped 9 0 none p slot s (exceptionEntry .bp p slot s) ∧
    Trapped 10 0 none p slot s (exceptionEntry .ri p slot s) ∧
    Trapped 11 z none p slot s (exceptionEntry (.cpU z) p slot s) ∧
    Trapped 12 0 none p slot s (exceptionEntry .ov p slot s)

/-- R93, R94: at an instruction boundary with no due event, an interrupt is taken exactly when its condition
holds. It is reported at `pc`, or at the branch whose slot `pc` is. With GTE_IRQ_QUIRK, a COP2 command at
`pc` outside a delay slot, with SR.CU2 = 1, runs first, and EPC is the command's address. (That this step
costs the command's step plus the entry, and that a failing fetch shows no command, is the model's reading,
log entry 15.) -/
def Obligations.InterruptTaken : Prop :=
  ∀ s : State, s.refusedMark = none → s.dueEvent = none →
    (InterruptHolds s → s.cfg.gteIrqQuirk = false →
      ∃ t, step s = .next t ∧ Trapped 0 0 none s.pc (s.bslot.map BranchSlot.bpc) s t) ∧
    (InterruptHolds s → s.cfg.gteIrqQuirk = true → s.bslot = none → s.cop0.sr.getLsbD 30 = true →
      ∀ w cofun, fetched s = some w → decode w = .instr (.cop2Command cofun) →
        ∃ u t, exec (.cop2Command cofun) s = .next u ∧ step s = .next t ∧
          Trapped 0 0 none s.pc none (u.addCycles (s.cfg.cycleCost w)) t) ∧
    (InterruptHolds s → s.cfg.gteIrqQuirk = true →
      (s.bslot ≠ none ∨ s.cop0.sr.getLsbD 30 = false ∨
        ∀ w cofun, fetched s = some w → decode w ≠ .instr (.cop2Command cofun)) →
      ∃ t, step s = .next t ∧ Trapped 0 0 none s.pc (s.bslot.map BranchSlot.bpc) s t) ∧
    (¬ InterruptHolds s → step s = instructionStep s)

/-- R177, R210: in user mode without SR.CU0, a step leaves COP0 as it is or enters the exception vector in
kernel mode; nothing else leaves user mode. -/
def Obligations.UserModeKeepsCop0 : Prop :=
  ∀ s t : State, inUserMode s → s.cop0.sr.getLsbD 28 = false → step s = .next t →
    t.cop0 = s.cop0 ∨ (t.pc = s.vector ∧ ¬ inUserMode t)

/-! ## The interrupt controller -/

/-- R64, R214, R215, R218 to R220: word and half-word accesses to I_STAT and I_MASK, and the accesses that are
refused: bytes, and half-words at offset 2 or 6, those of SWL and SWR among them. -/
def Obligations.IrqControllerAccess : Prop :=
  ∀ (rt rs : Reg) (imm : Half) (s : State) (va : Word), va = eaOf s rs imm →
    (Reaches s va .half →
      (s.region va = .irqCtl 0 →
        Loads (.lhu rt imm rs) s rt (s.irq.stat.setWidth 32) ∧
        Loads (.lh rt imm rs) s rt (s.irq.stat.setWidth 32) ∧
        (va.toNat % 4 = 0 → Loads (.lw rt imm rs) s rt (s.irq.stat.setWidth 32)) ∧
        ∀ i, (i = .sh rt imm rs ∨ (i = .sw rt imm rs ∧ va.toNat % 4 = 0)) →
          (s.cfg.ackPolarity = .oneClears →
            Leaves i s { s with irq := { s.irq with stat := s.irq.stat &&& ~~~((s.x rt).setWidth 11) } }) ∧
          (s.cfg.ackPolarity = .zeroClears →
            Leaves i s { s with irq := { s.irq with stat := s.irq.stat &&& (s.x rt).setWidth 11 } })) ∧
      (s.region va = .irqCtl 4 →
        Loads (.lhu rt imm rs) s rt (s.irq.mask.setWidth 32) ∧
        Loads (.lh rt imm rs) s rt (s.irq.mask.setWidth 32) ∧
        (va.toNat % 4 = 0 → Loads (.lw rt imm rs) s rt (s.irq.mask.setWidth 32)) ∧
        ∀ i, (i = .sh rt imm rs ∨ (i = .sw rt imm rs ∧ va.toNat % 4 = 0)) →
          Leaves i s { s with irq := { s.irq with mask := (s.x rt).setWidth 11 } }) ∧
      ((s.region va = .irqCtl 2 ∨ s.region va = .irqCtl 6) →
        ∀ i ∈ [Instr.lh rt imm rs, .lhu rt imm rs, .sh rt imm rs],
          exec i s = .refused .narrowDeviceAccess)) ∧
    (Reaches s va .byte → ∀ o, s.region va = .irqCtl o →
      (∀ i ∈ [Instr.lb rt imm rs, .lbu rt imm rs, .sb rt imm rs], exec i s = .refused .narrowDeviceAccess) ∧
      (va.toNat % 4 = 0 → exec (.swl rt imm rs) s = .refused .narrowDeviceAccess) ∧
      (va.toNat % 4 = 1 → exec (.swr rt imm rs) s = .refused .maskedDeviceWrite) ∧
      (va.toNat % 4 = 2 → exec (.swl rt imm rs) s = .refused .maskedDeviceWrite ∧
        exec (.swr rt imm rs) s = .refused .narrowDeviceAccess) ∧
      (va.toNat % 4 = 3 → exec (.swr rt imm rs) s = .refused .narrowDeviceAccess))

/-- R217, R223: raising sets exactly the source's flag and is idempotent, whatever the mask; a flag stays
until an acknowledgement; acknowledging twice is acknowledging once. -/
def Obligations.IrqLatchLaws : Prop :=
  ∀ (k : Nat) (v : BitVec 11) (s : State),
    (k < 11 → raiseSource k s = .ok () (latchSource k s) ∧
      (∀ j, (latchSource k s).irq.stat.getLsbD j = (s.irq.stat.getLsbD j || decide (j = k))) ∧
      (latchSource k s).irq.mask = s.irq.mask ∧ latchSource k (latchSource k s) = latchSource k s) ∧
    (11 ≤ k → raiseSource k s = .stop .deviceContract) ∧
    ackSources v (ackSources v s) = ackSources v s ∧
    (∀ j, (ackSources v s).irq.stat.getLsbD j = true → s.irq.stat.getLsbD j = true)

/-! ## The DMA controller -/

/-- R231: starting a channel in each mode, and the configurations that are refused. -/
def Obligations.DmaStart : Prop :=
  ∀ (s : State) (n : ChanNum) (c : DmaChannel) (v : Word), c = s.chan n →
    v = (if n = 6 then c.chcr ||| 2 else c.chcr) → c.madrOpen = false → c.bcrOpen = false →
    (startCond s n = true ↔ c.phase = .idle ∧ v.getLsbD 24 = true ∧ s.dma.dpcr.getLsbD (4 * n + 3) = true ∧
      (v.extractLsb' 9 2 ≠ 0 ∨ v.getLsbD 28 = true)) ∧
    ((v.extractLsb' 9 2 = 3 ∨ (v.extractLsb' 9 2 = 2 ∧ v.getLsbD 0 = false)) →
      dmaStart n s = .stop .dmaConfig) ∧
    (¬ (v.extractLsb' 9 2 = 3 ∨ (v.extractLsb' 9 2 = 2 ∧ v.getLsbD 0 = false)) →
      ∃ t, dmaStart n s = .ok () t ∧
        t.sched.queue = s.sched.queue ++ [⟨s.sched.cycle, s.sched.nextSeq, .dma n, 0⟩] ∧
        (∀ m, m ≠ n → t.chan m = s.chan m) ∧
        (t.chan n).phase = .active ∧ (t.chan n).addr = c.madr ∧
        (t.chan n).chcr = c.chcr &&& 0xEFFFFFFF ∧
        (v.extractLsb' 9 2 = 0 → (t.chan n).wordsLeft =
          if c.bcr.extractLsb' 0 16 = 0 then 0x10000 else (c.bcr.extractLsb' 0 16).toNat) ∧
        (v.extractLsb' 9 2 = 1 → (t.chan n).blocksLeft =
          if c.bcr.extractLsb' 16 16 = 0 then 0x10000 else (c.bcr.extractLsb' 16 16).toNat) ∧
        (v.extractLsb' 9 2 = 2 → (t.chan n).listPtr = c.madr) ∧ t.mem = s.mem ∧ t.irq = s.irq)

/-- R224, R226 to R231: CPU accesses to the DMA registers. Words: what each register reads (a MADR or BCR
without a specified value a draw), what each write stores and which channels it starts, and the refusals.
Every byte and half-word access is refused, those of SWL and SWR among them. (That a narrow access at an offset
without a register is refused for its width is the model's choice, log entry 37.) -/
def Obligations.DmaRegisterAccesses : Prop :=
  ∀ (rt rs : Reg) (imm : Half) (s : State) (va v : Word) (n : ChanNum), va = eaOf s rs imm →
    v = s.x rt →
    (Reaches s va .word →
      (s.region va = .dmaCtl (16 * n) →
        ((s.chan n).madrOpen = false → Loads (.lw rt imm rs) s rt ((s.chan n).madr.setWidth 32)) ∧
        ((s.chan n).madrOpen = true → LoadsDraw (.lw rt imm rs) s rt ((s.drawn.setWidth 24).setWidth 32)) ∧
        ((s.chan n).phase = .idle → Leaves (.sw rt imm rs) s
          (s.setChan n { s.chan n with madr := v.setWidth 24, madrOpen := false }))) ∧
      (s.region va = .dmaCtl (16 * n + 4) →
        ((s.chan n).bcrOpen = false → Loads (.lw rt imm rs) s rt (s.chan n).bcr) ∧
        ((s.chan n).bcrOpen = true → LoadsDraw (.lw rt imm rs) s rt s.drawn) ∧
        ((s.chan n).phase = .idle → Leaves (.sw rt imm rs) s
          (s.setChan n { s.chan n with bcr := v, bcrOpen := false }))) ∧
      (s.region va = .dmaCtl (16 * n + 8) →
        (∃ w : Word, Loads (.lw rt imm rs) s rt w ∧
          ∀ b < 32, w.getLsbD b =
            if b = 24 ∧ (s.chan n).phase = .chopWait then s.cfg.chopGapBusy
            else (s.chan n).chcr.getLsbD b || decide (n = 6 ∧ b = 1)) ∧
        ((s.chan n).phase = .idle → StoresAndStarts (.sw rt imm rs) s (s.setChan n
          { s.chan n with chcr := v &&& (if n = 6 then 0x51000000 else 0x71770703) }))) ∧
      ((s.region va = .dmaCtl (16 * n) ∨ s.region va = .dmaCtl (16 * n + 4) ∨
          s.region va = .dmaCtl (16 * n + 8)) → (s.chan n).phase ≠ .idle →
        exec (.sw rt imm rs) s = .refused .dmaBusyWrite) ∧
      (s.region va = .dmaCtl 0x70 →
        Loads (.lw rt imm rs) s rt s.dma.dpcr ∧
        StoresAndStarts (.sw rt imm rs) s { s with dma := { s.dma with dpcr := v } }) ∧
      (s.region va = .dmaCtl 0x74 →
        (∃ w : Word, Loads (.lw rt imm rs) s rt w ∧ w.extractLsb' 0 24 = s.dma.dicrCtl ∧
          w.extractLsb' 24 7 = s.dma.dicrFlag ∧
          w.getLsbD 31 = (s.dma.dicrCtl.getLsbD 15 || (s.dma.dicrCtl.getLsbD 23 &&
            (s.dma.dicrCtl.extractLsb' 16 7 &&& s.dma.dicrFlag != 0)))) ∧
        ∃ after, dmaRegWrite .dicr v s = .ok () after ∧ Leaves (.sw rt imm rs) s after) ∧
      ((s.region va = .dmaCtl (16 * n + 12) ∨ s.region va = .dmaCtl 0x78 ∨ s.region va = .dmaCtl 0x7C) →
        exec (.sw rt imm rs) s = .refused .unmodelledDeviceReg ∧
        exec (.lw rt imm rs) s = .refused .unmodelledDeviceReg)) ∧
    (Reaches s va .half → ∀ o, s.region va = .dmaCtl o →
      ∀ i ∈ [Instr.lh rt imm rs, .lhu rt imm rs, .sh rt imm rs],
        exec i s = .refused .narrowDeviceAccess) ∧
    (Reaches s va .byte → ∀ o, s.region va = .dmaCtl o →
      (∀ i ∈ [Instr.lb rt imm rs, .lbu rt imm rs, .sb rt imm rs], exec i s = .refused .narrowDeviceAccess) ∧
      (va.toNat % 4 = 0 → exec (.swl rt imm rs) s = .refused .narrowDeviceAccess) ∧
      (va.toNat % 4 = 1 → exec (.swl rt imm rs) s = .refused .narrowDeviceAccess ∧
        exec (.swr rt imm rs) s = .refused .maskedDeviceWrite) ∧
      (va.toNat % 4 = 2 → exec (.swl rt imm rs) s = .refused .maskedDeviceWrite ∧
        exec (.swr rt imm rs) s = .refused .narrowDeviceAccess) ∧
      (va.toNat % 4 = 3 → exec (.swr rt imm rs) s = .refused .narrowDeviceAccess))

/-- R230, R238: a write of DICR clears the flags written as 1, keeps the others, and raises source 3
exactly when the master flag goes from 0 to 1. -/
def Obligations.DicrWrite : Prop :=
  ∀ (s : State) (v : Word), ∃ t, dmaRegWrite .dicr v s = .ok () t ∧
    t.dma.dicrCtl = (v.setWidth 24 &&& 0xFF803F) ∧
    (∀ j < 7, t.dma.dicrFlag.getLsbD j = (s.dma.dicrFlag.getLsbD j && !v.getLsbD (24 + j))) ∧
    t.dicrWord.getLsbD 31 = (v.getLsbD 15 ||
      (v.getLsbD 23 && (v.extractLsb' 16 7 &&& t.dma.dicrFlag != 0))) ∧
    t.irq.stat = (if s.dicrWord.getLsbD 31 = false ∧ t.dicrWord.getLsbD 31 = true
      then s.irq.stat ||| 8 else s.irq.stat) ∧
    t.irq.mask = s.irq.mask ∧ t.mem = s.mem ∧ t.sched = s.sched ∧ t.dma.chan = s.dma.chan

/-- R237, R238: completion clears BUSY, makes the channel Idle, sets its flag exactly when its enable is
set, and raises source 3 when the master flag goes from 0 to 1. -/
def Obligations.DmaCompletion : Prop :=
  ∀ (s : State) (n : ChanNum) (t : State), t = dmaComplete n s →
    (t.chan n).phase = .idle ∧ (t.chan n).chcr = (s.chan n).chcr &&& 0xFEFFFFFF ∧
    (∀ m, m ≠ n → t.chan m = s.chan m) ∧ t.dma.dicrCtl = s.dma.dicrCtl ∧
    (∀ j < 7, t.dma.dicrFlag.getLsbD j =
      (s.dma.dicrFlag.getLsbD j || (decide (j = n.val) && s.dma.dicrCtl.getLsbD (16 + j)))) ∧
    t.irq.stat = (if s.dicrWord.getLsbD 31 = false ∧ t.dicrWord.getLsbD 31 = true
      then s.irq.stat ||| 8 else s.irq.stat) ∧
    t.mem = s.mem ∧ t.sched = s.sched

/-- R232, R235, R240: the event of an unchopped ordering-table clear of `c` words from address `a` down
writes exactly those words: each points to the one below, the last holds 0x00FFFFFF; the channel is then
Idle, and the time is charged. -/
def Obligations.OtcClearsTable : Prop :=
  ∀ (s : State) (a : BitVec 24) (c : Nat), (s.chan 6).addr = a → (s.chan 6).wordsLeft = c → 1 ≤ c →
    c ≤ 0x80000 → (s.chan 6).chcr &&& 0xAEFFFFFF = 0 → s.memOk = true →
    ∃ t, dmaRun 6 s = .ok () t ∧ (t.chan 6).phase = .idle ∧
      t.sched.cycle = s.sched.cycle + c * s.cfg.dmaWordCycles ∧ t.sched.queue = s.sched.queue ∧
      (∀ i < c, t.ramWord (a - 4 * BitVec.ofNat 24 i) =
        if i + 1 = c then 0x00FFFFFF
        else ((a - 4 * BitVec.ofNat 24 (i + 1)) &&& 0x1FFFFF).setWidth 32) ∧
      (∀ b : BitVec 24, (∀ i < c, dmaKey b ≠ dmaKey (a - 4 * BitVec.ofNat 24 i)) →
        t.ramWord b = s.ramWord b) ∧
      ∀ p, ramSize ≤ p → t.mem.get p = s.mem.get p

/-- R232 to R236: the events of channels 0 to 5. A manual event moves the whole transfer, or a chopped one the
smaller of 2^DWIN words and what is left, and completes or waits 2^CWIN cycles. With DREQ = 1 a request event
moves a block, and a linked-list event sends exactly the node's payload words, in order; each completes or
polls again. With DREQ = 0 nothing moves. -/
def Obligations.DmaEventTransfers : Prop :=
  ∀ (s : State) (n : ChanNum) (c : DmaChannel), n ≠ 6 → c = s.chan n → s.memOk = true →
    (∀ k, k = (if c.chcr.getLsbD 8 then min (2 ^ (c.chcr.extractLsb' 16 3).toNat) c.wordsLeft
        else c.wordsLeft) → c.chcr.extractLsb' 9 2 = 0 → 1 ≤ c.wordsLeft → k ≤ 0x80000 →
      ∃ u, DmaMoved n k s u ∧
        u.chan n = { c with phase := .active, addr := dmaStep c k, wordsLeft := c.wordsLeft - k } ∧
        dmaRun n s = .ok () (if k = c.wordsLeft then dmaComplete n u
          else (u.setChan n { u.chan n with phase := .chopWait }).schedule
            (2 ^ (c.chcr.extractLsb' 20 3).toNat) (.dma n) 0)) ∧
    (∀ k, k = (if c.bcr.extractLsb' 0 16 = 0 then 0x10000 else (c.bcr.extractLsb' 0 16).toNat) →
      c.chcr.extractLsb' 9 2 = 1 → 1 ≤ c.blocksLeft → s.inputs.dreq.headD true = true →
      ∃ u, DmaMoved n k (dreqTaken s) u ∧
        u.chan n = { c with phase := .active, addr := dmaStep c k, blocksLeft := c.blocksLeft - 1 } ∧
        dmaRun n s = .ok () (if c.blocksLeft = 1 then dmaComplete n u
          else u.schedule s.cfg.dmaDreqPoll (.dma n) 0)) ∧
    (∀ (p : BitVec 24) (h : Word), p = c.listPtr → h = s.ramWord p → c.chcr.extractLsb' 9 2 = 2 →
      s.inputs.dreq.headD true = true →
      ∃ t, dmaRun n s = .ok () t ∧ t.mem = s.mem ∧
        t.calls = ((List.range (h.toNat / 2 ^ 24)).map fun i =>
          ExtCall.dmaWrite n (s.ramWord (p + 4 * BitVec.ofNat 24 (i + 1)))).reverse ++ s.calls ∧
        t.sched.cycle = s.sched.cycle + (h.toNat / 2 ^ 24 + 1) * s.cfg.dmaWordCycles ∧
        t.inputs = (dreqTaken s).inputs ∧
        (h.getLsbD 23 = true → (t.chan n).phase = .idle ∧ t.sched.queue = s.sched.queue) ∧
        (h.getLsbD 23 = false → (t.chan n).phase = .active ∧ (t.chan n).listPtr = h.setWidth 24 ∧
          t.sched.queue = s.sched.queue ++
            [⟨t.sched.cycle + s.cfg.dmaDreqPoll, s.sched.nextSeq, .dma n, 0⟩])) ∧
    ((c.chcr.extractLsb' 9 2 = 1 ∨ c.chcr.extractLsb' 9 2 = 2) → s.inputs.dreq.headD true = false →
      dmaRun n s = .ok ()
        (((dreqTaken s).setChan n { c with phase := .active }).schedule s.cfg.dmaDreqPoll (.dma n) 0))

/-! ## The scheduler -/

/-- R243, R244: a step fires an event exactly when one is due, and the one it fires has the least target,
ties broken by the insertion number. -/
def Obligations.DueEventFirst : Prop :=
  ∀ s : State, s.refusedMark = none →
    ((∃ e ∈ s.sched.queue, e.target ≤ s.sched.cycle) →
      ∃ e ∈ s.sched.queue, e.target ≤ s.sched.cycle ∧ step s = fireEvent e s ∧
        ∀ f ∈ s.sched.queue, f.target ≤ s.sched.cycle →
          e.target < f.target ∨ (e.target = f.target ∧ e.seq ≤ f.seq)) ∧
    ((∀ e ∈ s.sched.queue, s.sched.cycle < e.target) → step s = cpuStep s)

/-- R242, R243, R247: when an event has been fired, every event still queued, whether it was there before
or was scheduled by the firing, comes after it in the firing order. -/
def Obligations.EventsFireInOrder : Prop :=
  ∀ (s t : State) (e : Event), s.queueOk = true → s.dueEvent = some e → step s = .next t →
    ∀ f ∈ t.sched.queue,
      e.target < f.target ∨ (e.target = f.target ∧ e.seq < f.seq)

/-- R241: the cycle count never decreases. -/
def Obligations.CycleNeverDecreases : Prop :=
  ∀ s t : State, step s = .next t → s.sched.cycle ≤ t.sched.cycle

/-! ## Invariants that every step keeps -/

/-- R48, R63, R70: the memory image keeps its canonical form, and lists addresses of RAM, SCRATCH and BIOS
only. -/
def Obligations.MemoryFormKept : Prop :=
  ∀ s t : State, step s = .next t → s.memOk = true → s.imageOk = true →
    t.memOk = true ∧ t.imageOk = true

/-- R48, R60: no step changes a byte of BIOS. -/
def Obligations.BiosUnchanged : Prop :=
  ∀ s t : State, step s = .next t → s.memOk = true →
    ∀ i < biosSize, t.mem.get (biosBase + i) = s.mem.get (biosBase + i)

/-- R32, R33, R228, R230: the bits of SR, of each CHCR and of DICR that read 0 stay 0. -/
def Obligations.ReservedBitsKept : Prop :=
  ∀ s t : State, step s = .next t →
    (s.srOk = true → t.srOk = true) ∧ (s.dmaRegsOk = true → t.dmaRegsOk = true)

/-- R202: under FIRST_WINS a pending branch stays the instruction just before `pc`, so an exception in its
slot reports `pc - 4`. -/
def Obligations.PendingBranchBeforePc : Prop :=
  ∀ s t : State, step s = .next t → s.slotOk = true → t.slotOk = true

/-- R240, R242: the queue stays in insertion order with fresh sequence numbers; and a channel that is not
Idle keeps exactly one queued event, an Idle one none. -/
def Obligations.EventQueueKept : Prop :=
  ∀ s t : State, step s = .next t →
    (s.queueOk = true → t.queueOk = true) ∧ (s.dmaQueueOk = true → t.dmaQueueOk = true)

/-! ## Reset and boot -/

/-- R50, R251: what the spec states of the state after reset; for the values it leaves open this says
nothing. -/
def Obligations.ResetState : Prop :=
  State.reset.x 0 = 0 ∧ State.reset.pc = 0xBFC00000 ∧ State.reset.bslot = none ∧
  State.reset.lslot = none ∧ State.reset.cop0.sr.getLsbD 22 = true ∧
  State.reset.cop0.sr.getLsbD 0 = false ∧ State.reset.cop0.sr.getLsbD 1 = false ∧
  State.reset.cop0.sr &&& 0x0DB80000 = 0 ∧ State.reset.irq.stat = 0 ∧ State.reset.irq.mask = 0 ∧
  (∀ n : ChanNum, (State.reset.chan n).madr = 0 ∧ (State.reset.chan n).bcr = 0 ∧
    (State.reset.chan n).chcr = 0 ∧ (State.reset.chan n).phase = .idle ∧
    chcrRead State.reset.cfg n (State.reset.chan n) = if n = 6 then 2 else 0) ∧
  State.reset.dma.dpcr = 0x07654321 ∧ State.reset.dicrWord = 0 ∧ State.reset.sched.cycle = 0 ∧
  State.reset.sched.nextSeq = 0 ∧ State.reset.gteReady = 0 ∧
  (∀ e ∈ State.reset.sched.queue, ∀ n, e.source ≠ .dma n) ∧
  State.reset.refusedMark = none

/-- The invariants hold after reset (the empty memory and the empty queue of `State.reset` are the model's
choice, log entries 2 and 21). -/
def Obligations.ResetGood : Prop := State.reset.good = true

/-- R250, R251: an image of the right size that passes the check is loaded verbatim at BIOS, and nothing
else of the reset state changes; any other image is `InvalidBootImage`. -/
def Obligations.BootImageLoaded : Prop :=
  ∀ (p : Params) (image : List Byte), p.valid = true →
    (image.length = 0x80000 → (p.bootChecksumOn = false ∨ Config.bootChecksum image = true) →
      ∃ s, powerOn p image = .ok () s ∧ s.memOk = true ∧
        (∀ (i : Nat) (h : i < image.length), s.mem.get (0x1FC00000 + i) = image[i]) ∧
        (∀ a, (a < 0x1FC00000 ∨ 0x1FC80000 ≤ a) → s.mem.get a = State.reset.mem.get a) ∧
        { s with cfg := State.reset.cfg, mem := State.reset.mem } = State.reset ∧ s.cfg = p) ∧
    (¬ (image.length = 0x80000 ∧ (p.bootChecksumOn = false ∨ Config.bootChecksum image = true)) →
      powerOn p image = .error .invalidBootImage)

end Statements
end

