-- ==== Sys2Proof/Laws/Memory.lean ====
section
/-! SUPPORT. Memory: a read after a write, and the canonical form kept by every memory operation. -/

namespace Sys2Proof.Machine

/-! ## The canonical form -/

theorem Memory.wf_cons (a : Nat) (v : Byte) (m : Memory) :
    Memory.wf ((a, v) :: m) = true ↔
      v ≠ unlistedByte ∧ Memory.wf m = true ∧ ∀ c ∈ m, a < c.1 := by
  induction m generalizing a v with
  | nil => simp [Memory.wf]
  | cons c m ih =>
    obtain ⟨b, w⟩ := c
    rw [Memory.wf]
    simp only [Bool.and_eq_true, decide_eq_true_eq, bne_iff_ne, ne_eq, List.mem_cons, forall_eq_or_imp]
    constructor
    · rintro ⟨⟨hab, hv⟩, hm⟩
      exact ⟨hv, hm, hab, fun c hc => lt_trans hab (((ih b w).1 hm).2.2 c hc)⟩
    · rintro ⟨hv, hm, hab, _⟩
      exact ⟨⟨hab, hv⟩, hm⟩

/-- An address below every listed one reads as unlisted. -/
theorem Memory.get_of_lt (m : Memory) (a : Nat) (h : ∀ c ∈ m, a < c.1) : m.get a = unlistedByte := by
  induction m with
  | nil => rfl
  | cons c m ih =>
    obtain ⟨b, w⟩ := c
    have hb : a < b := h (b, w) (by simp)
    rw [Memory.get, if_neg (by omega), ih fun c hc => h c (by simp [hc])]

/-- Every address that a write leaves listed was listed, or is the one written. -/
theorem Memory.mem_set (m : Memory) (a : Nat) (v : Byte) (c : Host.Cell) (h : c ∈ m.set a v) :
    c ∈ m ∨ c = (a, v) := by
  induction m with
  | nil => simp only [Memory.set] at h; split at h <;> simp_all
  | cons d m ih =>
    obtain ⟨b, w⟩ := d
    simp only [Memory.set] at h
    split at h
    · split at h <;> simp_all <;> tauto
    · split at h
      · split at h <;> simp_all; tauto
      · simp only [List.mem_cons] at h ⊢
        rcases h with h | h
        · exact .inl (.inl h)
        · rcases ih h with h | h
          · exact .inl (.inr h)
          · exact .inr h

/-- A write keeps the canonical form. -/
theorem Memory.wf_set (m : Memory) (a : Nat) (v : Byte) (h : m.wf = true) : (m.set a v).wf = true := by
  induction m with
  | nil => simp only [Memory.set]; split <;> simp_all [Memory.wf]
  | cons d m ih =>
    obtain ⟨b, w⟩ := d
    have hd := (Memory.wf_cons b w m).1 h
    simp only [Memory.set]
    split
    · split
      · exact h
      · rename_i hab hv
        refine (Memory.wf_cons a v _).2 ⟨hv, h, fun c hc => ?_⟩
        rcases List.mem_cons.1 hc with rfl | hc
        · exact hab
        · exact lt_trans hab (hd.2.2 c hc)
    · split
      · subst_vars
        split
        · exact hd.2.1
        · exact (Memory.wf_cons _ v m).2 ⟨‹_›, hd.2⟩
      · refine (Memory.wf_cons b w _).2 ⟨hd.1, ih hd.2.1, fun c hc => ?_⟩
        rcases Memory.mem_set m a v c hc with hc | rfl
        · exact hd.2.2 c hc
        · show b < a; omega

/-! ## A read after a write -/

/-- A read of one byte after a write of one byte. -/
theorem Memory.get_set (m : Memory) (a b : Nat) (v : Byte) (h : m.wf = true) :
    (m.set a v).get b = if b = a then v else m.get b := by
  induction m with
  | nil => simp only [Memory.set]; split <;> simp_all [Memory.get]
  | cons d m ih =>
    obtain ⟨c, w⟩ := d
    have hd := (Memory.wf_cons c w m).1 h
    simp only [Memory.set]
    split
    · rename_i hac
      split
      · rename_i hv
        split
        · rename_i hb
          rw [hb, hv]
          refine Memory.get_of_lt _ _ fun e he => ?_
          rcases List.mem_cons.1 he with rfl | he
          · exact hac
          · exact lt_trans hac (hd.2.2 e he)
        · rfl
      · rw [Memory.get]
    · split
      · rename_i hac
        subst hac
        split
        · rename_i hv
          split
          · rename_i hb
            rw [hb, hv]; exact Memory.get_of_lt _ _ hd.2.2
          · rename_i hb
            rw [Memory.get, if_neg hb]
        · rw [Memory.get, Memory.get]; split <;> rfl
      · rename_i hne
        rw [Memory.get, ih hd.2.1]
        simp only [Memory.get]
        split
        · rename_i hb; rw [if_neg (by omega)]
        · rfl

/-- Several bytes: writes keep the canonical form. -/
theorem Memory.wf_writeLE (m : Memory) (a n : Nat) (v : Word) (h : m.wf = true) :
    (m.writeLE a n v).wf = true := by
  induction n generalizing m a v with
  | zero => exact h
  | succ n ih => exact ih _ _ _ (Memory.wf_set _ _ _ h)

/-- Several bytes: an address outside the written ones reads as before. -/
theorem Memory.get_writeLE_outside (m : Memory) (a n : Nat) (v : Word) (b : Nat) (h : m.wf = true)
    (hb : b < a ∨ a + n ≤ b) : (m.writeLE a n v).get b = m.get b := by
  induction n generalizing m a v with
  | zero => rfl
  | succ n ih =>
    rw [Memory.writeLE, ih _ _ _ (Memory.wf_set _ _ _ h) (by omega), Memory.get_set _ _ _ _ h,
      if_neg (by omega)]

/-- Several bytes: byte `k` of the written value stands at `a + k` (little-endian, R61). -/
theorem Memory.get_writeLE_inside (m : Memory) (a n : Nat) (v : Word) (k : Nat) (h : m.wf = true)
    (hk : k < n) : (m.writeLE a n v).get (a + k) = byteOf v k := by
  induction n generalizing m a v k with
  | zero => omega
  | succ n ih =>
    rw [Memory.writeLE]
    cases k with
    | zero =>
      rw [Memory.get_writeLE_outside _ _ _ _ _ (Memory.wf_set _ _ _ h) (by omega), Memory.get_set _ _ _ _ h]
      simp only [Nat.add_zero, if_true, byteOf]
      ext i hi
      simp [hi]
    | succ k =>
      have := ih (m.set a (v.setWidth 8)) (a + 1) (v >>> 8) k (Memory.wf_set _ _ _ h) (by omega)
      rw [show a + (k + 1) = a + 1 + k by omega, this]
      unfold byteOf
      ext i hi
      simp [hi, show 8 + (8 * k + i) = 8 * (k + 1) + i by omega]

/-- Masked writes keep the canonical form. -/
theorem Memory.wf_writeMasked (m : Memory) (a : Nat) (mask : BitVec 4) (v : Word) (h : m.wf = true) :
    (m.writeMasked a mask v).wf = true := by
  unfold Memory.writeMasked
  have put (k : Nat) (m : Memory) (h : m.wf = true) :
      Memory.wf (if mask.getLsbD k then m.set (a + k) (byteOf v k) else m) = true := by
    split
    · exact Memory.wf_set _ _ _ h
    · exact h
  exact put 3 _ (put 2 _ (put 1 _ (put 0 _ h)))

/-- A masked write: byte `k` of the value at `a + k` where the mask selects it, every other byte as
before (R64). -/
theorem Memory.get_writeMasked (m : Memory) (a : Nat) (mask : BitVec 4) (v : Word) (b : Nat)
    (h : m.wf = true) :
    (m.writeMasked a mask v).get b =
      if a ≤ b ∧ b < a + 4 ∧ mask.getLsbD (b - a) = true then byteOf v (b - a) else m.get b := by
  have put (k : Nat) (m : Memory) (h : m.wf = true) :
      Memory.wf (if mask.getLsbD k then m.set (a + k) (byteOf v k) else m) = true ∧
      (if mask.getLsbD k then m.set (a + k) (byteOf v k) else m).get b =
        if b = a + k ∧ mask.getLsbD k = true then byteOf v k else m.get b := by
    split
    · rename_i hk
      refine ⟨Memory.wf_set _ _ _ h, ?_⟩
      rw [Memory.get_set _ _ _ _ h]
      simp [hk]
    · rename_i hk
      exact ⟨h, by simp [hk]⟩
  unfold Memory.writeMasked
  have p0 := put 0 m h
  have p1 := put 1 _ p0.1
  have p2 := put 2 _ p1.1
  have p3 := put 3 _ p2.1
  simp only
  rw [p3.2, p2.2, p1.2, p0.2]
  by_cases hb : a ≤ b ∧ b < a + 4
  · obtain ⟨j, hj, rfl⟩ : ∃ j, j < 4 ∧ b = a + j := ⟨b - a, by omega, by omega⟩
    have : a + j - a = j := by omega
    rw [this]
    have hj4 : j = 0 ∨ j = 1 ∨ j = 2 ∨ j = 3 := by omega
    rcases hj4 with rfl | rfl | rfl | rfl <;> simp
  · rw [if_neg (by omega), if_neg (by omega), if_neg (by omega), if_neg (by omega), if_neg (by tauto)]

/-! ## Words -/

/-- The bytes of a little-endian read (R61). -/
theorem Memory.byteOf_readLE (m : Memory) (a n k : Nat) (hn : n ≤ 4) (hk : k < n) :
    byteOf (m.readLE a n) k = m.get (a + k) := by
  have key : ∀ n a i, n ≤ 4 → i < 8 * n →
      (m.readLE a n).getLsbD i = (m.get (a + i / 8)).getLsbD (i % 8) := by
    intro n
    induction n with
    | zero => intro a i _ hi; omega
    | succ n ih =>
      intro a i hn hi
      rw [Memory.readLE]
      simp only [BitVec.getLsbD_or, BitVec.getLsbD_shiftLeft, BitVec.getLsbD_setWidth]
      by_cases h8 : i < 8
      · simp [h8, show i < 32 by omega, Nat.div_eq_of_lt h8, Nat.mod_eq_of_lt h8]
      · rw [ih (a + 1) (i - 8) (by omega) (by omega)]
        have h1 : a + 1 + (i - 8) / 8 = a + i / 8 := by omega
        have h2 : (i - 8) % 8 = i % 8 := by omega
        rw [h1, h2]
        simp [h8, show i < 32 by omega, BitVec.getLsbD_of_ge (m.get a) i (by omega)]
  unfold byteOf
  ext i hi
  rw [BitVec.getElem_extractLsb', key n a _ hn (by omega)]
  rw [show (8 * k + i) / 8 = k by omega, show (8 * k + i) % 8 = i by omega]
  simp [hi]

/-- A word read depends on its bytes only. -/
theorem Memory.readLE_congr (m m' : Memory) (a n : Nat) (h : ∀ k, k < n → m'.get (a + k) = m.get (a + k)) :
    m'.readLE a n = m.readLE a n := by
  induction n generalizing a with
  | zero => rfl
  | succ n ih =>
    rw [Memory.readLE, Memory.readLE]
    have h0 := h 0 (by omega)
    simp only [Nat.add_zero] at h0
    rw [h0, ih (a + 1) fun k hk => by
      have := h (k + 1) (by omega)
      rwa [show a + (k + 1) = a + 1 + k by omega] at this]

/-- A word is the combination of its four bytes. -/
theorem byteOf_ext (v w : Word) (h : ∀ k, k < 4 → byteOf v k = byteOf w k) : v = w := by
  ext i hi
  have hb := congrArg (fun b : Byte => b.getLsbD (i % 8)) (h (i / 8) (by omega))
  simp only [byteOf, BitVec.getLsbD_extractLsb', show i % 8 < 8 by omega, decide_true, Bool.true_and,
    show 8 * (i / 8) + i % 8 = i by omega] at hb
  simpa [hi] using hb

/-- A word read after a word write to the same place gives the word written. -/
theorem Memory.readLE_writeLE (m : Memory) (a : Nat) (v : Word) (h : m.wf = true) :
    (m.writeLE a 4 v).readLE a 4 = v := by
  apply byteOf_ext
  intro k hk
  rw [Memory.byteOf_readLE _ _ _ _ (le_refl 4) hk, Memory.get_writeLE_inside _ _ _ _ _ h hk]

/-! ## Which addresses are listed -/

/-- A write lists no address but the ones written. -/
theorem Memory.mem_writeLE (m : Memory) (a n : Nat) (v : Word) (c : Host.Cell) (h : c ∈ m.writeLE a n v) :
    c ∈ m ∨ (a ≤ c.1 ∧ c.1 < a + n) := by
  induction n generalizing m a v with
  | zero => exact .inl h
  | succ n ih =>
    rcases ih _ _ _ h with h | h
    · rcases Memory.mem_set _ _ _ _ h with h | rfl
      · exact .inl h
      · exact .inr ⟨le_refl _, by show a < a + (n + 1); omega⟩
    · exact .inr ⟨by omega, by omega⟩

/-- A masked write lists no address but the four of its word. -/
theorem Memory.mem_writeMasked (m : Memory) (a : Nat) (mask : BitVec 4) (v : Word) (c : Host.Cell)
    (h : c ∈ m.writeMasked a mask v) : c ∈ m ∨ (a ≤ c.1 ∧ c.1 < a + 4) := by
  have put (k : Nat) (m : Memory) (hk : k < 4)
      (h : c ∈ (if mask.getLsbD k then m.set (a + k) (byteOf v k) else m)) :
      c ∈ m ∨ (a ≤ c.1 ∧ c.1 < a + 4) := by
    split at h
    · rcases Memory.mem_set _ _ _ _ h with h | rfl
      · exact .inl h
      · exact .inr ⟨by show a ≤ a + k; omega, by show a + k < a + 4; omega⟩
    · exact .inl h
  unfold Memory.writeMasked at h
  rcases put 3 _ (by omega) h with h | h
  · rcases put 2 _ (by omega) h with h | h
    · rcases put 1 _ (by omega) h with h | h
      · rcases put 0 _ (by omega) h with h | h
        · exact .inl h
        · exact .inr h
      · exact .inr h
    · exact .inr h
  · exact .inr h

/-- The memory after reset has the canonical form. -/
theorem reset_memory_wf : State.reset.mem.wf = true := rfl

end Sys2Proof.Machine
end

