-- ==== Sys2Proof/Laws/State.lean ====
section
/-! SUPPORT. One lemma per field of State per update, so that no proof unfolds a record update. -/

namespace Sys2Proof.Machine

/-! ## nextDraw -/

@[simp] theorem State.nextDraw_cfg (s : State) : (s.nextDraw).cfg = s.cfg := rfl
@[simp] theorem State.nextDraw_regs (s : State) : (s.nextDraw).regs = s.regs := rfl
@[simp] theorem State.nextDraw_hi (s : State) : (s.nextDraw).hi = s.hi := rfl
@[simp] theorem State.nextDraw_lo (s : State) : (s.nextDraw).lo = s.lo := rfl
@[simp] theorem State.nextDraw_pc (s : State) : (s.nextDraw).pc = s.pc := rfl
@[simp] theorem State.nextDraw_bslot (s : State) : (s.nextDraw).bslot = s.bslot := rfl
@[simp] theorem State.nextDraw_lslot (s : State) : (s.nextDraw).lslot = s.lslot := rfl
@[simp] theorem State.nextDraw_cop0 (s : State) : (s.nextDraw).cop0 = s.cop0 := rfl
@[simp] theorem State.nextDraw_irq (s : State) : (s.nextDraw).irq = s.irq := rfl
@[simp] theorem State.nextDraw_dma (s : State) : (s.nextDraw).dma = s.dma := rfl
@[simp] theorem State.nextDraw_sched (s : State) : (s.nextDraw).sched = s.sched := rfl
@[simp] theorem State.nextDraw_gteReady (s : State) : (s.nextDraw).gteReady = s.gteReady := rfl
@[simp] theorem State.nextDraw_mem (s : State) : (s.nextDraw).mem = s.mem := rfl
@[simp] theorem State.nextDraw_cacheCtrl (s : State) : (s.nextDraw).cacheCtrl = s.cacheCtrl := rfl
@[simp] theorem State.nextDraw_hist (s : State) : (s.nextDraw).hist = s.hist := rfl
@[simp] theorem State.nextDraw_inputs (s : State) :
    (s.nextDraw).inputs = { s.inputs with drawIndex := s.inputs.drawIndex + 1 } := rfl
@[simp] theorem State.nextDraw_calls (s : State) : (s.nextDraw).calls = s.calls := rfl
@[simp] theorem State.nextDraw_refusedMark (s : State) : (s.nextDraw).refusedMark = s.refusedMark := rfl

/-! ## record -/

@[simp] theorem State.record_cfg (s : State) (c : ExtCall) : (s.record c).cfg = s.cfg := rfl
@[simp] theorem State.record_regs (s : State) (c : ExtCall) : (s.record c).regs = s.regs := rfl
@[simp] theorem State.record_hi (s : State) (c : ExtCall) : (s.record c).hi = s.hi := rfl
@[simp] theorem State.record_lo (s : State) (c : ExtCall) : (s.record c).lo = s.lo := rfl
@[simp] theorem State.record_pc (s : State) (c : ExtCall) : (s.record c).pc = s.pc := rfl
@[simp] theorem State.record_bslot (s : State) (c : ExtCall) : (s.record c).bslot = s.bslot := rfl
@[simp] theorem State.record_lslot (s : State) (c : ExtCall) : (s.record c).lslot = s.lslot := rfl
@[simp] theorem State.record_cop0 (s : State) (c : ExtCall) : (s.record c).cop0 = s.cop0 := rfl
@[simp] theorem State.record_irq (s : State) (c : ExtCall) : (s.record c).irq = s.irq := rfl
@[simp] theorem State.record_dma (s : State) (c : ExtCall) : (s.record c).dma = s.dma := rfl
@[simp] theorem State.record_sched (s : State) (c : ExtCall) : (s.record c).sched = s.sched := rfl
@[simp] theorem State.record_gteReady (s : State) (c : ExtCall) : (s.record c).gteReady = s.gteReady := rfl
@[simp] theorem State.record_mem (s : State) (c : ExtCall) : (s.record c).mem = s.mem := rfl
@[simp] theorem State.record_cacheCtrl (s : State) (c : ExtCall) : (s.record c).cacheCtrl = s.cacheCtrl := rfl
@[simp] theorem State.record_hist (s : State) (c : ExtCall) : (s.record c).hist = s.hist := rfl
@[simp] theorem State.record_inputs (s : State) (c : ExtCall) : (s.record c).inputs = s.inputs := rfl
@[simp] theorem State.record_calls (s : State) (c : ExtCall) : (s.record c).calls = c :: s.calls := rfl
@[simp] theorem State.record_refusedMark (s : State) (c : ExtCall) :
    (s.record c).refusedMark = s.refusedMark := rfl

/-! ## addCycles -/

@[simp] theorem State.addCycles_cfg (s : State) (c : Nat) : (s.addCycles c).cfg = s.cfg := rfl
@[simp] theorem State.addCycles_regs (s : State) (c : Nat) : (s.addCycles c).regs = s.regs := rfl
@[simp] theorem State.addCycles_hi (s : State) (c : Nat) : (s.addCycles c).hi = s.hi := rfl
@[simp] theorem State.addCycles_lo (s : State) (c : Nat) : (s.addCycles c).lo = s.lo := rfl
@[simp] theorem State.addCycles_pc (s : State) (c : Nat) : (s.addCycles c).pc = s.pc := rfl
@[simp] theorem State.addCycles_bslot (s : State) (c : Nat) : (s.addCycles c).bslot = s.bslot := rfl
@[simp] theorem State.addCycles_lslot (s : State) (c : Nat) : (s.addCycles c).lslot = s.lslot := rfl
@[simp] theorem State.addCycles_cop0 (s : State) (c : Nat) : (s.addCycles c).cop0 = s.cop0 := rfl
@[simp] theorem State.addCycles_irq (s : State) (c : Nat) : (s.addCycles c).irq = s.irq := rfl
@[simp] theorem State.addCycles_dma (s : State) (c : Nat) : (s.addCycles c).dma = s.dma := rfl
@[simp] theorem State.addCycles_sched (s : State) (c : Nat) :
    (s.addCycles c).sched = { s.sched with cycle := s.sched.cycle + c } := rfl
@[simp] theorem State.addCycles_gteReady (s : State) (c : Nat) : (s.addCycles c).gteReady = s.gteReady := rfl
@[simp] theorem State.addCycles_mem (s : State) (c : Nat) : (s.addCycles c).mem = s.mem := rfl
@[simp] theorem State.addCycles_cacheCtrl (s : State) (c : Nat) :
    (s.addCycles c).cacheCtrl = s.cacheCtrl := rfl
@[simp] theorem State.addCycles_hist (s : State) (c : Nat) : (s.addCycles c).hist = s.hist := rfl
@[simp] theorem State.addCycles_inputs (s : State) (c : Nat) : (s.addCycles c).inputs = s.inputs := rfl
@[simp] theorem State.addCycles_calls (s : State) (c : Nat) : (s.addCycles c).calls = s.calls := rfl
@[simp] theorem State.addCycles_refusedMark (s : State) (c : Nat) :
    (s.addCycles c).refusedMark = s.refusedMark := rfl

/-! ## schedule -/

@[simp] theorem State.schedule_cfg (s : State) (d : Nat) (q : Source) (p : Nat) :
    (s.schedule d q p).cfg = s.cfg := rfl
@[simp] theorem State.schedule_regs (s : State) (d : Nat) (q : Source) (p : Nat) :
    (s.schedule d q p).regs = s.regs := rfl
@[simp] theorem State.schedule_hi (s : State) (d : Nat) (q : Source) (p : Nat) :
    (s.schedule d q p).hi = s.hi := rfl
@[simp] theorem State.schedule_lo (s : State) (d : Nat) (q : Source) (p : Nat) :
    (s.schedule d q p).lo = s.lo := rfl
@[simp] theorem State.schedule_pc (s : State) (d : Nat) (q : Source) (p : Nat) :
    (s.schedule d q p).pc = s.pc := rfl
@[simp] theorem State.schedule_bslot (s : State) (d : Nat) (q : Source) (p : Nat) :
    (s.schedule d q p).bslot = s.bslot := rfl
@[simp] theorem State.schedule_lslot (s : State) (d : Nat) (q : Source) (p : Nat) :
    (s.schedule d q p).lslot = s.lslot := rfl
@[simp] theorem State.schedule_cop0 (s : State) (d : Nat) (q : Source) (p : Nat) :
    (s.schedule d q p).cop0 = s.cop0 := rfl
@[simp] theorem State.schedule_irq (s : State) (d : Nat) (q : Source) (p : Nat) :
    (s.schedule d q p).irq = s.irq := rfl
@[simp] theorem State.schedule_dma (s : State) (d : Nat) (q : Source) (p : Nat) :
    (s.schedule d q p).dma = s.dma := rfl
@[simp] theorem State.schedule_sched (s : State) (d : Nat) (q : Source) (p : Nat) :
    (s.schedule d q p).sched = { s.sched with
        nextSeq := s.sched.nextSeq + 1
        queue := s.sched.queue ++ [⟨s.sched.cycle + d, s.sched.nextSeq, q, p⟩] } := rfl
@[simp] theorem State.schedule_gteReady (s : State) (d : Nat) (q : Source) (p : Nat) :
    (s.schedule d q p).gteReady = s.gteReady := rfl
@[simp] theorem State.schedule_mem (s : State) (d : Nat) (q : Source) (p : Nat) :
    (s.schedule d q p).mem = s.mem := rfl
@[simp] theorem State.schedule_cacheCtrl (s : State) (d : Nat) (q : Source) (p : Nat) :
    (s.schedule d q p).cacheCtrl = s.cacheCtrl := rfl
@[simp] theorem State.schedule_hist (s : State) (d : Nat) (q : Source) (p : Nat) :
    (s.schedule d q p).hist = s.hist := rfl
@[simp] theorem State.schedule_inputs (s : State) (d : Nat) (q : Source) (p : Nat) :
    (s.schedule d q p).inputs = s.inputs := rfl
@[simp] theorem State.schedule_calls (s : State) (d : Nat) (q : Source) (p : Nat) :
    (s.schedule d q p).calls = s.calls := rfl
@[simp] theorem State.schedule_refusedMark (s : State) (d : Nat) (q : Source) (p : Nat) :
    (s.schedule d q p).refusedMark = s.refusedMark := rfl

/-! ## dequeue -/

@[simp] theorem State.dequeue_cfg (s : State) (e : Event) : (s.dequeue e).cfg = s.cfg := rfl
@[simp] theorem State.dequeue_regs (s : State) (e : Event) : (s.dequeue e).regs = s.regs := rfl
@[simp] theorem State.dequeue_hi (s : State) (e : Event) : (s.dequeue e).hi = s.hi := rfl
@[simp] theorem State.dequeue_lo (s : State) (e : Event) : (s.dequeue e).lo = s.lo := rfl
@[simp] theorem State.dequeue_pc (s : State) (e : Event) : (s.dequeue e).pc = s.pc := rfl
@[simp] theorem State.dequeue_bslot (s : State) (e : Event) : (s.dequeue e).bslot = s.bslot := rfl
@[simp] theorem State.dequeue_lslot (s : State) (e : Event) : (s.dequeue e).lslot = s.lslot := rfl
@[simp] theorem State.dequeue_cop0 (s : State) (e : Event) : (s.dequeue e).cop0 = s.cop0 := rfl
@[simp] theorem State.dequeue_irq (s : State) (e : Event) : (s.dequeue e).irq = s.irq := rfl
@[simp] theorem State.dequeue_dma (s : State) (e : Event) : (s.dequeue e).dma = s.dma := rfl
@[simp] theorem State.dequeue_sched (s : State) (e : Event) :
    (s.dequeue e).sched = { s.sched with queue := s.sched.queue.erase e } := rfl
@[simp] theorem State.dequeue_gteReady (s : State) (e : Event) : (s.dequeue e).gteReady = s.gteReady := rfl
@[simp] theorem State.dequeue_mem (s : State) (e : Event) : (s.dequeue e).mem = s.mem := rfl
@[simp] theorem State.dequeue_cacheCtrl (s : State) (e : Event) : (s.dequeue e).cacheCtrl = s.cacheCtrl := rfl
@[simp] theorem State.dequeue_hist (s : State) (e : Event) : (s.dequeue e).hist = s.hist := rfl
@[simp] theorem State.dequeue_inputs (s : State) (e : Event) : (s.dequeue e).inputs = s.inputs := rfl
@[simp] theorem State.dequeue_calls (s : State) (e : Event) : (s.dequeue e).calls = s.calls := rfl
@[simp] theorem State.dequeue_refusedMark (s : State) (e : Event) :
    (s.dequeue e).refusedMark = s.refusedMark := rfl

/-! ## latchSource -/

@[simp] theorem latchSource_cfg (s : State) (k : Nat) : (latchSource k s).cfg = s.cfg := rfl
@[simp] theorem latchSource_regs (s : State) (k : Nat) : (latchSource k s).regs = s.regs := rfl
@[simp] theorem latchSource_hi (s : State) (k : Nat) : (latchSource k s).hi = s.hi := rfl
@[simp] theorem latchSource_lo (s : State) (k : Nat) : (latchSource k s).lo = s.lo := rfl
@[simp] theorem latchSource_pc (s : State) (k : Nat) : (latchSource k s).pc = s.pc := rfl
@[simp] theorem latchSource_bslot (s : State) (k : Nat) : (latchSource k s).bslot = s.bslot := rfl
@[simp] theorem latchSource_lslot (s : State) (k : Nat) : (latchSource k s).lslot = s.lslot := rfl
@[simp] theorem latchSource_cop0 (s : State) (k : Nat) : (latchSource k s).cop0 = s.cop0 := rfl
@[simp] theorem latchSource_irq (s : State) (k : Nat) :
    (latchSource k s).irq = { s.irq with stat := s.irq.stat ||| sourceBit k } := rfl
@[simp] theorem latchSource_dma (s : State) (k : Nat) : (latchSource k s).dma = s.dma := rfl
@[simp] theorem latchSource_sched (s : State) (k : Nat) : (latchSource k s).sched = s.sched := rfl
@[simp] theorem latchSource_gteReady (s : State) (k : Nat) : (latchSource k s).gteReady = s.gteReady := rfl
@[simp] theorem latchSource_mem (s : State) (k : Nat) : (latchSource k s).mem = s.mem := rfl
@[simp] theorem latchSource_cacheCtrl (s : State) (k : Nat) : (latchSource k s).cacheCtrl = s.cacheCtrl := rfl
@[simp] theorem latchSource_hist (s : State) (k : Nat) : (latchSource k s).hist = s.hist := rfl
@[simp] theorem latchSource_inputs (s : State) (k : Nat) : (latchSource k s).inputs = s.inputs := rfl
@[simp] theorem latchSource_calls (s : State) (k : Nat) : (latchSource k s).calls = s.calls := rfl
@[simp] theorem latchSource_refusedMark (s : State) (k : Nat) :
    (latchSource k s).refusedMark = s.refusedMark := rfl

/-! ## setIrqMask -/

@[simp] theorem setIrqMask_cfg (s : State) (v : BitVec 11) : (setIrqMask v s).cfg = s.cfg := rfl
@[simp] theorem setIrqMask_regs (s : State) (v : BitVec 11) : (setIrqMask v s).regs = s.regs := rfl
@[simp] theorem setIrqMask_hi (s : State) (v : BitVec 11) : (setIrqMask v s).hi = s.hi := rfl
@[simp] theorem setIrqMask_lo (s : State) (v : BitVec 11) : (setIrqMask v s).lo = s.lo := rfl
@[simp] theorem setIrqMask_pc (s : State) (v : BitVec 11) : (setIrqMask v s).pc = s.pc := rfl
@[simp] theorem setIrqMask_bslot (s : State) (v : BitVec 11) : (setIrqMask v s).bslot = s.bslot := rfl
@[simp] theorem setIrqMask_lslot (s : State) (v : BitVec 11) : (setIrqMask v s).lslot = s.lslot := rfl
@[simp] theorem setIrqMask_cop0 (s : State) (v : BitVec 11) : (setIrqMask v s).cop0 = s.cop0 := rfl
@[simp] theorem setIrqMask_irq (s : State) (v : BitVec 11) :
    (setIrqMask v s).irq = { s.irq with mask := v } := rfl
@[simp] theorem setIrqMask_dma (s : State) (v : BitVec 11) : (setIrqMask v s).dma = s.dma := rfl
@[simp] theorem setIrqMask_sched (s : State) (v : BitVec 11) : (setIrqMask v s).sched = s.sched := rfl
@[simp] theorem setIrqMask_gteReady (s : State) (v : BitVec 11) :
    (setIrqMask v s).gteReady = s.gteReady := rfl
@[simp] theorem setIrqMask_mem (s : State) (v : BitVec 11) : (setIrqMask v s).mem = s.mem := rfl
@[simp] theorem setIrqMask_cacheCtrl (s : State) (v : BitVec 11) :
    (setIrqMask v s).cacheCtrl = s.cacheCtrl := rfl
@[simp] theorem setIrqMask_hist (s : State) (v : BitVec 11) : (setIrqMask v s).hist = s.hist := rfl
@[simp] theorem setIrqMask_inputs (s : State) (v : BitVec 11) : (setIrqMask v s).inputs = s.inputs := rfl
@[simp] theorem setIrqMask_calls (s : State) (v : BitVec 11) : (setIrqMask v s).calls = s.calls := rfl
@[simp] theorem setIrqMask_refusedMark (s : State) (v : BitVec 11) :
    (setIrqMask v s).refusedMark = s.refusedMark := rfl

/-! ## setChan -/

@[simp] theorem State.setChan_cfg (s : State) (n : ChanNum) (c : DmaChannel) :
    (s.setChan n c).cfg = s.cfg := rfl
@[simp] theorem State.setChan_regs (s : State) (n : ChanNum) (c : DmaChannel) :
    (s.setChan n c).regs = s.regs := rfl
@[simp] theorem State.setChan_hi (s : State) (n : ChanNum) (c : DmaChannel) : (s.setChan n c).hi = s.hi := rfl
@[simp] theorem State.setChan_lo (s : State) (n : ChanNum) (c : DmaChannel) : (s.setChan n c).lo = s.lo := rfl
@[simp] theorem State.setChan_pc (s : State) (n : ChanNum) (c : DmaChannel) : (s.setChan n c).pc = s.pc := rfl
@[simp] theorem State.setChan_bslot (s : State) (n : ChanNum) (c : DmaChannel) :
    (s.setChan n c).bslot = s.bslot := rfl
@[simp] theorem State.setChan_lslot (s : State) (n : ChanNum) (c : DmaChannel) :
    (s.setChan n c).lslot = s.lslot := rfl
@[simp] theorem State.setChan_cop0 (s : State) (n : ChanNum) (c : DmaChannel) :
    (s.setChan n c).cop0 = s.cop0 := rfl
@[simp] theorem State.setChan_irq (s : State) (n : ChanNum) (c : DmaChannel) :
    (s.setChan n c).irq = s.irq := rfl
@[simp] theorem State.setChan_dma (s : State) (n : ChanNum) (c : DmaChannel) :
    (s.setChan n c).dma = { s.dma with chan := s.dma.chan.set n c } := rfl
@[simp] theorem State.setChan_sched (s : State) (n : ChanNum) (c : DmaChannel) :
    (s.setChan n c).sched = s.sched := rfl
@[simp] theorem State.setChan_gteReady (s : State) (n : ChanNum) (c : DmaChannel) :
    (s.setChan n c).gteReady = s.gteReady := rfl
@[simp] theorem State.setChan_mem (s : State) (n : ChanNum) (c : DmaChannel) :
    (s.setChan n c).mem = s.mem := rfl
@[simp] theorem State.setChan_cacheCtrl (s : State) (n : ChanNum) (c : DmaChannel) :
    (s.setChan n c).cacheCtrl = s.cacheCtrl := rfl
@[simp] theorem State.setChan_hist (s : State) (n : ChanNum) (c : DmaChannel) :
    (s.setChan n c).hist = s.hist := rfl
@[simp] theorem State.setChan_inputs (s : State) (n : ChanNum) (c : DmaChannel) :
    (s.setChan n c).inputs = s.inputs := rfl
@[simp] theorem State.setChan_calls (s : State) (n : ChanNum) (c : DmaChannel) :
    (s.setChan n c).calls = s.calls := rfl
@[simp] theorem State.setChan_refusedMark (s : State) (n : ChanNum) (c : DmaChannel) :
    (s.setChan n c).refusedMark = s.refusedMark := rfl

/-! ## setRamWord -/

@[simp] theorem State.setRamWord_cfg (s : State) (a : BitVec 24) (v : Word) :
    (s.setRamWord a v).cfg = s.cfg := rfl
@[simp] theorem State.setRamWord_regs (s : State) (a : BitVec 24) (v : Word) :
    (s.setRamWord a v).regs = s.regs := rfl
@[simp] theorem State.setRamWord_hi (s : State) (a : BitVec 24) (v : Word) :
    (s.setRamWord a v).hi = s.hi := rfl
@[simp] theorem State.setRamWord_lo (s : State) (a : BitVec 24) (v : Word) :
    (s.setRamWord a v).lo = s.lo := rfl
@[simp] theorem State.setRamWord_pc (s : State) (a : BitVec 24) (v : Word) :
    (s.setRamWord a v).pc = s.pc := rfl
@[simp] theorem State.setRamWord_bslot (s : State) (a : BitVec 24) (v : Word) :
    (s.setRamWord a v).bslot = s.bslot := rfl
@[simp] theorem State.setRamWord_lslot (s : State) (a : BitVec 24) (v : Word) :
    (s.setRamWord a v).lslot = s.lslot := rfl
@[simp] theorem State.setRamWord_cop0 (s : State) (a : BitVec 24) (v : Word) :
    (s.setRamWord a v).cop0 = s.cop0 := rfl
@[simp] theorem State.setRamWord_irq (s : State) (a : BitVec 24) (v : Word) :
    (s.setRamWord a v).irq = s.irq := rfl
@[simp] theorem State.setRamWord_dma (s : State) (a : BitVec 24) (v : Word) :
    (s.setRamWord a v).dma = s.dma := rfl
@[simp] theorem State.setRamWord_sched (s : State) (a : BitVec 24) (v : Word) :
    (s.setRamWord a v).sched = s.sched := rfl
@[simp] theorem State.setRamWord_gteReady (s : State) (a : BitVec 24) (v : Word) :
    (s.setRamWord a v).gteReady = s.gteReady := rfl
@[simp] theorem State.setRamWord_mem (s : State) (a : BitVec 24) (v : Word) :
    (s.setRamWord a v).mem = s.mem.writeLE (dmaKey a) 4 v := rfl
@[simp] theorem State.setRamWord_cacheCtrl (s : State) (a : BitVec 24) (v : Word) :
    (s.setRamWord a v).cacheCtrl = s.cacheCtrl := rfl
@[simp] theorem State.setRamWord_hist (s : State) (a : BitVec 24) (v : Word) :
    (s.setRamWord a v).hist = s.hist := rfl
@[simp] theorem State.setRamWord_inputs (s : State) (a : BitVec 24) (v : Word) :
    (s.setRamWord a v).inputs = s.inputs := rfl
@[simp] theorem State.setRamWord_calls (s : State) (a : BitVec 24) (v : Word) :
    (s.setRamWord a v).calls = s.calls := rfl
@[simp] theorem State.setRamWord_refusedMark (s : State) (a : BitVec 24) (v : Word) :
    (s.setRamWord a v).refusedMark = s.refusedMark := rfl

/-! ## nextDreq -/

@[simp] theorem State.nextDreq_cfg (s : State) : (s.nextDreq).cfg = s.cfg := rfl
@[simp] theorem State.nextDreq_regs (s : State) : (s.nextDreq).regs = s.regs := rfl
@[simp] theorem State.nextDreq_hi (s : State) : (s.nextDreq).hi = s.hi := rfl
@[simp] theorem State.nextDreq_lo (s : State) : (s.nextDreq).lo = s.lo := rfl
@[simp] theorem State.nextDreq_pc (s : State) : (s.nextDreq).pc = s.pc := rfl
@[simp] theorem State.nextDreq_bslot (s : State) : (s.nextDreq).bslot = s.bslot := rfl
@[simp] theorem State.nextDreq_lslot (s : State) : (s.nextDreq).lslot = s.lslot := rfl
@[simp] theorem State.nextDreq_cop0 (s : State) : (s.nextDreq).cop0 = s.cop0 := rfl
@[simp] theorem State.nextDreq_irq (s : State) : (s.nextDreq).irq = s.irq := rfl
@[simp] theorem State.nextDreq_dma (s : State) : (s.nextDreq).dma = s.dma := rfl
@[simp] theorem State.nextDreq_sched (s : State) : (s.nextDreq).sched = s.sched := rfl
@[simp] theorem State.nextDreq_gteReady (s : State) : (s.nextDreq).gteReady = s.gteReady := rfl
@[simp] theorem State.nextDreq_mem (s : State) : (s.nextDreq).mem = s.mem := rfl
@[simp] theorem State.nextDreq_cacheCtrl (s : State) : (s.nextDreq).cacheCtrl = s.cacheCtrl := rfl
@[simp] theorem State.nextDreq_hist (s : State) : (s.nextDreq).hist = s.hist := rfl
@[simp] theorem State.nextDreq_inputs (s : State) :
    (s.nextDreq).inputs = { s.inputs with dreq := s.inputs.dreq.tail } := rfl
@[simp] theorem State.nextDreq_calls (s : State) : (s.nextDreq).calls = s.calls := rfl
@[simp] theorem State.nextDreq_refusedMark (s : State) : (s.nextDreq).refusedMark = s.refusedMark := rfl

/-! ## returnFromException -/

@[simp] theorem returnFromException_cfg (s : State) : (returnFromException s).cfg = s.cfg := rfl
@[simp] theorem returnFromException_regs (s : State) : (returnFromException s).regs = s.regs := rfl
@[simp] theorem returnFromException_hi (s : State) : (returnFromException s).hi = s.hi := rfl
@[simp] theorem returnFromException_lo (s : State) : (returnFromException s).lo = s.lo := rfl
@[simp] theorem returnFromException_pc (s : State) : (returnFromException s).pc = s.pc := rfl
@[simp] theorem returnFromException_bslot (s : State) : (returnFromException s).bslot = s.bslot := rfl
@[simp] theorem returnFromException_lslot (s : State) : (returnFromException s).lslot = s.lslot := rfl
@[simp] theorem returnFromException_cop0 (s : State) :
    (returnFromException s).cop0 = { s.cop0 with sr := popSr s.cfg.ieStackLevels s.cop0.sr } := rfl
@[simp] theorem returnFromException_irq (s : State) : (returnFromException s).irq = s.irq := rfl
@[simp] theorem returnFromException_dma (s : State) : (returnFromException s).dma = s.dma := rfl
@[simp] theorem returnFromException_sched (s : State) : (returnFromException s).sched = s.sched := rfl
@[simp] theorem returnFromException_gteReady (s : State) :
    (returnFromException s).gteReady = s.gteReady := rfl
@[simp] theorem returnFromException_mem (s : State) : (returnFromException s).mem = s.mem := rfl
@[simp] theorem returnFromException_cacheCtrl (s : State) :
    (returnFromException s).cacheCtrl = s.cacheCtrl := rfl
@[simp] theorem returnFromException_hist (s : State) : (returnFromException s).hist = s.hist := rfl
@[simp] theorem returnFromException_inputs (s : State) : (returnFromException s).inputs = s.inputs := rfl
@[simp] theorem returnFromException_calls (s : State) : (returnFromException s).calls = s.calls := rfl
@[simp] theorem returnFromException_refusedMark (s : State) :
    (returnFromException s).refusedMark = s.refusedMark := rfl

/-! ## exceptionEntry -/

@[simp] theorem exceptionEntry_cfg (s : State) (e : Exc) (a : Word) (b : Option Word) :
    (exceptionEntry e a b s).cfg = s.cfg := rfl
@[simp] theorem exceptionEntry_regs (s : State) (e : Exc) (a : Word) (b : Option Word) :
    (exceptionEntry e a b s).regs = commitPending s.lslot s.regs := rfl
@[simp] theorem exceptionEntry_hi (s : State) (e : Exc) (a : Word) (b : Option Word) :
    (exceptionEntry e a b s).hi = s.hi := rfl
@[simp] theorem exceptionEntry_lo (s : State) (e : Exc) (a : Word) (b : Option Word) :
    (exceptionEntry e a b s).lo = s.lo := rfl
@[simp] theorem exceptionEntry_pc (s : State) (e : Exc) (a : Word) (b : Option Word) :
    (exceptionEntry e a b s).pc = s.vector := rfl
@[simp] theorem exceptionEntry_bslot (s : State) (e : Exc) (a : Word) (b : Option Word) :
    (exceptionEntry e a b s).bslot = none := rfl
@[simp] theorem exceptionEntry_lslot (s : State) (e : Exc) (a : Word) (b : Option Word) :
    (exceptionEntry e a b s).lslot = none := rfl
@[simp] theorem exceptionEntry_cop0 (s : State) (e : Exc) (a : Word) (b : Option Word) :
    (exceptionEntry e a b s).cop0 = { s.cop0 with
        excCode := e.code
        bd := b.isSome
        ce := e.ce
        epc := b.getD a
        badVaddr := e.badVaddr s.cop0.badVaddr
        sr := pushSr s.cfg.ieStackLevels s.cop0.sr } := rfl
@[simp] theorem exceptionEntry_irq (s : State) (e : Exc) (a : Word) (b : Option Word) :
    (exceptionEntry e a b s).irq = s.irq := rfl
@[simp] theorem exceptionEntry_dma (s : State) (e : Exc) (a : Word) (b : Option Word) :
    (exceptionEntry e a b s).dma = s.dma := rfl
@[simp] theorem exceptionEntry_sched (s : State) (e : Exc) (a : Word) (b : Option Word) :
    (exceptionEntry e a b s).sched = { s.sched with cycle := s.sched.cycle + s.cfg.excEntryCost } := rfl
@[simp] theorem exceptionEntry_gteReady (s : State) (e : Exc) (a : Word) (b : Option Word) :
    (exceptionEntry e a b s).gteReady = s.gteReady := rfl
@[simp] theorem exceptionEntry_mem (s : State) (e : Exc) (a : Word) (b : Option Word) :
    (exceptionEntry e a b s).mem = s.mem := rfl
@[simp] theorem exceptionEntry_cacheCtrl (s : State) (e : Exc) (a : Word) (b : Option Word) :
    (exceptionEntry e a b s).cacheCtrl = s.cacheCtrl := rfl
@[simp] theorem exceptionEntry_hist (s : State) (e : Exc) (a : Word) (b : Option Word) :
    (exceptionEntry e a b s).hist = s.hist := rfl
@[simp] theorem exceptionEntry_inputs (s : State) (e : Exc) (a : Word) (b : Option Word) :
    (exceptionEntry e a b s).inputs = s.inputs := rfl
@[simp] theorem exceptionEntry_calls (s : State) (e : Exc) (a : Word) (b : Option Word) :
    (exceptionEntry e a b s).calls = s.calls := rfl
@[simp] theorem exceptionEntry_refusedMark (s : State) (e : Exc) (a : Word) (b : Option Word) :
    (exceptionEntry e a b s).refusedMark = s.refusedMark := rfl

/-! ## commit -/

@[simp] theorem commit_cfg (s : State) (e : Effect) : (commit e s).cfg = s.cfg := rfl
@[simp] theorem commit_regs (s : State) (e : Effect) : (commit e s).regs = commitRegs e s.lslot s.regs := rfl
@[simp] theorem commit_hi (s : State) (e : Effect) : (commit e s).hi = s.hi := rfl
@[simp] theorem commit_lo (s : State) (e : Effect) : (commit e s).lo = s.lo := rfl
@[simp] theorem commit_pc (s : State) (e : Effect) : (commit e s).pc = s.nextPc := rfl
@[simp] theorem commit_bslot (s : State) (e : Effect) : (commit e s).bslot = s.nextSlot e.branch := rfl
@[simp] theorem commit_lslot (s : State) (e : Effect) : (commit e s).lslot = e.lnew := rfl
@[simp] theorem commit_cop0 (s : State) (e : Effect) : (commit e s).cop0 = s.cop0 := rfl
@[simp] theorem commit_irq (s : State) (e : Effect) : (commit e s).irq = s.irq := rfl
@[simp] theorem commit_dma (s : State) (e : Effect) : (commit e s).dma = s.dma := rfl
@[simp] theorem commit_sched (s : State) (e : Effect) :
    (commit e s).sched = { s.sched with cycle := s.sched.cycle + s.inputs.stalls.headD 0 } := rfl
@[simp] theorem commit_gteReady (s : State) (e : Effect) : (commit e s).gteReady = s.gteReady := rfl
@[simp] theorem commit_mem (s : State) (e : Effect) : (commit e s).mem = s.mem := rfl
@[simp] theorem commit_cacheCtrl (s : State) (e : Effect) : (commit e s).cacheCtrl = s.cacheCtrl := rfl
@[simp] theorem commit_hist (s : State) (e : Effect) : (commit e s).hist = s.hist.advance e.hilo := rfl
@[simp] theorem commit_inputs (s : State) (e : Effect) :
    (commit e s).inputs = { s.inputs with stalls := s.inputs.stalls.tail } := rfl
@[simp] theorem commit_calls (s : State) (e : Effect) : (commit e s).calls = s.calls := rfl
@[simp] theorem commit_refusedMark (s : State) (e : Effect) : (commit e s).refusedMark = s.refusedMark := rfl

/-! ## ackSources -/

/-- An acknowledgement changes I_STAT only, by the polarity in force (R218). -/
theorem ackSources_eq (v : BitVec 11) (s : State) :
    ackSources v s =
      { s with irq :=
          { s.irq with
            stat := match s.cfg.ackPolarity with
              | .oneClears => s.irq.stat &&& ~~~v
              | .zeroClears => s.irq.stat &&& v } } := by
  unfold ackSources; cases h : s.cfg.ackPolarity <;> rfl

/-! ## Reads of one channel -/

@[simp] theorem State.setChan_chan_same (s : State) (n : ChanNum) (c : DmaChannel) :
    (s.setChan n c).chan n = c := by simp [State.setChan, State.chan]

theorem State.setChan_chan_ne (s : State) {m n : ChanNum} (c : DmaChannel) (h : n ≠ m) :
    (s.setChan n c).chan m = s.chan m := by
  have : (n : Nat) ≠ m := fun e => h (Fin.ext e)
  simp [State.setChan, State.chan, this]

theorem State.setChan_chan (s : State) (m n : ChanNum) (c : DmaChannel) :
    (s.setChan n c).chan m = if n = m then c else s.chan m := by
  split
  · subst_vars; simp
  · exact State.setChan_chan_ne s c ‹_›

/-- A channel depends on the DMA state only. -/
theorem State.chan_congr {s t : State} (h : t.dma = s.dma) (n : ChanNum) : t.chan n = s.chan n := by
  simp [State.chan, h]

end Sys2Proof.Machine
end

