-- ==== Sys2Proof/Laws/Ops.lean ====
section
/-! SUPPORT. The register file, the commit of an instruction, exception entry and the outcomes of a
part: one lemma per operation that says what it can do. -/

namespace Sys2Proof.Machine

/-! ## The register file (R21) -/

@[simp] theorem RegFile.read_zero (f : RegFile) : RegFile.read f 0 = 0 := rfl

theorem RegFile.read_write (f : RegFile) (r q : Reg) (v : Word) :
    RegFile.read (RegFile.write f r v) q = if r ≠ 0 ∧ r = q then v else RegFile.read f q := by
  unfold RegFile.read RegFile.write
  by_cases hr : r = 0#5
  · simp [hr]
  · by_cases hq : q = 0#5
    · simp [hq, hr]
    · by_cases e : r = q
      · subst e; simp [hr]
      · have : r.toNat ≠ q.toNat := fun h => e (BitVec.eq_of_toNat_eq h)
        simp [hq, hr, e, this]

theorem RegFile.read_write_same (f : RegFile) (r : Reg) (v : Word) (h : r ≠ 0) :
    RegFile.read (RegFile.write f r v) r = v := by
  rw [RegFile.read_write, if_pos ⟨h, rfl⟩]

theorem RegFile.read_write_ne (f : RegFile) {r q : Reg} (v : Word) (h : r ≠ q) :
    RegFile.read (RegFile.write f r v) q = RegFile.read f q := by simp [RegFile.read_write, h]

/-- A write never touches the stored copy of register 0 (R101). -/
@[simp] theorem RegFile.write_getElem_zero (f : RegFile) (r : Reg) (v : Word) :
    (RegFile.write f r v)[0] = f[0] := by
  unfold RegFile.write
  split
  · rfl
  · next h =>
    have : r.toNat ≠ 0 := fun e => h (BitVec.eq_of_toNat_eq e)
    simp [this]

@[simp] theorem State.x_zero (s : State) : s.x 0 = 0 := rfl

@[simp] theorem commitPending_getElem_zero (l : Option LoadSlot) (f : RegFile) :
    (commitPending l f)[0] = f[0] := by cases l <;> simp [commitPending]

@[simp] theorem commitRegs_getElem_zero (e : Effect) (l : Option LoadSlot) (f : RegFile) :
    (commitRegs e l f)[0] = f[0] := by
  unfold commitRegs
  rcases e.wreg with _ | ⟨r, v⟩ <;> by_cases h : l.map LoadSlot.reg = e.lnew.map LoadSlot.reg <;> simp [h]

theorem commitPending_read (l : Option LoadSlot) (f : RegFile) (q : Reg) :
    RegFile.read (commitPending l f) q =
      match l with
      | some p => if p.reg ≠ 0 ∧ p.reg = q then p.val else RegFile.read f q
      | none => RegFile.read f q := by
  cases l <;> simp [commitPending, RegFile.read_write]

/-- What register `q` reads after the commit (R99): the direct write, else the pending load unless a
new load of the same register cancels it, else the old value. -/
theorem commitRegs_read (e : Effect) (l : Option LoadSlot) (f : RegFile) (q : Reg) :
    RegFile.read (commitRegs e l f) q =
      let base := if l.map LoadSlot.reg = e.lnew.map LoadSlot.reg then RegFile.read f q
        else RegFile.read (commitPending l f) q
      match e.wreg with
      | some (r, v) => if r ≠ 0 ∧ r = q then v else base
      | none => base := by
  unfold commitRegs
  rcases e.wreg with _ | ⟨r, v⟩ <;> by_cases h : l.map LoadSlot.reg = e.lnew.map LoadSlot.reg <;>
    simp [h, RegFile.read_write]

/-! ## Outcomes of a part -/

@[simp] theorem Res.bind_ok {α β : Type} (v : α) (s : State) (f : α → State → Res β) :
    (Res.ok v s).bind f = f v s := rfl
@[simp] theorem Res.bind_exc {α β : Type} (e : Exc) (f : α → State → Res β) :
    (Res.exc e : Res α).bind f = .exc e := rfl
@[simp] theorem Res.bind_stop {α β : Type} (r : Refusal) (f : α → State → Res β) :
    (Res.stop r : Res α).bind f = .stop r := rfl

theorem Res.bind_eq_ok {α β : Type} {r : Res α} {f : α → State → Res β} {w : β} {t : State} :
    r.bind f = .ok w t ↔ ∃ v s, r = .ok v s ∧ f v s = .ok w t := by
  cases r <;> simp [Res.bind]

/-- How an instruction step ends with a next state: a commit, or an exception. -/
theorem finish_eq_next {s t : State} {r : Res Effect} :
    finish s r = .next t ↔
      (∃ e s', r = .ok e s' ∧ t = commit e s') ∨ (∃ e, r = .exc e ∧ t = takeException e s) := by
  cases r <;> simp [finish, eq_comm]

@[simp] theorem finish_ok (s s' : State) (e : Effect) : finish s (.ok e s') = .next (commit e s') := rfl
@[simp] theorem finish_exc (s : State) (e : Exc) : finish s (.exc e) = .next (takeException e s) := rfl
@[simp] theorem finish_stop (s : State) (r : Refusal) : finish s (.stop r) = .refused r := rfl

/-! ## HI/LO hazard (R142) -/

/-- The hazard touches HI, LO and the count of draws only. -/
theorem applyHiloHazard_eq (u : HiloUse) (s : State) :
    ∃ hi lo i, applyHiloHazard u s = { s with hi := hi, lo := lo, inputs := i } := by
  unfold applyHiloHazard
  repeat' split
  all_goals exact ⟨_, _, _, rfl⟩

theorem applyHiloHazard_sequential (u : HiloUse) {s : State} (h : s.cfg.hiloHazard = .sequential) :
    applyHiloHazard u s = s := by simp [applyHiloHazard, h]

/-- Outside the two sequences of R142 nothing is undefined. -/
theorem applyHiloHazard_quiet (u : HiloUse) {s : State} (h1 : s.hist.readLast = false)
    (h2 : s.hist.readBefore = false) (h3 : s.hist.mulDivOpen = false ∨ u = .mulDiv) :
    applyHiloHazard u s = s := by
  unfold applyHiloHazard
  rcases h3 with h3 | rfl
  · cases s.cfg.hiloHazard <;> simp [h1, h2, h3]
  · cases s.cfg.hiloHazard <;> simp [h1, h2]

end Sys2Proof.Machine
end

