-- ==== Sys2Proof/Laws/Bus.lean ====
section
/-! SUPPORT. What a memory access, a device call and a DMA transfer can do to the state: a list of
primitive changes, and for each operation the lemma that it is a sequence of them. An invariant that
every primitive change keeps is then kept by every access. -/

namespace Sys2Proof.Machine

/-! ## Regions -/

theorem physRegion_ram {map : List DevRange} {p o : Nat} {g : Segment}
    (h : physRegion map p g = .ram o) : o < ramSize := by
  unfold physRegion deviceAt at h
  repeat' split at h
  all_goals first | (injection h; subst_vars; exact Nat.mod_lt _ (by decide)) | cases h

theorem physRegion_scratch {map : List DevRange} {p o : Nat} {g : Segment}
    (h : physRegion map p g = .scratch o) : o < scratchSize := by
  unfold physRegion deviceAt at h
  repeat' split at h
  all_goals first
    | (injection h
       subst_vars
       next hw _ => 
        simp only [within, Bool.and_eq_true, decide_eq_true_eq] at hw
        omega)
    | cases h

theorem physRegion_bios {map : List DevRange} {p o : Nat} {g : Segment}
    (h : physRegion map p g = .bios o) : o < biosSize ∧ p = biosBase + o := by
  unfold physRegion deviceAt at h
  repeat' split at h
  all_goals first
    | (injection h
       subst_vars
       next hw => 
        simp only [within, Bool.and_eq_true, decide_eq_true_eq] at hw
        omega)
    | cases h

theorem physRegion_ram_eq {map : List DevRange} {p o : Nat} {g : Segment}
    (h : physRegion map p g = .ram o) : o = p % ramSize := by
  unfold physRegion deviceAt at h
  repeat' split at h
  all_goals first | (injection h; subst_vars; rfl) | cases h

theorem physRegion_scratch_eq {map : List DevRange} {p o : Nat} {g : Segment}
    (h : physRegion map p g = .scratch o) : p = scratchBase + o := by
  unfold physRegion deviceAt at h
  repeat' split at h
  all_goals first
    | (next hw _ =>
        simp only [Region.scratch.injEq] at h
        simp only [within, Bool.and_eq_true, decide_eq_true_eq] at hw
        rw [← h, Nat.add_sub_cancel' hw.1])
    | cases h

theorem translate_phys {va : Word} {p : Nat} {g : Segment} (h : translate va = .phys p g) :
    p = va.toNat % 2 ^ 29 := by
  have hp : physOf va = va.toNat % 2 ^ 29 := by simp [physOf]
  rw [← hp]
  unfold translate at h
  generalize physOf va = q at h ⊢
  split at h
  all_goals first
    | (injection h with h1; exact h1.symm)
    | (split at h <;> cases h)
    | cases h

/-- The region of an address is a physical one, CACHE_CTRL or Unmapped (R54, R56). -/
theorem State.region_cases (s : State) (va : Word) :
    (∃ p g, translate va = .phys p g ∧ s.region va = physRegion s.cfg.deviceMap p g) ∨
      (translate va = .cacheCtrl ∧ s.region va = .cacheCtrl) ∨
      (translate va = .unmapped ∧ s.region va = .unmapped) := by
  unfold State.region regionOf
  cases h : translate va <;> simp

theorem misaligned_eq_false {va : Word} {w : Width} :
    misaligned va w = false ↔ va.toNat % w.bytes = 0 := by simp [misaligned]

/-- An aligned access to RAM lies in RAM. -/
theorem State.region_ram {s : State} {va : Word} {o : Nat} {w : Width} (h : s.region va = .ram o)
    (ha : misaligned va w = false) : o + w.bytes ≤ ramSize := by
  rw [misaligned_eq_false] at ha
  rcases s.region_cases va with ⟨p, g, ht, hr⟩ | ⟨_, hr⟩ | ⟨_, hr⟩ <;> rw [hr] at h
  · have h1 := translate_phys ht
    have h2 := physRegion_ram_eq h
    unfold ramSize at *
    cases w <;> simp only [Width.bytes] at * <;> omega
  all_goals cases h

/-- An aligned access to scratch memory lies in scratch memory. -/
theorem State.region_scratch {s : State} {va : Word} {o : Nat} {w : Width}
    (h : s.region va = .scratch o) (ha : misaligned va w = false) : o + w.bytes ≤ scratchSize := by
  rw [misaligned_eq_false] at ha
  rcases s.region_cases va with ⟨p, g, ht, hr⟩ | ⟨_, hr⟩ | ⟨_, hr⟩ <;> rw [hr] at h
  · have h1 := translate_phys ht
    have h2 := physRegion_scratch_eq h
    have h3 := physRegion_scratch h
    unfold scratchSize scratchBase at *
    cases w <;> simp only [Width.bytes] at * <;> omega
  all_goals cases h

/-! ## Primitive changes -/

/-- An address a CPU store or a DMA transfer can write: RAM or scratch memory (R60, R63, R70). -/
def writable (a : Nat) : Prop := a < ramSize ∨ (scratchBase ≤ a ∧ a < scratchBase + scratchSize)

/-- A change of a channel keeps the bits of CHCR that read 0 (R228). -/
def chcrKept (n : ChanNum) (old new : DmaChannel) : Prop :=
  old.chcr &&& ~~~chcrMask n = 0 → new.chcr &&& ~~~chcrMask n = 0

/-- One primitive change of a memory access, a device or a DMA transfer. -/
inductive BusPrim : State → State → Prop
  | inputs (s : State) (i : Inputs) : BusPrim s { s with inputs := i }
  | calls (s : State) (c : List ExtCall) : BusPrim s { s with calls := c }
  | cacheCtrl (s : State) (v : Word) : BusPrim s { s with cacheCtrl := v }
  | irq (s : State) (q : IrqCtl) : BusPrim s { s with irq := q }
  | byte (s : State) (a : Nat) (v : Byte) (h : writable a) :
      BusPrim s { s with mem := s.mem.set a v }
  | cycles (s : State) (c : Nat) : BusPrim s (s.addCycles c)
  | schedule (s : State) (delay : Nat) (d : ExtDevice) (payload : Nat) :
      BusPrim s (s.schedule delay (.ext d) payload)
  | chan (s : State) (n : ChanNum) (c : DmaChannel) (hp : c.phase = (s.chan n).phase)
      (hc : chcrKept n (s.chan n) c) : BusPrim s (s.setChan n c)
  | dpcr (s : State) (v : Word) : BusPrim s { s with dma := { s.dma with dpcr := v } }
  | dicr (s : State) (ctl : BitVec 24) (flag : BitVec 7)
      (h : s.dma.dicrCtl &&& ~~~0xFF803F = 0 → ctl &&& ~~~0xFF803F = 0) :
      BusPrim s { s with dma := { s.dma with dicrCtl := ctl, dicrFlag := flag } }
  | start (s : State) (n : ChanNum) (c : DmaChannel) (hi : (s.chan n).phase = .idle)
      (hp : c.phase = .active) (hc : chcrKept n (s.chan n) c) :
      BusPrim s ((s.setChan n c).schedule 0 (.dma n) 0)

/-- A sequence of primitive changes. -/
abbrev BusMoves : State → State → Prop := Relation.ReflTransGen BusPrim

/-- Every answer of a part is reached by primitive changes. -/
def Res.moves {α : Type} (s : State) (r : Res α) : Prop := ∀ v t, r = .ok v t → BusMoves s t

theorem BusPrim.moves {s t : State} (h : BusPrim s t) : BusMoves s t := .single h

theorem Res.moves_ok {α : Type} {s t : State} {v : α} (h : BusMoves s t) :
    (Res.ok v t).moves s := by
  intro v t e; cases e; exact h

theorem Res.moves_exc {α : Type} {s : State} {e : Exc} : (Res.exc e : Res α).moves s := by
  intro v t e; cases e

theorem Res.moves_stop {α : Type} {s : State} {r : Refusal} : (Res.stop r : Res α).moves s := by
  intro v t e; cases e

theorem Res.moves_bind {α β : Type} {s : State} {r : Res α} {f : α → State → Res β}
    (h : r.moves s) (hf : ∀ v t, (f v t).moves t) : (r.bind f).moves s := by
  intro w u e
  obtain ⟨v, t, e1, e2⟩ := Res.bind_eq_ok.mp e
  exact (h v t e1).trans (hf v t w u e2)

/-- An invariant that every primitive change keeps is kept by a sequence of them. -/
theorem BusMoves.keeps {P : State → Prop} (h : ∀ s t, BusPrim s t → P s → P t) {s t : State}
    (m : BusMoves s t) (hs : P s) : P t := by
  induction m with
  | refl => exact hs
  | tail _ p ih => exact h _ _ p ih

/-! ## Draws, recorded calls, devices -/

theorem nextDraw_moves (s : State) : BusMoves s s.nextDraw := (BusPrim.inputs s _).moves

theorem record_moves (s : State) (c : ExtCall) : BusMoves s (s.record c) := (BusPrim.calls s _).moves

theorem latchSource_moves (k : Nat) (s : State) : BusMoves s (latchSource k s) :=
  (BusPrim.irq s _).moves

theorem scheduleRequests_moves (l : List SchedRequest) (s : State) :
    BusMoves s (scheduleRequests l s) := by
  induction l generalizing s with
  | nil => exact .refl
  | cons r l ih => exact (BusPrim.schedule s _ _ _).moves.trans (ih _)

theorem deviceCall_moves (c : ExtCall) (s : State) : BusMoves s (deviceCall c s) :=
  ((record_moves s c).tail (BusPrim.inputs _ _)).trans (scheduleRequests_moves _ _)

theorem setDicr_moves (s : State) {ctl : BitVec 24} {flag : BitVec 7}
    (h : s.dma.dicrCtl &&& ~~~0xFF803F = 0 → ctl &&& ~~~0xFF803F = 0) :
    BusMoves s (s.setDicr ctl flag) := by
  have h1 := (BusPrim.dicr s ctl flag h).moves
  unfold State.setDicr
  dsimp only
  split
  · exact h1.trans (latchSource_moves _ _)
  · exact h1

/-! ## Bytes -/

theorem setMem_moves (s : State) {a : Nat} (v : Byte) (h : writable a) :
    BusMoves s { s with mem := s.mem.set a v } := (BusPrim.byte s a v h).moves

theorem writeLE_moves (n : Nat) (a : Nat) (v : Word) (s : State)
    (h : ∀ k, k < n → writable (a + k)) :
    BusMoves s { s with mem := s.mem.writeLE a n v } := by
  induction n generalizing a v s with
  | zero => exact .refl
  | succ n ih =>
    have h0 := setMem_moves s (a := a) (v.setWidth 8) (by simpa using h 0 (by omega))
    refine h0.trans ?_
    have := ih (a + 1) (v >>> 8) { s with mem := s.mem.set a (v.setWidth 8) } (fun k hk => by
      have := h (k + 1) (by omega)
      rwa [show a + 1 + k = a + (k + 1) by omega])
    exact this

theorem writeMasked_moves (a : Nat) (m : BitVec 4) (v : Word) (s : State)
    (h : ∀ k, k < 4 → writable (a + k)) :
    BusMoves s { s with mem := s.mem.writeMasked a m v } := by
  have one (k : Nat) (hk : k < 4) (mem : Memory) :
      BusMoves { s with mem := mem }
        { s with mem := if m.getLsbD k then mem.set (a + k) (byteOf v k) else mem } := by
    split
    · exact setMem_moves { s with mem := mem } _ (h k hk)
    · exact .refl
  exact (((one 0 (by omega) s.mem).trans (one 1 (by omega) _)).trans (one 2 (by omega) _)).trans
    (one 3 (by omega) _)

theorem writable_ram {o n k : Nat} (h : o + n ≤ ramSize) (hk : k < n) : writable (o + k) :=
  .inl (by omega)

theorem writable_scratch {o n k : Nat} (h : o + n ≤ scratchSize) (hk : k < n) :
    writable (scratchBase + o + k) := .inr ⟨by omega, by omega⟩

/-! ## The interrupt controller and the DMA controller's registers -/

theorem irqRead_moves (o : Nat) (w : Width) (s : State) : (irqRead o w s).moves s := by
  unfold irqRead
  split
  · exact Res.moves_ok .refl
  · exact Res.moves_ok .refl
  · exact Res.moves_stop

theorem ackSources_moves (v : BitVec 11) (s : State) : BusMoves s (ackSources v s) := by
  unfold ackSources
  split <;> exact (BusPrim.irq s _).moves

theorem irqWrite_moves (o : Nat) (w : Width) (v : Word) (s : State) : (irqWrite o w v s).moves s := by
  unfold irqWrite
  split
  · exact Res.moves_ok (ackSources_moves _ _)
  · exact Res.moves_ok (BusPrim.irq s _).moves
  · exact Res.moves_stop

theorem dmaRead_moves (o : Nat) (w : Width) (s : State) : (dmaRead o w s).moves s := by
  unfold dmaRead dmaRegRead
  repeat' split
  all_goals first
    | exact Res.moves_stop
    | exact Res.moves_ok .refl
    | exact Res.moves_ok (nextDraw_moves s)

theorem resolveOpen_chan (n : ChanNum) (s : State) :
    ((resolveOpen n s).chan n).phase = (s.chan n).phase ∧
      ((resolveOpen n s).chan n).chcr = (s.chan n).chcr := by
  unfold resolveOpen
  dsimp only
  split <;> split <;> simp [State.chan, State.setChan, State.nextDraw]

theorem resolveOpen_moves (n : ChanNum) (s : State) : BusMoves s (resolveOpen n s) := by
  have h1 : BusMoves s (if (s.chan n).madrOpen then
      (s.setChan n { s.chan n with madr := s.drawn.setWidth 24 }).nextDraw else s) := by
    split
    · exact (BusPrim.chan s n { s.chan n with madr := s.drawn.setWidth 24 } rfl id).moves.trans (nextDraw_moves _)
    · exact .refl
  unfold resolveOpen
  dsimp only
  split
  · refine h1.trans ?_
    generalize (if (s.chan n).madrOpen then
      (s.setChan n { s.chan n with madr := s.drawn.setWidth 24 }).nextDraw else s) = s1
    exact (BusPrim.chan s1 n { s1.chan n with bcr := s1.drawn } rfl id).moves.trans (nextDraw_moves _)
  · exact h1

theorem startedChan_phase (c : DmaChannel) (y : BitVec 2) : (startedChan c y).phase = .active := by
  unfold startedChan
  dsimp only
  split <;> rfl

theorem startedChan_chcr (c : DmaChannel) (y : BitVec 2) :
    (startedChan c y).chcr = c.chcr &&& ~~~chcrTrigBit := by
  unfold startedChan
  dsimp only
  split <;> rfl

theorem and_kept {w : Nat} {x m k : BitVec w} (h : x &&& m = 0) : x &&& k &&& m = 0 := by
  rw [show x &&& k &&& m = (x &&& m) &&& k by
    ext i; simp; cases x[i] <;> cases k[i] <;> cases m[i] <;> rfl, h]
  simp

theorem dmaStart_moves {n : ChanNum} {s : State} (hi : (s.chan n).phase = .idle) :
    (dmaStart n s).moves s := by
  unfold dmaStart
  dsimp only
  split
  · exact Res.moves_stop
  · refine Res.moves_ok ((resolveOpen_moves n s).tail ?_)
    obtain ⟨h1, h2⟩ := resolveOpen_chan n s
    refine BusPrim.start _ n _ (h1.trans hi) (startedChan_phase _ _) ?_
    intro hc
    rw [startedChan_chcr]
    exact and_kept hc

theorem startCond_idle {n : ChanNum} {s : State} (h : startCond s n = true) :
    (s.chan n).phase = .idle := by
  simp only [startCond, Bool.and_eq_true, beq_iff_eq] at h
  exact h.1.1.1

theorem dmaStartAll_moves (l : List ChanNum) (s : State) : (dmaStartAll l s).moves s := by
  induction l generalizing s with
  | nil => exact Res.moves_ok .refl
  | cons n l ih =>
    unfold dmaStartAll
    split
    · next h => exact Res.moves_bind (dmaStart_moves (startCond_idle h)) fun _ t => ih t
    · exact ih s

theorem chcrStored_kept (n : ChanNum) (v : Word) : chcrStored n v &&& ~~~chcrMask n = 0 := by
  unfold chcrStored chcrMask
  split <;> (rw [BitVec.and_assoc]; simp)

theorem writeChan_moves {n : ChanNum} {c : DmaChannel} {s : State} (hp : c.phase = (s.chan n).phase)
    (hc : chcrKept n (s.chan n) c) : (writeChan n c s).moves s := by
  unfold writeChan
  split
  · exact Res.moves_ok (BusPrim.chan s n c hp hc).moves
  · exact Res.moves_stop

theorem dmaWrite_moves (o : Nat) (w : Width) (v : Word) (s : State) : (dmaWrite o w v s).moves s := by
  unfold dmaWrite
  split
  · exact Res.moves_stop
  · split
    · next r _ =>
      cases r with
      | madr n => exact writeChan_moves rfl id
      | bcr n => exact writeChan_moves rfl id
      | chcr n =>
        exact Res.moves_bind (writeChan_moves rfl fun _ => chcrStored_kept n v)
          fun _ t => dmaStartAll_moves _ t
      | dpcr => 
        intro u t h
        exact (BusPrim.dpcr s v).moves.trans (dmaStartAll_moves _ _ u t h)
      | dicr =>
        refine Res.moves_ok (setDicr_moves s fun _ => ?_)
        rw [BitVec.and_assoc]; simp
    · exact Res.moves_stop

/-! ## The access primitives -/

theorem deviceRead_moves (d : ExtDevice) (o : Nat) (w : Width) (s : State) :
    (deviceRead d o w s).moves s :=
  Res.moves_ok ((deviceCall_moves _ s).trans (nextDraw_moves _))

theorem deviceWrite_moves (d : ExtDevice) (o : Nat) (w : Width) (v : Word) (s : State) :
    (deviceWrite d o w v s).moves s := Res.moves_ok (deviceCall_moves _ s)

theorem busRead_moves (va : Word) (w : Width) (k : Access) (s : State) :
    (busRead va w k s).moves s := by
  unfold busRead
  split
  · exact Res.moves_ok .refl
  · exact Res.moves_ok .refl
  · exact Res.moves_ok .refl
  · exact Res.moves_ok .refl
  · split
    · exact Res.moves_stop
    · exact irqRead_moves _ _ _
  · split
    · exact Res.moves_stop
    · exact dmaRead_moves _ _ _
  · split
    · exact Res.moves_stop
    · exact deviceRead_moves _ _ _ _
  · split <;> exact Res.moves_exc

/-- All that a CPU read can do (R62). -/
theorem memRead_moves (va : Word) (w : Width) (k : Access) (s : State) :
    (memRead va w k s).moves s := by
  unfold memRead
  split
  · exact Res.moves_exc
  · split
    · exact Res.moves_exc
    · split
      · exact Res.moves_stop
      · split
        · exact Res.moves_ok (nextDraw_moves s)
        · exact busRead_moves _ _ _ _

theorem busWrite_moves {va : Word} {w : Width} (v : Word) (s : State)
    (ha : misaligned va w = false) : (busWrite va w v s).moves s := by
  unfold busWrite
  split
  · next h =>
    exact Res.moves_ok (writeLE_moves _ _ _ s fun k hk => writable_ram (State.region_ram h ha) hk)
  · next h =>
    exact Res.moves_ok
      (writeLE_moves _ _ _ s fun k hk => writable_scratch (State.region_scratch h ha) hk)
  · exact Res.moves_ok .refl
  · exact Res.moves_ok (BusPrim.cacheCtrl s _).moves
  · exact irqWrite_moves _ _ _ _
  · exact dmaWrite_moves _ _ _ _
  · exact deviceWrite_moves _ _ _ _ _
  · exact Res.moves_exc

/-- All that a CPU write can do (R63). -/
theorem memWrite_moves (va : Word) (w : Width) (v : Word) (s : State) :
    (memWrite va w v s).moves s := by
  unfold memWrite
  split
  · exact Res.moves_exc
  · next ha =>
    split
    · exact Res.moves_exc
    · split
      · exact Res.moves_stop
      · split
        · exact Res.moves_ok .refl
        · exact busWrite_moves _ _ (by simpa using ha)

theorem maskedDevice_moves (va : Word) (m : BitVec 4) (v : Word) (s : State) :
    (maskedDevice va m v s).moves s := by
  unfold maskedDevice
  split
  · exact memWrite_moves _ _ _ _
  · exact Res.moves_stop

/-- All that a masked CPU write can do (R64). -/
theorem memWriteMasked_moves (va : Word) (m : BitVec 4) (v : Word) (s : State) :
    (memWriteMasked va m v s).moves s := by
  unfold memWriteMasked
  split
  · exact Res.moves_exc
  · next ha =>
    have ha : misaligned va .word = false := by simpa using ha
    split
    · exact Res.moves_exc
    · split
      · exact Res.moves_stop
      · split
        · exact Res.moves_ok .refl
        · split
          · next h =>
            exact Res.moves_ok
              (writeMasked_moves _ _ _ s fun k hk => writable_ram (State.region_ram h ha) hk)
          · next h =>
            exact Res.moves_ok
              (writeMasked_moves _ _ _ s fun k hk => writable_scratch (State.region_scratch h ha) hk)
          · exact Res.moves_ok .refl
          · exact Res.moves_ok (BusPrim.cacheCtrl s _).moves
          · exact maskedDevice_moves _ _ _ _
          · exact maskedDevice_moves _ _ _ _
          · exact maskedDevice_moves _ _ _ _
          · exact Res.moves_exc

end Sys2Proof.Machine
end

