-- ==== Sys2Proof/Laws/Decode.lean ====
section
/-! SUPPORT. The fields of the words the encoder writes (30_encoding.md R77), one lemma per field and
format. -/

namespace Sys2Proof

@[simp] theorem fieldOp_encodeR (rs rt rd sa : BitVec 5) (f : BitVec 6) :
    fieldOp (encodeR rs rt rd sa f) = 0 := by
  unfold fieldOp encodeR
  repeat first
    | rw [BitVec.extractLsb'_append_eq_of_le (by omega)]
  simp

@[simp] theorem fieldRs_encodeR (rs rt rd sa : BitVec 5) (f : BitVec 6) :
    fieldRs (encodeR rs rt rd sa f) = rs := by
  unfold fieldRs encodeR
  repeat first
    | rw [BitVec.extractLsb'_append_eq_of_le (by omega)]
    | rw [BitVec.extractLsb'_append_eq_of_add_le (by omega)]
  simp

@[simp] theorem fieldRt_encodeR (rs rt rd sa : BitVec 5) (f : BitVec 6) :
    fieldRt (encodeR rs rt rd sa f) = rt := by
  unfold fieldRt encodeR
  repeat first
    | rw [BitVec.extractLsb'_append_eq_of_le (by omega)]
    | rw [BitVec.extractLsb'_append_eq_of_add_le (by omega)]
  simp

@[simp] theorem fieldRd_encodeR (rs rt rd sa : BitVec 5) (f : BitVec 6) :
    fieldRd (encodeR rs rt rd sa f) = rd := by
  unfold fieldRd encodeR
  repeat first
    | rw [BitVec.extractLsb'_append_eq_of_le (by omega)]
    | rw [BitVec.extractLsb'_append_eq_of_add_le (by omega)]
  simp

@[simp] theorem fieldShamt_encodeR (rs rt rd sa : BitVec 5) (f : BitVec 6) :
    fieldShamt (encodeR rs rt rd sa f) = sa := by
  unfold fieldShamt encodeR
  repeat first
    | rw [BitVec.extractLsb'_append_eq_of_le (by omega)]
    | rw [BitVec.extractLsb'_append_eq_of_add_le (by omega)]
  simp

@[simp] theorem fieldFunct_encodeR (rs rt rd sa : BitVec 5) (f : BitVec 6) :
    fieldFunct (encodeR rs rt rd sa f) = f := by
  unfold fieldFunct encodeR
  repeat first
    | rw [BitVec.extractLsb'_append_eq_of_le (by omega)]
    | rw [BitVec.extractLsb'_append_eq_of_add_le (by omega)]
  simp

@[simp] theorem fieldOp_encodeI (op : BitVec 6) (rs rt : BitVec 5) (imm : Half) :
    fieldOp (encodeI op rs rt imm) = op := by
  unfold fieldOp encodeI
  repeat first
    | rw [BitVec.extractLsb'_append_eq_of_le (by omega)]
  simp

@[simp] theorem fieldRs_encodeI (op : BitVec 6) (rs rt : BitVec 5) (imm : Half) :
    fieldRs (encodeI op rs rt imm) = rs := by
  unfold fieldRs encodeI
  repeat first
    | rw [BitVec.extractLsb'_append_eq_of_le (by omega)]
    | rw [BitVec.extractLsb'_append_eq_of_add_le (by omega)]
  simp

@[simp] theorem fieldRt_encodeI (op : BitVec 6) (rs rt : BitVec 5) (imm : Half) :
    fieldRt (encodeI op rs rt imm) = rt := by
  unfold fieldRt encodeI
  repeat first
    | rw [BitVec.extractLsb'_append_eq_of_le (by omega)]
    | rw [BitVec.extractLsb'_append_eq_of_add_le (by omega)]
  simp

@[simp] theorem fieldImm_encodeI (op : BitVec 6) (rs rt : BitVec 5) (imm : Half) :
    fieldImm (encodeI op rs rt imm) = imm := by
  unfold fieldImm encodeI
  repeat first
    | rw [BitVec.extractLsb'_append_eq_of_le (by omega)]
    | rw [BitVec.extractLsb'_append_eq_of_add_le (by omega)]
  simp

@[simp] theorem fieldOp_encodeJ (op : BitVec 6) (t : BitVec 26) :
    fieldOp (encodeJ op t) = op := by
  unfold fieldOp encodeJ
  repeat first
    | rw [BitVec.extractLsb'_append_eq_of_le (by omega)]
  simp

@[simp] theorem fieldTarget_encodeJ (op : BitVec 6) (t : BitVec 26) :
    fieldTarget (encodeJ op t) = t := by
  unfold fieldTarget encodeJ
  repeat first
    | rw [BitVec.extractLsb'_append_eq_of_le (by omega)]
    | rw [BitVec.extractLsb'_append_eq_of_add_le (by omega)]
  simp

@[simp] theorem fieldOp_encodeMove (op : BitVec 6) (sub rt rd : BitVec 5) :
    fieldOp (encodeMove op sub rt rd) = op := by
  unfold fieldOp encodeMove
  repeat first
    | rw [BitVec.extractLsb'_append_eq_of_le (by omega)]
  simp

@[simp] theorem fieldRs_encodeMove (op : BitVec 6) (sub rt rd : BitVec 5) :
    fieldRs (encodeMove op sub rt rd) = sub := by
  unfold fieldRs encodeMove
  repeat first
    | rw [BitVec.extractLsb'_append_eq_of_le (by omega)]
    | rw [BitVec.extractLsb'_append_eq_of_add_le (by omega)]
  simp

@[simp] theorem fieldRt_encodeMove (op : BitVec 6) (sub rt rd : BitVec 5) :
    fieldRt (encodeMove op sub rt rd) = rt := by
  unfold fieldRt encodeMove
  repeat first
    | rw [BitVec.extractLsb'_append_eq_of_le (by omega)]
    | rw [BitVec.extractLsb'_append_eq_of_add_le (by omega)]
  simp

@[simp] theorem fieldRd_encodeMove (op : BitVec 6) (sub rt rd : BitVec 5) :
    fieldRd (encodeMove op sub rt rd) = rd := by
  unfold fieldRd encodeMove
  repeat first
    | rw [BitVec.extractLsb'_append_eq_of_le (by omega)]
    | rw [BitVec.extractLsb'_append_eq_of_add_le (by omega)]
  simp

@[simp] theorem fieldOp_encodeCo (op : BitVec 6) (c : BitVec 25) :
    fieldOp (encodeCo op c) = op := by
  unfold fieldOp encodeCo
  repeat first
    | rw [BitVec.extractLsb'_append_eq_of_le (by omega)]
  simp

@[simp] theorem fieldCofun_encodeCo (op : BitVec 6) (c : BitVec 25) :
    fieldCofun (encodeCo op c) = c := by
  unfold fieldCofun encodeCo
  repeat first
    | rw [BitVec.extractLsb'_append_eq_of_le (by omega)]
    | rw [BitVec.extractLsb'_append_eq_of_add_le (by omega)]
  simp

@[simp] theorem fieldOp_encodeTrap (c : BitVec 20) (f : BitVec 6) :
    fieldOp (encodeTrap c f) = 0 := by
  unfold fieldOp encodeTrap
  repeat first
    | rw [BitVec.extractLsb'_append_eq_of_le (by omega)]
  simp

@[simp] theorem fieldCode_encodeTrap (c : BitVec 20) (f : BitVec 6) :
    fieldCode (encodeTrap c f) = c := by
  unfold fieldCode encodeTrap
  repeat first
    | rw [BitVec.extractLsb'_append_eq_of_le (by omega)]
    | rw [BitVec.extractLsb'_append_eq_of_add_le (by omega)]
  simp

@[simp] theorem fieldFunct_encodeTrap (c : BitVec 20) (f : BitVec 6) :
    fieldFunct (encodeTrap c f) = f := by
  unfold fieldFunct encodeTrap
  repeat first
    | rw [BitVec.extractLsb'_append_eq_of_le (by omega)]
    | rw [BitVec.extractLsb'_append_eq_of_add_le (by omega)]
  simp

@[simp] theorem fieldCo_encodeMove (op : BitVec 6) (sub rt rd : BitVec 5) :
    fieldCo (encodeMove op sub rt rd) = sub.getLsbD 4 := by
  unfold fieldCo encodeMove
  rw [BitVec.getLsbD_append, BitVec.getLsbD_append, BitVec.getLsbD_append, BitVec.getLsbD_append]
  simp

@[simp] theorem fieldCo_encodeCo (op : BitVec 6) (c : BitVec 25) : fieldCo (encodeCo op c) = true := by
  unfold fieldCo encodeCo
  rw [BitVec.getLsbD_append, BitVec.getLsbD_append]
  simp

@[simp] theorem fieldFunct_encodeCo (op : BitVec 6) (c : BitVec 25) :
    fieldFunct (encodeCo op c) = c.extractLsb' 0 6 := by
  unfold fieldFunct encodeCo
  rw [BitVec.extractLsb'_append_eq_of_add_le (by omega)]

end Sys2Proof
end

