-- ==== Sys2Proof/Laws/Exec.lean ====
section
/-! SUPPORT. What executing an instruction can do: an exception, or a commit after one of a few kinds
of immediate effect. -/

namespace Sys2Proof.Machine

/-! ## What a bus access leaves alone -/

/-- The CPU's own state is the same: registers, HI, LO, pc, both slots, COP0, the stall deadline of the
coprocessor, the hazard history, the parameters and the mark. -/
structure SameCpu (s t : State) : Prop where
  cfg : t.cfg = s.cfg
  regs : t.regs = s.regs
  hi : t.hi = s.hi
  lo : t.lo = s.lo
  pc : t.pc = s.pc
  bslot : t.bslot = s.bslot
  lslot : t.lslot = s.lslot
  cop0 : t.cop0 = s.cop0
  gteReady : t.gteReady = s.gteReady
  hist : t.hist = s.hist
  refusedMark : t.refusedMark = s.refusedMark

theorem SameCpu.refl (s : State) : SameCpu s s := ⟨rfl, rfl, rfl, rfl, rfl, rfl, rfl, rfl, rfl, rfl, rfl⟩

theorem BusPrim.sameCpu {s t : State} (h : BusPrim s t) : SameCpu s t := by
  cases h <;> exact ⟨rfl, rfl, rfl, rfl, rfl, rfl, rfl, rfl, rfl, rfl, rfl⟩

theorem SameCpu.trans {s t u : State} (h : SameCpu s t) (g : SameCpu t u) : SameCpu s u :=
  ⟨g.cfg.trans h.cfg, g.regs.trans h.regs, g.hi.trans h.hi, g.lo.trans h.lo, g.pc.trans h.pc,
    g.bslot.trans h.bslot, g.lslot.trans h.lslot, g.cop0.trans h.cop0, g.gteReady.trans h.gteReady,
    g.hist.trans h.hist, g.refusedMark.trans h.refusedMark⟩

/-- A bus access, a device or a DMA transfer changes nothing of the CPU (R58, R70). -/
theorem BusMoves.sameCpu {s t : State} (h : BusMoves s t) : SameCpu s t := by
  induction h with
  | refl => exact .refl _
  | tail _ p ih => exact ih.trans p.sameCpu

/-! ## Immediate effects of an instruction -/

/-- A change of COP0 that keeps the bits of SR outside SR_WMASK at 0. -/
def srKept (s : State) (c : Cop0) : Prop :=
  s.cop0.sr &&& ~~~s.cfg.ieStackLevels.srWriteMask = 0 →
    c.sr &&& ~~~s.cfg.ieStackLevels.srWriteMask = 0

/-- The effects of an instruction before its commit (R98), by kind. -/
inductive Immediate (i : Instr) (s : State) : State → Prop
  | bus {t : State} (h : BusMoves s t) : Immediate i s t
  | hilo (hi lo : Word) (n : Inputs) : Immediate i s { s with hi := hi, lo := lo, inputs := n }
  | cop0 (c : Cop0) (hu : s.usable 0 = true) (hi : i = .rfe ∨ ∃ rt rd, i = .mtc0 rt rd)
      (hc : srKept s c) : Immediate i s { s with cop0 := c }
  | command (cofun : BitVec 25) : Immediate i s (gteCommand cofun s)

/-- How an instruction ends, if it has a next state. -/
def Ends (i : Instr) (s t : State) : Prop :=
  (∃ e, t = takeException e s) ∨ ∃ eff s', Immediate i s s' ∧ t = commit eff s'

theorem ends_finish {i : Instr} {s t : State} {r : Res Effect}
    (hr : ∀ eff s', r = .ok eff s' → Immediate i s s') (h : finish s r = .next t) : Ends i s t := by
  rcases finish_eq_next.mp h with ⟨eff, s', hr', rfl⟩ | ⟨e, _, rfl⟩
  · exact .inr ⟨eff, s', hr _ _ hr', rfl⟩
  · exact .inl ⟨e, rfl⟩

theorem ends_moves {i : Instr} {s t : State} {r : Res Effect} (hr : r.moves s)
    (h : finish s r = .next t) : Ends i s t :=
  ends_finish (fun eff s' e => .bus (hr eff s' e)) h

theorem ends_whenUsable {i : Instr} {s t : State} {z : CopNum} {r : Res Effect}
    (hr : s.usable z = true → ∀ eff s', r = .ok eff s' → Immediate i s s')
    (h : whenUsable z r s = .next t) : Ends i s t := by
  unfold whenUsable at h
  split at h
  · next hu => exact ends_finish (hr hu) h
  · exact ends_finish (fun _ _ e => by cases e) h

theorem ends_writeResult {i : Instr} {r : Reg} {v : Word} {s t : State}
    (h : writeResult r v s = .next t) : Ends i s t := ends_moves (Res.moves_ok .refl) h

theorem ends_writeChecked {i : Instr} {r : Reg} {n : Int} {s t : State}
    (h : writeChecked r n s = .next t) : Ends i s t := by
  unfold writeChecked at h
  split at h
  · exact ends_moves Res.moves_exc h
  · exact ends_writeResult h

theorem ends_writeHilo {i : Instr} {u : HiloUse} {hi lo : Word} {s t : State}
    (h : writeHilo u hi lo s = .next t) : Ends i s t := by
  obtain ⟨hi', lo', n, e⟩ := applyHiloHazard_eq u { s with hi := hi, lo := lo }
  refine ends_finish (fun eff s' e' => ?_) h
  rw [e] at e'
  injection e' with _ e'
  subst e'
  exact .hilo hi' lo' n

theorem ends_branchResult {i : Instr} {b : BranchTarget} {s t : State}
    (h : branchResult b s = .next t) : Ends i s t := ends_moves (Res.moves_ok .refl) h

theorem ends_branchAndLink {i : Instr} {r : Reg} {b : BranchTarget} {s t : State}
    (h : branchAndLink r b s = .next t) : Ends i s t := ends_moves (Res.moves_ok .refl) h

theorem ends_readHilo {i : Instr} {r : Reg} {v : Word} {s t : State}
    (h : readHilo r v s = .next t) : Ends i s t := ends_moves (Res.moves_ok .refl) h

theorem ends_loadWith {i : Instr} {rt : Reg} {va : Word} {w : Width} {f : Word → Word} {s t : State}
    (h : loadWith rt va w f s = .next t) : Ends i s t :=
  ends_moves (Res.moves_bind (memRead_moves _ _ _ _) fun _ _ => Res.moves_ok .refl) h

theorem ends_storeWith {i : Instr} {va : Word} {w : Width} {v : Word} {s t : State}
    (h : storeWith va w v s = .next t) : Ends i s t :=
  ends_moves (Res.moves_bind (memWrite_moves _ _ _ _) fun _ _ => Res.moves_ok .refl) h

theorem ends_storeMasked {i : Instr} {va : Word} {m : BitVec 4} {v : Word} {s t : State}
    (h : storeMasked va m v s = .next t) : Ends i s t :=
  ends_moves (Res.moves_bind (memWriteMasked_moves _ _ _ _) fun _ _ => Res.moves_ok .refl) h

theorem ends_absentCop {i : Instr} {z : CopNum} {s t : State}
    (h : absentCop z s = .next t) : Ends i s t :=
  ends_whenUsable (fun _ _ _ e => by cases e) h

theorem gteRead_moves (c : ExtCall) (s : State) : (gteRead c s).moves s :=
  Res.moves_ok ((record_moves s c).trans (nextDraw_moves _))

theorem gteWrite_moves (c : ExtCall) (s : State) : (gteWrite c s).moves s :=
  Res.moves_ok (record_moves s c)

theorem ends_moveFromGte {i : Instr} {rt : Reg} {c : ExtCall} {s t : State}
    (h : moveFromGte rt c s = .next t) : Ends i s t :=
  ends_whenUsable (fun _ eff s' e => .bus
    (Res.moves_bind (gteRead_moves c s) (fun _ _ => Res.moves_ok .refl) eff s' e)) h

theorem ends_moveToGte {i : Instr} {c : ExtCall} {s t : State}
    (h : moveToGte c s = .next t) : Ends i s t :=
  ends_whenUsable (fun _ eff s' e => .bus
    (Res.moves_bind (gteWrite_moves c s) (fun _ _ => Res.moves_ok .refl) eff s' e)) h

theorem srWriteMask_kept (l : IeStackLevels) (v : Word) : v &&& l.srWriteMask &&& ~~~l.srWriteMask = 0 := by
  rw [BitVec.and_assoc]; simp

/-- MTC0 changes COP0 only, and keeps SR's reserved bits at 0 (R33). -/
theorem writeCop0_ok {n : BitVec 5} {v : Word} {s s' : State} (h : writeCop0 n v s = .ok () s') :
    ∃ c, s' = { s with cop0 := c } ∧ srKept s c := by
  unfold writeCop0 at h
  split at h
  case h_3 => 
    split at h
    · injection h with _ h; exact ⟨_, h.symm, fun h => h⟩
    · cases h
  case h_6 => injection h with _ h; exact ⟨_, h.symm, fun _ => srWriteMask_kept _ v⟩
  all_goals (injection h with _ h; exact ⟨_, h.symm, fun h => h⟩)

/-- A pop of the stack keeps SR's reserved bits at 0 (R32, R180). -/
theorem popSr_kept (l : IeStackLevels) {sr : Word} (h : sr &&& ~~~l.srWriteMask = 0) :
    popSr l sr &&& ~~~l.srWriteMask = 0 := by
  apply BitVec.eq_of_getLsbD_eq
  intro i hi
  have hb := congrArg (BitVec.getLsbD · i) h
  cases l <;>
    simp only [popSr, IeStackLevels.srWriteMask, IeStackLevels.stackMask, IeStackLevels.topMask]
      at hb ⊢ <;>
    interval_cases i <;> simp at hb ⊢ <;> simp [hb]

/-- A push of the stack keeps SR's reserved bits at 0 (R32, R203). -/
theorem pushSr_kept (l : IeStackLevels) {sr : Word} (h : sr &&& ~~~l.srWriteMask = 0) :
    pushSr l sr &&& ~~~l.srWriteMask = 0 := by
  apply BitVec.eq_of_getLsbD_eq
  intro i hi
  have hb := congrArg (BitVec.getLsbD · i) h
  cases l <;>
    simp only [pushSr, IeStackLevels.srWriteMask, IeStackLevels.stackMask] at hb ⊢ <;>
    interval_cases i <;> simp at hb ⊢ <;> simp [hb]

/-- All that an instruction can do: it ends in an exception, or in a commit after an immediate effect
of a known kind (R98, R102). -/
theorem exec_cases {i : Instr} {s t : State} (h : exec i s = .next t) : Ends i s t := by
  cases i with
  | sll | srl | sra | sllv | srlv | srav | addu | subu | and | or | xor | nor | slt | sltu
  | addiu | slti | sltiu | andi | ori | xori | lui => exact ends_writeResult h
  | add | sub | addi => exact ends_writeChecked h
  | jr | beq | bne | blez | bgtz | bltz | bgez | j => exact ends_branchResult h
  | jalr | jal | bltzal | bgezal => exact ends_branchAndLink h
  | syscall | brk => exact ends_moves Res.moves_exc h
  | mfhi | mflo => exact ends_readHilo h
  | mthi | mtlo | mult | multu | div | divu => exact ends_writeHilo h
  | lb | lh | lwl | lw | lbu | lhu | lwr => exact ends_loadWith h
  | sb | sh | sw => exact ends_storeWith h
  | swl | swr => exact ends_storeMasked h
  | lwc0 | swc0 => exact ends_moves Res.moves_stop h
  | lwc1 | lwc3 | swc1 | swc3 | cop1 | cop3 => exact ends_absentCop h
  | mfc2 | cfc2 => exact ends_moveFromGte h
  | mtc2 | ctc2 => exact ends_moveToGte h
  | lwc2 rt imm rs =>
    exact ends_whenUsable (fun _ eff s' e => .bus
      (Res.moves_bind (memRead_moves _ _ _ _)
        (fun _ _ => Res.moves_bind (gteWrite_moves _ _) fun _ _ => Res.moves_ok .refl) eff s' e)) h
  | swc2 rt imm rs =>
    exact ends_whenUsable (fun _ eff s' e => .bus
      (Res.moves_bind (gteRead_moves _ _)
        (fun _ _ => Res.moves_bind (memWrite_moves _ _ _ _) fun _ _ => Res.moves_ok .refl) eff s' e)) h
  | cop2Command cofun =>
    exact ends_whenUsable (fun _ eff s' e => by injection e with _ e; subst e; exact .command cofun) h
  | mfc0 rt rd =>
    refine ends_whenUsable (fun _ eff s' e => ?_) h
    split at e
    · injection e with _ e; subst e; exact .bus .refl
    · injection e with _ e; subst e; exact .bus (nextDraw_moves s)
  | mtc0 rt rd =>
    refine ends_whenUsable (fun hu eff s' e => ?_) h
    obtain ⟨_, s1, e1, e2⟩ := Res.bind_eq_ok.mp e
    obtain ⟨c, rfl, hc⟩ := writeCop0_ok e1
    injection e2 with _ e2
    subst e2
    exact .cop0 c hu (.inr ⟨rt, rd, rfl⟩) hc
  | rfe =>
    refine ends_whenUsable (fun hu eff s' e => ?_) h
    injection e with _ e
    subst e
    exact .cop0 _ hu (.inl rfl) fun hs => popSr_kept _ hs

/-- What a decoded word does, if it has a next state. -/
theorem execDecoded_cases {d : Decoded} {s t : State} (h : execDecoded d s = .next t) :
    (∃ e, t = takeException e s) ∨ ∃ i, d = .instr i ∧ Ends i s t := by
  cases d with
  | instr i => exact .inr ⟨i, rfl, exec_cases h⟩
  | reserved => exact .inl ⟨.ri, by simpa [execDecoded, execReserved, eq_comm] using h⟩
  | unmodelledCop z =>
    refine .inl ⟨.cpU z, ?_⟩
    simp only [execDecoded, execOtherCop, whenUsable] at h
    split at h
    · simp at h
    · simpa [eq_comm] using h

/-! ## The step -/

@[simp] theorem mapNext_next (f : State → State) (s : State) : mapNext f (.next s) = .next (f s) := rfl

theorem mapNext_eq_next {f : State → State} {o : Host.Outcome State Fault Refusal} {t : State} :
    mapNext f o = .next t ↔ ∃ u, o = .next u ∧ t = f u := by
  cases o <;> simp [mapNext, eq_comm]

/-- A fetch changes nothing. -/
theorem fetch_ok {s s' : State} {w : Word} (h : fetch s = .ok w s') : s' = s := by
  unfold fetch memRead busRead at h
  simp only [reduceCtorEq, decide_false, Bool.false_and, Bool.false_eq_true, ↓reduceIte] at h
  repeat' split at h
  all_goals first
    | (injection h with _ h; exact h.symm)
    | cases h

theorem execWord_cases {w : Word} {s t : State} (h : execWord w s = .next t) :
    ∃ u, execDecoded (decode w) s = .next u ∧ t = u.addCycles (s.cfg.cycleCost w) :=
  mapNext_eq_next.mp h

/-- All that an instruction step can do (R95, R102). -/
theorem instructionStep_cases {s t : State} (h : instructionStep s = .next t) :
    (∃ e, t = (takeException e s).addCycles s.cfg.cycleCostNone) ∨
      ∃ w u, fetch s = .ok w s ∧ execDecoded (decode w) s = .next u ∧
        t = u.addCycles (s.cfg.cycleCost w) := by
  unfold instructionStep at h
  split at h
  · next w s1 hf =>
    cases fetch_ok hf
    obtain ⟨u, h1, h2⟩ := execWord_cases h
    exact .inr ⟨w, u, hf, h1, h2⟩
  · next e _ => injection h with h; exact .inl ⟨e, h.symm⟩
  · cases h

/-- All that an interrupt step can do (R94). -/
theorem interruptStep_cases {s t : State} (h : interruptStep s = .next t) :
    t = takeException .int s ∨
      ∃ w u, quirkWord s = some w ∧ execDecoded (decode w) s = .next u ∧
        t = exceptionEntry .int s.pc none (u.addCycles (s.cfg.cycleCost w)) := by
  unfold interruptStep at h
  split at h
  · next w hw =>
    obtain ⟨v, h1, rfl⟩ := mapNext_eq_next.mp h
    obtain ⟨u, h2, rfl⟩ := execWord_cases h1
    exact .inr ⟨w, u, hw, h2, rfl⟩
  · injection h with h; exact .inl h.symm

/-- All that a step can do: fire the due event, or take one CPU step (R92, R93, R244). -/
theorem step_cases {s t : State} (h : step s = .next t) :
    s.refusedMark = none ∧
      ((∃ e, s.dueEvent = some e ∧ fireEvent e s = .next t) ∨
        (s.dueEvent = none ∧ s.irqTaken = true ∧ interruptStep s = .next t) ∨
        (s.dueEvent = none ∧ s.irqTaken = false ∧ instructionStep s = .next t)) := by
  unfold step iterate at h
  split at h
  · cases h
  · next hm =>
    refine ⟨hm, ?_⟩
    split at h
    · next e he => exact .inl ⟨e, he, h⟩
    · next hn =>
      unfold cpuStep at h
      split at h
      · next hi => exact .inr (.inl ⟨hn, hi, h⟩)
      · next hi => exact .inr (.inr ⟨hn, by simpa using hi, h⟩)

end Sys2Proof.Machine
end

