-- ==== Sys2Proof/Laws/Claims.lean ====
section
/-! SUPPORT. The vocabulary of the statements (Safety.lean) for a commit, and the ways the meanings of
Machine/ reach one. -/

namespace Sys2Proof.Claims

open Sys2Proof.Machine

theorem readX (s : State) (r : Reg) : s.x r = RegFile.read s.regs r := rfl

theorem regsAfter_commit {s s' : State} (e : Effect) (hr : s'.regs = s.regs) (hl : s'.lslot = s.lslot) :
    RegsAfter s (commit e s') e.wreg e.lnew := by
  have key (q : Reg) := commitRegs_read e s.lslot s.regs q
  have hx (q : Reg) : (commit e s').x q = RegFile.read (commitRegs e s.lslot s.regs) q := by
    rw [readX, commit_regs, hr, hl]
  refine ⟨rfl, ?_, ?_, ?_, rfl⟩
  · intro r v hw h0
    rw [hx, key, hw]
    simp [show ¬ r = 0#5 from h0]
  · intro l hs h0 hw hn
    rw [hx, key, hs]
    have hne : ¬ (some l.reg = e.lnew.map LoadSlot.reg) := by
      intro h
      rcases hln : e.lnew with _ | n
      · simp [hln] at h
      · exact hn n hln (by simpa [hln, eq_comm] using h)
    rw [commitPending_read]
    rcases hwr : e.wreg with _ | ⟨r, v⟩
    · simp [hne, show ¬ l.reg = 0#5 from h0]
    · have : ¬ (r = l.reg) := fun h => hw v (by rw [hwr, h])
      simp [hne, this, show ¬ l.reg = 0#5 from h0]
  · intro r hw hk
    rw [hx, key, readX]
    have base : (if s.lslot.map LoadSlot.reg = e.lnew.map LoadSlot.reg then RegFile.read s.regs r
        else RegFile.read (commitPending s.lslot s.regs) r) = RegFile.read s.regs r := by
      split
      · rfl
      · next hne =>
        rw [commitPending_read]
        rcases hs : s.lslot with _ | l
        · rfl
        · simp only
          split
          · next h =>
            obtain ⟨n, hn, hnr⟩ := hk l hs h.2
            exact absurd (by rw [hs, hn]; simp [hnr, h.2]) hne
          · rfl
    simp only [base]
    rcases hwr : e.wreg with _ | ⟨q, v⟩
    · rfl
    · have : ¬ (q = r) := fun h => hw v (by rw [hwr, h])
      simp [this]

theorem pcAfter_commit {s s' : State} (e : Effect) (hp : s'.pc = s.pc) (hb : s'.bslot = s.bslot)
    (hc : s'.cfg = s.cfg) : PcAfter s (commit e s') e.branch := by
  constructor
  · intro a p h; simp [State.nextPc, hb, h]
  · intro p h; simp [State.nextPc, hb, h, hp]
  · intro h; simp [State.nextPc, hb, h, hp]
  · intro h; simp [State.nextSlot, h]
  · intro b h h2
    simp only [commit_bslot, State.nextSlot, h, hb, hc, hp]
    rcases h2 with h2 | h2 <;> simp [h2]
  · intro b h h2 h3
    simp only [commit_bslot, State.nextSlot, h, hb, hc]
    simp [h3, h2]

/-- A commit is the completion the statements speak of. -/
theorem completed_commit {i : Instr} {s s' : State} (e : Effect) {extra : Nat} (hcpu : SameCpu s s'
      ∨ (s'.regs = s.regs ∧ s'.lslot = s.lslot ∧ s'.pc = s.pc ∧ s'.bslot = s.bslot ∧ s'.cfg = s.cfg ∧
        s'.hist = s.hist))
    (hcyc : s'.sched.cycle = s.sched.cycle + extra) (hst : s'.inputs.stalls = s.inputs.stalls)
    (h1 : (e.hilo == .read) = readsHilo i) (h2 : (e.hilo == .mulDiv) = multipliesOrDivides i) :
    Completed i s (commit e s') e.wreg e.lnew e.branch extra := by
  obtain ⟨hr, hl, hp, hb, hc, hh⟩ : s'.regs = s.regs ∧ s'.lslot = s.lslot ∧ s'.pc = s.pc ∧
      s'.bslot = s.bslot ∧ s'.cfg = s.cfg ∧ s'.hist = s.hist := by
    rcases hcpu with h | h
    · exact ⟨h.regs, h.lslot, h.pc, h.bslot, h.cfg, h.hist⟩
    · exact h
  refine ⟨regsAfter_commit e hr hl, pcAfter_commit e hp hb hc, ?_, ?_⟩
  · simp [hcyc, hst]
  · rw [commit_hist, hh]
    simp only [HiloHist.advance, h1, h2, bne]

/-- Everything outside the commit is as before it. -/
theorem frame_commit (e : Effect) (s' : State) : Frame (stallTaken s') (commit e s') :=
  ⟨rfl, rfl, rfl, rfl, rfl, rfl, rfl, rfl, rfl, fun _ => rfl, rfl, rfl, rfl, rfl⟩

/-- A frame of equal states. -/
theorem Frame.of_eq {s s' t : State} (h : Frame s t) (e : s = s') : Frame s' t := e ▸ h

/-- An instruction that ends in a commit with no effect outside it. -/
theorem completes_ok {i : Instr} {s : State} {e : Effect} (h : exec i s = finish s (.ok e s))
    (h1 : (e.hilo == .read) = readsHilo i) (h2 : (e.hilo == .mulDiv) = multipliesOrDivides i) :
    Completes i s e.wreg e.lnew e.branch :=
  ⟨_, h, completed_commit e (.inl (.refl s)) rfl rfl h1 h2, frame_commit e s⟩

/-- An instruction that ends in a commit after an effect that leaves the CPU alone. -/
theorem leaves_ok {i : Instr} {s after : State} (h : exec i s = finish s (.ok {} after))
    (hcpu : after.regs = s.regs ∧ after.lslot = s.lslot ∧ after.pc = s.pc ∧ after.bslot = s.bslot ∧
      after.cfg = s.cfg ∧ after.hist = s.hist)
    (hcyc : after.sched.cycle = s.sched.cycle) (hst : after.inputs.stalls = s.inputs.stalls)
    (h1 : readsHilo i = false) (h2 : multipliesOrDivides i = false) : Leaves i s after :=
  ⟨_, h, completed_commit {} (.inr hcpu) (by simpa using hcyc) hst (by rw [h1]; rfl) (by rw [h2]; rfl),
    frame_commit {} after⟩

theorem writes_writeResult {i : Instr} {s : State} {r : Reg} {v : Word}
    (h : exec i s = writeResult r v s) (h1 : readsHilo i = false) (h2 : multipliesOrDivides i = false) :
    Writes i s r v :=
  completes_ok (e := { wreg := some (r, v) }) h (by rw [h1]; rfl) (by rw [h2]; rfl)

theorem loads_ok {i : Instr} {s : State} {r : Reg} {v : Word}
    (h : exec i s = finish s (.ok { lnew := some ⟨r, v⟩ } s))
    (h1 : readsHilo i = false) (h2 : multipliesOrDivides i = false) : Loads i s r v :=
  completes_ok (e := { lnew := some ⟨r, v⟩ }) h (by rw [h1]; rfl) (by rw [h2]; rfl)

/-- The first clause of R97's exception: the operand LWL and LWR merge into. -/
theorem mergeOperand_pending {s : State} {rt : Reg} {v : Word} (h : s.lslot = some ⟨rt, v⟩) :
    s.mergeOperand rt = v := by simp [State.mergeOperand, h]

theorem mergeOperand_register {s : State} {rt : Reg} (h : ∀ v, s.lslot ≠ some ⟨rt, v⟩) :
    s.mergeOperand rt = s.x rt := by
  unfold State.mergeOperand
  rcases hl : s.lslot with _ | ⟨r, v⟩
  · rfl
  · have : ¬ (r = rt) := fun e => h v (by rw [hl, e])
    simp [this]

/-! ## Accesses that reach their region -/

theorem Reaches.misaligned {s : State} {va : Word} {w : Width} (h : Reaches s va w) :
    misaligned va w = false := misaligned_eq_false.mpr h.aligned

theorem Reaches.privileged {s : State} {va : Word} {w : Width} (h : Reaches s va w) :
    s.privileged va = false := by
  have := h.permitted
  simp only [inUserMode] at this
  cases h1 : s.cop0.sr.getLsbD 1 <;> cases h2 : va.getLsbD 31 <;>
    simp_all [State.privileged, State.userMode]

theorem Reaches.reversed {s : State} {va : Word} {w : Width} (h : Reaches s va w) :
    s.reversed = false := by
  have := h.ordinary
  simp only [inUserMode] at this
  cases h1 : s.cop0.sr.getLsbD 1 <;> cases h2 : s.cop0.sr.getLsbD 25 <;>
    simp_all [State.reversed, State.userMode, State.reverseEndian]

/-- A load that reaches its region is what the region answers (R62). -/
theorem memRead_reaches {s : State} {va : Word} {w : Width} (h : Reaches s va w) :
    memRead va w .load s = busRead va w .load s := by
  simp [memRead, h.misaligned, h.privileged, h.reversed, h.notIsolated]

/-- A store that reaches its region is what the region does (R63). -/
theorem memWrite_reaches {s : State} {va : Word} {w : Width} (h : Reaches s va w) (v : Word) :
    memWrite va w v s = busWrite va w v s := by
  simp [memWrite, h.misaligned, h.privileged, h.reversed, h.notIsolated]

/-- Reading a region that stands in the memory image (R62). -/
theorem busRead_key {s : State} {va : Word} {w : Width} {k : Access} {a : Nat}
    (h : (s.region va).key = some a) : busRead va w k s = .ok (s.mem.readLE a w.bytes) s := by
  unfold busRead
  cases hr : s.region va <;> simp_all [Region.key]

/-- Writing a region of RAM or SCRATCH (R63). -/
theorem busWrite_key {s : State} {va : Word} {w : Width} {v : Word} {a : Nat}
    (h : (s.region va).storeKey = some a) :
    busWrite va w v s = .ok () { s with mem := s.mem.writeLE a w.bytes v } := by
  unfold busWrite
  cases hr : s.region va <;> simp_all [Region.storeKey]

end Sys2Proof.Claims
end

