-- ==== Sys2Proof/Laws/Events.lean ====
section
/-! SUPPORT. What firing a scheduler event can do: the primitive changes of Laws/Bus.lean, and for a DMA
event its end, a completion or a new event. -/

namespace Sys2Proof.Machine

/-! ## Moving data -/

theorem dmaKey_bound (a : BitVec 24) : dmaKey a + 4 ≤ ramSize := by
  have h1 : (a &&& 0x1FFFFC).toNat ≤ 0x1FFFFC := by
    rw [BitVec.toNat_and]; exact Nat.and_le_right
  have h2 : (a &&& 0x1FFFFC).toNat % 0x200000 = (a &&& 0x1FFFFC).toNat :=
    Nat.mod_eq_of_lt (by omega)
  unfold dmaKey ramSize
  omega

theorem setRamWord_moves (s : State) (a : BitVec 24) (v : Word) : BusMoves s (s.setRamWord a v) :=
  writeLE_moves 4 (dmaKey a) v s fun _ hk => writable_ram (dmaKey_bound a) hk

theorem setChan_moves (s : State) (n : ChanNum) {c : DmaChannel} (hp : c.phase = (s.chan n).phase)
    (hc : c.chcr = (s.chan n).chcr) : BusMoves s (s.setChan n c) :=
  (BusPrim.chan s n c hp fun h => by rw [hc]; exact h).moves

theorem addCycles_moves (s : State) (c : Nat) : BusMoves s (s.addCycles c) := (BusPrim.cycles s c).moves

theorem moveWord_moves (n : ChanNum) (last : Bool) (s : State) : BusMoves s (moveWord n last s) := by
  unfold moveWord
  dsimp only
  split
  · exact setRamWord_moves _ _ _
  · split
    · exact record_moves _ _
    · exact ((setRamWord_moves _ _ _).trans (record_moves _ _)).trans (nextDraw_moves _)

theorem transferWord_moves (n : ChanNum) (last : Bool) (s : State) :
    BusMoves s (transferWord n last s) :=
  (moveWord_moves n last s).trans (setChan_moves _ n rfl rfl)

theorem transferManual_moves (n : ChanNum) (k : Nat) (s : State) :
    BusMoves s (transferManual n k s) := by
  induction k generalizing s with
  | zero => exact .refl
  | succ k ih =>
    have h1 := transferWord_moves n ((s.chan n).wordsLeft == 1) s
    unfold transferManual
    dsimp only
    revert h1
    generalize transferWord n ((s.chan n).wordsLeft == 1) s = s1
    intro h1
    have h2 := setChan_moves s1 n (c := { s1.chan n with wordsLeft := (s1.chan n).wordsLeft - 1 }) rfl rfl
    exact (h1.trans h2).trans (ih _)

theorem transferBlock_moves (n : ChanNum) (k : Nat) (s : State) : BusMoves s (transferBlock n k s) := by
  induction k generalizing s with
  | zero => exact .refl
  | succ k ih => exact (transferWord_moves n _ s).trans (ih _)

theorem sendPayload_moves (n : ChanNum) (k : Nat) (a : BitVec 24) (s : State) :
    BusMoves s (sendPayload n k a s) := by
  induction k generalizing a s with
  | zero => exact .refl
  | succ k ih => exact (record_moves s _).trans (ih _ _)

theorem nextDreq_moves (s : State) : BusMoves s s.nextDreq := (BusPrim.inputs s _).moves

/-! ## The end of a DMA event -/

/-- How a DMA event ends (R235): the transfer is complete, or the channel waits for a new event. -/
def DmaEnds (n : ChanNum) (s t : State) : Prop :=
  ∃ s', BusMoves s s' ∧
    (t = dmaComplete n s' ∨
      ∃ c d, c.phase ≠ .idle ∧ c.chcr = (s'.chan n).chcr ∧ t = (s'.setChan n c).schedule d (.dma n) 0)

theorem State.setChan_self (s : State) (n : ChanNum) : s.setChan n (s.chan n) = s := by
  simp [State.setChan, State.chan]

/-- The phase of a channel that is not Idle stays through primitive changes (R231). -/
theorem BusPrim.phase {s t : State} (h : BusPrim s t) (n : ChanNum) (hp : (s.chan n).phase ≠ .idle) :
    (t.chan n).phase = (s.chan n).phase := by
  cases h with
  | chan m c h1 h2 =>
    rw [State.setChan_chan]
    split
    · next e => subst e; exact h1
    · rfl
  | start m c hi h1 h2 =>
    have : m ≠ n := fun e => hp (e ▸ hi)
    show ((s.setChan m c).chan n).phase = _
    rw [State.setChan_chan_ne s c this]
  | _ => rfl

theorem BusMoves.phase {s t : State} (h : BusMoves s t) (n : ChanNum)
    (hp : (s.chan n).phase ≠ .idle) : (t.chan n).phase = (s.chan n).phase := by
  induction h with
  | refl => rfl
  | tail _ p ih => rw [p.phase n (by rw [ih]; exact hp), ih]

theorem dmaEnds_wait {n : ChanNum} {s s' : State} (d : Nat) (m : BusMoves s s')
    (hp : (s'.chan n).phase ≠ .idle) : DmaEnds n s (s'.schedule d (.dma n) 0) :=
  ⟨s', m, .inr ⟨s'.chan n, d, hp, rfl, by rw [State.setChan_self]⟩⟩

theorem runManual_ends (n : ChanNum) (s : State) : DmaEnds n s (runManual n s) := by
  have m := (transferManual_moves n (burstSize (s.chan n)) s).trans
    (addCycles_moves _ (burstSize (s.chan n) * s.cfg.dmaWordCycles))
  unfold runManual
  dsimp only
  revert m
  generalize (transferManual n (burstSize (s.chan n)) s).addCycles
    (burstSize (s.chan n) * s.cfg.dmaWordCycles) = s1
  intro m
  split
  · exact ⟨s1, m, .inl rfl⟩
  · exact ⟨s1, m, .inr ⟨{ s1.chan n with phase := .chopWait }, _, by simp, rfl, rfl⟩⟩

theorem runBlock_ends {n : ChanNum} {s : State} (hp : (s.chan n).phase ≠ .idle) :
    DmaEnds n s (runBlock n s) := by
  have m := (transferBlock_moves n (bcrLow (s.chan n).bcr) s).trans
    (addCycles_moves _ (bcrLow (s.chan n).bcr * s.cfg.dmaWordCycles))
  unfold runBlock
  dsimp only
  revert m
  generalize (transferBlock n (bcrLow (s.chan n).bcr) s).addCycles
    (bcrLow (s.chan n).bcr * s.cfg.dmaWordCycles) = s1
  intro m
  have m2 := m.trans (setChan_moves s1 n (c := { s1.chan n with
    blocksLeft := (s1.chan n).blocksLeft - 1 }) rfl rfl)
  split
  · exact ⟨_, m2, .inl rfl⟩
  · exact dmaEnds_wait _ m2 (by rw [BusMoves.phase m2 n hp]; exact hp)

theorem runNode_ends {n : ChanNum} {s : State} (hp : (s.chan n).phase ≠ .idle) :
    DmaEnds n s (runNode n s) := by
  unfold runNode
  dsimp only
  generalize s.ramWord (s.chan n).listPtr = w
  have m := (sendPayload_moves n (w.extractLsb' 24 8).toNat ((s.chan n).listPtr + 4) s).trans
    (addCycles_moves _ (((w.extractLsb' 24 8).toNat + 1) * s.cfg.dmaWordCycles))
  revert m
  generalize (sendPayload n (w.extractLsb' 24 8).toNat ((s.chan n).listPtr + 4) s).addCycles
    (((w.extractLsb' 24 8).toNat + 1) * s.cfg.dmaWordCycles) = s1
  intro m
  split
  · exact ⟨_, m, .inl rfl⟩
  · have m2 := m.trans (setChan_moves s1 n (c := { s1.chan n with listPtr := w.setWidth 24 }) rfl rfl)
    exact dmaEnds_wait _ m2 (by rw [BusMoves.phase m2 n hp]; exact hp)

theorem dmaEnds_trans {n : ChanNum} {s t u : State} (m : BusMoves s t) (h : DmaEnds n t u) :
    DmaEnds n s u := by
  obtain ⟨s', m', h⟩ := h
  exact ⟨s', m.trans m', h⟩

theorem onDreq_ends {n : ChanNum} {run : State → State} {s : State} (hp : (s.chan n).phase ≠ .idle)
    (hr : ∀ t, (t.chan n).phase ≠ .idle → DmaEnds n t (run t)) : DmaEnds n s (onDreq n run s) := by
  unfold onDreq
  split
  · exact dmaEnds_trans (nextDreq_moves s) (hr _ hp)
  · exact dmaEnds_wait _ (nextDreq_moves s) hp

/-- The state in which a DMA event works: the channel is Active (R235). -/
def activated (n : ChanNum) (s : State) : State := s.setChan n { s.chan n with phase := .active }

theorem activated_phase (n : ChanNum) (s : State) : ((activated n s).chan n).phase = .active := by
  simp [activated]

/-- All that a DMA event can do (R235). -/
theorem dmaRun_cases {n : ChanNum} {s t : State} {u : Unit} (h : dmaRun n s = .ok u t) :
    DmaEnds n (activated n s) t := by
  have hp : ((activated n s).chan n).phase ≠ .idle := by simp [activated_phase]
  unfold dmaRun at h
  dsimp only at h
  split at h
  · injection h with _ h; subst h; exact runManual_ends n _
  · injection h with _ h; subst h; exact onDreq_ends hp fun t ht => runBlock_ends ht
  · injection h with _ h; subst h; exact onDreq_ends hp fun t ht => runNode_ends ht
  · cases h

/-! ## Events of external devices -/

theorem raiseSource_moves (k : Nat) (s : State) : (raiseSource k s).moves s := by
  unfold raiseSource
  split
  · exact Res.moves_ok (latchSource_moves _ _)
  · exact Res.moves_stop

theorem performActions_moves (l : List DevAction) (s : State) : (performActions l s).moves s := by
  induction l generalizing s with
  | nil => exact Res.moves_ok .refl
  | cons a l ih =>
    cases a with
    | raise k => exact Res.moves_bind (raiseSource_moves k s) fun _ t => ih t
    | schedule r =>
      intro u t h
      exact (BusPrim.schedule s _ _ _).moves.trans (ih _ u t h)

theorem runDevice_moves (d : ExtDevice) (p : Nat) (s : State) : (runDevice d p s).moves s := by
  intro u t h
  exact ((record_moves s _).tail (BusPrim.inputs _ _)).trans (performActions_moves _ _ u t h)

/-- No handler raises a CPU exception (R8, R243). -/
theorem performActions_no_exc (l : List DevAction) (s : State) (e : Exc) :
    performActions l s ≠ .exc e := by
  induction l generalizing s with
  | nil => simp [performActions]
  | cons a l ih =>
    cases a with
    | raise k =>
      unfold performActions raiseSource
      split
      · exact ih _
      · simp
    | schedule r => exact ih _

theorem runHandler_no_exc (e : Event) (s : State) (x : Exc) : runHandler e s ≠ .exc x := by
  unfold runHandler
  split
  · unfold dmaRun
    dsimp only
    split <;> simp
  · exact performActions_no_exc _ _ _

/-- All that firing an event can do (R243). -/
theorem fireEvent_cases {e : Event} {s t : State} (h : fireEvent e s = .next t) :
    (∃ n, e.source = .dma n ∧ DmaEnds n (activated n (s.dequeue e)) t) ∨
      (∃ d, e.source = .ext d ∧ BusMoves (s.dequeue e) t) := by
  unfold fireEvent at h
  split at h
  · next u s1 hr =>
    injection h with h
    subst h
    unfold runHandler at hr
    split at hr
    · next n hs => exact .inl ⟨n, hs, dmaRun_cases hr⟩
    · next d hs => exact .inr ⟨d, hs, runDevice_moves _ _ _ _ _ hr⟩
  · next x hr => exact absurd hr (runHandler_no_exc _ _ _)
  · cases h

/-! ## The due event (R243) -/

theorem leastDue_mem {c : Nat} {l : List Event} {e : Event} (h : leastDue c l = some e) :
    e ∈ l ∧ e.target ≤ c := by
  induction l generalizing e with
  | nil => cases h
  | cons a l ih =>
    unfold leastDue at h
    split at h
    · split at h
      · next ht => injection h with h; subst h; exact ⟨.head _, ht⟩
      · cases h
    · next d hd =>
      obtain ⟨h1, h2⟩ := ih hd
      split at h
      · next ht =>
        injection h with h; subst h
        simp only [Bool.and_eq_true, decide_eq_true_eq] at ht
        exact ⟨.head _, ht.1⟩
      · injection h with h; subst h; exact ⟨.tail _ h1, h2⟩

theorem leastDue_none {c : Nat} {l : List Event} (h : leastDue c l = none) :
    ∀ e ∈ l, c < e.target := by
  induction l with
  | nil => simp
  | cons a l ih =>
    unfold leastDue at h
    split at h
    · next hn =>
      split at h
      · cases h
      · next ht =>
        intro e he
        rcases List.mem_cons.mp he with rfl | he
        · omega
        · exact ih hn e he
    · split at h <;> cases h

/-- The order in which events are consumed, as a proposition (R243). -/
theorem Event.before_iff {a b : Event} :
    a.before b = true ↔ a.target < b.target ∨ (a.target = b.target ∧ a.seq < b.seq) := by
  simp [Event.before]

/-- No due event comes before the one that is fired (R243, R247). -/
theorem leastDue_least {c : Nat} {l : List Event} {e : Event} (h : leastDue c l = some e) :
    ∀ f ∈ l, f.target ≤ c → f.before e = false := by
  induction l generalizing e with
  | nil => cases h
  | cons a l ih =>
    unfold leastDue at h
    intro f hf hft
    split at h
    · next hn =>
      split at h
      · injection h with h; subst h
        rcases List.mem_cons.mp hf with rfl | hf
        · simp [Event.before]
        · have := leastDue_none hn f hf; omega
      · cases h
    · next d hd =>
      have hmem := leastDue_mem hd
      split at h
      · next hb =>
        injection h with h; subst h
        rcases List.mem_cons.mp hf with rfl | hf
        · simp [Event.before]
        · have h1 := ih hd f hf hft
          simp only [Bool.and_eq_true, decide_eq_true_eq, Event.before_iff] at hb
          rw [Bool.eq_false_iff, ne_eq, Event.before_iff] at h1 ⊢
          omega
      · next hb =>
        injection h with h; subst h
        rcases List.mem_cons.mp hf with rfl | hf
        · cases hx : f.before d with
          | false => rfl
          | true => simp [hx, hft] at hb
        · exact ih hd f hf hft

end Sys2Proof.Machine
end

