-- ==== Sys2Proof/Laws/PerInstr.lean ====
section
/-! SUPPORT. Per-instruction laws: the primary opcode of every instruction's word (30_encoding.md R81). -/

namespace Sys2Proof.Laws

/-- The primary opcode of an instruction (R81): SPECIAL for the R-type and trap forms, REGIMM for the
four branches R83 selects, else the instruction's own. -/
def primaryOp : Instr → BitVec 6
  | .sll _ _ _ => 0x00
  | .srl _ _ _ => 0x00
  | .sra _ _ _ => 0x00
  | .sllv _ _ _ => 0x00
  | .srlv _ _ _ => 0x00
  | .srav _ _ _ => 0x00
  | .jr _ => 0x00
  | .jalr _ _ => 0x00
  | .syscall _ => 0x00
  | .brk _ => 0x00
  | .mfhi _ => 0x00
  | .mthi _ => 0x00
  | .mflo _ => 0x00
  | .mtlo _ => 0x00
  | .mult _ _ => 0x00
  | .multu _ _ => 0x00
  | .div _ _ => 0x00
  | .divu _ _ => 0x00
  | .add _ _ _ => 0x00
  | .addu _ _ _ => 0x00
  | .sub _ _ _ => 0x00
  | .subu _ _ _ => 0x00
  | .and _ _ _ => 0x00
  | .or _ _ _ => 0x00
  | .xor _ _ _ => 0x00
  | .nor _ _ _ => 0x00
  | .slt _ _ _ => 0x00
  | .sltu _ _ _ => 0x00
  | .bltz _ _ _ => 0x01
  | .bgez _ _ _ => 0x01
  | .bltzal _ _ => 0x01
  | .bgezal _ _ => 0x01
  | .j _ => 0x02
  | .jal _ => 0x03
  | .beq _ _ _ => 0x04
  | .bne _ _ _ => 0x05
  | .blez _ _ => 0x06
  | .bgtz _ _ => 0x07
  | .addi _ _ _ => 0x08
  | .addiu _ _ _ => 0x09
  | .slti _ _ _ => 0x0A
  | .sltiu _ _ _ => 0x0B
  | .andi _ _ _ => 0x0C
  | .ori _ _ _ => 0x0D
  | .xori _ _ _ => 0x0E
  | .lui _ _ => 0x0F
  | .lb _ _ _ => 0x20
  | .lh _ _ _ => 0x21
  | .lwl _ _ _ => 0x22
  | .lw _ _ _ => 0x23
  | .lbu _ _ _ => 0x24
  | .lhu _ _ _ => 0x25
  | .lwr _ _ _ => 0x26
  | .sb _ _ _ => 0x28
  | .sh _ _ _ => 0x29
  | .swl _ _ _ => 0x2A
  | .sw _ _ _ => 0x2B
  | .swr _ _ _ => 0x2E
  | .lwc0 _ _ _ => 0x30
  | .lwc1 _ _ _ => 0x31
  | .lwc2 _ _ _ => 0x32
  | .lwc3 _ _ _ => 0x33
  | .swc0 _ _ _ => 0x38
  | .swc1 _ _ _ => 0x39
  | .swc2 _ _ _ => 0x3A
  | .swc3 _ _ _ => 0x3B
  | .mfc0 _ _ => 0x10
  | .mtc0 _ _ => 0x10
  | .rfe => 0x10
  | .cop1 _ => 0x11
  | .cop3 _ => 0x13
  | .mfc2 _ _ => 0x12
  | .cfc2 _ _ => 0x12
  | .mtc2 _ _ => 0x12
  | .ctc2 _ _ => 0x12
  | .cop2Command _ => 0x12

/-- Bits 31:26 of the instruction's word. -/
def OpField.Statement (i : Instr) : Prop := fieldOp (encode i) = primaryOp i

theorem OpField.sll (rd rt : Reg) (shamt : BitVec 5) : OpField.Statement (.sll rd rt shamt) :=
  fieldOp_encodeR ..
theorem OpField.srl (rd rt : Reg) (shamt : BitVec 5) : OpField.Statement (.srl rd rt shamt) :=
  fieldOp_encodeR ..
theorem OpField.sra (rd rt : Reg) (shamt : BitVec 5) : OpField.Statement (.sra rd rt shamt) :=
  fieldOp_encodeR ..
theorem OpField.sllv (rd rt rs : Reg) : OpField.Statement (.sllv rd rt rs) :=
  fieldOp_encodeR ..
theorem OpField.srlv (rd rt rs : Reg) : OpField.Statement (.srlv rd rt rs) :=
  fieldOp_encodeR ..
theorem OpField.srav (rd rt rs : Reg) : OpField.Statement (.srav rd rt rs) :=
  fieldOp_encodeR ..
theorem OpField.jr (rs : Reg) : OpField.Statement (.jr rs) :=
  fieldOp_encodeR ..
theorem OpField.jalr (rd rs : Reg) : OpField.Statement (.jalr rd rs) :=
  fieldOp_encodeR ..
theorem OpField.syscall (code : BitVec 20) : OpField.Statement (.syscall code) :=
  fieldOp_encodeTrap ..
theorem OpField.brk (code : BitVec 20) : OpField.Statement (.brk code) :=
  fieldOp_encodeTrap ..
theorem OpField.mfhi (rd : Reg) : OpField.Statement (.mfhi rd) :=
  fieldOp_encodeR ..
theorem OpField.mthi (rs : Reg) : OpField.Statement (.mthi rs) :=
  fieldOp_encodeR ..
theorem OpField.mflo (rd : Reg) : OpField.Statement (.mflo rd) :=
  fieldOp_encodeR ..
theorem OpField.mtlo (rs : Reg) : OpField.Statement (.mtlo rs) :=
  fieldOp_encodeR ..
theorem OpField.mult (rs rt : Reg) : OpField.Statement (.mult rs rt) :=
  fieldOp_encodeR ..
theorem OpField.multu (rs rt : Reg) : OpField.Statement (.multu rs rt) :=
  fieldOp_encodeR ..
theorem OpField.div (rs rt : Reg) : OpField.Statement (.div rs rt) :=
  fieldOp_encodeR ..
theorem OpField.divu (rs rt : Reg) : OpField.Statement (.divu rs rt) :=
  fieldOp_encodeR ..
theorem OpField.add (rd rs rt : Reg) : OpField.Statement (.add rd rs rt) :=
  fieldOp_encodeR ..
theorem OpField.addu (rd rs rt : Reg) : OpField.Statement (.addu rd rs rt) :=
  fieldOp_encodeR ..
theorem OpField.sub (rd rs rt : Reg) : OpField.Statement (.sub rd rs rt) :=
  fieldOp_encodeR ..
theorem OpField.subu (rd rs rt : Reg) : OpField.Statement (.subu rd rs rt) :=
  fieldOp_encodeR ..
theorem OpField.and (rd rs rt : Reg) : OpField.Statement (.and rd rs rt) :=
  fieldOp_encodeR ..
theorem OpField.or (rd rs rt : Reg) : OpField.Statement (.or rd rs rt) :=
  fieldOp_encodeR ..
theorem OpField.xor (rd rs rt : Reg) : OpField.Statement (.xor rd rs rt) :=
  fieldOp_encodeR ..
theorem OpField.nor (rd rs rt : Reg) : OpField.Statement (.nor rd rs rt) :=
  fieldOp_encodeR ..
theorem OpField.slt (rd rs rt : Reg) : OpField.Statement (.slt rd rs rt) :=
  fieldOp_encodeR ..
theorem OpField.sltu (rd rs rt : Reg) : OpField.Statement (.sltu rd rs rt) :=
  fieldOp_encodeR ..
theorem OpField.bltz (rs : Reg) (rt : BitVec 5) (imm : Half) : OpField.Statement (.bltz rs rt imm) :=
  fieldOp_encodeI ..
theorem OpField.bgez (rs : Reg) (rt : BitVec 5) (imm : Half) : OpField.Statement (.bgez rs rt imm) :=
  fieldOp_encodeI ..
theorem OpField.bltzal (rs : Reg) (imm : Half) : OpField.Statement (.bltzal rs imm) :=
  fieldOp_encodeI ..
theorem OpField.bgezal (rs : Reg) (imm : Half) : OpField.Statement (.bgezal rs imm) :=
  fieldOp_encodeI ..
theorem OpField.j (target : BitVec 26) : OpField.Statement (.j target) :=
  fieldOp_encodeJ ..
theorem OpField.jal (target : BitVec 26) : OpField.Statement (.jal target) :=
  fieldOp_encodeJ ..
theorem OpField.beq (rs rt : Reg) (imm : Half) : OpField.Statement (.beq rs rt imm) :=
  fieldOp_encodeI ..
theorem OpField.bne (rs rt : Reg) (imm : Half) : OpField.Statement (.bne rs rt imm) :=
  fieldOp_encodeI ..
theorem OpField.blez (rs : Reg) (imm : Half) : OpField.Statement (.blez rs imm) :=
  fieldOp_encodeI ..
theorem OpField.bgtz (rs : Reg) (imm : Half) : OpField.Statement (.bgtz rs imm) :=
  fieldOp_encodeI ..
theorem OpField.addi (rt rs : Reg) (imm : Half) : OpField.Statement (.addi rt rs imm) :=
  fieldOp_encodeI ..
theorem OpField.addiu (rt rs : Reg) (imm : Half) : OpField.Statement (.addiu rt rs imm) :=
  fieldOp_encodeI ..
theorem OpField.slti (rt rs : Reg) (imm : Half) : OpField.Statement (.slti rt rs imm) :=
  fieldOp_encodeI ..
theorem OpField.sltiu (rt rs : Reg) (imm : Half) : OpField.Statement (.sltiu rt rs imm) :=
  fieldOp_encodeI ..
theorem OpField.andi (rt rs : Reg) (imm : Half) : OpField.Statement (.andi rt rs imm) :=
  fieldOp_encodeI ..
theorem OpField.ori (rt rs : Reg) (imm : Half) : OpField.Statement (.ori rt rs imm) :=
  fieldOp_encodeI ..
theorem OpField.xori (rt rs : Reg) (imm : Half) : OpField.Statement (.xori rt rs imm) :=
  fieldOp_encodeI ..
theorem OpField.lui (rt : Reg) (imm : Half) : OpField.Statement (.lui rt imm) :=
  fieldOp_encodeI ..
theorem OpField.lb (rt : Reg) (imm : Half) (rs : Reg) : OpField.Statement (.lb rt imm rs) :=
  fieldOp_encodeI ..
theorem OpField.lh (rt : Reg) (imm : Half) (rs : Reg) : OpField.Statement (.lh rt imm rs) :=
  fieldOp_encodeI ..
theorem OpField.lwl (rt : Reg) (imm : Half) (rs : Reg) : OpField.Statement (.lwl rt imm rs) :=
  fieldOp_encodeI ..
theorem OpField.lw (rt : Reg) (imm : Half) (rs : Reg) : OpField.Statement (.lw rt imm rs) :=
  fieldOp_encodeI ..
theorem OpField.lbu (rt : Reg) (imm : Half) (rs : Reg) : OpField.Statement (.lbu rt imm rs) :=
  fieldOp_encodeI ..
theorem OpField.lhu (rt : Reg) (imm : Half) (rs : Reg) : OpField.Statement (.lhu rt imm rs) :=
  fieldOp_encodeI ..
theorem OpField.lwr (rt : Reg) (imm : Half) (rs : Reg) : OpField.Statement (.lwr rt imm rs) :=
  fieldOp_encodeI ..
theorem OpField.sb (rt : Reg) (imm : Half) (rs : Reg) : OpField.Statement (.sb rt imm rs) :=
  fieldOp_encodeI ..
theorem OpField.sh (rt : Reg) (imm : Half) (rs : Reg) : OpField.Statement (.sh rt imm rs) :=
  fieldOp_encodeI ..
theorem OpField.swl (rt : Reg) (imm : Half) (rs : Reg) : OpField.Statement (.swl rt imm rs) :=
  fieldOp_encodeI ..
theorem OpField.sw (rt : Reg) (imm : Half) (rs : Reg) : OpField.Statement (.sw rt imm rs) :=
  fieldOp_encodeI ..
theorem OpField.swr (rt : Reg) (imm : Half) (rs : Reg) : OpField.Statement (.swr rt imm rs) :=
  fieldOp_encodeI ..
theorem OpField.lwc0 (rt : BitVec 5) (imm : Half) (rs : Reg) : OpField.Statement (.lwc0 rt imm rs) :=
  fieldOp_encodeI ..
theorem OpField.lwc1 (rt : BitVec 5) (imm : Half) (rs : Reg) : OpField.Statement (.lwc1 rt imm rs) :=
  fieldOp_encodeI ..
theorem OpField.lwc2 (rt : BitVec 5) (imm : Half) (rs : Reg) : OpField.Statement (.lwc2 rt imm rs) :=
  fieldOp_encodeI ..
theorem OpField.lwc3 (rt : BitVec 5) (imm : Half) (rs : Reg) : OpField.Statement (.lwc3 rt imm rs) :=
  fieldOp_encodeI ..
theorem OpField.swc0 (rt : BitVec 5) (imm : Half) (rs : Reg) : OpField.Statement (.swc0 rt imm rs) :=
  fieldOp_encodeI ..
theorem OpField.swc1 (rt : BitVec 5) (imm : Half) (rs : Reg) : OpField.Statement (.swc1 rt imm rs) :=
  fieldOp_encodeI ..
theorem OpField.swc2 (rt : BitVec 5) (imm : Half) (rs : Reg) : OpField.Statement (.swc2 rt imm rs) :=
  fieldOp_encodeI ..
theorem OpField.swc3 (rt : BitVec 5) (imm : Half) (rs : Reg) : OpField.Statement (.swc3 rt imm rs) :=
  fieldOp_encodeI ..
theorem OpField.mfc0 (rt : Reg) (rd : BitVec 5) : OpField.Statement (.mfc0 rt rd) :=
  fieldOp_encodeMove ..
theorem OpField.mtc0 (rt : Reg) (rd : BitVec 5) : OpField.Statement (.mtc0 rt rd) :=
  fieldOp_encodeMove ..
theorem OpField.rfe : OpField.Statement (.rfe) :=
  fieldOp_encodeCo ..
theorem OpField.cop1 (bits : BitVec 26) : OpField.Statement (.cop1 bits) :=
  fieldOp_encodeJ ..
theorem OpField.cop3 (bits : BitVec 26) : OpField.Statement (.cop3 bits) :=
  fieldOp_encodeJ ..
theorem OpField.mfc2 (rt : Reg) (rd : BitVec 5) : OpField.Statement (.mfc2 rt rd) :=
  fieldOp_encodeMove ..
theorem OpField.cfc2 (rt : Reg) (rd : BitVec 5) : OpField.Statement (.cfc2 rt rd) :=
  fieldOp_encodeMove ..
theorem OpField.mtc2 (rt : Reg) (rd : BitVec 5) : OpField.Statement (.mtc2 rt rd) :=
  fieldOp_encodeMove ..
theorem OpField.ctc2 (rt : Reg) (rd : BitVec 5) : OpField.Statement (.ctc2 rt rd) :=
  fieldOp_encodeMove ..
theorem OpField.cop2Command (cofun : BitVec 25) : OpField.Statement (.cop2Command cofun) :=
  fieldOp_encodeCo ..

end Sys2Proof.Laws
end

