-- ==== Sys2Proof/Laws/Registers.lean ====
section
/-! SUPPORT. No instruction treats a register other than 0 and 31 specially (10_state.md R23): under every
renaming of the registers that keeps these two, the renamed instruction does in the renamed state what the
instruction does in the state. -/

namespace Sys2Proof.Machine

/-- A renaming of the registers that keeps 0 and the link register. -/
structure Renaming where
  perm : Equiv.Perm Reg
  zero : perm 0 = 0
  link : perm linkReg = linkReg

variable (ρ : Renaming)

/-- Register `r` of the file stands in register `ρ r` of the renamed one. -/
@[irreducible] def RegFile.rename (f : RegFile) : RegFile :=
  Vector.ofFn fun j : Fin 32 => f[(ρ.perm.symm (BitVec.ofFin j)).toNat]'(ρ.perm.symm (BitVec.ofFin j)).isLt

def LoadSlot.rename (l : LoadSlot) : LoadSlot := { l with reg := ρ.perm l.reg }

def State.rename (s : State) : State :=
  { s with regs := RegFile.rename ρ s.regs, lslot := s.lslot.map (LoadSlot.rename ρ) }

def Effect.rename (e : Effect) : Effect :=
  { e with wreg := e.wreg.map fun p => (ρ.perm p.1, p.2), lnew := e.lnew.map (LoadSlot.rename ρ) }

/-- The outcome of a part with its state renamed. -/
def Res.rename {α : Type} : Res α → Res α
  | .ok v s => .ok v (s.rename ρ)
  | .exc e => .exc e
  | .stop r => .stop r

/-- The instruction with its general registers renamed; a coprocessor's registers are none. -/
def renameInstr : Instr → Instr
  | .sll rd rt a => .sll (ρ.perm rd) (ρ.perm rt) a
  | .srl rd rt a => .srl (ρ.perm rd) (ρ.perm rt) a
  | .sra rd rt a => .sra (ρ.perm rd) (ρ.perm rt) a
  | .sllv rd rt rs => .sllv (ρ.perm rd) (ρ.perm rt) (ρ.perm rs)
  | .srlv rd rt rs => .srlv (ρ.perm rd) (ρ.perm rt) (ρ.perm rs)
  | .srav rd rt rs => .srav (ρ.perm rd) (ρ.perm rt) (ρ.perm rs)
  | .jr rs => .jr (ρ.perm rs)
  | .jalr rd rs => .jalr (ρ.perm rd) (ρ.perm rs)
  | .syscall c => .syscall c
  | .brk c => .brk c
  | .mfhi rd => .mfhi (ρ.perm rd)
  | .mthi rs => .mthi (ρ.perm rs)
  | .mflo rd => .mflo (ρ.perm rd)
  | .mtlo rs => .mtlo (ρ.perm rs)
  | .mult rs rt => .mult (ρ.perm rs) (ρ.perm rt)
  | .multu rs rt => .multu (ρ.perm rs) (ρ.perm rt)
  | .div rs rt => .div (ρ.perm rs) (ρ.perm rt)
  | .divu rs rt => .divu (ρ.perm rs) (ρ.perm rt)
  | .add rd rs rt => .add (ρ.perm rd) (ρ.perm rs) (ρ.perm rt)
  | .addu rd rs rt => .addu (ρ.perm rd) (ρ.perm rs) (ρ.perm rt)
  | .sub rd rs rt => .sub (ρ.perm rd) (ρ.perm rs) (ρ.perm rt)
  | .subu rd rs rt => .subu (ρ.perm rd) (ρ.perm rs) (ρ.perm rt)
  | .and rd rs rt => .and (ρ.perm rd) (ρ.perm rs) (ρ.perm rt)
  | .or rd rs rt => .or (ρ.perm rd) (ρ.perm rs) (ρ.perm rt)
  | .xor rd rs rt => .xor (ρ.perm rd) (ρ.perm rs) (ρ.perm rt)
  | .nor rd rs rt => .nor (ρ.perm rd) (ρ.perm rs) (ρ.perm rt)
  | .slt rd rs rt => .slt (ρ.perm rd) (ρ.perm rs) (ρ.perm rt)
  | .sltu rd rs rt => .sltu (ρ.perm rd) (ρ.perm rs) (ρ.perm rt)
  | .bltz rs sel imm => .bltz (ρ.perm rs) sel imm
  | .bgez rs sel imm => .bgez (ρ.perm rs) sel imm
  | .bltzal rs imm => .bltzal (ρ.perm rs) imm
  | .bgezal rs imm => .bgezal (ρ.perm rs) imm
  | .j t => .j t
  | .jal t => .jal t
  | .beq rs rt imm => .beq (ρ.perm rs) (ρ.perm rt) imm
  | .bne rs rt imm => .bne (ρ.perm rs) (ρ.perm rt) imm
  | .blez rs imm => .blez (ρ.perm rs) imm
  | .bgtz rs imm => .bgtz (ρ.perm rs) imm
  | .addi rt rs imm => .addi (ρ.perm rt) (ρ.perm rs) imm
  | .addiu rt rs imm => .addiu (ρ.perm rt) (ρ.perm rs) imm
  | .slti rt rs imm => .slti (ρ.perm rt) (ρ.perm rs) imm
  | .sltiu rt rs imm => .sltiu (ρ.perm rt) (ρ.perm rs) imm
  | .andi rt rs imm => .andi (ρ.perm rt) (ρ.perm rs) imm
  | .ori rt rs imm => .ori (ρ.perm rt) (ρ.perm rs) imm
  | .xori rt rs imm => .xori (ρ.perm rt) (ρ.perm rs) imm
  | .lui rt imm => .lui (ρ.perm rt) imm
  | .lb rt imm rs => .lb (ρ.perm rt) imm (ρ.perm rs)
  | .lh rt imm rs => .lh (ρ.perm rt) imm (ρ.perm rs)
  | .lwl rt imm rs => .lwl (ρ.perm rt) imm (ρ.perm rs)
  | .lw rt imm rs => .lw (ρ.perm rt) imm (ρ.perm rs)
  | .lbu rt imm rs => .lbu (ρ.perm rt) imm (ρ.perm rs)
  | .lhu rt imm rs => .lhu (ρ.perm rt) imm (ρ.perm rs)
  | .lwr rt imm rs => .lwr (ρ.perm rt) imm (ρ.perm rs)
  | .sb rt imm rs => .sb (ρ.perm rt) imm (ρ.perm rs)
  | .sh rt imm rs => .sh (ρ.perm rt) imm (ρ.perm rs)
  | .swl rt imm rs => .swl (ρ.perm rt) imm (ρ.perm rs)
  | .sw rt imm rs => .sw (ρ.perm rt) imm (ρ.perm rs)
  | .swr rt imm rs => .swr (ρ.perm rt) imm (ρ.perm rs)
  | .lwc0 rt imm rs => .lwc0 rt imm (ρ.perm rs)
  | .lwc1 rt imm rs => .lwc1 rt imm (ρ.perm rs)
  | .lwc2 rt imm rs => .lwc2 rt imm (ρ.perm rs)
  | .lwc3 rt imm rs => .lwc3 rt imm (ρ.perm rs)
  | .swc0 rt imm rs => .swc0 rt imm (ρ.perm rs)
  | .swc1 rt imm rs => .swc1 rt imm (ρ.perm rs)
  | .swc2 rt imm rs => .swc2 rt imm (ρ.perm rs)
  | .swc3 rt imm rs => .swc3 rt imm (ρ.perm rs)
  | .mfc0 rt rd => .mfc0 (ρ.perm rt) rd
  | .mtc0 rt rd => .mtc0 (ρ.perm rt) rd
  | .rfe => .rfe
  | .cop1 b => .cop1 b
  | .cop3 b => .cop3 b
  | .mfc2 rt rd => .mfc2 (ρ.perm rt) rd
  | .cfc2 rt rd => .cfc2 (ρ.perm rt) rd
  | .mtc2 rt rd => .mtc2 (ρ.perm rt) rd
  | .ctc2 rt rd => .ctc2 (ρ.perm rt) rd
  | .cop2Command c => .cop2Command c

/-! ## Registers and their commit -/

theorem Renaming.perm_eq_zero {r : Reg} : ρ.perm r = 0 ↔ r = 0 := by
  constructor
  · intro h; exact ρ.perm.injective (h.trans ρ.zero.symm)
  · rintro rfl; exact ρ.zero

@[simp] theorem RegFile.rename_read (f : RegFile) (r : Reg) :
    RegFile.read (f.rename ρ) (ρ.perm r) = RegFile.read f r := by
  unfold RegFile.read
  by_cases h : r = 0
  · rw [if_pos h, if_pos (ρ.perm_eq_zero.mpr h)]
  · rw [if_neg h, if_neg (mt ρ.perm_eq_zero.mp h)]
    simp [RegFile.rename]

theorem RegFile.rename_write (f : RegFile) (r : Reg) (v : Word) :
    RegFile.write (f.rename ρ) (ρ.perm r) v = (RegFile.write f r v).rename ρ := by
  unfold RegFile.write
  by_cases h : r = 0
  · rw [if_pos h, if_pos (ρ.perm_eq_zero.mpr h)]
  · rw [if_neg h, if_neg (mt ρ.perm_eq_zero.mp h)]
    apply Vector.ext
    intro j hj
    have key : (ρ.perm r).toNat = j ↔ r.toNat = (ρ.perm.symm (BitVec.ofFin ⟨j, hj⟩)).toNat := by
      rw [← BitVec.toNat_eq, Equiv.eq_symm_apply, BitVec.toNat_eq]
      rfl
    simp only [RegFile.rename, Vector.getElem_set, Vector.getElem_ofFn, key]

@[simp] theorem State.rename_x (s : State) (r : Reg) : (s.rename ρ).x (ρ.perm r) = s.x r :=
  RegFile.rename_read ρ s.regs r

theorem rename_commitPending (l : Option LoadSlot) (f : RegFile) :
    commitPending (l.map (LoadSlot.rename ρ)) (f.rename ρ) = (commitPending l f).rename ρ := by
  cases l
  · rfl
  · exact RegFile.rename_write ρ _ _ _

theorem rename_slotReg (l : Option LoadSlot) :
    (l.map (LoadSlot.rename ρ)).map LoadSlot.reg = (l.map LoadSlot.reg).map ρ.perm := by cases l <;> rfl

theorem rename_commitRegs (e : Effect) (l : Option LoadSlot) (f : RegFile) :
    commitRegs (e.rename ρ) (l.map (LoadSlot.rename ρ)) (f.rename ρ) = (commitRegs e l f).rename ρ := by
  have hc : ((l.map (LoadSlot.rename ρ)).map LoadSlot.reg =
      (e.lnew.map (LoadSlot.rename ρ)).map LoadSlot.reg) ↔ l.map LoadSlot.reg = e.lnew.map LoadSlot.reg := by
    rw [rename_slotReg, rename_slotReg]
    exact (Option.map_injective ρ.perm.injective).eq_iff
  unfold commitRegs
  simp only [Effect.rename, hc]
  rcases e.wreg with _ | ⟨r, v⟩ <;> by_cases h : l.map LoadSlot.reg = e.lnew.map LoadSlot.reg <;>
    simp [h, rename_commitPending, RegFile.rename_write]

theorem rename_commit (e : Effect) (s : State) :
    commit (e.rename ρ) (s.rename ρ) = (commit e s).rename ρ := by
  have h := rename_commitRegs ρ e s.lslot s.regs
  unfold commit State.rename
  simp only [h]
  rfl

theorem rename_takeException (e : Exc) (s : State) :
    takeException e (s.rename ρ) = (takeException e s).rename ρ := by
  have h := rename_commitPending ρ s.lslot s.regs
  unfold takeException exceptionEntry State.rename
  simp only [h]
  rfl

/-- The outcome of an instruction with its effect and its state renamed. -/
def Res.renameEffect : Res Effect → Res Effect
  | .ok e s => .ok (e.rename ρ) (s.rename ρ)
  | .exc e => .exc e
  | .stop r => .stop r

theorem rename_finish (s : State) (r : Res Effect) :
    finish (s.rename ρ) (r.renameEffect ρ) = mapNext (State.rename ρ) (finish s r) := by
  cases r
  · exact congrArg _ (rename_commit ρ _ _)
  · exact congrArg _ (rename_takeException ρ _ _)
  · rfl

/-! ## Accesses -/

theorem Res.rename_bind {α β : Type} (r : Res α) (f g : α → State → Res β)
    (h : ∀ v s, f v (s.rename ρ) = (g v s).rename ρ) : (r.rename ρ).bind f = (r.bind g).rename ρ := by
  cases r
  · exact h _ _
  · rfl
  · rfl

theorem rename_resolveOpen (n : ChanNum) (s : State) :
    resolveOpen n (s.rename ρ) = (resolveOpen n s).rename ρ := by
  have hc : (s.rename ρ).chan n = s.chan n := rfl
  have h1 : (if (s.chan n).madrOpen then ((s.rename ρ).setChan n { s.chan n with
      madr := (s.rename ρ).drawn.setWidth 24 }).nextDraw else s.rename ρ) =
      (if (s.chan n).madrOpen then (s.setChan n { s.chan n with madr := s.drawn.setWidth 24 }).nextDraw
        else s).rename ρ := by split <;> rfl
  unfold resolveOpen
  simp only [hc, h1]
  split <;> rfl

theorem rename_dmaStart (n : ChanNum) (s : State) :
    dmaStart n (s.rename ρ) = (dmaStart n s).rename ρ := by
  have hc : (s.rename ρ).chan n = s.chan n := rfl
  unfold dmaStart
  simp only [hc, rename_resolveOpen]
  split <;> rfl

theorem rename_dmaStartAll (l : List ChanNum) (s : State) :
    dmaStartAll l (s.rename ρ) = (dmaStartAll l s).rename ρ := by
  induction l generalizing s with
  | nil => rfl
  | cons n l ih =>
    have hc : startCond (s.rename ρ) n = startCond s n := rfl
    simp only [dmaStartAll, hc]
    split
    · rw [rename_dmaStart]
      exact Res.rename_bind ρ _ _ _ fun _ t => ih t
    · exact ih s

theorem rename_setDicr (s : State) (ctl : BitVec 24) (flag : BitVec 7) :
    (s.rename ρ).setDicr ctl flag = (s.setDicr ctl flag).rename ρ := by
  have hd : (s.rename ρ).dma = s.dma := rfl
  unfold State.setDicr
  simp only [hd]
  split <;> rfl

theorem rename_writeChan (n : ChanNum) (c : DmaChannel) (s : State) :
    writeChan n c (s.rename ρ) = (writeChan n c s).rename ρ := by
  have hc : (s.rename ρ).chan n = s.chan n := rfl
  unfold writeChan
  rw [hc]
  split <;> rfl

theorem rename_dmaRegRead (r : DmaReg) (s : State) :
    dmaRegRead r (s.rename ρ) = (dmaRegRead r s).rename ρ := by
  have hc (n : ChanNum) : (s.rename ρ).chan n = s.chan n := rfl
  unfold dmaRegRead
  cases r <;> simp only [hc] <;> first | rfl | (split <;> rfl)

theorem rename_dmaRegWrite (r : DmaReg) (v : Word) (s : State) :
    dmaRegWrite r v (s.rename ρ) = (dmaRegWrite r v s).rename ρ := by
  cases r with
  | madr n => exact rename_writeChan ρ _ _ _
  | bcr n => exact rename_writeChan ρ _ _ _
  | chcr n =>
    show (writeChan n { s.chan n with chcr := chcrStored n v } (s.rename ρ)).bind _ = _
    rw [rename_writeChan]
    exact Res.rename_bind ρ _ _ _ fun _ t => rename_dmaStartAll ρ _ t
  | dpcr => exact rename_dmaStartAll ρ _ { s with dma := { s.dma with dpcr := v } }
  | dicr => exact congrArg (Res.ok ()) (rename_setDicr ρ _ _ _)

theorem rename_dmaRead (o : Nat) (w : Width) (s : State) :
    dmaRead o w (s.rename ρ) = (dmaRead o w s).rename ρ := by
  unfold dmaRead
  split
  · rfl
  · split
    · exact rename_dmaRegRead ρ _ _
    · rfl

theorem rename_dmaWrite (o : Nat) (w : Width) (v : Word) (s : State) :
    dmaWrite o w v (s.rename ρ) = (dmaWrite o w v s).rename ρ := by
  unfold dmaWrite
  split
  · rfl
  · split
    · exact rename_dmaRegWrite ρ _ _ _
    · rfl

theorem rename_irqRead (o : Nat) (w : Width) (s : State) :
    irqRead o w (s.rename ρ) = (irqRead o w s).rename ρ := by
  unfold irqRead
  split <;> rfl

theorem rename_ackSources (v : BitVec 11) (s : State) :
    ackSources v (s.rename ρ) = (ackSources v s).rename ρ := by
  have hc : (s.rename ρ).cfg = s.cfg := rfl
  unfold ackSources
  rw [hc]
  split <;> rfl

theorem rename_irqWrite (o : Nat) (w : Width) (v : Word) (s : State) :
    irqWrite o w v (s.rename ρ) = (irqWrite o w v s).rename ρ := by
  unfold irqWrite
  split
  · exact congrArg (Res.ok ()) (rename_ackSources ρ _ _)
  · rfl
  · rfl

theorem rename_scheduleRequests (l : List SchedRequest) (s : State) :
    scheduleRequests l (s.rename ρ) = (scheduleRequests l s).rename ρ := by
  induction l generalizing s with
  | nil => rfl
  | cons r l ih => exact ih (s.schedule r.delay (.ext r.dev) r.payload)

theorem rename_deviceCall (c : ExtCall) (s : State) :
    deviceCall c (s.rename ρ) = (deviceCall c s).rename ρ :=
  rename_scheduleRequests ρ (s.inputs.regReplies.headD [])
    { s.record c with inputs := { s.inputs with regReplies := s.inputs.regReplies.tail } }

theorem rename_deviceRead (d : ExtDevice) (o : Nat) (w : Width) (s : State) :
    deviceRead d o w (s.rename ρ) = (deviceRead d o w s).rename ρ := by
  unfold deviceRead
  rw [rename_deviceCall]
  rfl

theorem rename_busRead (va : Word) (w : Width) (k : Access) (s : State) :
    busRead va w k (s.rename ρ) = (busRead va w k s).rename ρ := by
  have hr : (s.rename ρ).region va = s.region va := rfl
  unfold busRead
  rw [hr]
  split
  · rfl
  · rfl
  · rfl
  · rfl
  · split
    · rfl
    · exact rename_irqRead ρ _ _ _
  · split
    · rfl
    · exact rename_dmaRead ρ _ _ _
  · split
    · rfl
    · exact rename_deviceRead ρ _ _ _ _
  · split <;> rfl

theorem rename_memRead (va : Word) (w : Width) (k : Access) (s : State) :
    memRead va w k (s.rename ρ) = (memRead va w k s).rename ρ := by
  have hp : (s.rename ρ).privileged va = s.privileged va := rfl
  have hv : (s.rename ρ).reversed = s.reversed := rfl
  have hi : (s.rename ρ).isolated va = s.isolated va := rfl
  unfold memRead
  rw [hp, hv, hi]
  split
  · rfl
  split
  · rfl
  split
  · rfl
  split
  · rfl
  · exact rename_busRead ρ _ _ _ _

theorem rename_busWrite (va : Word) (w : Width) (v : Word) (s : State) :
    busWrite va w v (s.rename ρ) = (busWrite va w v s).rename ρ := by
  have hr : (s.rename ρ).region va = s.region va := rfl
  unfold busWrite
  rw [hr]
  split
  · rfl
  · rfl
  · rfl
  · rfl
  · exact rename_irqWrite ρ _ _ _ _
  · exact rename_dmaWrite ρ _ _ _ _
  · exact congrArg (Res.ok ()) (rename_deviceCall ρ _ _)
  · rfl

theorem rename_memWrite (va : Word) (w : Width) (v : Word) (s : State) :
    memWrite va w v (s.rename ρ) = (memWrite va w v s).rename ρ := by
  have hp : (s.rename ρ).privileged va = s.privileged va := rfl
  have hv : (s.rename ρ).reversed = s.reversed := rfl
  have hi : (s.rename ρ).isolated va = s.isolated va := rfl
  unfold memWrite
  rw [hp, hv, hi]
  split
  · rfl
  split
  · rfl
  split
  · rfl
  split
  · rfl
  · exact rename_busWrite ρ _ _ _ _

theorem rename_maskedDevice (va : Word) (mask : BitVec 4) (v : Word) (s : State) :
    maskedDevice va mask v (s.rename ρ) = (maskedDevice va mask v s).rename ρ := by
  unfold maskedDevice
  split
  · exact rename_memWrite ρ _ _ _ _
  · rfl

theorem rename_memWriteMasked (va : Word) (mask : BitVec 4) (v : Word) (s : State) :
    memWriteMasked va mask v (s.rename ρ) = (memWriteMasked va mask v s).rename ρ := by
  have hp : (s.rename ρ).privileged va = s.privileged va := rfl
  have hv : (s.rename ρ).reversed = s.reversed := rfl
  have hi : (s.rename ρ).isolated va = s.isolated va := rfl
  have hr : (s.rename ρ).region va = s.region va := rfl
  unfold memWriteMasked
  rw [hp, hv, hi, hr]
  split
  · rfl
  split
  · rfl
  split
  · rfl
  split
  · rfl
  split
  · rfl
  · rfl
  · rfl
  · rfl
  · exact rename_maskedDevice ρ _ _ _ _
  · exact rename_maskedDevice ρ _ _ _ _
  · exact rename_maskedDevice ρ _ _ _ _
  · rfl

theorem rename_applyHiloHazard (u : HiloUse) (s : State) :
    applyHiloHazard u (s.rename ρ) = (applyHiloHazard u s).rename ρ := by
  have hc : (s.rename ρ).cfg = s.cfg := rfl
  have hh : (s.rename ρ).hist = s.hist := rfl
  unfold applyHiloHazard
  rw [hc, hh]
  repeat' split
  all_goals rfl

theorem rename_writeCop0 (n : BitVec 5) (v : Word) (s : State) :
    writeCop0 n v (s.rename ρ) = (writeCop0 n v s).rename ρ := by
  unfold writeCop0
  repeat' split
  all_goals rfl

/-! ## Instructions, by the shape of their meaning -/

theorem Res.renameEffect_bind {α : Type} (r : Res α) (f g : α → State → Res Effect)
    (h : ∀ v s, f v (s.rename ρ) = (g v s).renameEffect ρ) :
    (r.rename ρ).bind f = (r.bind g).renameEffect ρ := by
  cases r
  · exact h _ _
  · rfl
  · rfl

@[simp] theorem State.rename_branchTo (s : State) (imm : Half) : (s.rename ρ).branchTo imm = s.branchTo imm :=
  rfl

@[simp] theorem State.rename_jumpTo (s : State) (t : BitVec 26) : (s.rename ρ).jumpTo t = s.jumpTo t := rfl

@[simp] theorem State.rename_ea (s : State) (rs : Reg) (imm : Half) :
    (s.rename ρ).ea (ρ.perm rs) imm = s.ea rs imm :=
  congrArg (· + sext16 imm) (State.rename_x ρ s rs)

@[simp] theorem State.rename_shiftAmount (s : State) (rs : Reg) :
    (s.rename ρ).shiftAmount (ρ.perm rs) = s.shiftAmount rs :=
  congrArg (fun v : Word => (v.setWidth 5).toNat) (State.rename_x ρ s rs)

@[simp] theorem State.rename_mergeOperand (s : State) (rt : Reg) :
    (s.rename ρ).mergeOperand (ρ.perm rt) = s.mergeOperand rt := by
  have hx := State.rename_x ρ s rt
  have hl : (s.rename ρ).lslot = s.lslot.map (LoadSlot.rename ρ) := rfl
  unfold State.mergeOperand
  rw [hx, hl]
  rcases s.lslot with _ | l
  · rfl
  · simp [LoadSlot.rename, ρ.perm.injective.eq_iff]

theorem rename_writeResult (r : Reg) (v : Word) (s : State) :
    writeResult (ρ.perm r) v (s.rename ρ) = mapNext (State.rename ρ) (writeResult r v s) :=
  rename_finish ρ s (.ok { wreg := some (r, v) } s)

theorem rename_writeChecked (r : Reg) (n : Int) (s : State) :
    writeChecked (ρ.perm r) n (s.rename ρ) = mapNext (State.rename ρ) (writeChecked r n s) := by
  unfold writeChecked
  split
  · exact rename_finish ρ s (.exc .ov)
  · exact rename_writeResult ρ _ _ _

theorem rename_branchResult (b : BranchTarget) (s : State) :
    branchResult b (s.rename ρ) = mapNext (State.rename ρ) (branchResult b s) :=
  rename_finish ρ s (.ok { branch := some b } s)

theorem rename_branchAndLink (r : Reg) (b : BranchTarget) (s : State) :
    branchAndLink (ρ.perm r) b (s.rename ρ) = mapNext (State.rename ρ) (branchAndLink r b s) :=
  rename_finish ρ s (.ok { wreg := some (r, s.linkValue), branch := some b } s)

/-- The instructions that write register 31 without naming it: a renaming keeps that register. -/
theorem rename_branchAndLink_linkReg (b : BranchTarget) (s : State) :
    branchAndLink linkReg b (s.rename ρ) = mapNext (State.rename ρ) (branchAndLink linkReg b s) := by
  have h := rename_branchAndLink ρ linkReg b s
  rwa [ρ.link] at h

theorem rename_writeHilo (u : HiloUse) (hi lo : Word) (s : State) :
    writeHilo u hi lo (s.rename ρ) = mapNext (State.rename ρ) (writeHilo u hi lo s) := by
  have h := rename_applyHiloHazard ρ u { s with hi := hi, lo := lo }
  unfold writeHilo
  rw [← rename_finish, Res.renameEffect, ← h]
  rfl

theorem rename_readHilo (rd : Reg) (v : Word) (s : State) :
    readHilo (ρ.perm rd) v (s.rename ρ) = mapNext (State.rename ρ) (readHilo rd v s) :=
  rename_finish ρ s (.ok { wreg := some (rd, v), hilo := .read } s)

theorem rename_loadWith (rt : Reg) (va : Word) (w : Width) (f : Word → Word) (s : State) :
    loadWith (ρ.perm rt) va w f (s.rename ρ) = mapNext (State.rename ρ) (loadWith rt va w f s) := by
  unfold loadWith
  rw [← rename_finish, rename_memRead]
  exact congrArg _ (Res.renameEffect_bind ρ _ _ _ fun _ _ => rfl)

theorem rename_storeWith (va : Word) (w : Width) (v : Word) (s : State) :
    storeWith va w v (s.rename ρ) = mapNext (State.rename ρ) (storeWith va w v s) := by
  unfold storeWith
  rw [← rename_finish, rename_memWrite]
  exact congrArg _ (Res.renameEffect_bind ρ _ _ _ fun _ _ => rfl)

theorem rename_storeMasked (va : Word) (mask : BitVec 4) (v : Word) (s : State) :
    storeMasked va mask v (s.rename ρ) = mapNext (State.rename ρ) (storeMasked va mask v s) := by
  unfold storeMasked
  rw [← rename_finish, rename_memWriteMasked]
  exact congrArg _ (Res.renameEffect_bind ρ _ _ _ fun _ _ => rfl)

theorem rename_whenUsable (z : CopNum) (r : Res Effect) (s : State) :
    whenUsable z (r.renameEffect ρ) (s.rename ρ) = mapNext (State.rename ρ) (whenUsable z r s) := by
  have hu : (s.rename ρ).usable z = s.usable z := rfl
  unfold whenUsable
  rw [hu]
  split
  · exact rename_finish ρ s r
  · exact rename_finish ρ s (.exc (.cpU z))

theorem rename_execMfc0 (rt : Reg) (rd : BitVec 5) (s : State) :
    execMfc0 (ρ.perm rt) rd (s.rename ρ) = mapNext (State.rename ρ) (execMfc0 rt rd s) := by
  have hr : readCop0 rd (s.rename ρ) = readCop0 rd s := rfl
  unfold execMfc0
  rw [← rename_whenUsable, hr]
  cases readCop0 rd s <;> rfl

theorem rename_execMtc0 (rt : Reg) (rd : BitVec 5) (s : State) :
    execMtc0 (ρ.perm rt) rd (s.rename ρ) = mapNext (State.rename ρ) (execMtc0 rt rd s) := by
  unfold execMtc0
  rw [← rename_whenUsable, State.rename_x, rename_writeCop0]
  exact congrArg (whenUsable 0 · _) (Res.renameEffect_bind ρ _ _ _ fun _ _ => rfl)

theorem rename_moveFromGte (rt : Reg) (c : ExtCall) (s : State) :
    moveFromGte (ρ.perm rt) c (s.rename ρ) = mapNext (State.rename ρ) (moveFromGte rt c s) :=
  rename_whenUsable ρ 2 ((gteRead c s).bind fun v s1 => .ok { lnew := some ⟨rt, v⟩ } s1) s

theorem rename_moveToGte (c : ExtCall) (s : State) :
    moveToGte c (s.rename ρ) = mapNext (State.rename ρ) (moveToGte c s) :=
  rename_whenUsable ρ 2 ((gteWrite c s).bind fun _ s1 => .ok {} s1) s

theorem rename_execLwc2 (n : BitVec 5) (imm : Half) (rs : Reg) (s : State) :
    execLwc2 n imm (ρ.perm rs) (s.rename ρ) = mapNext (State.rename ρ) (execLwc2 n imm rs s) := by
  unfold execLwc2
  rw [← rename_whenUsable, State.rename_ea, rename_memRead]
  exact congrArg (whenUsable 2 · _) (Res.renameEffect_bind ρ _ _ _ fun _ _ => rfl)

theorem rename_execSwc2 (n : BitVec 5) (imm : Half) (rs : Reg) (s : State) :
    execSwc2 n imm (ρ.perm rs) (s.rename ρ) = mapNext (State.rename ρ) (execSwc2 n imm rs s) := by
  unfold execSwc2
  rw [← rename_whenUsable, State.rename_ea]
  refine congrArg (whenUsable 2 · _) ?_
  show (memWrite _ _ _ (State.rename ρ ((s.record (.gteReadData n)).nextDraw))).bind _ = _
  rw [rename_memWrite]
  exact Res.renameEffect_bind ρ _ _ _ fun _ _ => rfl

theorem rename_execCop2Command (c : BitVec 25) (s : State) :
    execCop2Command c (s.rename ρ) = mapNext (State.rename ρ) (execCop2Command c s) :=
  rename_whenUsable ρ 2 (.ok {} (gteCommand c s)) s

theorem rename_absentCop (z : CopNum) (s : State) :
    absentCop z (s.rename ρ) = mapNext (State.rename ρ) (absentCop z s) :=
  rename_whenUsable ρ z (.stop .unmodelledCop) s

/-- R23: no instruction treats a register other than 0 and 31 specially. -/
theorem exec_rename (i : Instr) (s : State) :
    exec (renameInstr ρ i) (s.rename ρ) = mapNext (State.rename ρ) (exec i s) := by
  cases i
  case syscall => exact rename_finish ρ s (.exc .syscall)
  case brk => exact rename_finish ρ s (.exc .bp)
  case lwc0 => exact rename_finish ρ s (.stop .unmodelledCop)
  case swc0 => exact rename_finish ρ s (.stop .unmodelledCop)
  case rfe => exact rename_whenUsable ρ 0 (.ok {} (returnFromException s)) s
  case mfhi rd => exact rename_readHilo ρ rd s.hi s
  case mflo rd => exact rename_readHilo ρ rd s.lo s
  case mthi rs =>
    exact (congrArg (writeHilo .moveHi · s.lo _) (State.rename_x ρ s rs)).trans (rename_writeHilo ρ _ _ _ s)
  case mtlo rs =>
    exact (congrArg (writeHilo .moveLo s.hi · _) (State.rename_x ρ s rs)).trans (rename_writeHilo ρ _ _ _ s)
  case lwc2 => exact rename_execLwc2 ρ _ _ _ s
  case swc2 => exact rename_execSwc2 ρ _ _ _ s
  case mfc0 => exact rename_execMfc0 ρ _ _ s
  case mtc0 => exact rename_execMtc0 ρ _ _ s
  case cop2Command => exact rename_execCop2Command ρ _ s
  case mfc2 => exact rename_moveFromGte ρ _ _ s
  case cfc2 => exact rename_moveFromGte ρ _ _ s
  case cop1 | lwc1 | swc1 => exact rename_absentCop ρ 1 s
  case cop3 | lwc3 | swc3 => exact rename_absentCop ρ 3 s
  all_goals
    simp only [renameInstr, exec, execSll, execSrl, execSra, execSllv, execSrlv, execSrav, execAdd, execAddu,
      execSub, execSubu, execAnd, execOr, execXor, execNor, execSlt, execSltu, execAddi, execAddiu, execSlti,
      execSltiu, execAndi, execOri, execXori, execLui, execBeq, execBne, execBlez, execBgtz, execBltz,
      execBgez, execBltzal, execBgezal, execJ, execJal, execJr, execJalr, execMult, execMultu, execDiv,
      execDivu, execLb, execLbu, execLh, execLhu, execLw, execLwl, execLwr, execSb, execSh, execSw, execSwl,
      execSwr, execMtc2, execCtc2, writeProduct, State.rename_x, State.rename_shiftAmount,
      State.rename_branchTo, State.rename_jumpTo, State.rename_ea, State.rename_mergeOperand,
      rename_writeResult, rename_writeChecked, rename_branchResult, rename_branchAndLink,
      rename_branchAndLink_linkReg, rename_writeHilo, rename_loadWith, rename_storeWith, rename_storeMasked,
      rename_moveToGte]

end Sys2Proof.Machine
end

