-- ==== Sys2Proof/Machine/Snapshot.lean ====
section
/-! DEFINITION. The host's snapshot (70_reset_and_hazards.md R255, R256): the complete state as a versioned
list of bytes, and its restoration. The layout is not specified; this one is the model's (DESIGN CHOICE,
log entry 24). -/

namespace Sys2Proof.Machine

/-! ## Layouts -/

/-- How a value is laid out: its bytes, and the value read from the front of a list of bytes. -/
structure Codec (α : Type) where
  put : α → List Byte
  take : List Byte → Option (α × List Byte)

/-- A number in groups of 7 bits, the lowest first, bit 7 set in every byte but the last; `k + 1` groups at
most. -/
def putGroups : Nat → Nat → List Byte
  | 0, n => [BitVec.ofNat 8 n]
  | k + 1, n =>
    if n < 128 then [BitVec.ofNat 8 n] else BitVec.ofNat 8 (128 + n % 128) :: putGroups k (n / 128)

/-- The number of a list of groups. A number has longer forms, which `putGroups` does not write; `restore`
refuses them (log entry 24). -/
def takeGroups : List Byte → Option (Nat × List Byte)
  | [] => none
  | b :: rest =>
    if b.toNat < 128 then some (b.toNat, rest)
    else (takeGroups rest).map fun r => (b.toNat - 128 + 128 * r.1, r.2)

/-- A natural number. -/
def Codec.nat : Codec Nat := { put := fun n => putGroups n.log2 n, take := takeGroups }

/-- A value laid out as another one; `back` refuses what stands for no value. -/
def Codec.iso {α β : Type} (c : Codec α) (lay : β → α) (back : α → Option β) : Codec β :=
  { put := fun b => c.put (lay b)
    take := fun bs => (c.take bs).bind fun r => (back r.1).map fun b => (b, r.2) }

/-- Two values, one after the other. -/
def Codec.pair {α β : Type} (a : Codec α) (b : Codec β) : Codec (α × β) :=
  { put := fun v => a.put v.1 ++ b.put v.2
    take := fun bs => (a.take bs).bind fun r => (b.take r.2).map fun q => ((r.1, q.1), q.2) }

/-- `n` values of a list. -/
def Codec.takeMany {α : Type} (c : Codec α) : Nat → List Byte → Option (List α × List Byte)
  | 0, bs => some ([], bs)
  | n + 1, bs =>
    (c.take bs).bind fun r => (Codec.takeMany c n r.2).map fun q => (r.1 :: q.1, q.2)

/-- A list: its length, then its values. -/
def Codec.list {α : Type} (c : Codec α) : Codec (List α) :=
  { put := fun l => Codec.nat.put l.length ++ l.flatMap c.put
    take := fun bs => (Codec.nat.take bs).bind fun r => c.takeMany r.1 r.2 }

/-! ## The machine's types -/

/-- A number of `w` bits. -/
def bitsOf (w n : Nat) : Option (BitVec w) := if n < 2 ^ w then some (BitVec.ofNat w n) else none

def Codec.bits (w : Nat) : Codec (BitVec w) := Codec.nat.iso BitVec.toNat (bitsOf w)

/-- A value of a list of values, by its position. -/
def Codec.oneOf {α : Type} [DecidableEq α] (l : List α) : Codec α :=
  Codec.nat.iso (fun a => l.idxOf a) (fun n => l[n]?)

def Codec.bool : Codec Bool := Codec.oneOf [false, true]

/-- The value of a list of none or one. -/
def onlyOf {α : Type} : List α → Option (Option α)
  | [] => some none
  | [a] => some (some a)
  | _ => none

def Codec.option {α : Type} (c : Codec α) : Codec (Option α) := c.list.iso Option.toList onlyOf

/-- One of two kinds of value: none or one of each. -/
def Codec.either {α β : Type} (a : Codec α) (b : Codec β) : Codec (α ⊕ β) :=
  (a.option.pair b.option).iso
    (fun v => match v with
      | .inl x => (some x, none)
      | .inr y => (none, some y))
    (fun v => match v with
      | (some x, none) => some (.inl x)
      | (none, some y) => some (.inr y)
      | _ => none)

/-- A list of `n` values as a vector. -/
def vectorOf {α : Type} (n : Nat) (l : List α) : Option (Vector α n) :=
  if h : l.length = n then some ⟨l.toArray, by simpa using h⟩ else none

def Codec.vector {α : Type} (n : Nat) (c : Codec α) : Codec (Vector α n) :=
  c.list.iso Vector.toList (vectorOf n)

abbrev Codec.word : Codec Word := Codec.bits 32

def Codec.chanNum : Codec ChanNum := Codec.oneOf allChannels

def Codec.extDevice : Codec ExtDevice :=
  Codec.oneOf [.expansion1, .expansion2, .expansion3, .memoryControl, .padsAndSerial, .ramSize, .timers,
    .disc, .graphics, .pictureDecoder, .sound]

def Codec.devRange : Codec DevRange :=
  (Codec.nat.pair (Codec.nat.pair Codec.extDevice)).iso (fun r => (r.base, r.size, r.dev))
    (fun v => some ⟨v.1, v.2.1, v.2.2⟩)

def Codec.costRow : Codec CostRow :=
  (Codec.word.pair (Codec.word.pair Codec.nat)).iso (fun r => (r.mask, r.pattern, r.cost))
    (fun v => some ⟨v.1, v.2.1, v.2.2⟩)

def Codec.params : Codec Params :=
  ((Codec.oneOf [IeStackLevels.four, .three]).pair <|
    (Codec.oneOf [NestedBranchPolicy.firstWins, .mipsChain]).pair <|
    (Codec.oneOf [AckPolarity.oneClears, .zeroClears]).pair <| Codec.bool.pair <|
    (Codec.oneOf [HiloHazard.sequential, .undefinedAfter]).pair <| Codec.bool.pair <|
    Codec.costRow.list.pair <| Codec.nat.pair <| Codec.nat.pair <| Codec.nat.pair <| Codec.nat.pair <|
    Codec.nat.pair <| Codec.devRange.list.pair Codec.bool).iso
    (fun p => (p.ieStackLevels, p.nestedBranch, p.ackPolarity, p.gteIrqQuirk, p.hiloHazard, p.chopGapBusy,
      p.cycleCostRows, p.cycleCostOther, p.cycleCostNone, p.excEntryCost, p.dmaWordCycles, p.dmaDreqPoll,
      p.deviceMap, p.bootChecksumOn))
    (fun (a, b, c, d, e, f, g, h, i, j, k, l, m, n) => some ⟨a, b, c, d, e, f, g, h, i, j, k, l, m, n⟩)

def Codec.branchTarget : Codec BranchTarget :=
  Codec.word.option.iso
    (fun t => match t with
      | .taken a => some a
      | .notTaken => none)
    (fun v => match v with
      | some a => some (.taken a)
      | none => some .notTaken)

def Codec.branchSlot : Codec BranchSlot :=
  (Codec.branchTarget.pair Codec.word).iso (fun b => (b.target, b.bpc)) (fun v => some ⟨v.1, v.2⟩)

def Codec.loadSlot : Codec LoadSlot :=
  ((Codec.bits 5).pair Codec.word).iso (fun l => (l.reg, l.val)) (fun v => some ⟨v.1, v.2⟩)

def Codec.cop0 : Codec Cop0 :=
  (Codec.word.pair <| (Codec.bits 5).pair <| (Codec.bits 2).pair <| (Codec.bits 2).pair <| Codec.bool.pair <|
    Codec.word.pair <| Codec.word.pair <| Codec.word.pair <| Codec.word.pair <| Codec.word.pair <|
    Codec.word.pair Codec.word).iso
    (fun c => (c.sr, c.excCode, c.ipSw, c.ce, c.bd, c.epc, c.badVaddr, c.bpc, c.bda, c.dcic, c.bdam, c.bpcm))
    (fun (a, b, c, d, e, f, g, h, i, j, k, l) => some ⟨a, b, c, d, e, f, g, h, i, j, k, l⟩)

def Codec.irqCtl : Codec IrqCtl :=
  ((Codec.bits 11).pair (Codec.bits 11)).iso (fun i => (i.stat, i.mask)) (fun v => some ⟨v.1, v.2⟩)

def Codec.dmaChannel : Codec DmaChannel :=
  ((Codec.bits 24).pair <| Codec.word.pair <| Codec.word.pair <| Codec.bool.pair <| Codec.bool.pair <|
    (Codec.oneOf [DmaPhase.idle, .active, .chopWait]).pair <| (Codec.bits 24).pair <| Codec.nat.pair <|
    Codec.nat.pair (Codec.bits 24)).iso
    (fun c => (c.madr, c.bcr, c.chcr, c.madrOpen, c.bcrOpen, c.phase, c.addr, c.wordsLeft, c.blocksLeft,
      c.listPtr))
    (fun (a, b, c, d, e, f, g, h, i, j) => some ⟨a, b, c, d, e, f, g, h, i, j⟩)

def Codec.dma : Codec Dma :=
  ((Codec.vector 7 Codec.dmaChannel).pair <| Codec.word.pair <| (Codec.bits 24).pair (Codec.bits 7)).iso
    (fun d => (d.chan, d.dpcr, d.dicrCtl, d.dicrFlag)) (fun (a, b, c, d) => some ⟨a, b, c, d⟩)

def Codec.source : Codec Source :=
  (Codec.chanNum.either Codec.extDevice).iso
    (fun v => match v with
      | .dma n => .inl n
      | .ext d => .inr d)
    (fun v => match v with
      | .inl n => some (.dma n)
      | .inr d => some (.ext d))

def Codec.event : Codec Event :=
  (Codec.nat.pair <| Codec.nat.pair <| Codec.source.pair Codec.nat).iso
    (fun e => (e.target, e.seq, e.source, e.payload)) (fun (a, b, c, d) => some ⟨a, b, c, d⟩)

def Codec.sched : Codec Sched :=
  (Codec.nat.pair <| Codec.nat.pair Codec.event.list).iso (fun q => (q.cycle, q.nextSeq, q.queue))
    (fun (a, b, c) => some ⟨a, b, c⟩)

def Codec.schedRequest : Codec SchedRequest :=
  (Codec.nat.pair <| Codec.extDevice.pair Codec.nat).iso (fun r => (r.delay, r.dev, r.payload))
    (fun (a, b, c) => some ⟨a, b, c⟩)

def Codec.devAction : Codec DevAction :=
  (Codec.nat.either Codec.schedRequest).iso
    (fun v => match v with
      | .raise k => .inl k
      | .schedule r => .inr r)
    (fun v => match v with
      | .inl k => some (.raise k)
      | .inr r => some (.schedule r))

def Codec.inputs : Codec Inputs :=
  (Codec.nat.pair <| Codec.nat.list.pair <| Codec.bool.list.pair <| Codec.schedRequest.list.list.pair
    Codec.devAction.list.list).iso
    (fun i => (i.drawIndex, i.stalls, i.dreq, i.regReplies, i.evtReplies))
    (fun (a, b, c, d, e) => some ⟨a, b, c, d, e⟩)

/-- An interface call as a kind, a device and its arguments; a call to no external device has `disc` there. -/
def ExtCall.fields : ExtCall → (Nat × ExtDevice) × List Nat
  | .gteReadData n => ((0, .disc), [n.toNat])
  | .gteReadCtrl n => ((1, .disc), [n.toNat])
  | .gteWriteData n v => ((2, .disc), [n.toNat, v.toNat])
  | .gteWriteCtrl n v => ((3, .disc), [n.toNat, v.toNat])
  | .gteCommand c => ((4, .disc), [c.toNat])
  | .devRead d o n => ((5, d), [o, n])
  | .devWrite d o n v => ((6, d), [o, n, v.toNat])
  | .dmaRead n => ((7, .disc), [n.val])
  | .dmaWrite n v => ((8, .disc), [n.val, v.toNat])
  | .devEvent d p => ((9, d), [p])

/-- The interface call of a kind, a device and its arguments. Where the call is to no external device the
device is not read; `restore` refuses another than `disc` (log entry 24). -/
def ExtCall.ofFields : (Nat × ExtDevice) × List Nat → Option ExtCall
  | ((0, _), [n]) => (bitsOf 5 n).map .gteReadData
  | ((1, _), [n]) => (bitsOf 5 n).map .gteReadCtrl
  | ((2, _), [n, v]) => (bitsOf 5 n).bind fun n => (bitsOf 32 v).map (.gteWriteData n)
  | ((3, _), [n, v]) => (bitsOf 5 n).bind fun n => (bitsOf 32 v).map (.gteWriteCtrl n)
  | ((4, _), [c]) => (bitsOf 25 c).map .gteCommand
  | ((5, d), [o, n]) => some (.devRead d o n)
  | ((6, d), [o, n, v]) => (bitsOf 32 v).map (.devWrite d o n)
  | ((7, _), [n]) => allChannels[n]?.map .dmaRead
  | ((8, _), [n, v]) => allChannels[n]?.bind fun n => (bitsOf 32 v).map (.dmaWrite n)
  | ((9, d), [p]) => some (.devEvent d p)
  | _ => none

def Codec.extCall : Codec ExtCall :=
  ((Codec.nat.pair Codec.extDevice).pair Codec.nat.list).iso ExtCall.fields ExtCall.ofFields

def Codec.hiloHist : Codec HiloHist :=
  (Codec.bool.pair <| Codec.bool.pair Codec.bool).iso (fun h => (h.readLast, h.readBefore, h.mulDivOpen))
    (fun (a, b, c) => some ⟨a, b, c⟩)

def Codec.memory : Codec Memory := (Codec.nat.pair (Codec.bits 8)).list

/-- The reasons of the spec's `refuse(...)` (93_implementation_defined.md section 3). -/
def specRefusals : List Refusal :=
  [.unmodelledCop, .reverseEndian, .fetchFromDevice, .maskedDeviceWrite, .dcicEnable, .narrowDeviceAccess,
    .unmodelledDeviceReg, .dmaBusyWrite, .dmaConfig, .deviceContract]

/-- The mark, which holds one of the spec's reasons. -/
def Codec.mark : Codec (Option Refusal) := (Codec.oneOf specRefusals).option

/-- Every field of State but the mark. -/
abbrev StateFields :=
  Params × RegFile × Word × Word × Word × Option BranchSlot × Option LoadSlot × Cop0 × IrqCtl × Dma × Sched ×
    Nat × Memory × Word × HiloHist × Inputs × List ExtCall

def Codec.stateFields : Codec StateFields :=
  Codec.params.pair <| (Codec.vector 32 Codec.word).pair <| Codec.word.pair <| Codec.word.pair <|
    Codec.word.pair <| Codec.branchSlot.option.pair <| Codec.loadSlot.option.pair <| Codec.cop0.pair <|
    Codec.irqCtl.pair <| Codec.dma.pair <| Codec.sched.pair <| Codec.nat.pair <| Codec.memory.pair <|
    Codec.word.pair <| Codec.hiloHist.pair <| Codec.inputs.pair Codec.extCall.list

/-- The fields of a state. -/
def State.fields (s : State) : StateFields :=
  (s.cfg, s.regs, s.hi, s.lo, s.pc, s.bslot, s.lslot, s.cop0, s.irq, s.dma, s.sched, s.gteReady, s.mem,
    s.cacheCtrl, s.hist, s.inputs, s.calls)

/-- The state of a mark and the other fields. -/
def State.ofFields (mark : Option Refusal) : StateFields → State
  | (cfg, regs, hi, lo, pc, bslot, lslot, cop0, irq, dma, sched, gteReady, mem, cacheCtrl, hist, inputs,
      calls) =>
    { cfg, regs, hi, lo, pc, bslot, lslot, cop0, irq, dma, sched, gteReady, mem, cacheCtrl, hist, inputs,
      calls, refusedMark := mark }

/-! ## Snapshots (R255, R256) -/

/-- The version of the layout. -/
def snapshotVersion : Byte := 1

/-- What a snapshot's state must satisfy: parameters in their ranges, memory in its canonical form and within
the memory image, the stored copy of `x[0]` zero, the queue in insertion order, and as the mark a reason of
the spec (DESIGN CHOICE, log entry 24). -/
def State.snapshotOk (s : State) : Bool :=
  s.cfg.valid && s.memOk && s.imageOk && s.zeroRegOk && s.queueOk
    && s.refusedMark.all fun r => specRefusals.contains r

/-- Serialize the complete state: the version, the mark, every other field (R255). -/
def serialize (s : State) : List Byte :=
  snapshotVersion :: (Codec.mark.pair Codec.stateFields).put (s.refusedMark, s.fields)

/-- The state whose snapshot a list of bytes is. -/
def deserialize : List Byte → Option State
  | [] => none
  | v :: rest =>
    if v = snapshotVersion then
      match (Codec.mark.pair Codec.stateFields).take rest with
      | some ((mark, fields), []) => some (State.ofFields mark fields)
      | _ => none
    else none

/-- Restore a snapshot into a fresh instance; what is no snapshot is the malformed-snapshot error and leaves
the machine as it is (R20, R255, R256). DESIGN CHOICE (log entry 24): a snapshot is what `serialize` writes of
a state with `snapshotOk`, byte for byte, and every other list of bytes is malformed. -/
def restore (bytes : List Byte) : HostResult Unit :=
  match deserialize bytes with
  | some s => if s.snapshotOk && serialize s == bytes then .ok () s else .error .malformedSnapshot
  | none => .error .malformedSnapshot

end Sys2Proof.Machine
end

