-- ==== Sys2Proof/Laws/Snapshot.lean ====
section
/-! SUPPORT. Snapshots: a layout reads back what it lays out, so a restored snapshot is the state that was
serialized (70_reset_and_hazards.md R255); and host accesses, whose refusals set the mark (10_state.md
R49). -/

namespace Sys2Proof.Machine

/-! ## Layouts -/

/-- A layout reads back every value, whatever follows it. -/
structure Codec.Lawful {α : Type} (c : Codec α) : Prop where
  take_put : ∀ a rest, c.take (c.put a ++ rest) = some (a, rest)

theorem takeGroups_putGroups (k n : Nat) (rest : List Byte) (h : n < 2 ^ (k + 1)) :
    takeGroups (putGroups k n ++ rest) = some (n, rest) := by
  induction k generalizing n with
  | zero =>
    have : n % 256 = n := Nat.mod_eq_of_lt (by omega)
    simp [putGroups, takeGroups, this, show n < 128 by omega]
  | succ k ih =>
    rw [putGroups]
    split
    · have : n % 256 = n := Nat.mod_eq_of_lt (by omega)
      simp [takeGroups, this, show n < 128 by omega]
    · have hm : n % 128 < 128 := Nat.mod_lt _ (by omega)
      have : (128 + n % 128) % 256 = 128 + n % 128 := Nat.mod_eq_of_lt (by omega)
      have hn : n / 128 < 2 ^ (k + 1) := by rw [pow_succ] at h; omega
      simp only [List.cons_append, takeGroups, ih _ hn, BitVec.toNat_ofNat, Nat.reducePow, this]
      simp
      omega

theorem Codec.nat_lawful : Codec.nat.Lawful :=
  ⟨fun n rest => takeGroups_putGroups n.log2 n rest Nat.lt_log2_self⟩

namespace Codec.Lawful

variable {α β : Type} {a : Codec α} {b : Codec β}

theorem iso {lay : β → α} {back : α → Option β} (ha : a.Lawful) (h : ∀ v, back (lay v) = some v) :
    (a.iso lay back).Lawful := ⟨fun v rest => by simp [Codec.iso, ha.take_put, h]⟩

theorem pair (ha : a.Lawful) (hb : b.Lawful) : (a.pair b).Lawful :=
  ⟨fun v rest => by simp [Codec.pair, ha.take_put, hb.take_put]⟩

theorem takeMany (ha : a.Lawful) (l : List α) (rest : List Byte) :
    a.takeMany l.length (l.flatMap a.put ++ rest) = some (l, rest) := by
  induction l with
  | nil => rfl
  | cons v l ih => simp [Codec.takeMany, ha.take_put, ih]

theorem list (ha : a.Lawful) : a.list.Lawful :=
  ⟨fun l rest => by simp [Codec.list, Codec.nat_lawful.take_put, ha.takeMany]⟩

theorem option (ha : a.Lawful) : a.option.Lawful := ha.list.iso fun v => by cases v <;> rfl

theorem either (ha : a.Lawful) (hb : b.Lawful) : (a.either b).Lawful :=
  (ha.option.pair hb.option).iso fun v => by cases v <;> rfl

theorem vector (n : Nat) (ha : a.Lawful) : (Codec.vector n a).Lawful :=
  ha.list.iso fun v => by simp [vectorOf, Vector.toList]

end Codec.Lawful

namespace Codec

theorem bitsOf_toNat {w : Nat} (v : BitVec w) : bitsOf w v.toNat = some v := by simp [bitsOf, v.isLt]

theorem bits_lawful (w : Nat) : (bits w).Lawful := nat_lawful.iso bitsOf_toNat

theorem take_oneOf {α : Type} [DecidableEq α] {l : List α} {a : α} (h : a ∈ l) (rest : List Byte) :
    (oneOf l).take ((oneOf l).put a ++ rest) = some (a, rest) := by
  simp [oneOf, iso, nat_lawful.take_put, List.getElem?_eq_getElem (List.idxOf_lt_length_of_mem h)]

theorem oneOf_lawful {α : Type} [DecidableEq α] {l : List α} (h : ∀ a, a ∈ l) : (oneOf l).Lawful :=
  ⟨fun a rest => take_oneOf (h a) rest⟩

theorem bool_lawful : bool.Lawful := oneOf_lawful (by decide)

/-! ## The machine's types -/

theorem word_lawful : word.Lawful := bits_lawful 32

theorem chanNum_lawful : chanNum.Lawful := oneOf_lawful (by decide)

theorem extDevice_lawful : extDevice.Lawful := oneOf_lawful fun d => by cases d <;> decide

theorem devRange_lawful : devRange.Lawful := (nat_lawful.pair (nat_lawful.pair extDevice_lawful)).iso fun _ => rfl

theorem costRow_lawful : costRow.Lawful := (word_lawful.pair (word_lawful.pair nat_lawful)).iso fun _ => rfl

theorem params_lawful : params.Lawful :=
  ((oneOf_lawful fun v => by cases v <;> decide).pair <| (oneOf_lawful fun v => by cases v <;> decide).pair <|
    (oneOf_lawful fun v => by cases v <;> decide).pair <| bool_lawful.pair <|
    (oneOf_lawful fun v => by cases v <;> decide).pair <| bool_lawful.pair <| costRow_lawful.list.pair <|
    nat_lawful.pair <| nat_lawful.pair <| nat_lawful.pair <| nat_lawful.pair <| nat_lawful.pair <|
    devRange_lawful.list.pair bool_lawful).iso fun _ => rfl

theorem branchTarget_lawful : branchTarget.Lawful := word_lawful.option.iso fun t => by cases t <;> rfl

theorem branchSlot_lawful : branchSlot.Lawful := (branchTarget_lawful.pair word_lawful).iso fun _ => rfl

theorem loadSlot_lawful : loadSlot.Lawful := ((bits_lawful 5).pair word_lawful).iso fun _ => rfl

theorem cop0_lawful : cop0.Lawful :=
  (word_lawful.pair <| (bits_lawful 5).pair <| (bits_lawful 2).pair <| (bits_lawful 2).pair <|
    bool_lawful.pair <| word_lawful.pair <| word_lawful.pair <| word_lawful.pair <| word_lawful.pair <|
    word_lawful.pair <| word_lawful.pair word_lawful).iso fun _ => rfl

theorem irqCtl_lawful : irqCtl.Lawful := ((bits_lawful 11).pair (bits_lawful 11)).iso fun _ => rfl

theorem dmaChannel_lawful : dmaChannel.Lawful :=
  ((bits_lawful 24).pair <| word_lawful.pair <| word_lawful.pair <| bool_lawful.pair <| bool_lawful.pair <|
    (oneOf_lawful fun v => by cases v <;> decide).pair <| (bits_lawful 24).pair <| nat_lawful.pair <|
    nat_lawful.pair (bits_lawful 24)).iso fun _ => rfl

theorem dma_lawful : dma.Lawful :=
  ((dmaChannel_lawful.vector 7).pair <| word_lawful.pair <| (bits_lawful 24).pair (bits_lawful 7)).iso
    fun _ => rfl

theorem source_lawful : source.Lawful :=
  (chanNum_lawful.either extDevice_lawful).iso fun v => by cases v <;> rfl

theorem event_lawful : event.Lawful :=
  (nat_lawful.pair <| nat_lawful.pair <| source_lawful.pair nat_lawful).iso fun _ => rfl

theorem sched_lawful : sched.Lawful :=
  (nat_lawful.pair <| nat_lawful.pair event_lawful.list).iso fun _ => rfl

theorem schedRequest_lawful : schedRequest.Lawful :=
  (nat_lawful.pair <| extDevice_lawful.pair nat_lawful).iso fun _ => rfl

theorem devAction_lawful : devAction.Lawful :=
  (nat_lawful.either schedRequest_lawful).iso fun v => by cases v <;> rfl

theorem inputs_lawful : inputs.Lawful :=
  (nat_lawful.pair <| nat_lawful.list.pair <| bool_lawful.list.pair <|
    schedRequest_lawful.list.list.pair devAction_lawful.list.list).iso fun _ => rfl

theorem allChannels_getElem? (n : ChanNum) : allChannels[n.val]? = some n := by revert n; decide

theorem extCall_lawful : extCall.Lawful :=
  ((nat_lawful.pair extDevice_lawful).pair nat_lawful.list).iso fun c => by
    cases c <;> simp [ExtCall.fields, ExtCall.ofFields, bitsOf_toNat, allChannels_getElem?]

theorem hiloHist_lawful : hiloHist.Lawful :=
  (bool_lawful.pair <| bool_lawful.pair bool_lawful).iso fun _ => rfl

theorem memory_lawful : memory.Lawful := (nat_lawful.pair (bits_lawful 8)).list

theorem stateFields_lawful : stateFields.Lawful :=
  params_lawful.pair <| (word_lawful.vector 32).pair <| word_lawful.pair <| word_lawful.pair <|
    word_lawful.pair <| branchSlot_lawful.option.pair <| loadSlot_lawful.option.pair <| cop0_lawful.pair <|
    irqCtl_lawful.pair <| dma_lawful.pair <| sched_lawful.pair <| nat_lawful.pair <| memory_lawful.pair <|
    word_lawful.pair <| hiloHist_lawful.pair <| inputs_lawful.pair extCall_lawful.list

/-- The mark's layout reads back every reason of the spec. -/
theorem take_mark (m : Option Refusal) (h : m.all (fun r => specRefusals.contains r) = true)
    (rest : List Byte) : mark.take (mark.put m ++ rest) = some (m, rest) := by
  cases m with
  | none => rfl
  | some r =>
    have hr : r ∈ specRefusals := by simpa using h
    simp [mark, option, iso, list, nat_lawful.take_put, Codec.takeMany, take_oneOf hr, onlyOf]

end Codec

/-! ## The round trip (R255) -/

@[simp] theorem State.ofFields_fields (s : State) : State.ofFields s.refusedMark s.fields = s := rfl

/-- Restoring the snapshot of a state gives that state. -/
theorem restore_serialize (s : State) (h : s.snapshotOk = true) : restore (serialize s) = .ok () s := by
  have hm : s.refusedMark.all (fun r => specRefusals.contains r) = true := by
    simp only [State.snapshotOk, Bool.and_eq_true] at h; exact h.2
  have ht : (Codec.mark.pair Codec.stateFields).take
      ((Codec.mark.pair Codec.stateFields).put (s.refusedMark, s.fields)) =
        some ((s.refusedMark, s.fields), []) := by
    have hf := Codec.stateFields_lawful.take_put s.fields []
    rw [List.append_nil] at hf
    simp [Codec.pair, Codec.take_mark _ hm, hf]
  simp [restore, deserialize, serialize, ht, h]

/-- What `restore` accepts: exactly the bytes that `serialize` writes of a state with `snapshotOk` (R256). -/
theorem restore_eq_ok {bytes : List Byte} {s : State} :
    restore bytes = .ok () s ↔ s.snapshotOk = true ∧ bytes = serialize s := by
  constructor
  · intro h
    unfold restore at h
    split at h
    · split at h
      · next hs =>
        injection h with _ e
        subst e
        simp only [Bool.and_eq_true, beq_iff_eq] at hs
        exact ⟨hs.1, hs.2.symm⟩
      · cases h
    · cases h
  · rintro ⟨h, rfl⟩
    exact restore_serialize s h

/-- Every other list of bytes is the malformed-snapshot error (R20, R256). -/
theorem restore_eq_error {bytes : List Byte} (h : ∀ s, s.snapshotOk = true → bytes ≠ serialize s) :
    restore bytes = .error .malformedSnapshot := by
  have hn (s : State) : restore bytes ≠ .ok () s := fun e =>
    h s (restore_eq_ok.mp e).1 (restore_eq_ok.mp e).2
  unfold restore at hn ⊢
  split
  · next s hd =>
    split
    · next hs => exact absurd (by simp [hd, hs]) (hn s)
    · rfl
  · rfl

/-- The law of R255: a restored instance and the original one take the same steps, since they are one
state. -/
theorem restored_same (s t : State) (h : s.snapshotOk = true) (ht : restore (serialize s) = .ok () t) :
    t = s := by
  rw [restore_serialize s h] at ht; injection ht with _ e; exact e.symm

/-! ## Host accesses (R49, R255, R256) -/

@[simp] theorem State.mark_cfg (r : Refusal) (s : State) : (s.mark r).cfg = s.cfg := rfl
@[simp] theorem State.mark_regs (r : Refusal) (s : State) : (s.mark r).regs = s.regs := rfl
@[simp] theorem State.mark_hi (r : Refusal) (s : State) : (s.mark r).hi = s.hi := rfl
@[simp] theorem State.mark_lo (r : Refusal) (s : State) : (s.mark r).lo = s.lo := rfl
@[simp] theorem State.mark_pc (r : Refusal) (s : State) : (s.mark r).pc = s.pc := rfl
@[simp] theorem State.mark_bslot (r : Refusal) (s : State) : (s.mark r).bslot = s.bslot := rfl
@[simp] theorem State.mark_lslot (r : Refusal) (s : State) : (s.mark r).lslot = s.lslot := rfl
@[simp] theorem State.mark_cop0 (r : Refusal) (s : State) : (s.mark r).cop0 = s.cop0 := rfl
@[simp] theorem State.mark_irq (r : Refusal) (s : State) : (s.mark r).irq = s.irq := rfl
@[simp] theorem State.mark_dma (r : Refusal) (s : State) : (s.mark r).dma = s.dma := rfl
@[simp] theorem State.mark_sched (r : Refusal) (s : State) : (s.mark r).sched = s.sched := rfl
@[simp] theorem State.mark_gteReady (r : Refusal) (s : State) : (s.mark r).gteReady = s.gteReady := rfl
@[simp] theorem State.mark_mem (r : Refusal) (s : State) : (s.mark r).mem = s.mem := rfl
@[simp] theorem State.mark_cacheCtrl (r : Refusal) (s : State) : (s.mark r).cacheCtrl = s.cacheCtrl := rfl
@[simp] theorem State.mark_hist (r : Refusal) (s : State) : (s.mark r).hist = s.hist := rfl
@[simp] theorem State.mark_inputs (r : Refusal) (s : State) : (s.mark r).inputs = s.inputs := rfl
@[simp] theorem State.mark_calls (r : Refusal) (s : State) : (s.mark r).calls = s.calls := rfl
@[simp] theorem State.mark_refusedMark (r : Refusal) (s : State) :
    (s.mark r).refusedMark = s.refusedMark.or (some r) := rfl

/-- A mark that is set stays as it is. -/
@[simp] theorem State.mark_of_some (r q : Refusal) (s : State) (h : s.refusedMark = some q) :
    s.mark r = s := by
  rw [State.mark, h, Option.some_or, ← h]

@[simp] theorem State.mark_of_none (r : Refusal) (s : State) (h : s.refusedMark = none) :
    s.mark r = { s with refusedMark := some r } := by simp [State.mark, h]

/-- A refused host operation has set the mark, and changed nothing else. -/
theorem hostResult_refused {α : Type} (s t : State) (p : Res α) (r : Refusal)
    (h : hostResult s p = .refused r t) : p = .stop r ∧ t = s.mark r ∧ t.refusedMark.isSome = true := by
  cases p <;> simp [hostResult] at h
  obtain ⟨rfl, rfl⟩ := h
  refine ⟨rfl, rfl, ?_⟩
  cases h' : s.refusedMark <;> simp [State.mark, h']

end Sys2Proof.Machine
end

