-- ==== Sys2Proof/Tests/Slice0.lean ====
section
/-! SUPPORT. Tests. Expected results come from the spec: the example of an instruction's rule or the
vector of 95_test_vectors.md that the comment names. The second half shows, for every statement that has
hypotheses, concrete states and operands that meet them, at the ends of the ranges its clauses name. -/

namespace Sys2Proof.Tests

open Sys2Proof Sys2Proof.Machine Sys2Proof.Claims

/-! ## Helpers -/

/-- The word a vector of 95_test_vectors.md executes stands at 0x8001_0000, in kernel mode. -/
def vecPc : Word := 0x80010000

/-- A small state: `sr`, some registers, and some words of the memory image. -/
def mk (pc sr : Word) (regs : List (Reg × Word)) (words : List (Nat × Word)) : State :=
  { State.reset with
    pc := pc
    cop0 := { Cop0.reset with sr := sr }
    regs := regs.foldl (fun f p => RegFile.write f p.1 p.2) State.reset.regs
    mem := words.foldl (fun m p => Memory.writeLE m p.1 4 p.2) State.reset.mem }

/-- The state of a single-instruction vector: SR = 0x0040_0000. -/
def vec (w : Word) (regs : List (Reg × Word)) (words : List (Nat × Word) := []) : State :=
  mk vecPc 0x00400000 regs ((0x10000, w) :: words)

/-- The state after one step. -/
def next (s : State) : State :=
  match step s with
  | .next t => t
  | .refused _ => s

/-- What a step is refused for. -/
def refusal (s : State) : Option Refusal :=
  match step s with
  | .next _ => none
  | .refused r => some r

/-- Memory of the load and store vectors L1 to L24. -/
def lsWords : List (Nat × Word) := [(0xFC, 0xFFFE8180), (0x100, 0xBBAA9988), (0x104, 0x77665544)]

/-- A load or store vector: x[4] = 0x8000_0100, x[8] = 0x1122_3344. -/
def ls (w : Word) : State := vec w [(4, 0x80000100), (8, 0x11223344)] lsWords

/-- EPC, Cause, SR and `pc`. -/
def entry (s : State) : Word × Word × Word × Word := (s.cop0.epc, s.causeWord, s.cop0.sr, s.pc)

/-! ## WellFormed: the ill-formed terms are refused (R83) -/

theorem test_wf_bltz_odd : Instr.wellFormed (.bltz 8 1 3) = false := by decide
theorem test_wf_bltz_link : Instr.wellFormed (.bltz 8 16 3) = false := by decide
theorem test_wf_bgez_even : Instr.wellFormed (.bgez 8 2 3) = false := by decide
theorem test_wf_bgez_link : Instr.wellFormed (.bgez 8 17 3) = false := by decide
theorem test_wf_bltz : Instr.wellFormed (.bltz 8 30 3) = true := by decide

/-! ## Decoding: words of the rules' examples and of the vectors -/

/-- The shifts (R118 to R123; A20 to A22 for the variable ones). -/
theorem test_decode_shift :
    decode 0x00095100 = .instr (.sll 10 9 4) ∧ decode 0x00095102 = .instr (.srl 10 9 4) ∧
    decode 0x00095103 = .instr (.sra 10 9 4) ∧ decode 0x01285004 = .instr (.sllv 10 8 9) ∧
    decode 0x01285006 = .instr (.srlv 10 8 9) ∧ decode 0x01285007 = .instr (.srav 10 8 9) := by decide

/-- The three-register instructions (A1 to A14), at first bit by bit. -/
theorem test_decode_register :
    decode 0b000000_01000_01001_01010_00000_100000#32 = .instr (.add 10 8 9) ∧
    decode 0x01095021 = .instr (.addu 10 8 9) ∧ decode 0x01095022 = .instr (.sub 10 8 9) ∧
    decode 0x01095023 = .instr (.subu 10 8 9) ∧ decode 0x01095024 = .instr (.and 10 8 9) ∧
    decode 0x01095025 = .instr (.or 10 8 9) ∧ decode 0x01095026 = .instr (.xor 10 8 9) ∧
    decode 0x01095027 = .instr (.nor 10 8 9) ∧ decode 0x0109502A = .instr (.slt 10 8 9) ∧
    decode 0x0109502B = .instr (.sltu 10 8 9) := by decide

/-- The immediate instructions (A23 to A32). -/
theorem test_decode_immediate :
    decode 0b001000_01000_01010_1111111111111111#32 = .instr (.addi 10 8 0xFFFF) ∧
    decode 0x250A0001 = .instr (.addiu 10 8 1) ∧ decode 0x290AFFFF = .instr (.slti 10 8 0xFFFF) ∧
    decode 0x2D0AFFFF = .instr (.sltiu 10 8 0xFFFF) ∧ decode 0x310AFFFF = .instr (.andi 10 8 0xFFFF) ∧
    decode 0x350A8000 = .instr (.ori 10 8 0x8000) ∧ decode 0x390AFFFF = .instr (.xori 10 8 0xFFFF) ∧
    decode 0x3C0A8001 = .instr (.lui 10 0x8001) := by decide

/-- Multiply, divide, HI and LO (M1 to M19). -/
theorem test_decode_hilo :
    decode 0b000000_01000_01001_00000_00000_011000#32 = .instr (.mult 8 9) ∧
    decode 0x01090019 = .instr (.multu 8 9) ∧ decode 0x0109001A = .instr (.div 8 9) ∧
    decode 0x0109001B = .instr (.divu 8 9) ∧ decode 0x00005010 = .instr (.mfhi 10) ∧
    decode 0x00005012 = .instr (.mflo 10) ∧ decode 0x01000011 = .instr (.mthi 8) ∧
    decode 0x01000013 = .instr (.mtlo 8) := by decide

/-- Branches and jumps (B1 to B17). -/
theorem test_decode_branch :
    decode 0b000100_01000_01001_0000000000000011#32 = .instr (.beq 8 9 3) ∧
    decode 0x15090003 = .instr (.bne 8 9 3) ∧ decode 0x19000003 = .instr (.blez 8 3) ∧
    decode 0x1D000003 = .instr (.bgtz 8 3) ∧ decode 0x05000003 = .instr (.bltz 8 0 3) ∧
    decode 0x05010003 = .instr (.bgez 8 1 3) ∧ decode 0x05100003 = .instr (.bltzal 8 3) ∧
    decode 0x05110003 = .instr (.bgezal 8 3) ∧ decode 0x080048D0 = .instr (.j 0x48D0) ∧
    decode 0x0C0048D0 = .instr (.jal 0x48D0) ∧ decode 0x01000008 = .instr (.jr 8) ∧
    decode 0x0100F809 = .instr (.jalr 31 8) := by decide

/-- Every other value of the selector field is BLTZ or BGEZ by its low bit (R83). -/
theorem test_decode_regimm_selector :
    decode 0x051E0003 = .instr (.bltz 8 30 3) ∧ decode 0x05120003 = .instr (.bltz 8 18 3) ∧
    decode 0x051F0003 = .instr (.bgez 8 31 3) ∧ decode 0x050F0003 = .instr (.bgez 8 15 3) := by decide

/-- Loads and stores (L1 to L24). -/
theorem test_decode_loadstore :
    decode 0b100000_00100_01000_1111111111111100#32 = .instr (.lb 8 0xFFFC 4) ∧
    decode 0x90880001 = .instr (.lbu 8 1 4) ∧ decode 0x84880002 = .instr (.lh 8 2 4) ∧
    decode 0x94880002 = .instr (.lhu 8 2 4) ∧ decode 0x8C880000 = .instr (.lw 8 0 4) ∧
    decode 0x88880001 = .instr (.lwl 8 1 4) ∧ decode 0x98880002 = .instr (.lwr 8 2 4) ∧
    decode 0xA0880001 = .instr (.sb 8 1 4) ∧ decode 0xA4880002 = .instr (.sh 8 2 4) ∧
    decode 0xAC880004 = .instr (.sw 8 4 4) ∧ decode 0xA8880001 = .instr (.swl 8 1 4) ∧
    decode 0xB8880002 = .instr (.swr 8 2 4) := by decide

/-- System instructions (S1 to S9, R176's example) and the absent coprocessors (S15 to S19). -/
theorem test_decode_system :
    decode 0x0000000C = .instr (.syscall 0) ∧ decode 0x0048D14D = .instr (.brk 0x12345) ∧
    decode 0x40096000 = .instr (.mfc0 9 12) ∧ decode 0x40886000 = .instr (.mtc0 8 12) ∧
    decode 0b010000_1_0000000000000000000_010000#32 = .instr .rfe ∧
    decode 0x44000000 = .instr (.cop1 0) ∧ decode 0x4C000000 = .instr (.cop3 0) ∧
    decode 0xC4880000 = .instr (.lwc1 8 0 4) ∧ decode 0xE4880000 = .instr (.swc1 8 0 4) ∧
    decode 0xCC880000 = .instr (.lwc3 8 0 4) ∧ decode 0xEC880000 = .instr (.swc3 8 0 4) ∧
    decode 0xC0880000 = .instr (.lwc0 8 0 4) ∧ decode 0xE0880000 = .instr (.swc0 8 0 4) := by decide

/-- Coprocessor 2 (G1 to G10). -/
theorem test_decode_cop2 :
    decode 0b010010_00000_01000_00101_00000000000#32 = .instr (.mfc2 8 5) ∧
    decode 0x4848F800 = .instr (.cfc2 8 31) ∧ decode 0x48882800 = .instr (.mtc2 8 5) ∧
    decode 0x48C8F800 = .instr (.ctc2 8 31) ∧ decode 0xC8850008 = .instr (.lwc2 5 8 4) ∧
    decode 0xE8850008 = .instr (.swc2 5 8 4) ∧
    decode 0x4A180001 = .instr (.cop2Command 0x180001) := by decide

/-- Reserved words (S20, S21) and the coprocessor words without a row (R84). -/
theorem test_decode_refused :
    decode 0x0000003F = .reserved ∧ decode 0xFC000000 = .reserved ∧ decode 0x40400000 = .unmodelledCop 0 ∧
    decode 0x42000001 = .unmodelledCop 0 ∧ decode 0x48200000 = .unmodelledCop 2 := by decide

/-- The bytes of a word, lowest address first (R61, R76). -/
theorem test_decode_table_word :
    decodeTableWord 32 0x01095020 = some (.add 10 8 9) ∧ decodeTableWord 32 0x0000003F = none := by decide

/-! ## One step, from the vectors -/

/-- A1 -/
theorem test_add_overflow : (let t := next (vec 0x01095020 [(8, 0x7FFFFFFF), (9, 1), (10, 7)])
    (t.x 10, entry t)) = (7, 0x80010000, 0x00000030, 0x00400000, 0xBFC00180) := by decide
/-- A2 -/
theorem test_add : (next (vec 0x01095020 [(8, 0xFFFFFFFF), (9, 0xFFFFFFFF)])).x 10 = 0xFFFFFFFE := by decide
/-- A4 -/
theorem test_addu : (next (vec 0x01095021 [(8, 0x7FFFFFFF), (9, 1)])).x 10 = 0x80000000 := by decide
/-- A35: the sources are read before the write. -/
theorem test_addu_same : (next (vec 0x01084021 [(8, 0x40000000)])).x 8 = 0x80000000 := by decide
/-- A5 -/
theorem test_sub_overflow : (next (vec 0x01095022 [(8, 0x80000000), (9, 1)])).cop0.excCode = 12 := by decide
/-- A6 -/
theorem test_sub : (next (vec 0x01095022 [(8, 5), (9, 7)])).x 10 = 0xFFFFFFFE := by decide
/-- A7 -/
theorem test_subu : (next (vec 0x01095023 [(9, 1)])).x 10 = 0xFFFFFFFF := by decide
/-- A8 -/
theorem test_and : (next (vec 0x01095024 [(8, 0xF0F0F0F0), (9, 0xFF00FF00)])).x 10 = 0xF000F000 := by decide
/-- A9 -/
theorem test_or : (next (vec 0x01095025 [(8, 0xF0F0F0F0), (9, 0xFF00FF00)])).x 10 = 0xFFF0FFF0 := by decide
/-- A10 -/
theorem test_xor : (next (vec 0x01095026 [(8, 0xF0F0F0F0), (9, 0xFF00FF00)])).x 10 = 0x0FF00FF0 := by decide
/-- A11 -/
theorem test_nor : (next (vec 0x01095027 [(8, 0xF0F0F0F0), (9, 0xFF00FF00)])).x 10 = 0x000F000F := by decide
/-- A13 -/
theorem test_slt : (next (vec 0x0109502A [(8, 0xFFFFFFFF), (9, 1)])).x 10 = 1 := by decide
/-- A14 -/
theorem test_sltu : (next (vec 0x0109502B [(8, 0xFFFFFFFF), (9, 1), (10, 5)])).x 10 = 0 := by decide
/-- A16 -/
theorem test_sll : (next (vec 0x000857C0 [(8, 3)])).x 10 = 0x80000000 := by decide
/-- A17 -/
theorem test_srl : (next (vec 0x000857C2 [(8, 0x80000000)])).x 10 = 1 := by decide
/-- A18 -/
theorem test_sra : (next (vec 0x00085103 [(8, 0x80000000)])).x 10 = 0xF8000000 := by decide
/-- A20: an amount of 33 shifts by 1. -/
theorem test_sllv : (next (vec 0x01285004 [(8, 1), (9, 33)])).x 10 = 2 := by decide
/-- A21: an amount of 32 shifts by 0. -/
theorem test_srlv : (next (vec 0x01285006 [(8, 0x80000000), (9, 32)])).x 10 = 0x80000000 := by decide
/-- A22 -/
theorem test_srav : (next (vec 0x01285007 [(8, 0x80000000), (9, 31)])).x 10 = 0xFFFFFFFF := by decide
/-- A23 -/
theorem test_addi : (next (vec 0x210AFFFF [])).x 10 = 0xFFFFFFFF := by decide
/-- A24 -/
theorem test_addi_overflow : (next (vec 0x210A0001 [(8, 0x7FFFFFFF)])).cop0.excCode = 12 := by decide
/-- A25 -/
theorem test_addiu : (next (vec 0x250A0001 [(8, 0xFFFFFFFF), (10, 5)])).x 10 = 0 := by decide
/-- A26 -/
theorem test_slti : (next (vec 0x290AFFFF [(8, 0xFFFFFFFE)])).x 10 = 1 := by decide
/-- A27 -/
theorem test_sltiu : (next (vec 0x2D0AFFFF [(8, 0xFFFFFFFE)])).x 10 = 1 := by decide
/-- A29 -/
theorem test_andi : (next (vec 0x310AFFFF [(8, 0xFFFFFFFF)])).x 10 = 0x0000FFFF := by decide
/-- A30 -/
theorem test_ori : (next (vec 0x350A8000 [(8, 0x12340000)])).x 10 = 0x12348000 := by decide
/-- A31 -/
theorem test_xori : (next (vec 0x390AFFFF [(8, 0x0000FFFF), (10, 5)])).x 10 = 0 := by decide
/-- A32 -/
theorem test_lui : (next (vec 0x3C0A8001 [])).x 10 = 0x80010000 := by decide
/-- A33 -/
theorem test_register_zero : (next (vec 0x01090021 [(8, 1), (9, 2)])).x 0 = 0 := by decide

/-- M3 -/
theorem test_mult : (let t := next (vec 0x01090018 [(8, 0x80000000), (9, 0x7FFFFFFF)])
    (t.hi, t.lo)) = (0xC0000000, 0x80000000) := by decide
/-- M4 -/
theorem test_multu : (let t := next (vec 0x01090019 [(8, 0xFFFFFFFF), (9, 0xFFFFFFFF)])
    (t.hi, t.lo)) = (0xFFFFFFFE, 1) := by decide
/-- M6: the remainder has the dividend's sign. -/
theorem test_div : (let t := next (vec 0x0109001A [(8, 0xFFFFFFF9), (9, 2)])
    (t.hi, t.lo)) = (0xFFFFFFFF, 0xFFFFFFFD) := by decide
/-- M11 -/
theorem test_div_zero : (let t := next (vec 0x0109001A [(8, 0xFFFFFFFB)])
    (t.hi, t.lo)) = (0xFFFFFFFB, 1) := by decide
/-- M13 -/
theorem test_divu : (let t := next (vec 0x0109001B [(8, 0xFFFFFFFF), (9, 2)])
    (t.hi, t.lo)) = (1, 0x7FFFFFFF) := by decide
/-- M14 -/
theorem test_divu_zero : (let t := next (vec 0x0109001B [(8, 0x80000000)])
    (t.hi, t.lo)) = (0x80000000, 0xFFFFFFFF) := by decide
/-- M16 -/
theorem test_mfhi : (next { vec 0x00005010 [] with hi := 0x12345678 }).x 10 = 0x12345678 := by decide
/-- M17 -/
theorem test_mflo : (next { vec 0x00005012 [] with lo := 0x9ABCDEF0 }).x 10 = 0x9ABCDEF0 := by decide
/-- M18 -/
theorem test_mthi : (let t := next { vec 0x01000011 [(8, 0x42)] with lo := 7 }
    (t.hi, t.lo)) = (0x42, 7) := by decide
/-- M19 -/
theorem test_mtlo : (let t := next { vec 0x01000013 [(8, 0x42)] with hi := 7 }
    (t.hi, t.lo)) = (7, 0x42) := by decide

/-- The pending branch that a branch leaves. -/
def pending (s : State) : Option BranchTarget := (next s).bslot.map BranchSlot.target

/-- B1 -/
theorem test_beq : pending (vec 0x11090003 [(8, 5), (9, 5)]) = some (.taken 0x80010010) := by decide
/-- B2 -/
theorem test_beq_not : pending (vec 0x11090003 [(8, 5), (9, 6)]) = some .notTaken := by decide
/-- B10: backward. -/
theorem test_bne : pending (vec 0x1500FFFB [(8, 1)]) = some (.taken 0x8000FFF0) := by decide
/-- B4 -/
theorem test_blez : pending (vec 0x19000003 []) = some (.taken 0x80010010) := by decide
/-- B5 -/
theorem test_bgtz : pending (vec 0x1D000003 []) = some .notTaken := by decide
/-- B6 -/
theorem test_bltz : pending (vec 0x05000003 [(8, 0x80000000)]) = some (.taken 0x80010010) := by decide
/-- B7 -/
theorem test_bgez : pending (vec 0x05010003 []) = some (.taken 0x80010010) := by decide
/-- B8: it links although it is not taken. -/
theorem test_bltzal : (let s := vec 0x05100003 [(8, 1)]
    (pending s, (next s).x 31)) = (some .notTaken, 0x80010008) := by decide
/-- B9 -/
theorem test_bgezal : (let s := vec 0x05110003 [(8, 1)]
    (pending s, (next s).x 31)) = (some (.taken 0x80010010), 0x80010008) := by decide
/-- B11 -/
theorem test_j : pending (vec 0x080048D0 []) = some (.taken 0x80012340) := by decide
/-- B13 -/
theorem test_jal : (let s := vec 0x0C0048D0 []
    (pending s, (next s).x 31)) = (some (.taken 0x80012340), 0x80010008) := by decide
/-- B15 -/
theorem test_jr : pending (vec 0x03E00008 [(31, 0x80020000)]) = some (.taken 0x80020000) := by decide
/-- B17: the target is the old value of the link register. -/
theorem test_jalr : (let s := vec 0x01004009 [(8, 0x80020000)]
    (pending s, (next s).x 8)) = (some (.taken 0x80020000), 0x80010008) := by decide
/-- B2's slot: behind a branch that is not taken, `pc` goes on. -/
theorem test_slot : (let t := next { vec 0 [] with bslot := some ⟨.taken 0x80010100, 0x8000FFFC⟩ }
    (t.pc, t.bslot)) = (0x80010100, none) := by decide

/-- The load that a load leaves pending. -/
def loaded (s : State) : Option LoadSlot := (next s).lslot

/-- L1 -/
theorem test_lb : loaded (ls 0x8088FFFC) = some ⟨8, 0xFFFFFF80⟩ := by decide
/-- L2 -/
theorem test_lbu : loaded (ls 0x90880001) = some ⟨8, 0x00000099⟩ := by decide
/-- L3 -/
theorem test_lh : loaded (ls 0x84880002) = some ⟨8, 0xFFFFBBAA⟩ := by decide
/-- L4 -/
theorem test_lhu : loaded (ls 0x94880002) = some ⟨8, 0x0000BBAA⟩ := by decide
/-- L5 -/
theorem test_lw : loaded (ls 0x8C880000) = some ⟨8, 0xBBAA9988⟩ := by decide
/-- L36: DBE -/
theorem test_lw_unmapped : (next (mk vecPc 0 [(4, 0x80800000)] [(0x10000, 0x8C880000)])).causeWord
    = 0x0000001C := by decide
/-- L7 -/
theorem test_lwl : loaded (ls 0x88880001) = some ⟨8, 0x99883344⟩ := by decide
/-- L25: the merge takes the value that the LWR is about to commit. -/
theorem test_lwl_pending : loaded { ls 0x88880004 with lslot := some ⟨8, 0x11BBAA99⟩ }
    = some ⟨8, 0x44BBAA99⟩ := by decide
/-- L12 -/
theorem test_lwr : loaded (ls 0x98880002) = some ⟨8, 0x1122BBAA⟩ := by decide
/-- L14 -/
theorem test_sb : (next (ls 0xA0880001)).mem.readLE 0x100 4 = 0xBBAA4488 := by decide
/-- L34: AdES -/
theorem test_sb_user : (let t := next (mk 0x10000 2 [(4, 0xA0000100)] [(0x10000, 0xA0880000)])
    (t.cop0.badVaddr, entry t)) = (0xA0000100, 0x00010000, 0x00000014, 0x00000008, 0x80000080) := by decide
/-- L15 -/
theorem test_sh : (next (ls 0xA4880002)).mem.readLE 0x100 4 = 0x33449988 := by decide
/-- L16 -/
theorem test_sw : (next (ls 0xAC880004)).mem.readLE 0x104 4 = 0x11223344 := by decide
/-- L43: isolated -/
theorem test_sw_isolated : (let t := next (mk vecPc 0x00010000 [(4, 0x80000100), (8, 1)]
    [(0x100, 0xBBAA9988), (0x10000, 0xAC880000)])
    (t.mem.readLE 0x100 4, t.pc)) = (0xBBAA9988, 0x80010004) := by decide
/-- L18 -/
theorem test_swl : (next (ls 0xA8880001)).mem.readLE 0x100 4 = 0xBBAA1122 := by decide
/-- L22 -/
theorem test_swr : (next (ls 0xB8880001)).mem.readLE 0x100 4 = 0x22334488 := by decide
/-- L27: the slot's own write wins over the pending load. -/
theorem test_load_discarded : (next { vec 0x24080007 [] with lslot := some ⟨8, 0x22222222⟩ }).x 8 = 7 := by
  decide
/-- L28: a new load of the same register cancels the pending one. -/
theorem test_load_cancelled : (next { ls 0x8C880004 with lslot := some ⟨8, 0xAAAA⟩ }).x 8
    = 0x11223344 := by decide

/-- S1 -/
theorem test_syscall : entry (next (mk vecPc 1 [] [(0x10000, 0x0000000C)]))
    = (0x80010000, 0x00000020, 0x00000004, 0x80000080) := by decide
/-- S3: in a delay slot. -/
theorem test_syscall_slot : entry (next { mk 0x80010004 0xD [] [(0x10004, 0x0000000C)] with
      bslot := some ⟨.taken 0x80010100, 0x80010000⟩ })
    = (0x80010000, 0x80000020, 0x00000034, 0x80000080) := by decide
/-- S2 -/
theorem test_break : entry (next (vec 0x0000000D []))
    = (0x80010000, 0x00000024, 0x00400000, 0xBFC00180) := by decide
/-- S6 -/
theorem test_mfc0 : loaded (vec 0x40097800 []) = some ⟨9, 2⟩ := by decide
/-- S14 -/
theorem test_mfc0_user : entry (next (mk 0x10000 2 [] [(0x10000, 0x40096000)]))
    = (0x00010000, 0x0000002C, 0x00000008, 0x80000080) := by decide
/-- S4 -/
theorem test_mtc0 : (next (mk vecPc 0 [(8, 0xFFFFFFFF)] [(0x10000, 0x40886000)])).cop0.sr
    = 0xF247FFFF := by decide
/-- S5 -/
theorem test_mtc0_cause : (next (vec 0x40886800 [(8, 0xFFFFFFFF)])).causeWord = 0x00000300 := by decide
/-- S12 -/
theorem test_rfe : (next (mk vecPc 0xE4 [] [(0x10000, 0x42000010)])).cop0.sr = 0xF9 := by decide
/-- S9 -/
theorem test_rfe_three : (let s := mk vecPc 0x3C [] [(0x10000, 0x42000010)]
    (next { s with cfg := { s.cfg with ieStackLevels := .three } }).cop0.sr) = 0x3F := by decide
/-- S15 -/
theorem test_cop1 : (next (vec 0x44000000 [])).causeWord = 0x1000002C := by decide
/-- S22 -/
theorem test_cop1_usable : refusal (mk vecPc 0x20000000 [] [(0x10000, 0x44000000)])
    = some .unmodelledCop := by decide
/-- S16 -/
theorem test_cop3 : (next (vec 0x4C000000 [])).causeWord = 0x3000002C := by decide
/-- S17, R184 -/
theorem test_lwc1 : (next (vec 0xC4880000 [])).causeWord = 0x1000002C := by decide
theorem test_swc1 : (next (vec 0xE4880000 [])).causeWord = 0x1000002C := by decide
/-- S18, R185 -/
theorem test_lwc3 : (next (vec 0xCC880000 [])).causeWord = 0x3000002C := by decide
theorem test_swc3 : (next (vec 0xEC880000 [])).causeWord = 0x3000002C := by decide
/-- S19, R186 -/
theorem test_lwc0 : refusal (vec 0xC0880000 []) = some .unmodelledCop := by decide
theorem test_swc0 : refusal (vec 0xE0880000 []) = some .unmodelledCop := by decide
/-- S20 -/
theorem test_reserved : (next (vec 0x0000003F [])).causeWord = 0x00000028 := by decide

/-- A vector of coprocessor 2: SR.CU2 = 1. -/
def cop2 (w : Word) : State := mk vecPc 0x40000000 [(4, 0x80000100), (8, 0x1234)]
  [(0x108, 0x12345678), (0x10000, w)]

/-- G2, and G1 with SR.CU2 = 0 -/
theorem test_mfc2 : (next (cop2 0x48082800)).calls = [.gteReadData 5] := by decide
theorem test_mfc2_unusable : (let t := next (vec 0x48082800 []); (t.causeWord, t.calls))
    = (0x2000002C, []) := by decide
/-- G3 -/
theorem test_cfc2 : (next (cop2 0x4848F800)).calls = [.gteReadCtrl 31] := by decide
/-- G4 -/
theorem test_mtc2 : (next (cop2 0x48882800)).calls = [.gteWriteData 5 0x1234] := by decide
/-- G5 -/
theorem test_ctc2 : (next (cop2 0x48C8F800)).calls = [.gteWriteCtrl 31 0x1234] := by decide
/-- G6 -/
theorem test_lwc2 : (next (cop2 0xC8850008)).calls = [.gteWriteData 5 0x12345678] := by decide
/-- G7 -/
theorem test_lwc2_misaligned : (let t := next (cop2 0xC885000A); (t.cop0.badVaddr, t.calls))
    = (0x8000010A, []) := by decide
/-- G8 -/
theorem test_swc2 : (next (cop2 0xE8850008)).calls = [.gteReadData 5] := by decide
/-- G9: the command waits four cycles and costs one. -/
theorem test_cop2_command : (let t := next { cop2 0x4A180001 with gteReady := 4 }
    (t.calls, t.sched.cycle)) = ([.gteCommand 0x180001], 5) := by decide

/-- I1: the interrupt step. -/
theorem test_interrupt : entry (next { mk 0x80010004 0x401 [] [] with irq := { stat := 4, mask := 4 } })
    = (0x80010004, 0x00000400, 0x00000404, 0x80000080) := by decide
/-- I7 and I8 -/
theorem test_acknowledge : (let s := { vec 0xAC880000 [(4, 0x1F801070), (8, 4)] with
      irq := { stat := 0xD, mask := 0 } }
    ((next s).irq.stat, (next { s with cfg := { s.cfg with ackPolarity := .zeroClears } }).irq.stat))
    = (9, 4) := by decide
/-- I10 -/
theorem test_narrow : refusal (vec 0x90880000 [(4, 0x1F801070)]) = some .narrowDeviceAccess := by decide
/-- D2: the refused direction. -/
theorem test_dma_config : refusal (let s := vec 0xAC880000 [(4, 0x1F8010A8), (8, 0x01000400)]
    { s with dma := { s.dma with dpcr := 0x07654B21 } }) = some .dmaConfig := by decide

/-- D1: channel 6 after the step that starts it. -/
def otc : State :=
  (mk vecPc 0 [] []).setChan 6 { DmaChannel.reset with
    madr := 0x100010, bcr := 4, chcr := 0x01000000, phase := .active, addr := 0x100010, wordsLeft := 4 }
    |>.schedule 0 (.dma 6) 0

/-- D1: the words that the event writes. -/
theorem test_otc : (let t := next { otc with dma := { otc.dma with dicrCtl := 0xC00000 } }
    (t.mem.readLE 0x100010 4, t.mem.readLE 0x100004 4, t.dicrWord, t.irq.stat, t.sched.cycle))
    = (0x0010000C, 0x00FFFFFF, 0xC0C00000, 8, 4) := by decide

/-- T1's order of two events with one target. -/
theorem test_fifo : (let s := ((State.reset.schedule 3 (.ext .timers) 1).schedule 3 (.ext .timers) 3).addCycles 3
    (next s).calls) = [.devEvent .timers 1] := by decide

/-- The invariants hold after reset. -/
theorem test_reset_good : State.reset.good = true := by decide
/-- A word placed for the first fetch after reset runs (log entry 14). -/
theorem test_withFetchWord : (next (State.reset.withFetchWord 32 0x3C0A8001)).x 10 = 0x80010000 := by decide

/-- A snapshot of the state after reset restores it (R255). -/
theorem test_snapshot : restore (serialize State.reset) = .ok () State.reset :=
  restore_serialize _ (by decide)
/-- Malformed snapshots (R20, R256): no bytes, and a version of none. -/
theorem test_malformed : restore [] = .error .malformedSnapshot ∧
    restore [0] = .error .malformedSnapshot := ⟨rfl, rfl⟩
/-- An overlong number, which `serialize` never writes, and its shortest form read alike (log entry 24). -/
theorem test_overlong_number : takeGroups [0x80, 0] = some (0, []) ∧ Codec.nat.put 0 = [0] := by decide
/-- The assembler's names of registers (R23). -/
theorem test_register_names : (registerName 0, registerName 8, registerName 29, registerName linkReg) =
    ("zero", "t0", "sp", "ra") := by decide

/-- What a host bus read gives: its value, its error or the mark it leaves. -/
def hostRead (va : Word) (w : Width) (s : State) : Option Word × Option HostError × Option Refusal :=
  match hostBusRead va w s with
  | .ok v _ => (some v, none, none)
  | .error e => (none, some e, none)
  | .refused _ t => (none, none, t.refusedMark)

/-- A read at the end of an image of RAM goes on in the next, and at the end of the last one is a host error
(R56, log entry 23). -/
theorem test_host_read :
    (let s := mk 0 0 [] [(0, 0x11223344), (0x1FFFFC, 0xBBAA9988)];
      [hostRead 0x1FFFFE .word s, hostRead 0x3FFFFF .half s, hostRead 0x7FFFFF .half s]) =
      [(some 0x3344BBAA, none, none), (some 0x44BB, none, none), (none, some .unmapped, none)] := by decide

/-- An Unmapped address is a host error (R255), and a refusal sets the mark (R49, R215). -/
theorem test_host_error : [hostRead 0x00800000 .word State.reset, hostRead 0x1F801070 .byte State.reset] =
    [(none, some .unmapped, none), (none, none, some .narrowDeviceAccess)] := by decide

/-! ## Witnesses: states and operands that meet the hypotheses of the statements -/

theorem reaches_of {s : State} {va : Word} {w : Width}
    (h : va.toNat % w.bytes = 0 ∧ ¬ (inUserMode s ∧ va.getLsbD 31 = true) ∧
      ¬ (inUserMode s ∧ s.cop0.sr.getLsbD 25 = true) ∧ s.isolated va = false) : Reaches s va w :=
  ⟨h.1, h.2.1, h.2.2.1, h.2.2.2⟩

/-- A kernel-mode state whose x[4] is `a`. -/
def at4 (a : Word) : State := mk vecPc 0x40000000 [(4, a), (8, 0x11223344)] []

/-- A user-mode state whose x[4] is `a`. -/
def user4 (a : Word) : State := mk 0x10000 0x40000002 [(4, a)] []

theorem witness_StepRunsDecodedInstruction :
    AtInstruction (vec 0x3C0A8001 []) ∧ fetched (vec 0x3C0A8001 []) = some 0x3C0A8001 ∧
      decodeBytes (bytesOfWord 0x3C0A8001) = .ok (.instr (.lui 10 0x8001), []) ∧
      Instr.wellFormed (.lui 10 0x8001) = true :=
  ⟨⟨rfl, by decide, by decide⟩, by decide, by rfl, rfl⟩

theorem witness_DecodeOfEncode : Instr.wellFormed (.bltz 8 14 3) = true ∧
    Instr.wellFormed (.bltz 8 18 3) = true ∧ Instr.wellFormed (.bgez 8 15 3) = true ∧
    Instr.wellFormed (.bgez 8 19 3) = true ∧ Instr.wellFormed (.cop2Command 0x1FFFFFF) = true := by decide

theorem witness_EncodeOfDecode : decode 0x03E95100 = .instr (.sll 10 9 4) ∧
    0x03E95100 &&& significant (.sll 10 9 4) = encode (.sll 10 9 4) := by decide

theorem witness_WordsOutsideTheTable :
    decode 0x50000000 = .reserved ∧ decode 0x00000001 = .reserved ∧ decode 0x0000003F = .reserved ∧
    (let w : Word := 0x40200000;
      w.extractLsb' 26 6 = 16#6 ∧ ¬ (w.getLsbD 25 = true ∧ w.extractLsb' 0 6 = 0x10#6) ∧
        ¬ (w.getLsbD 25 = false ∧ (w.extractLsb' 21 5 = 0#5 ∨ w.extractLsb' 21 5 = 4#5))) ∧
    (let w : Word := 0x48200000;
      w.extractLsb' 26 6 = 18#6 ∧ w.getLsbD 25 = false ∧ ¬ (w.extractLsb' 21 5 = 0#5 ∨
        w.extractLsb' 21 5 = 2#5 ∨ w.extractLsb' 21 5 = 4#5 ∨ w.extractLsb' 21 5 = 6#5)) ∧
    (inUserMode (user4 0) ∧ (user4 0).cop0.sr.getLsbD 28 = false) ∧
    ¬ (inUserMode (at4 0) ∧ (at4 0).cop0.sr.getLsbD 28 = false) ∧
    (vec 0 []).cop0.sr.getLsbD 30 = false ∧ (at4 0).cop0.sr.getLsbD 30 = true := by decide

theorem witness_CheckedArithmetic :
    (let s := vec 0 [(8, 0x7FFFFFFE), (9, 1)]; (s.x 8).toInt + (s.x 9).toInt = 2147483647) ∧
    (let s := vec 0 [(8, 0x7FFFFFFF), (9, 1)]; (s.x 8).toInt + (s.x 9).toInt = 2147483648) ∧
    (let s := vec 0 [(8, 0x80000001), (9, 1)]; (s.x 8).toInt - (s.x 9).toInt = -2147483648) ∧
    (let s := vec 0 [(8, 0x80000000), (9, 1)]; (s.x 8).toInt - (s.x 9).toInt = -2147483649) := by decide

theorem witness_ProductInHiLo : NoHazard (vec 0 [(8, 0x80000000), (9, 0x80000000)]) := .inl rfl

theorem witness_QuotientAndRemainder :
    (NoHazard (vec 0 [(8, 5)]) ∧ (vec 0 [(8, 5)]).x 9 = 0) ∧
    (let s := vec 0 [(8, 0x80000000), (9, 0xFFFFFFFF)];
      NoHazard s ∧ s.x 8 = 0x80000000 ∧ s.x 9 = 0xFFFFFFFF) ∧
    (let s := vec 0 [(8, 0x80000000), (9, 1)];
      NoHazard s ∧ s.x 9 ≠ 0 ∧ ¬ (s.x 8 = 0x80000000 ∧ s.x 9 = 0xFFFFFFFF)) :=
  ⟨⟨.inl rfl, by decide⟩, ⟨.inl rfl, by decide, by decide⟩, ⟨.inl rfl, by decide, by decide⟩⟩

theorem witness_HiLoMoves : NoHazard (vec 0 [(8, 1)]) ∧
    ((vec 0 [(8, 1)]).cfg.hiloHazard = .sequential ∨ (vec 0 [(8, 1)]).hist.mulDivOpen = false) :=
  ⟨.inl rfl, .inl rfl⟩

/-- A state with HILO_HAZARD = UNDEFINED and a history. -/
def hazard (last before open' : Bool) : State :=
  { vec 0 [(8, 1)] with
    cfg := { State.reset.cfg with hiloHazard := .undefinedAfter }
    hist := { readLast := last, readBefore := before, mulDivOpen := open' } }

theorem witness_HiLoHazard :
    (hazard true false true).cfg.hiloHazard = .undefinedAfter ∧ (hazard true false true).hist.readLast = true ∧
    (hazard false true true).hist.readBefore = true ∧ (hazard false false true).hist.readLast = false ∧
    (hazard false false true).hist.readBefore = false ∧ (hazard false false true).hist.mulDivOpen = true := by
  decide

theorem witness_ConditionalBranches :
    (0x8000FFF0 : Word) = (vec 0 []).pc + 4#32 + ((0xFFFB : Half).signExtend 32 <<< 2) ∧
    ((14 : Reg).toNat % 2 = 0 ∧ (14 : Reg) ≠ 16) ∧ ((19 : Reg).toNat % 2 = 1 ∧ (19 : Reg) ≠ 17) := by decide

theorem witness_JumpsAndLinks :
    (0x80010010 : Word) = (vec 0 []).pc + 4#32 + ((3 : Half).signExtend 32 <<< 2) ∧
    (0x80012340 : Word) =
      (((vec 0 []).pc + 4#32) &&& 0xF0000000#32) ||| ((0x48D0 : BitVec 26).setWidth 32 <<< 2) := by decide

/-- A state whose next instruction stands in the slot of a taken branch. -/
def inSlot (b : BranchTarget) : State := { vec 0 [(8, 1)] with bslot := some ⟨b, 0x8000FFFC⟩ }

theorem witness_DelaySlotLaw :
    ((inSlot (.taken 0x80010100)).bslot = some ⟨.taken 0x80010100, 0x8000FFFC⟩ ∧
      ∃ t, exec (.addu 9 8 8) (inSlot (.taken 0x80010100)) = .next t) ∧
    ((inSlot .notTaken).bslot = some ⟨.notTaken, 0x8000FFFC⟩ ∧
      ∃ t, exec (.syscall 0) (inSlot .notTaken) = .next t) :=
  ⟨⟨rfl, _, rfl⟩, ⟨rfl, _, rfl⟩⟩

theorem witness_OnlyTheDestinationChanges : ∃ t,
    exec (.addu 9 8 8) { vec 0 [(8, 1)] with lslot := some ⟨8, 5⟩ } = .next t ∧
      destination (.addu 9 8 8) ≠ some 8 ∧ destination (.addu 9 8 8) ≠ some 7 := ⟨_, rfl, by decide, by decide⟩

/-- A step from reset has a next state, and reset meets every invariant: the witness of the statements
about every step. -/
theorem witness_step : ∃ t, step State.reset = .next t :=
  ⟨next State.reset, by rfl⟩

theorem witness_RegisterZero : State.reset.zeroRegOk = true ∧ ∃ t, step State.reset = .next t :=
  ⟨by decide, witness_step⟩

theorem witness_MemoryFormKept : State.reset.memOk = true ∧ State.reset.imageOk = true ∧
    (vec 0 [] lsWords).memOk = true ∧ (vec 0 [] lsWords).imageOk = true := by decide

theorem witness_BiosUnchanged : State.reset.memOk = true ∧ ∃ t, step State.reset = .next t :=
  ⟨by decide, witness_step⟩

theorem witness_ReservedBitsKept : (∃ t, step State.reset = .next t) ∧ State.reset.srOk = true ∧
    State.reset.dmaRegsOk = true := ⟨witness_step, by decide, by decide⟩

theorem witness_PendingBranchBeforePc : (∃ t, step State.reset = .next t) ∧
    State.reset.slotOk = true ∧ (inSlot .notTaken).slotOk = true := ⟨witness_step, by decide, by decide⟩

theorem witness_EventQueueKept : (∃ t, step otc = .next t) ∧ otc.queueOk = true ∧ otc.dmaQueueOk = true :=
  ⟨⟨next otc, by rfl⟩, by decide, by decide⟩

theorem witness_CycleNeverDecreases : ∃ t, step otc = .next t := ⟨next otc, by rfl⟩

/-- The ends of RAM's first image, for a byte, a half-word and a word, then SCRATCH and BIOS. -/
theorem witness_LoadsFromMemory :
    (Reaches (at4 0x801FFFFF) (eaOf (at4 0x801FFFFF) 4 0) .byte ∧
      ((at4 0x801FFFFF).region (eaOf (at4 0x801FFFFF) 4 0)).key = some 0x1FFFFF) ∧
    (Reaches (at4 0x801FFFFE) (eaOf (at4 0x801FFFFE) 4 0) .half ∧
      ((at4 0x801FFFFE).region (eaOf (at4 0x801FFFFE) 4 0)).key = some 0x1FFFFE) ∧
    (Reaches (at4 0x80200000) (eaOf (at4 0x80200000) 4 0xFFFC) .word ∧
      ((at4 0x80200000).region (eaOf (at4 0x80200000) 4 0xFFFC)).key = some 0x1FFFFC) ∧
    (Reaches (at4 0x1F8003FC) (eaOf (at4 0x1F8003FC) 4 0) .word ∧
      ((at4 0x1F8003FC).region (eaOf (at4 0x1F8003FC) 4 0)).key = some 0x1F8003FC) ∧
    (Reaches (at4 0xBFC00000) (eaOf (at4 0xBFC00000) 4 0) .word ∧
      ((at4 0xBFC00000).region (eaOf (at4 0xBFC00000) 4 0)).key = some 0x1FC00000) :=
  ⟨⟨reaches_of (by decide), by decide⟩, ⟨reaches_of (by decide), by decide⟩,
    ⟨reaches_of (by decide), by decide⟩, ⟨reaches_of (by decide), by decide⟩,
    ⟨reaches_of (by decide), by decide⟩⟩

/-- With a pending load of the same register, and without; at byte 0 and at byte 3 of a word. -/
theorem witness_UnalignedLoads :
    (let s := { at4 0x80000100 with lslot := some ⟨8, 5⟩ };
      eaOf s 4 3 = 0x80000103 ∧ (s.region (wordOf (eaOf s 4 3))).key = some 0x100 ∧
        Reaches s (wordOf (eaOf s 4 3)) .word ∧ s.lslot = some ⟨8, 5⟩) ∧
    (let s := at4 0x80000100;
      eaOf s 4 0 = 0x80000100 ∧ (s.region (wordOf (eaOf s 4 0))).key = some 0x100 ∧
        Reaches s (wordOf (eaOf s 4 0)) .word ∧ ∀ v, s.lslot ≠ some ⟨8, v⟩) :=
  ⟨⟨by decide, by decide, reaches_of (by decide), rfl⟩,
    ⟨by decide, by decide, reaches_of (by decide), fun _ h => by cases h⟩⟩

/-- With no pending load, with one of the target register, and with one that leaves the base as it is. -/
theorem witness_UnalignedPairLoadsWord :
    (let s := at4 0x80000101;
      eaOf s 4 3 = eaOf s 4 0 + 3 ∧ s.lslot = none ∧ (s.region (wordOf (eaOf s 4 0))).key.isSome ∧
        (s.region (wordOf (eaOf s 4 0 + 3))).key.isSome) ∧
    (∀ l ∈ [LoadSlot.mk 8 5, ⟨9, 5⟩, ⟨4, 0x80000101⟩], ∀ v : Word,
      some l = some ⟨4, v⟩ → (4 : Reg) = 0 ∨ (4 : Reg) = 8 ∨ v = (at4 0x80000101).x 4) ∧
    Reaches (at4 0x80000101) (wordOf (eaOf (at4 0x80000101) 4 0)) .word ∧
    Reaches (at4 0x80000101) (wordOf (eaOf (at4 0x80000101) 4 0 + 3)) .word :=
  ⟨by decide, by
    intro l hl v e
    simp only [List.mem_cons, List.not_mem_nil, or_false] at hl
    rcases hl with rfl | rfl | rfl <;> cases e
    exact .inr (.inr (by decide)), reaches_of (by decide), reaches_of (by decide)⟩

theorem witness_StoresToMemory :
    (((at4 0x801FFFFF).region (eaOf (at4 0x801FFFFF) 4 0)).storeKey = some 0x1FFFFF ∧
      Reaches (at4 0x801FFFFF) (eaOf (at4 0x801FFFFF) 4 0) .byte ∧ (at4 0x801FFFFF).memOk = true) ∧
    (((at4 0x1F8003FE).region (eaOf (at4 0x1F8003FE) 4 0)).storeKey = some 0x1F8003FE ∧
      Reaches (at4 0x1F8003FE) (eaOf (at4 0x1F8003FE) 4 0) .half) ∧
    (((at4 0xA0000000).region (eaOf (at4 0xA0000000) 4 0)).storeKey = some 0 ∧
      Reaches (at4 0xA0000000) (eaOf (at4 0xA0000000) 4 0) .word) :=
  ⟨⟨by decide, reaches_of (by decide), by decide⟩, ⟨by decide, reaches_of (by decide)⟩,
    ⟨by decide, reaches_of (by decide)⟩⟩

theorem witness_UnalignedStores :
    (let s := at4 0x801FFFFF;
      (eaOf s 4 0).toNat % 4 = 3 ∧ (s.region (wordOf (eaOf s 4 0))).storeKey = some 0x1FFFFC ∧
        s.memOk = true) ∧
    Reaches (at4 0x801FFFFF) (wordOf (eaOf (at4 0x801FFFFF) 4 0)) .word :=
  ⟨by decide, reaches_of (by decide)⟩

/-- A state with cache isolation on. -/
def isolated4 (a : Word) : State := mk vecPc 0x00010000 [(4, a)] []

theorem witness_AccessesThatReachNoMemory :
    (¬ (inUserMode (isolated4 0x80000100) ∧ (eaOf (isolated4 0x80000100) 4 0).getLsbD 31 = true) ∧
      ¬ (inUserMode (isolated4 0x80000100) ∧ (isolated4 0x80000100).cop0.sr.getLsbD 25 = true) ∧
      (isolated4 0x80000100).isolated (eaOf (isolated4 0x80000100) 4 0) = true ∧
      (eaOf (isolated4 0x80000100) 4 0).toNat % 4 = 0 ∧ (eaOf (isolated4 0x80000100) 4 2).toNat % 2 = 0 ∧
      (eaOf (isolated4 0x80000100) 4 3).toNat % 4 = 3) ∧
    (at4 0xBFC7FFFF).region (eaOf (at4 0xBFC7FFFF) 4 0) = .bios 0x7FFFF := by decide

theorem witness_CacheControlIsStorage :
    (wordOf (eaOf (at4 0xFFFE0130) 4 0) = 0xFFFE0130 ∧ (eaOf (at4 0xFFFE0130) 4 0).toNat % 4 = 0) ∧
    (wordOf (eaOf (at4 0xFFFE0130) 4 3) = 0xFFFE0130 ∧ (eaOf (at4 0xFFFE0130) 4 3).toNat % 4 = 3) ∧
    ¬ inUserMode (at4 0xFFFE0130) := by decide

theorem witness_AddressErrors :
    (eaOf (at4 0x80000100) 4 1).toNat % 2 ≠ 0 ∧ (eaOf (at4 0x80000100) 4 2).toNat % 4 ≠ 0 ∧
    (at4 0).cop0.sr.getLsbD 30 = true ∧ inUserMode (user4 0x80000000) ∧
    (eaOf (user4 0x80000000) 4 0).getLsbD 31 = true ∧ (user4 0).cop0.sr.getLsbD 30 = true := by decide

/-- At the first address beyond the RAM mirrors. -/
theorem witness_DataBusErrors :
    (let s := at4 0x80800000;
      s.region (eaOf s 4 0) = .unmapped ∧ s.region (wordOf (eaOf s 4 0)) = .unmapped ∧
        s.cop0.sr.getLsbD 30 = true) ∧
    Reaches (at4 0x80800000) (eaOf (at4 0x80800000) 4 0) .byte ∧
    Reaches (at4 0x80800000) (eaOf (at4 0x80800000) 4 0) .half ∧
    Reaches (at4 0x80800000) (eaOf (at4 0x80800000) 4 0) .word :=
  ⟨by decide, reaches_of (by decide), reaches_of (by decide), reaches_of (by decide)⟩

theorem witness_ReverseEndianRefused :
    (let s := mk 0x10000 0x42000002 [(4, 0x7FFFFFFC)] [];
      inUserMode s ∧ s.cop0.sr.getLsbD 25 = true ∧ s.cop0.sr.getLsbD 30 = true ∧ (eaOf s 4 0).getLsbD 31 = false ∧
        (eaOf s 4 0).toNat % 2 = 0 ∧ (eaOf s 4 0).toNat % 4 = 0) := by decide

/-- The last byte, half-word and word of expansion region 1. -/
theorem witness_DeviceAccesses :
    ((at4 0x1F7FFFFF).region (eaOf (at4 0x1F7FFFFF) 4 0) = .device .expansion1 0x7FFFFF ∧
      (at4 0x1F7FFFFF).inputs.regReplies = [] ∧
      Reaches (at4 0x1F7FFFFF) (eaOf (at4 0x1F7FFFFF) 4 0) .byte) ∧
    ((at4 0x1F7FFFFE).region (eaOf (at4 0x1F7FFFFE) 4 0) = .device .expansion1 0x7FFFFE ∧
      Reaches (at4 0x1F7FFFFE) (eaOf (at4 0x1F7FFFFE) 4 0) .half) ∧
    ((at4 0x1F7FFFFC).region (eaOf (at4 0x1F7FFFFC) 4 0) = .device .expansion1 0x7FFFFC ∧
      Reaches (at4 0x1F7FFFFC) (eaOf (at4 0x1F7FFFFC) 4 0) .word) :=
  ⟨⟨by decide, rfl, reaches_of (by decide)⟩, ⟨by decide, reaches_of (by decide)⟩,
    ⟨by decide, reaches_of (by decide)⟩⟩

/-- The first and the last address of each range (R54, R56, R57), through KSEG0 and KSEG1. -/
theorem witness_AddressMap :
    (let r := State.reset.region;
      r 0x80000000 = .ram 0 ∧ r 0x807FFFFF = .ram 0x1FFFFF ∧ r 0x80800000 = .unmapped ∧
      r 0x9EFFFFFF = .unmapped ∧ r 0x9F000000 = .device .expansion1 0 ∧
      r 0x9F7FFFFF = .device .expansion1 0x7FFFFF ∧ r 0x9F800000 = .scratch 0 ∧
      r 0x9F8003FF = .scratch 0x3FF ∧ r 0xBF800000 = .unmapped ∧ r 0xBF8003FF = .unmapped ∧
      r 0x9F800400 = .unmapped ∧ r 0x9F800FFF = .unmapped ∧ r 0x1F801070 = .irqCtl 0 ∧
      r 0x1F801077 = .irqCtl 7 ∧ r 0x1F801080 = .dmaCtl 0 ∧ r 0x1F8010FF = .dmaCtl 0x7F ∧
      r 0x9F803000 = .unmapped ∧ r 0x9F9FFFFF = .unmapped ∧ r 0x9FA00000 = .device .expansion3 0 ∧
      r 0x9FBFFFFF = .device .expansion3 0x1FFFFF ∧ r 0xBFC00000 = .bios 0 ∧
      r 0xBFC7FFFF = .bios 0x7FFFF ∧ r 0xBFC80000 = .unmapped ∧ r 0xBFFFFFFF = .unmapped ∧
      r 0x20000000 = .unmapped ∧ r 0x7FFFFFFF = .unmapped ∧ r 0xFFFE0130 = .cacheCtrl ∧
      r 0xFFFE0133 = .cacheCtrl ∧ r 0xFFFE0134 = .unmapped ∧ r 0xC0000000 = .unmapped) := by decide

/-- The first and the last address of each row of the default DEVICE_MAP and of the gaps (R57). -/
theorem witness_AddressMap_devices : State.reset.cfg.deviceMap = defaultDeviceMap ∧
    (let r := State.reset.region;
      r 0x1F801000 = .device .memoryControl 0 ∧ r 0x1F801023 = .device .memoryControl 0x23 ∧
      r 0x1F801024 = .unmapped ∧ r 0x1F80103F = .unmapped ∧
      r 0x1F801040 = .device .padsAndSerial 0 ∧ r 0x1F80105F = .device .padsAndSerial 0x1F ∧
      r 0x1F801060 = .device .ramSize 0 ∧ r 0x1F801063 = .device .ramSize 3 ∧
      r 0x1F801064 = .unmapped ∧ r 0x1F80106F = .unmapped ∧ r 0x1F801078 = .unmapped ∧
      r 0x1F80107F = .unmapped ∧ r 0x1F801100 = .device .timers 0 ∧
      r 0x1F80112F = .device .timers 0x2F ∧ r 0x1F801130 = .unmapped ∧ r 0x1F8017FF = .unmapped ∧
      r 0x1F801800 = .device .disc 0 ∧ r 0x1F801803 = .device .disc 3 ∧ r 0x1F801804 = .unmapped ∧
      r 0x1F80180F = .unmapped ∧ r 0x1F801810 = .device .graphics 0 ∧
      r 0x1F801817 = .device .graphics 7 ∧ r 0x1F801818 = .unmapped ∧ r 0x1F80181F = .unmapped ∧
      r 0x1F801820 = .device .pictureDecoder 0 ∧ r 0x1F801827 = .device .pictureDecoder 7 ∧
      r 0x1F801828 = .unmapped ∧ r 0x1F801BFF = .unmapped ∧ r 0x1F801C00 = .device .sound 0 ∧
      r 0x1F801FFF = .device .sound 0x3FF ∧ r 0x1F802000 = .device .expansion2 0 ∧
      r 0x1F802FFF = .device .expansion2 0xFFF) := by decide

/-- A state without interrupts that is about to fetch at `pc`. -/
def fetchAt (pc sr : Word) : State := mk pc sr [] []

theorem witness_FetchErrors :
    (AtInstruction (fetchAt 0x80010002 0) ∧ (fetchAt 0x80010002 0).pc.toNat % 4 ≠ 0) ∧
    (AtInstruction (fetchAt 0x80000000 2) ∧ inUserMode (fetchAt 0x80000000 2) ∧
      (fetchAt 0x80000000 2).pc.getLsbD 31 = true) ∧
    (AtInstruction (fetchAt 0x80800000 0) ∧ (fetchAt 0x80800000 0).pc.toNat % 4 = 0 ∧
      ¬ inUserMode (fetchAt 0x80800000 0) ∧ (fetchAt 0x80800000 0).region 0x80800000 = .unmapped) ∧
    (AtInstruction (fetchAt 0x1F801070 0) ∧ (fetchAt 0x1F801070 0).region 0x1F801070 = .irqCtl 0) ∧
    (AtInstruction (fetchAt 0x1F801080 0) ∧ (fetchAt 0x1F801080 0).region 0x1F801080 = .dmaCtl 0) ∧
    (AtInstruction (fetchAt 0x1F000000 0) ∧
      (fetchAt 0x1F000000 0).region 0x1F000000 = .device .expansion1 0) :=
  ⟨⟨⟨rfl, by decide, by decide⟩, by decide⟩, ⟨⟨rfl, by decide, by decide⟩, by decide, by decide⟩,
    ⟨⟨rfl, by decide, by decide⟩, by decide, by decide, by decide⟩,
    ⟨⟨rfl, by decide, by decide⟩, by decide⟩, ⟨⟨rfl, by decide, by decide⟩, by decide⟩,
    ⟨⟨rfl, by decide, by decide⟩, by decide⟩⟩

/-- For Mfc0Reads, Mtc0Writes and RfePopsStack: COP0 usable, and not. -/
theorem witness_Cop0 :
    ¬ (inUserMode (at4 0) ∧ (at4 0).cop0.sr.getLsbD 28 = false) ∧ inUserMode (user4 0) ∧
    (user4 0).cop0.sr.getLsbD 28 = false ∧ (at4 0).x 9 = 0 ∧ (at4 0).x 8 ≠ 0 ∧
    (at4 0).cfg.ieStackLevels = .four ∧
    ({ at4 0 with cfg := { State.reset.cfg with ieStackLevels := .three } }).cfg.ieStackLevels = .three ∧
    (10#5).toNat ∈ [0, 1, 2, 4, 6, 10] ∧ 16 ≤ (16#5).toNat := by decide

/-- For AbsentCoprocessors: marked usable, and not. -/
theorem witness_AbsentCoprocessors :
    (at4 0).cop0.sr.getLsbD 29 = false ∧ (mk vecPc 0xA0000000 [] []).cop0.sr.getLsbD 29 = true ∧
    (at4 0).cop0.sr.getLsbD 31 = false ∧ (mk vecPc 0xA0000000 [] []).cop0.sr.getLsbD 31 = true := by decide

/-- For Cop2Transfers and Cop2CommandStalls. -/
theorem witness_Cop2Transfers :
    ((at4 0x80000100).cop0.sr.getLsbD 30 = true ∧
      ((at4 0x80000100).region (eaOf (at4 0x80000100) 4 8)).key = some 0x108 ∧
      ((at4 0x80000100).region (eaOf (at4 0x80000100) 4 8)).storeKey = some 0x108 ∧
      (at4 0x80000100).memOk = true) ∧
    Reaches (at4 0x80000100) (eaOf (at4 0x80000100) 4 8) .word ∧
    (vec 0 []).cop0.sr.getLsbD 30 = false :=
  ⟨by decide, reaches_of (by decide), by decide⟩

/-- A state in which an interrupt is taken, about to fetch `w`. -/
def irqAt (quirk : Bool) (w : Word) : State :=
  { mk vecPc 0x40000401 [] [(0x10000, w)] with
    irq := { stat := 4, mask := 4 }, cfg := { State.reset.cfg with gteIrqQuirk := quirk } }

theorem witness_InterruptTaken :
    ((irqAt false 0).refusedMark = none ∧ (irqAt false 0).dueEvent = none ∧ InterruptHolds (irqAt false 0) ∧
      (irqAt false 0).cfg.gteIrqQuirk = false) ∧
    ((irqAt true 0x4A180001).dueEvent = none ∧ InterruptHolds (irqAt true 0x4A180001) ∧
      (irqAt true 0x4A180001).cfg.gteIrqQuirk = true ∧ (irqAt true 0x4A180001).bslot = none ∧
      (irqAt true 0x4A180001).cop0.sr.getLsbD 30 = true ∧
      fetched (irqAt true 0x4A180001) = some 0x4A180001 ∧
      decode 0x4A180001 = .instr (.cop2Command 0x180001)) ∧
    (let s := { irqAt true 0 with bslot := some ⟨.notTaken, 0x8000FFFC⟩ };
      InterruptHolds s ∧ s.cfg.gteIrqQuirk = true ∧ s.bslot ≠ none) ∧
    (¬ InterruptHolds State.reset ∧ State.reset.dueEvent = none) := by decide

theorem witness_UserModeKeepsCop0 : ∃ t, inUserMode (user4 0) ∧ (user4 0).cop0.sr.getLsbD 28 = false ∧
    step (user4 0) = .next t := ⟨next (user4 0), by decide, by decide, by rfl⟩

/-- What the accesses below have in common: the address `x[4] = a` reaches the region `r`. -/
def At (a : Word) (w : Width) (r : Region) : Prop :=
  Reaches (at4 a) (eaOf (at4 a) 4 0) w ∧ (at4 a).region (eaOf (at4 a) 4 0) = r

theorem witness_IrqControllerAccess :
    At 0x1F801070 .half (.irqCtl 0) ∧ At 0x1F801074 .half (.irqCtl 4) ∧
    At 0x1F801072 .half (.irqCtl 2) ∧ At 0x1F801076 .half (.irqCtl 6) ∧
    At 0x1F801070 .byte (.irqCtl 0) ∧ At 0x1F801071 .byte (.irqCtl 1) ∧
    At 0x1F801076 .byte (.irqCtl 6) ∧ At 0x1F801077 .byte (.irqCtl 7) ∧
    (at4 0).cfg.ackPolarity = .oneClears ∧
    ({ State.reset.cfg with ackPolarity := .zeroClears } : Params).ackPolarity = .zeroClears := by
  refine ⟨?_, ?_, ?_, ?_, ?_, ?_, ?_, ?_, rfl, rfl⟩ <;> exact ⟨reaches_of (by decide), by decide⟩

/-- Sources 10 and 11 stand at the end of the range (R217). -/
theorem witness_IrqLatchLaws : 10 < 11 ∧ 11 ≤ 11 := by decide

/-- A state whose channel 3 holds the CHCR value `v`. -/
def chcr3 (v : Word) : State :=
  (mk vecPc 0 [] []).setChan 3 { DmaChannel.reset with chcr := v }

theorem witness_DmaStart :
    (let c := (chcr3 0x01000600).chan 3;
      c.madrOpen = false ∧ c.bcrOpen = false ∧ c.chcr.extractLsb' 9 2 = 3) ∧
    (let c := (chcr3 0x01000400).chan 3; c.chcr.extractLsb' 9 2 = 2 ∧ c.chcr.getLsbD 0 = false) ∧
    (let c := (chcr3 0x01000401).chan 3; c.chcr.extractLsb' 9 2 = 2 ∧ c.chcr.getLsbD 0 = true) ∧
    (let c := (chcr3 0x01000200).chan 3; c.chcr.extractLsb' 9 2 = 1) ∧
    (let c := (chcr3 0x11000000).chan 3; c.chcr.extractLsb' 9 2 = 0) := by decide

/-- A state with DPCR as after reset, channel 6 enabled too, and every MADR and BCR without a value or with
one. -/
def dmaRegs (isOpen : Bool) : State :=
  let s := mk vecPc 0 [] []
  { s.setChan 6 { DmaChannel.reset with madrOpen := isOpen, bcrOpen := isOpen } with
    dma := { (s.setChan 6 { DmaChannel.reset with madrOpen := isOpen, bcrOpen := isOpen }).dma with
      dpcr := 0x0F654321 } }

/-- The registers of channels 0 and 6, DPCR and DICR, and the three offsets without a register; narrow
accesses at both ends; what a CHCR write starts (channel 6), what it starts with a configuration that is
not defined (channel 2 with SYNC = 3), and what starts nothing. -/
theorem witness_DmaRegisterAccesses :
    (At 0x1F801080 .word (.dmaCtl (16 * (0 : ChanNum))) ∧ At 0x1F8010E0 .word (.dmaCtl (16 * (6 : ChanNum))) ∧
      At 0x1F8010E4 .word (.dmaCtl (16 * (6 : ChanNum) + 4)) ∧
      At 0x1F8010E8 .word (.dmaCtl (16 * (6 : ChanNum) + 8)) ∧
      At 0x1F8010EC .word (.dmaCtl (16 * (6 : ChanNum) + 12)) ∧ At 0x1F8010F0 .word (.dmaCtl 0x70) ∧
      At 0x1F8010F4 .word (.dmaCtl 0x74) ∧ At 0x1F8010F8 .word (.dmaCtl 0x78) ∧
      At 0x1F8010FC .word (.dmaCtl 0x7C)) ∧
    (At 0x1F8010F2 .half (.dmaCtl 0x72) ∧ At 0x1F801080 .byte (.dmaCtl 0) ∧
      At 0x1F801081 .byte (.dmaCtl 1) ∧ At 0x1F801082 .byte (.dmaCtl 2) ∧
      At 0x1F8010FF .byte (.dmaCtl 0x7F)) ∧
    (((dmaRegs false).chan 6).phase = .idle ∧ ((dmaRegs false).chan 6).madrOpen = false ∧
      ((dmaRegs false).chan 6).bcrOpen = false ∧ ((dmaRegs true).chan 6).madrOpen = true ∧
      ((dmaRegs true).chan 6).bcrOpen = true ∧ (otc.chan 6).phase ≠ .idle ∧
      ((otc.setChan 6 { otc.chan 6 with phase := .chopWait }).chan 6).phase = .chopWait) ∧
    (let stored := (dmaRegs false).setChan 6 { (dmaRegs false).chan 6 with chcr := 0x11000000 };
      startCond stored 6 = true ∧ ∀ m, startCond stored m = true → ¬ BadDmaConfig stored m) ∧
    (let stored := (dmaRegs false).setChan 6 { (dmaRegs false).chan 6 with chcr := 0x01000000 };
      ∀ m, startCond stored m = false) ∧
    (let s := (dmaRegs false).setChan 2 { DmaChannel.reset with chcr := 0x01000600 };
      let stored := { s with dma := { s.dma with dpcr := 0x00000800 } };
      startCond s 2 = false ∧ startCond stored 2 = true ∧ BadDmaConfig stored 2) := by
  refine ⟨?_, ?_, by decide, by decide, by decide, by decide, by decide, .inl (by decide)⟩
  · refine ⟨?_, ?_, ?_, ?_, ?_, ?_, ?_, ?_, ?_⟩ <;> exact ⟨reaches_of (by decide), by decide⟩
  · refine ⟨?_, ?_, ?_, ?_, ?_⟩ <;> exact ⟨reaches_of (by decide), by decide⟩

/-- A table of `c` words. -/
def table (c : Nat) : State := otc.setChan 6 { otc.chan 6 with wordsLeft := c }

/-- Tables of 1, of 4 and of 0x80000 words, all of RAM. -/
theorem witness_OtcClearsTable : ∀ c ∈ [1, 4, 0x80000], ((table c).chan 6).addr = 0x100010 ∧
    ((table c).chan 6).wordsLeft = c ∧ 1 ≤ c ∧ c ≤ 0x80000 ∧
    ((table c).chan 6).chcr &&& 0xAEFFFFFF = 0 ∧ (table c).memOk = true := by
  intro c hc
  simp only [List.mem_cons, List.not_mem_nil, or_false] at hc
  have h : ((table c).chan 6).chcr = 0x01000000 := rfl
  exact ⟨rfl, rfl, by omega, by omega, by rw [h]; decide, rfl⟩

/-- Channel 2 at the first node of vector D2 (header 0x0200_1010), and at its last one (0x01FF_FFFF). -/
def node (p : BitVec 24) : State :=
  (mk vecPc 0 [] [(0x1000, 0x02001010), (0x1020, 0x01FFFFFF)]).setChan 2
    { DmaChannel.reset with chcr := 0x01000401, phase := .active, listPtr := p }

/-- Channel 3 about to run an event. -/
def running3 (chcr bcr : Word) (words blocks : Nat) (dreq : List Bool) : State :=
  let s := (mk vecPc 0 [] []).setChan 3 { DmaChannel.reset with
    chcr := chcr, bcr := bcr, phase := .active, addr := 0x1000, wordsLeft := words, blocksLeft := blocks }
  { s with inputs := { s.inputs with dreq := dreq } }

/-- A linked list's node and its last one; a manual transfer as a whole, of the least and the greatest
length and in both directions; a chopped one that goes on and one that ends; a request block that is not
the last and one that is, with BS = 0; and a sample of 0. -/
theorem witness_DmaEventTransfers :
    ((2 : ChanNum) ≠ 6 ∧ ((node 0x1000).chan 2).chcr.extractLsb' 9 2 = 2 ∧ (node 0x1000).memOk = true ∧
      ((node 0x1000).chan 2).listPtr = 0x1000 ∧ (node 0x1000).ramWord 0x1000 = 0x02001010 ∧
      (node 0x1000).inputs.dreq.headD true = true ∧ (0x02001010#32).getLsbD 23 = false) ∧
    ((node 0x1020).ramWord 0x1020 = 0x01FFFFFF ∧ (0x01FFFFFF#32).getLsbD 23 = true) ∧
    (∀ words ∈ [1, 0x10000], ∀ chcr ∈ [(0x01000000 : Word), 0x01000001],
      let c := (running3 chcr 0 words 0 []).chan 3;
      c.chcr.extractLsb' 9 2 = 0 ∧ 1 ≤ c.wordsLeft ∧ c.chcr.getLsbD 8 = false ∧ c.wordsLeft ≤ 0x80000) ∧
    (∀ words ∈ [4, 5],
      let c := (running3 0x01020100 0 words 0 []).chan 3;
      c.chcr.extractLsb' 9 2 = 0 ∧ c.chcr.getLsbD 8 = true ∧
        min (2 ^ (c.chcr.extractLsb' 16 3).toNat) c.wordsLeft = 4) ∧
    (∀ blocks ∈ [1, 2],
      let s := running3 0x01000200 0x00020000 0 blocks [true];
      (s.chan 3).chcr.extractLsb' 9 2 = 1 ∧ 1 ≤ (s.chan 3).blocksLeft ∧
        s.inputs.dreq.headD true = true) ∧
    (running3 0x01000200 0 0 1 [false]).inputs.dreq.headD true = false := by
  refine ⟨by decide, by decide, ?_, by decide, by decide, by decide⟩
  intro words hw chcr hc
  have h : ((running3 chcr 0 words 0 []).chan 3).wordsLeft = words := rfl
  simp only [h]
  simp only [List.mem_cons, List.not_mem_nil, or_false] at hw hc
  rcases hw with rfl | rfl <;> rcases hc with rfl | rfl <;>
    exact ⟨rfl, by omega, rfl, by omega⟩

/-- A queue with an event at the cycle and one behind it. -/
def queued : State := (State.reset.schedule 3 (.ext .timers) 1).schedule 5 (.ext .timers) 2 |>.addCycles 3

theorem witness_DueEventFirst : queued.refusedMark = none ∧
    (∃ e ∈ queued.sched.queue, e.target ≤ queued.sched.cycle) ∧
    (∀ e ∈ (State.reset.schedule 1 (.ext .timers) 1).sched.queue,
      (State.reset.schedule 1 (.ext .timers) 1).sched.cycle < e.target) := by decide

theorem witness_EventsFireInOrder : ∃ t, queued.queueOk = true ∧
    queued.dueEvent = some ⟨3, 0, .ext .timers, 1⟩ ∧ step queued = .next t :=
  ⟨next queued, by decide, by decide, by rfl⟩

/-- An image of the right size, and one that is a byte too short. -/
theorem witness_BootImageLoaded : ({} : Params).valid = true ∧ ({} : Params).bootChecksumOn = false ∧
    (List.replicate 0x80000 (0 : Byte)).length = 0x80000 ∧
    ¬ ((List.replicate 0x7FFFF (0 : Byte)).length = 0x80000) := by
  refine ⟨by decide, rfl, ?_, ?_⟩
  · rw [List.length_replicate]
  · rw [List.length_replicate]; decide

end Sys2Proof.Tests
end

/-! PROOFS of the invariants that every step keeps (10_state.md). -/

namespace Sys2Proof.Machine

/-! ## What one step is made of

An invariant of the machine is proved once per kind of change, here, and not once per instruction. -/

/-- One change within a step. Beside the state stands the DMA channel whose event has been taken from the
queue and not yet been answered by its completion or by a new event (R235, R240). -/
inductive StepPrim : State × Option ChanNum → State × Option ChanNum → Prop
  | bus {s t : State} {p : Option ChanNum} (h : BusPrim s t) : StepPrim (s, p) (t, p)
  | hilo {s : State} {p : Option ChanNum} (hi lo : Word) (n : Inputs) :
      StepPrim (s, p) ({ s with hi := hi, lo := lo, inputs := n }, p)
  | cop0 {s : State} {p : Option ChanNum} (c : Cop0) (h : srKept s c) :
      StepPrim (s, p) ({ s with cop0 := c }, p)
  | gteReady {s : State} {p : Option ChanNum} (n : Nat) : StepPrim (s, p) ({ s with gteReady := n }, p)
  | commit {s : State} {p : Option ChanNum} (e : Effect) : StepPrim (s, p) (commit e s, p)
  | entry {s : State} {p : Option ChanNum} (e : Exc) (a : Word) (b : Option Word) :
      StepPrim (s, p) (exceptionEntry e a b s, p)
  | takeExt {s : State} (e : Event) (d : ExtDevice) (hs : e.source = .ext d) :
      StepPrim (s, none) (s.dequeue e, none)
  | takeDma {s : State} (e : Event) (n : ChanNum) (hs : e.source = .dma n) (hq : e ∈ s.sched.queue) :
      StepPrim (s, none) (s.dequeue e, some n)
  | activate {s : State} (n : ChanNum) (c : DmaChannel) (hp : c.phase ≠ .idle)
      (hc : chcrKept n (s.chan n) c) : StepPrim (s, some n) (s.setChan n c, some n)
  | complete {s : State} (n : ChanNum) (c : DmaChannel) (hp : c.phase = .idle)
      (hc : chcrKept n (s.chan n) c) : StepPrim (s, some n) (s.setChan n c, none)
  | wait {s : State} (n : ChanNum) (d : Nat) : StepPrim (s, some n) (s.schedule d (.dma n) 0, none)

/-- A sequence of such changes. -/
abbrev StepMoves : State × Option ChanNum → State × Option ChanNum → Prop :=
  Relation.ReflTransGen StepPrim

theorem BusMoves.stepMoves {s t : State} (h : BusMoves s t) (p : Option ChanNum) :
    StepMoves (s, p) (t, p) := h.lift (·, p) fun _ _ => .bus

theorem addCycles_stepMoves (s : State) (c : Nat) : StepMoves (s, none) (s.addCycles c, none) :=
  (addCycles_moves s c).stepMoves none

theorem exceptionEntry_stepMoves (e : Exc) (a : Word) (b : Option Word) (s : State) :
    StepMoves (s, none) (exceptionEntry e a b s, none) := .single (.entry e a b)

theorem takeException_stepMoves (e : Exc) (s : State) :
    StepMoves (s, none) (takeException e s, none) := exceptionEntry_stepMoves e _ _ s

/-! ## The CPU step -/

theorem gteCommand_stepMoves (cofun : BitVec 25) (s : State) :
    StepMoves (s, none) (gteCommand cofun s, none) := by
  have hbus : BusMoves s _ := ((record_moves s (.gteCommand cofun)).trans (nextDraw_moves _)).trans
    (addCycles_moves _ s.gteStall)
  exact (hbus.stepMoves none).tail (.gteReady _)

theorem Immediate.stepMoves {i : Instr} {s t : State} (h : Immediate i s t) :
    StepMoves (s, none) (t, none) := by
  cases h with
  | bus h => exact h.stepMoves none
  | hilo hi lo n => exact .single (.hilo hi lo n)
  | cop0 c _ _ hc => exact .single (.cop0 c hc)
  | command cofun => exact gteCommand_stepMoves cofun s

theorem Ends.stepMoves {i : Instr} {s t : State} (h : Ends i s t) : StepMoves (s, none) (t, none) := by
  rcases h with ⟨e, rfl⟩ | ⟨eff, s', himm, rfl⟩
  · exact takeException_stepMoves e s
  · exact himm.stepMoves.tail (.commit eff)

theorem execDecoded_stepMoves {d : Decoded} {s t : State} (h : execDecoded d s = .next t) :
    StepMoves (s, none) (t, none) := by
  rcases execDecoded_cases h with ⟨e, rfl⟩ | ⟨i, _, hends⟩
  · exact takeException_stepMoves e s
  · exact hends.stepMoves

theorem instructionStep_stepMoves {s t : State} (h : instructionStep s = .next t) :
    StepMoves (s, none) (t, none) := by
  rcases instructionStep_cases h with ⟨e, rfl⟩ | ⟨w, u, _, hexec, rfl⟩
  · exact (takeException_stepMoves e s).trans (addCycles_stepMoves _ _)
  · exact (execDecoded_stepMoves hexec).trans (addCycles_stepMoves u _)

theorem interruptStep_stepMoves {s t : State} (h : interruptStep s = .next t) :
    StepMoves (s, none) (t, none) := by
  rcases interruptStep_cases h with rfl | ⟨w, u, _, hexec, rfl⟩
  · exact takeException_stepMoves .int s
  · exact ((execDecoded_stepMoves hexec).trans (addCycles_stepMoves u _)).trans
      (exceptionEntry_stepMoves .int s.pc none _)

/-! ## The firing of an event -/

theorem dmaComplete_stepMoves (n : ChanNum) (s : State) :
    StepMoves (s, some n) (dmaComplete n s, none) := by
  unfold dmaComplete
  dsimp only
  have hidle := StepPrim.complete (s := s) n
    { s.chan n with chcr := (s.chan n).chcr &&& ~~~chcrBusyBit, phase := .idle } rfl and_kept
  split
  · exact .head hidle (BusMoves.stepMoves (setDicr_moves _ id) none)
  · exact .single hidle

theorem DmaEnds.stepMoves {n : ChanNum} {s t : State} (h : DmaEnds n s t) :
    StepMoves (s, some n) (t, none) := by
  obtain ⟨s', hbus, rfl | ⟨c, d, hp, hc, rfl⟩⟩ := h
  · exact (hbus.stepMoves _).trans (dmaComplete_stepMoves n s')
  · have hact := StepPrim.activate n c hp (fun h => by rwa [hc])
    exact ((hbus.stepMoves _).tail hact).tail (.wait n d)

theorem activated_stepPrim (n : ChanNum) (s : State) : StepPrim (s, some n) (activated n s, some n) :=
  .activate n _ (by simp) id

theorem fireEvent_stepMoves {e : Event} {s t : State} (hdue : s.dueEvent = some e)
    (h : fireEvent e s = .next t) : StepMoves (s, none) (t, none) := by
  rcases fireEvent_cases h with ⟨n, hs, hends⟩ | ⟨d, hs, hbus⟩
  · have htake := StepPrim.takeDma (s := s) e n hs (leastDue_mem hdue).1
    exact .head htake (.head (activated_stepPrim n _) hends.stepMoves)
  · exact .head (.takeExt e d hs) (hbus.stepMoves none)

/-! ## The step -/

/-- All that a step can do: a sequence of the changes above, after which no DMA event is left
unanswered (R92, R240, R244). -/
theorem step_stepMoves {s t : State} (h : step s = .next t) : StepMoves (s, none) (t, none) := by
  obtain ⟨_, ⟨e, hdue, hfire⟩ | ⟨_, _, hint⟩ | ⟨_, _, hinstr⟩⟩ := step_cases h
  · exact fireEvent_stepMoves hdue hfire
  · exact interruptStep_stepMoves hint
  · exact instructionStep_stepMoves hinstr

/-- What every change keeps, a step keeps. The property may speak of the channel whose event is
unanswered. -/
theorem step_keeps_pending {P : State → Option ChanNum → Prop}
    (hP : ∀ s p t q, StepPrim (s, p) (t, q) → P s p → P t q) {s t : State} (h : step s = .next t)
    (hs : P s none) : P t none := by
  have key : ∀ x, StepMoves (s, none) x → P x.1 x.2 := fun x hx => by
    induction hx with
    | refl => exact hs
    | tail _ hprim ih => exact hP _ _ _ _ hprim ih
  exact key _ (step_stepMoves h)

/-- What every change keeps, a step keeps. -/
theorem step_keeps {P : State → Prop} (hP : ∀ s p t q, StepPrim (s, p) (t, q) → P s → P t)
    {s t : State} (h : step s = .next t) (hs : P s) : P t :=
  step_keeps_pending (P := fun s _ => P s) hP h hs

/-! ## The cycle count (R241) -/

theorem BusPrim.cycle_le {s t : State} (h : BusPrim s t) : s.sched.cycle ≤ t.sched.cycle := by
  cases h with
  | cycles c => exact Nat.le_add_right _ c
  | _ => exact le_rfl

theorem StepPrim.cycle_le {s t : State} {p q : Option ChanNum} (h : StepPrim (s, p) (t, q)) :
    s.sched.cycle ≤ t.sched.cycle := by
  cases h with
  | bus h => exact h.cycle_le
  | commit | entry => exact Nat.le_add_right _ _
  | _ => exact le_rfl

/-- Settles O52: no change of a step lowers the count. -/
theorem cycleNeverDecreases : Obligations.CycleNeverDecreases := fun s _ h =>
  step_keeps (P := fun u => s.sched.cycle ≤ u.sched.cycle)
    (fun _ _ _ _ hprim hle => hle.trans hprim.cycle_le) h le_rfl

/-! ## Register 0 (R21, R101) -/

theorem StepPrim.reg_zero {s t : State} {p q : Option ChanNum} (h : StepPrim (s, p) (t, q)) :
    t.regs[0] = s.regs[0] := by
  cases h with
  | bus h => rw [h.sameCpu.regs]
  | commit e => exact commitRegs_getElem_zero e s.lslot s.regs
  | entry => exact commitPending_getElem_zero s.lslot s.regs
  | _ => rfl

/-- Settles O18: registers are written by a commit and by exception entry only, and neither touches the
stored copy of register 0. -/
theorem registerZero : Obligations.RegisterZero :=
  ⟨State.x_zero, fun _ _ h => step_keeps (P := fun u => u.zeroRegOk = true)
    (fun s _ t _ hprim hs => by rwa [State.zeroRegOk, hprim.reg_zero]) h⟩

/-! ## Memory (R48, R60, R63, R70) -/

/-- A step changes memory only by bytes at addresses that a store or a transfer can write. -/
theorem StepPrim.mem_cases {s t : State} {p q : Option ChanNum} (h : StepPrim (s, p) (t, q)) :
    t.mem = s.mem ∨ ∃ a v, writable a ∧ t.mem = s.mem.set a v := by
  cases h with
  | bus h =>
    cases h with
    | byte a v ha => exact .inr ⟨a, v, ha, rfl⟩
    | _ => exact .inl rfl
  | _ => exact .inl rfl

theorem StepPrim.memOk {s t : State} {p q : Option ChanNum} (h : StepPrim (s, p) (t, q))
    (hs : s.memOk = true) : t.memOk = true := by
  unfold State.memOk at hs ⊢
  rcases h.mem_cases with hm | ⟨a, v, _, hm⟩ <;> rw [hm]
  · exact hs
  · exact Memory.wf_set _ _ _ hs

theorem inImage_of_writable {a : Nat} (h : writable a) : inImage a = true := by
  rcases h with h | h <;> simp [inImage, within, h]

theorem imageOk_iff {s : State} : s.imageOk = true ↔ ∀ c ∈ s.mem, inImage c.1 = true :=
  List.all_eq_true

theorem StepPrim.imageOk {s t : State} {p q : Option ChanNum} (h : StepPrim (s, p) (t, q))
    (hs : s.imageOk = true) : t.imageOk = true := by
  rw [imageOk_iff] at hs ⊢
  rcases h.mem_cases with hm | ⟨a, v, ha, hm⟩ <;> rw [hm]
  · exact hs
  · intro c hc
    rcases Memory.mem_set _ _ _ _ hc with hold | rfl
    · exact hs c hold
    · exact inImage_of_writable ha

/-- Settles O53: every byte written keeps the order of the list and lies in RAM or SCRATCH. -/
theorem memoryFormKept : Obligations.MemoryFormKept := fun _ _ h hmem himage =>
  ⟨step_keeps (P := fun u => u.memOk = true) (fun _ _ _ _ hprim => hprim.memOk) h hmem,
    step_keeps (P := fun u => u.imageOk = true) (fun _ _ _ _ hprim => hprim.imageOk) h himage⟩

/-- BIOS lies above RAM and SCRATCH (R60). -/
theorem not_writable_bios (i : Nat) : ¬ writable (biosBase + i) := by
  unfold writable ramSize scratchBase scratchSize biosBase
  omega

theorem StepPrim.get_bios {s t : State} {p q : Option ChanNum} (h : StepPrim (s, p) (t, q))
    (hs : s.memOk = true) (i : Nat) : t.mem.get (biosBase + i) = s.mem.get (biosBase + i) := by
  rcases h.mem_cases with hm | ⟨a, v, ha, hm⟩ <;> rw [hm]
  have hne : biosBase + i ≠ a := fun he => not_writable_bios i (he ▸ ha)
  rw [Memory.get_set _ _ _ _ hs, if_neg hne]

/-- Settles O54: no byte written is one of BIOS, and the canonical form, kept along the step, makes every
other byte read as before. -/
theorem biosUnchanged : Obligations.BiosUnchanged := fun s _ h hmem =>
  (step_keeps
    (P := fun u => u.memOk = true ∧
      ∀ i < biosSize, u.mem.get (biosBase + i) = s.mem.get (biosBase + i))
    (fun _ _ _ _ hprim ⟨hok, hsame⟩ =>
      ⟨hprim.memOk hok, fun i hi => (hprim.get_bios hok i).trans (hsame i hi)⟩)
    h ⟨hmem, fun _ _ => rfl⟩).2

/-! ## Bits that read 0 (R32, R33, R228, R230) -/

theorem srOk_iff {s : State} :
    s.srOk = true ↔ s.cop0.sr &&& ~~~s.cfg.ieStackLevels.srWriteMask = 0 := beq_iff_eq

theorem StepPrim.srOk {s t : State} {p q : Option ChanNum} (h : StepPrim (s, p) (t, q))
    (hs : s.srOk = true) : t.srOk = true := by
  rw [srOk_iff] at hs ⊢
  cases h with
  | bus h => rwa [h.sameCpu.cop0, h.sameCpu.cfg]
  | cop0 _ hc => exact hc hs
  | entry => exact pushSr_kept _ hs
  | _ => exact hs

theorem mem_allChannels (n : ChanNum) : n ∈ allChannels := by revert n; decide

theorem dmaRegsOk_iff {s : State} :
    s.dmaRegsOk = true ↔
      (∀ n, (s.chan n).chcr &&& ~~~chcrMask n = 0) ∧ s.dma.dicrCtl &&& ~~~0xFF803F = 0 := by
  simp [State.dmaRegsOk, mem_allChannels]

/-- A new value of one channel keeps the reserved bits of all. -/
theorem setChan_chcr_kept {s : State} {n : ChanNum} {c : DmaChannel} (hc : chcrKept n (s.chan n) c)
    (hs : ∀ m, (s.chan m).chcr &&& ~~~chcrMask m = 0) (m : ChanNum) :
    ((s.setChan n c).chan m).chcr &&& ~~~chcrMask m = 0 := by
  rw [State.setChan_chan]
  split
  · next e => subst e; exact hc (hs n)
  · exact hs m

theorem BusPrim.dmaRegsOk {s t : State} (h : BusPrim s t) (hs : s.dmaRegsOk = true) :
    t.dmaRegsOk = true := by
  rw [dmaRegsOk_iff] at hs ⊢
  obtain ⟨hchcr, hdicr⟩ := hs
  cases h with
  | chan n c _ hc => exact ⟨setChan_chcr_kept hc hchcr, hdicr⟩
  | start n c _ _ hc => exact ⟨setChan_chcr_kept hc hchcr, hdicr⟩
  | dicr ctl flag hctl => exact ⟨hchcr, hctl hdicr⟩
  | _ => exact ⟨hchcr, hdicr⟩

theorem StepPrim.dmaRegsOk {s t : State} {p q : Option ChanNum} (h : StepPrim (s, p) (t, q))
    (hs : s.dmaRegsOk = true) : t.dmaRegsOk = true := by
  cases h with
  | bus h => exact h.dmaRegsOk hs
  | activate n c _ hc | complete n c _ hc =>
    obtain ⟨hchcr, hdicr⟩ := dmaRegsOk_iff.mp hs
    exact dmaRegsOk_iff.mpr ⟨setChan_chcr_kept hc hchcr, hdicr⟩
  | _ => exact hs

/-- Settles O55: MTC0, RFE and exception entry keep SR's stack within SR_WMASK, a register write is masked, and
a start or a completion only clears bits of CHCR. -/
theorem reservedBitsKept : Obligations.ReservedBitsKept := fun _ _ h =>
  ⟨step_keeps (P := fun u => u.srOk = true) (fun _ _ _ _ hprim => hprim.srOk) h,
    step_keeps (P := fun u => u.dmaRegsOk = true) (fun _ _ _ _ hprim => hprim.dmaRegsOk) h⟩

/-! ## The pending branch (R100, R202) -/

theorem slotOk_iff {s : State} :
    s.slotOk = true ↔ s.cfg.nestedBranch = .firstWins → ∀ b, s.bslot = some b → s.pc = b.bpc + 4 := by
  unfold State.slotOk
  cases s.cfg.nestedBranch <;> cases s.bslot <;> simp

/-- Under FIRST_WINS a commit leaves a branch pending only if none was, and then it goes on to the next
address (R100). -/
theorem commit_slotOk (e : Effect) (s : State) : (commit e s).slotOk = true := by
  rw [slotOk_iff, commit_cfg, commit_bslot, commit_pc]
  intro hfirst b hb
  unfold State.nextSlot at hb
  cases hslot : s.bslot with
  | none =>
    cases hbr : e.branch with
    | none => simp [hbr] at hb
    | some t =>
      obtain rfl : BranchSlot.mk t s.pc = b := by simpa [hbr, hslot] using hb
      simp [State.nextPc, hslot]
  | some old => cases hbr : e.branch <;> simp [hbr, hslot, hfirst] at hb

theorem StepPrim.slotOk {s t : State} {p q : Option ChanNum} (h : StepPrim (s, p) (t, q))
    (hs : s.slotOk = true) : t.slotOk = true := by
  cases h with
  | bus h =>
    have hcpu := h.sameCpu
    rw [slotOk_iff] at hs ⊢
    rwa [hcpu.cfg, hcpu.bslot, hcpu.pc]
  | commit e => exact commit_slotOk e s
  | entry e a b => exact slotOk_iff.mpr fun _ b hb => by simp at hb
  | _ => exact hs

/-- Settles O56: only a commit makes a branch pending, and exception entry leaves none. -/
theorem pendingBranchBeforePc : Obligations.PendingBranchBeforePc := fun _ _ h =>
  step_keeps (P := fun u => u.slotOk = true) (fun _ _ _ _ hprim => hprim.slotOk) h

/-! ## The order of the queue (R242) -/

theorem seqsRise_cons (e : Event) (l : List Event) (bound : Nat) :
    seqsRise (e :: l) bound = true ↔
      (∀ f ∈ l, e.seq < f.seq) ∧ e.seq < bound ∧ seqsRise l bound = true := by
  induction l generalizing e with
  | nil => simp [seqsRise]
  | cons f l ih =>
    rw [seqsRise, Bool.and_eq_true, decide_eq_true_eq, List.forall_mem_cons]
    constructor
    · rintro ⟨hef, hrise⟩
      obtain ⟨hfl, hfb, _⟩ := (ih f).mp hrise
      exact ⟨⟨hef, fun g hg => hef.trans (hfl g hg)⟩, hef.trans hfb, hrise⟩
    · rintro ⟨⟨hef, _⟩, _, hrise⟩
      exact ⟨hef, hrise⟩

theorem seqsRise_iff {l : List Event} {bound : Nat} :
    seqsRise l bound = true ↔ l.Pairwise (·.seq < ·.seq) ∧ ∀ e ∈ l, e.seq < bound := by
  induction l with
  | nil => simp [seqsRise]
  | cons e l ih => rw [seqsRise_cons, ih, List.pairwise_cons, List.forall_mem_cons]; tauto

theorem schedule_queueOk {s : State} (d : Nat) (r : Source) (p : Nat) (hs : s.queueOk = true) :
    (s.schedule d r p).queueOk = true := by
  obtain ⟨hrise, hbound⟩ := seqsRise_iff.mp hs
  refine seqsRise_iff.mpr ⟨?_, fun e he => ?_⟩
  · exact List.pairwise_append.mpr ⟨hrise, List.pairwise_singleton _ _, by simpa using hbound⟩
  · rcases List.mem_append.mp he with he | he
    · exact (hbound e he).trans (Nat.lt_succ_self _)
    · rw [List.mem_singleton.mp he]
      exact Nat.lt_succ_self _

theorem dequeue_queueOk {s : State} (e : Event) (hs : s.queueOk = true) :
    (s.dequeue e).queueOk = true := by
  obtain ⟨hrise, hbound⟩ := seqsRise_iff.mp hs
  exact seqsRise_iff.mpr ⟨hrise.sublist List.erase_sublist, fun f hf => hbound f (List.mem_of_mem_erase hf)⟩

theorem BusPrim.queueOk {s t : State} (h : BusPrim s t) (hs : s.queueOk = true) : t.queueOk = true := by
  cases h with
  | schedule | start => exact schedule_queueOk _ _ _ hs
  | _ => exact hs

theorem StepPrim.queueOk {s t : State} {p q : Option ChanNum} (h : StepPrim (s, p) (t, q))
    (hs : s.queueOk = true) : t.queueOk = true := by
  cases h with
  | bus h => exact h.queueOk hs
  | takeExt e | takeDma e => exact dequeue_queueOk e hs
  | wait => exact schedule_queueOk _ _ _ hs
  | _ => exact hs

/-! ## The events of the DMA channels (R240) -/

/-- Each channel that is not Idle has one event, queued or taken and not yet answered, and each Idle one
has none. -/
def State.dmaBalanced (s : State) (pending : Option ChanNum) : Prop :=
  ∀ n, dmaEvents n s.sched.queue + (if pending = some n then 1 else 0) =
    if (s.chan n).phase = .idle then 0 else 1

/-- Between steps no event is unanswered. -/
theorem dmaQueueOk_iff {s : State} : s.dmaQueueOk = true ↔ s.dmaBalanced none := by
  simp [State.dmaQueueOk, State.dmaBalanced, mem_allChannels]

theorem dmaEvents_schedule (s : State) (d : Nat) (r : Source) (p : Nat) (n : ChanNum) :
    dmaEvents n (s.schedule d r p).sched.queue =
      dmaEvents n s.sched.queue + if r = .dma n then 1 else 0 := by
  simp [dmaEvents, List.countP_append, List.countP_singleton]

theorem dmaEvents_dequeue_of_ne (s : State) {e : Event} {n : ChanNum} (h : e.source ≠ .dma n) :
    dmaEvents n (s.dequeue e).sched.queue = dmaEvents n s.sched.queue := by
  simp [dmaEvents, State.dequeue, List.countP_erase, h]

theorem dmaEvents_dequeue_of_eq (s : State) {e : Event} {n : ChanNum} (h : e.source = .dma n)
    (hq : e ∈ s.sched.queue) :
    dmaEvents n (s.dequeue e).sched.queue + 1 = dmaEvents n s.sched.queue := by
  have hpos : 0 < dmaEvents n s.sched.queue := List.countP_pos_iff.mpr ⟨e, hq, by simp [h]⟩
  simp only [dmaEvents, State.dequeue, List.countP_erase, h, hq, beq_self_eq_true, and_self, if_true] at hpos ⊢
  omega

theorem setChan_phase (s : State) (n m : ChanNum) (c : DmaChannel) :
    ((s.setChan n c).chan m).phase = if n = m then c.phase else (s.chan m).phase := by
  rw [State.setChan_chan]
  split <;> rfl

theorem State.dmaBalanced.setChan {s : State} {p : Option ChanNum} {n : ChanNum} {c : DmaChannel}
    (hs : s.dmaBalanced p) (hp : c.phase = .idle ↔ (s.chan n).phase = .idle) :
    (s.setChan n c).dmaBalanced p := by
  intro m
  rw [setChan_phase, State.setChan_sched, hs m]
  by_cases hm : n = m
  · subst hm; simp [hp]
  · simp [hm]

/-- A channel whose event is unanswered is not Idle. -/
theorem State.dmaBalanced.pending_phase {s : State} {n : ChanNum} (hs : s.dmaBalanced (some n)) :
    (s.chan n).phase ≠ .idle := by
  intro hidle
  have hn := hs n
  simp [hidle] at hn

/-- An event of an external device belongs to no channel. -/
theorem State.dmaBalanced.schedule_ext {s : State} {p : Option ChanNum} (hs : s.dmaBalanced p) (d : Nat)
    (x : ExtDevice) (k : Nat) : (s.schedule d (.ext x) k).dmaBalanced p := by
  intro m
  rw [dmaEvents_schedule, State.chan_congr (State.schedule_dma _ _ _ _)]
  simpa using hs m

/-- A start makes an Idle channel run and queues its event (R231). -/
theorem State.dmaBalanced.start {s : State} {p : Option ChanNum} {n : ChanNum} {c : DmaChannel}
    (hs : s.dmaBalanced p) (hi : (s.chan n).phase = .idle) (hp : c.phase = .active) :
    ((s.setChan n c).schedule 0 (.dma n) 0).dmaBalanced p := by
  intro m
  have hm := hs m
  rw [dmaEvents_schedule, State.chan_congr (State.schedule_dma _ _ _ _), setChan_phase,
    State.setChan_sched]
  by_cases h : n = m
  · subst h
    simp only [hi, hp, if_true, reduceCtorEq, if_false] at hm ⊢
    omega
  · simpa [h] using hm

theorem BusPrim.dmaBalanced {s t : State} {p : Option ChanNum} (h : BusPrim s t)
    (hs : s.dmaBalanced p) : t.dmaBalanced p := by
  cases h with
  | schedule d x k => exact hs.schedule_ext d x k
  | chan n c hp _ => exact hs.setChan (by rw [hp])
  | start n c hi hp _ => exact hs.start hi hp
  | _ => exact hs

/-- A taken event of an external device leaves the channels' events as they are. -/
theorem State.dmaBalanced.takeExt {s : State} {e : Event} {x : ExtDevice} (hs : s.dmaBalanced none)
    (hx : e.source = .ext x) : (s.dequeue e).dmaBalanced none := by
  intro m
  rw [dmaEvents_dequeue_of_ne s (by simp [hx])]
  exact hs m

/-- A taken event of a channel is the one that is unanswered. -/
theorem State.dmaBalanced.takeDma {s : State} {e : Event} {n : ChanNum} (hs : s.dmaBalanced none)
    (hx : e.source = .dma n) (hq : e ∈ s.sched.queue) : (s.dequeue e).dmaBalanced (some n) := by
  intro m
  rw [State.chan_congr (State.dequeue_dma s e), ← hs m]
  by_cases h : n = m
  · subst h
    simpa using dmaEvents_dequeue_of_eq s hx hq
  · rw [dmaEvents_dequeue_of_ne s (by simp [hx, h])]
    simp [h]

/-- A completion answers the event with an Idle channel (R237). -/
theorem State.dmaBalanced.complete {s : State} {n : ChanNum} {c : DmaChannel}
    (hs : s.dmaBalanced (some n)) (hp : c.phase = .idle) : (s.setChan n c).dmaBalanced none := by
  intro m
  have hm := hs m
  have hn := hs.pending_phase
  rw [setChan_phase, State.setChan_sched]
  by_cases h : n = m
  · subst h
    simp only [hn, hp, if_true, reduceCtorEq, if_false] at hm ⊢
    omega
  · simpa [h] using hm

/-- A new event answers the one taken (R235). -/
theorem State.dmaBalanced.wait {s : State} {n : ChanNum} (hs : s.dmaBalanced (some n)) (d : Nat) :
    (s.schedule d (.dma n) 0).dmaBalanced none := by
  intro m
  rw [dmaEvents_schedule, State.chan_congr (State.schedule_dma _ _ _ _), ← hs m]
  simp

theorem StepPrim.dmaBalanced {s t : State} {p q : Option ChanNum} (h : StepPrim (s, p) (t, q))
    (hs : s.dmaBalanced p) : t.dmaBalanced q := by
  cases h with
  | bus h => exact h.dmaBalanced hs
  | takeExt e d hx => exact hs.takeExt hx
  | takeDma e n hx hq => exact hs.takeDma hx hq
  | activate n c hp _ => exact hs.setChan (iff_of_false hp hs.pending_phase)
  | complete n c hp _ => exact hs.complete hp
  | wait n d => exact hs.wait d
  | _ => exact hs

/-- Settles O57: a new event takes the next sequence number; and each event that a channel gives up is
answered within the step, by its completion or by a new event. -/
theorem eventQueueKept : Obligations.EventQueueKept := fun _ _ h =>
  ⟨step_keeps (P := fun u => u.queueOk = true) (fun _ _ _ _ hprim => hprim.queueOk) h, fun hs =>
    dmaQueueOk_iff.mpr
      (step_keeps_pending (fun _ _ _ _ hprim => hprim.dmaBalanced) h (dmaQueueOk_iff.mp hs))⟩

/-! ## Reset (R50, R251) -/

/-- Settles O59: each invariant is decidable, and reset is one closed state. -/
theorem resetGood : Obligations.ResetGood := by
  unfold Obligations.ResetGood
  decide

end Sys2Proof.Machine

/-! PROOFS about memory: the address map, the CPU's data accesses and fetches (20_memory.md,
44_loadstore.md), and the words that the DMA moves (60_exceptions.md). -/

namespace Sys2Proof.Machine

open Sys2Proof.Claims

/-! ## Addresses (R54) -/

/-- `va & ~3` clears the two lowest bits. -/
theorem wordOf_eq_shift (va : Word) : wordOf va = (va >>> 2) <<< 2 := by
  unfold wordOf
  ext i hi
  interval_cases i <;> simp

theorem wordOf_toNat (va : Word) : (wordOf va).toNat = va.toNat / 4 * 4 := by
  have hlt := va.isLt
  rw [wordOf_eq_shift, BitVec.toNat_shiftLeft, BitVec.toNat_ushiftRight, Nat.shiftRight_eq_div_pow,
    Nat.shiftLeft_eq, Nat.mod_eq_of_lt (by omega)]

theorem wordOf_aligned (va : Word) : (wordOf va).toNat % 4 = 0 := by
  rw [wordOf_toNat]
  exact Nat.mul_mod_left _ _

@[simp] theorem wordOf_getElem_31 (va : Word) : (wordOf va)[31] = va[31] := by
  simp [wordOf]

theorem wordOf_segment (va : Word) : (wordOf va).toNat / 2 ^ 29 = va.toNat / 2 ^ 29 := by
  rw [wordOf_toNat]
  omega

/-- The segment that the value of the top three address bits selects (R54). -/
def segmentOf (g : Nat) : Option Segment :=
  if g = 0 then some .kuseg else if g = 4 then some .kseg0 else if g = 5 then some .kseg1 else none

/-- Only the topmost segment holds the address of CACHE_CTRL (R59). -/
theorem segment_of_cacheCtrl {va : Word} (h : wordOf va = 0xFFFE0130) : va.toNat / 2 ^ 29 = 7 := by
  rw [← wordOf_segment, h]
  rfl

/-- Translation by the value of the top three address bits (R54). -/
theorem translate_eq (va : Word) :
    translate va = match segmentOf (va.toNat / 2 ^ 29) with
      | some g => .phys (va.toNat % 2 ^ 29) g
      | none => if wordOf va = 0xFFFE0130 then .cacheCtrl else .unmapped := by
  have htop : (va.extractLsb' 29 3).toNat = va.toNat / 2 ^ 29 := by
    have := va.isLt
    simp [Nat.shiftRight_eq_div_pow]
    omega
  have hphys : physOf va = va.toNat % 2 ^ 29 := by simp [physOf]
  have hcache := segment_of_cacheCtrl (va := va)
  rw [← htop] at hcache ⊢
  rw [← hphys]
  unfold translate
  generalize va.extractLsb' 29 3 = g at hcache ⊢
  have hg : g = 0 ∨ g = 1 ∨ g = 2 ∨ g = 3 ∨ g = 4 ∨ g = 5 ∨ g = 6 ∨ g = 7 := by
    clear hcache
    revert g
    decide
  rcases hg with rfl | rfl | rfl | rfl | rfl | rfl | rfl | rfl
  · rfl
  · exact (if_neg (mt hcache (by decide))).symm
  · exact (if_neg (mt hcache (by decide))).symm
  · exact (if_neg (mt hcache (by decide))).symm
  · rfl
  · rfl
  · rfl
  · rfl

theorem translate_mapped {va : Word} {g : Segment} (h : segmentOf (va.toNat / 2 ^ 29) = some g) :
    translate va = .phys (va.toNat % 2 ^ 29) g := by
  rw [translate_eq, h]

theorem translate_unmapped {va : Word} (h : segmentOf (va.toNat / 2 ^ 29) = none) :
    translate va = if wordOf va = 0xFFFE0130 then .cacheCtrl else .unmapped := by
  rw [translate_eq, h]

/-- Isolation reaches the cached segments (R69). -/
theorem isolated_eq (s : State) (va : Word) :
    s.isolated va = (s.cacheIsolated &&
      (segmentOf (va.toNat / 2 ^ 29) == some .kuseg || segmentOf (va.toNat / 2 ^ 29) == some .kseg0)) := by
  unfold State.isolated
  congr 1
  cases hg : segmentOf (va.toNat / 2 ^ 29) with
  | some g => rw [translate_mapped hg]; cases g <;> rfl
  | none =>
    rw [translate_unmapped hg]
    by_cases hc : wordOf va = 0xFFFE0130
    · rw [if_pos hc]; rfl
    · rw [if_neg hc]; rfl

theorem isolated_wordOf (s : State) (va : Word) : s.isolated (wordOf va) = s.isolated va := by
  rw [isolated_eq, isolated_eq, wordOf_segment]

/-! ## The address map (R56, R57) -/

theorem region_mapped {s : State} {va : Word} {g : Segment}
    (h : segmentOf (va.toNat / 2 ^ 29) = some g) :
    s.region va = physRegion s.cfg.deviceMap (va.toNat % 2 ^ 29) g := by
  rw [State.region, translate_mapped h, regionOf]

theorem region_unmapped {s : State} {va : Word} (h : segmentOf (va.toNat / 2 ^ 29) = none) :
    s.region va = if wordOf va = 0xFFFE0130 then .cacheCtrl else .unmapped := by
  rw [State.region, translate_unmapped h]
  split <;> rfl

theorem within_iff {p base size : Nat} : within p base size = true ↔ base ≤ p ∧ p < base + size := by
  simp [within]

theorem within_zero_iff {p size : Nat} : within p 0 size = true ↔ p < size := by simp [within]

/-- The map of the physical addresses, each row with its bounds (R56, R57). -/
theorem physRegion_eq (map : List DevRange) (p : Nat) (g : Segment) :
    physRegion map p g =
      if p < 0x800000 then .ram (p % 0x200000)
      else if 0x1F000000 ≤ p ∧ p < 0x1F800000 then .device .expansion1 (p - 0x1F000000)
      else if 0x1F800000 ≤ p ∧ p < 0x1F800400 then
        if g = .kseg1 then .unmapped else .scratch (p - 0x1F800000)
      else if 0x1F801070 ≤ p ∧ p < 0x1F801078 then .irqCtl (p - 0x1F801070)
      else if 0x1F801080 ≤ p ∧ p < 0x1F801100 then .dmaCtl (p - 0x1F801080)
      else if 0x1F801000 ≤ p ∧ p < 0x1F803000 then deviceAt map p
      else if 0x1FA00000 ≤ p ∧ p < 0x1FC00000 then .device .expansion3 (p - 0x1FA00000)
      else if 0x1FC00000 ≤ p ∧ p < 0x1FC80000 then .bios (p - 0x1FC00000)
      else .unmapped := by
  unfold physRegion
  simp only [within_zero_iff]
  simp only [within_iff]
  rfl

/-- The I/O addresses outside the two controllers are those of DEVICE_MAP (R57). -/
theorem physRegion_io {map : List DevRange} {p : Nat} {g : Segment} (hio : 0x1F801000 ≤ p ∧ p < 0x1F803000)
    (hirq : ¬ (0x1F801070 ≤ p ∧ p < 0x1F801078)) (hdma : ¬ (0x1F801080 ≤ p ∧ p < 0x1F801100)) :
    physRegion map p g = deviceAt map p := by
  rw [physRegion_eq]
  simp (disch := omega) only [if_neg, if_pos]

theorem deviceAt_nil (p : Nat) : deviceAt [] p = .unmapped := rfl

theorem deviceAt_cons (d : DevRange) (map : List DevRange) (p : Nat) :
    deviceAt (d :: map) p =
      if d.base ≤ p ∧ p < d.base + d.size then .device d.dev (p - d.base) else deviceAt map p := by
  unfold deviceAt
  by_cases h : d.base ≤ p ∧ p < d.base + d.size
  · rw [List.find?_cons_of_pos (by simpa [within] using h), if_pos h]
  · rw [List.find?_cons_of_neg (by simpa [within] using h), if_neg h]

/-- Settles O30: the top three bits select the segment, and each row of the map is where its bounds say. -/
theorem addressMap : Obligations.AddressMap := by
  rintro s va g p rfl rfl
  refine ⟨fun hg => ?_, fun hg => ?_, fun hg => ?_⟩
  · obtain ⟨seg, hseg, hkseg1⟩ : ∃ seg, segmentOf (va.toNat / 2 ^ 29) = some seg ∧
        (seg = .kseg1 ↔ va.toNat / 2 ^ 29 = 5) := by
      rcases hg with hg | hg | hg <;> rw [hg] <;> exact ⟨_, rfl, by decide⟩
    rw [region_mapped hseg]
    simp only [← hkseg1]
    generalize va.toNat % 2 ^ 29 = p
    refine ⟨?_, ?_, ?_, ?_, ?_, ?_, ?_, ?_, ?_, ?_, ?_, fun hmap => ?_⟩
    case refine_12 =>
      rw [hmap, defaultDeviceMap]
      refine ⟨?_, ?_, ?_, ?_, ?_, ?_, ?_, ?_, ?_, ?_, ?_, ?_, ?_, ?_, ?_, ?_⟩ <;> intro hlo hhi <;>
        rw [physRegion_io (by omega) (by omega) (by omega)] <;>
        simp (disch := omega) only [deviceAt_cons, deviceAt_nil, if_pos, if_neg]
    all_goals
      intros
      rw [physRegion_eq]
      simp (disch := omega) only [if_pos, if_neg]
  · have hseg : segmentOf (va.toNat / 2 ^ 29) = none := by rcases hg with hg | hg | hg <;> rw [hg] <;> rfl
    rw [region_unmapped hseg, if_neg fun hc => by have := segment_of_cacheCtrl hc; omega]
  · exact region_unmapped (by rcases hg with hg | hg <;> rw [hg] <;> rfl)

end Sys2Proof.Machine

namespace Sys2Proof.Claims

open Sys2Proof.Machine

/-! ## Accesses that are turned away (R55, R61 to R65, R69) -/

theorem privileged_iff {s : State} {va : Word} :
    s.privileged va = true ↔ inUserMode s ∧ va.getLsbD 31 = true := by
  simp [State.privileged, State.userMode]

theorem reversed_iff {s : State} :
    s.reversed = true ↔ inUserMode s ∧ s.cop0.sr.getLsbD 25 = true := by
  simp [State.reversed, State.userMode, State.reverseEndian]

theorem misaligned_iff {va : Word} {w : Width} : misaligned va w = true ↔ va.toNat % w.bytes ≠ 0 := by
  simp [misaligned]

theorem misaligned_wordOf (va : Word) : misaligned (wordOf va) .word = false :=
  misaligned_eq_false.mpr (wordOf_aligned va)

@[simp] theorem privileged_wordOf (s : State) (va : Word) : s.privileged (wordOf va) = s.privileged va := by
  simp [State.privileged]

/-- An address error of a load or a fetch (R55, R62, R65). -/
theorem memRead_adEL {s : State} {va : Word} {w : Width} (k : Access)
    (h : misaligned va w = true ∨ s.privileged va = true) : memRead va w k s = .exc (.adEL va) := by
  unfold memRead
  rcases h with h | h <;> simp [h]

/-- An address error of a store (R55, R63, R65). -/
theorem memWrite_adES {s : State} {va : Word} {w : Width} (v : Word)
    (h : misaligned va w = true ∨ s.privileged va = true) : memWrite va w v s = .exc (.adES va) := by
  unfold memWrite
  rcases h with h | h <;> simp [h]

theorem memWriteMasked_adES {s : State} {va : Word} (m : BitVec 4) (v : Word)
    (h : s.privileged va = true) : memWriteMasked va m v s = .exc (.adES va) := by
  simp [memWriteMasked, h]

/-- An access that no address error ends (R62, R63). -/
structure Permitted (s : State) (va : Word) (w : Width) : Prop where
  aligned : misaligned va w = false
  permitted : s.privileged va = false

theorem permitted_of {s : State} {va : Word} {w : Width} (ha : va.toNat % w.bytes = 0)
    (hp : ¬ (inUserMode s ∧ va.getLsbD 31 = true)) : Permitted s va w :=
  ⟨misaligned_eq_false.mpr ha, Bool.eq_false_iff.mpr (mt privileged_iff.mp hp)⟩

/-- LWL, LWR, SWL and SWR access the aligned word of their address, with the same privilege. -/
theorem Permitted.wordOf {s : State} {va : Word} {w : Width} (h : Permitted s va w) :
    Permitted s (wordOf va) .word :=
  ⟨misaligned_wordOf va, (privileged_wordOf s va).trans h.permitted⟩

theorem memRead_reversed {s : State} {va : Word} {w : Width} (h : Permitted s va w)
    (hr : s.reversed = true) : memRead va w .load s = .stop .reverseEndian := by
  simp [memRead, h.aligned, h.permitted, hr]

theorem memWrite_reversed {s : State} {va : Word} {w : Width} (v : Word) (h : Permitted s va w)
    (hr : s.reversed = true) : memWrite va w v s = .stop .reverseEndian := by
  simp [memWrite, h.aligned, h.permitted, hr]

theorem memWriteMasked_reversed {s : State} {va : Word} (m : BitVec 4) (v : Word)
    (h : Permitted s va .word) (hr : s.reversed = true) :
    memWriteMasked va m v s = .stop .reverseEndian := by
  simp [memWriteMasked, h.aligned, h.permitted, hr]

/-- An isolated load reads a draw (R69). -/
theorem memRead_isolated {s : State} {va : Word} {w : Width} (h : Permitted s va w)
    (hr : s.reversed = false) (hi : s.isolated va = true) :
    memRead va w .load s = .ok (w.trunc s.drawn) s.nextDraw := by
  simp [memRead, h.aligned, h.permitted, hr, hi]

/-- A store to BIOS or an isolated store does nothing (R60, R69). -/
theorem memWrite_nowhere {s : State} {va : Word} {w : Width} (v : Word) (h : Permitted s va w)
    (hr : s.reversed = false) (hi : s.isolated va = true ∨ ∃ o, s.region va = .bios o) :
    memWrite va w v s = .ok () s := by
  rcases hi with hi | ⟨o, hb⟩
  · simp [memWrite, h.aligned, h.permitted, hr, hi]
  · simp [memWrite, busWrite, h.aligned, h.permitted, hr, hb]

theorem memWriteMasked_nowhere {s : State} {va : Word} (m : BitVec 4) (v : Word)
    (h : Permitted s va .word) (hr : s.reversed = false)
    (hi : s.isolated va = true ∨ ∃ o, s.region va = .bios o) :
    memWriteMasked va m v s = .ok () s := by
  rcases hi with hi | ⟨o, hb⟩
  · simp [memWriteMasked, h.aligned, h.permitted, hr, hi]
  · simp [memWriteMasked, h.aligned, h.permitted, hr, hb]

/-! ## Accesses that reach a region without memory -/

theorem memRead_dbe {s : State} {va : Word} {w : Width} (h : Reaches s va w)
    (hr : s.region va = .unmapped) : memRead va w .load s = .exc .dbe := by
  simp [memRead_reaches h, busRead, hr]

theorem memWrite_dbe {s : State} {va : Word} {w : Width} (v : Word) (h : Reaches s va w)
    (hr : s.region va = .unmapped) : memWrite va w v s = .exc .dbe := by
  simp [memWrite_reaches h, busWrite, hr]

theorem memWriteMasked_dbe {s : State} {va : Word} (m : BitVec 4) (v : Word) (h : Reaches s va .word)
    (hr : s.region va = .unmapped) : memWriteMasked va m v s = .exc .dbe := by
  simp [memWriteMasked, h.misaligned, h.privileged, h.reversed, h.notIsolated, hr]

/-- The masked access of LWL, LWR, SWL and SWR reaches its region where an access to the byte does. -/
theorem Reaches.wordOf {s : State} {va : Word} {w : Width} (h : Reaches s va w) :
    Reaches s (wordOf va) .word where
  aligned := wordOf_aligned va
  permitted := by simpa using h.permitted
  ordinary := h.ordinary
  notIsolated := (isolated_wordOf s va).trans h.notIsolated

/-! ## Exceptions (R201, R203) -/

theorem pushed_pushSr (l : IeStackLevels) (sr : Word) : Pushed l sr (pushSr l sr) := by
  cases l <;> refine ⟨?_, ?_, ?_⟩ <;> ext i hi <;> interval_cases i <;>
    simp [pushSr, IeStackLevels.stackMask]

/-- The address that an exception reports in BadVaddr (R40, R199). -/
def reported : Exc → Option Word
  | .adEL a | .adES a => some a
  | .int | .ibe | .dbe | .syscall | .bp | .ri | .cpU _ | .ov => none

/-- R99, R201: what the register file and the pending load are is all that the claim speaks of. -/
theorem RegsAfter.congr {s t u : State} {wreg : Option (Reg × Word)} {lnew : Option LoadSlot}
    (h : RegsAfter s t wreg lnew) (hr : u.regs = t.regs) (hl : u.lslot = t.lslot) :
    RegsAfter s u wreg lnew := by
  have hx (r : Reg) : u.x r = t.x r := by rw [readX, readX, hr]
  obtain ⟨hzero, hdirect, hloaded, hkept, hpending⟩ := h
  simp only [← hx, ← hl] at hzero hdirect hloaded hkept hpending
  exact ⟨hzero, hdirect, hloaded, hkept, hpending⟩

/-- Taking an exception leaves what R201 says. -/
theorem trapped_exceptionEntry (e : Exc) (pc : Word) (slot : Option Word) (s : State) :
    Trapped e.code e.ce (reported e) pc slot s (exceptionEntry e pc slot s) where
  regs := (regsAfter_commit {} rfl rfl).congr
    (by cases h : s.lslot <;> simp [commitRegs, commitPending, h]) rfl
  excCode := rfl
  bd := rfl
  ce := rfl
  epc := by cases slot <;> rfl
  badVaddr := by cases e <;> rfl
  sr := pushed_pushSr _ _
  ipSw := rfl
  debug := rfl
  pc := rfl
  bslot := rfl
  cycle := rfl
  hist := rfl
  frame := ⟨rfl, rfl, rfl, rfl, rfl, rfl, rfl, rfl, rfl, fun _ => rfl, rfl, rfl, rfl, rfl⟩

theorem traps_of_finish {i : Instr} {s : State} {e : Exc} (h : exec i s = finish s (.exc e)) :
    Traps i s e.code e.ce (reported e) :=
  ⟨_, h, trapped_exceptionEntry e _ _ s⟩

/-! ## Loads and stores by the outcome of their access (R161) -/

section Shapes

variable {i : Instr} {s s' : State} {rt : Reg} {va : Word} {w : Width} {f : Word → Word} {v : Word}
  {m : BitVec 4}

theorem traps_load {e : Exc} (h : exec i s = loadWith rt va w f s)
    (ha : memRead va w .load s = .exc e) : Traps i s e.code e.ce (reported e) :=
  traps_of_finish (by rw [h, loadWith, ha]; rfl)

theorem traps_store {e : Exc} (h : exec i s = storeWith va w v s)
    (ha : memWrite va w v s = .exc e) : Traps i s e.code e.ce (reported e) :=
  traps_of_finish (by rw [h, storeWith, ha]; rfl)

theorem traps_masked {e : Exc} (h : exec i s = storeMasked va m v s)
    (ha : memWriteMasked va m v s = .exc e) : Traps i s e.code e.ce (reported e) :=
  traps_of_finish (by rw [h, storeMasked, ha]; rfl)

theorem loadWith_stop {r : Refusal} (ha : memRead va w .load s = .stop r) :
    loadWith rt va w f s = .refused r := by rw [loadWith, ha]; rfl

theorem storeWith_stop {r : Refusal} (ha : memWrite va w v s = .stop r) :
    storeWith va w v s = .refused r := by rw [storeWith, ha]; rfl

theorem storeMasked_stop {r : Refusal} (ha : memWriteMasked va m v s = .stop r) :
    storeMasked va m v s = .refused r := by rw [storeMasked, ha]; rfl

/-- A load whose access is answered completes with its value pending. -/
theorem load_completes {x : Word} (h : exec i s = loadWith rt va w f s)
    (ha : memRead va w .load s = .ok v s') (hx : f v = x)
    (hcyc : s'.sched.cycle = s.sched.cycle) (hst : s'.inputs.stalls = s.inputs.stalls)
    (h1 : readsHilo i = false) (h2 : multipliesOrDivides i = false) :
    ∃ t, exec i s = .next t ∧ Completed i s t none (some ⟨rt, x⟩) none ∧ Frame (stallTaken s') t :=
  ⟨_, by rw [h, loadWith, ha, Res.bind_ok, hx]; rfl,
    completed_commit { lnew := some ⟨rt, x⟩ } (.inl (memRead_moves _ _ _ _ _ _ ha).sameCpu) hcyc hst
      (by rw [h1]; rfl) (by rw [h2]; rfl), frame_commit _ s'⟩

/-- A store whose access is done completes and leaves what the access left. -/
theorem leaves_finish {r : Res Unit} (h : exec i s = finish s (r.bind fun _ s1 => .ok {} s1))
    (hr : r = .ok () s') (hm : r.moves s) (hcyc : s'.sched.cycle = s.sched.cycle)
    (hst : s'.inputs.stalls = s.inputs.stalls) (h1 : readsHilo i = false)
    (h2 : multipliesOrDivides i = false) : Leaves i s s' := by
  have hcpu := (hm () s' hr).sameCpu
  exact leaves_ok (by rw [h, hr]; rfl)
    ⟨hcpu.regs, hcpu.lslot, hcpu.pc, hcpu.bslot, hcpu.cfg, hcpu.hist⟩ hcyc hst h1 h2

theorem store_leaves (h : exec i s = storeWith va w v s) (ha : memWrite va w v s = .ok () s')
    (hcyc : s'.sched.cycle = s.sched.cycle) (hst : s'.inputs.stalls = s.inputs.stalls)
    (h1 : readsHilo i = false) (h2 : multipliesOrDivides i = false) : Leaves i s s' :=
  leaves_finish h ha (memWrite_moves _ _ _ _) hcyc hst h1 h2

theorem masked_leaves (h : exec i s = storeMasked va m v s) (ha : memWriteMasked va m v s = .ok () s')
    (hcyc : s'.sched.cycle = s.sched.cycle) (hst : s'.inputs.stalls = s.inputs.stalls)
    (h1 : readsHilo i = false) (h2 : multipliesOrDivides i = false) : Leaves i s s' :=
  leaves_finish h ha (memWriteMasked_moves _ _ _ _) hcyc hst h1 h2

end Shapes

/-! ## LWC2 and SWC2 (R195, R196) -/

section Cop2

variable {s : State} {rt : BitVec 5} {imm : Half} {rs : Reg}

theorem usable_two (s : State) : s.usable 2 = s.cop0.sr.getLsbD 30 := rfl

/-- What the access of SWC2 sees: the coprocessor has been read. -/
def afterGteRead (rt : BitVec 5) (s : State) : State := (s.record (.gteReadData rt)).nextDraw

theorem lwc2_eq (hu : s.cop0.sr.getLsbD 30 = true) :
    exec (.lwc2 rt imm rs) s = finish s ((memRead (eaOf s rs imm) .word .load s).bind fun v s1 =>
      (gteWrite (.gteWriteData rt v) s1).bind fun _ s2 => .ok {} s2) :=
  if_pos ((usable_two s).trans hu)

theorem swc2_eq (hu : s.cop0.sr.getLsbD 30 = true) :
    exec (.swc2 rt imm rs) s = finish s
      ((memWrite (eaOf s rs imm) .word s.drawn (afterGteRead rt s)).bind fun _ s2 => .ok {} s2) :=
  if_pos ((usable_two s).trans hu)

theorem traps_lwc2 {e : Exc} (hu : s.cop0.sr.getLsbD 30 = true)
    (ha : memRead (eaOf s rs imm) .word .load s = .exc e) :
    Traps (.lwc2 rt imm rs) s e.code e.ce (reported e) :=
  traps_of_finish (by rw [lwc2_eq hu, ha]; rfl)

theorem traps_swc2 {e : Exc} (hu : s.cop0.sr.getLsbD 30 = true)
    (ha : memWrite (eaOf s rs imm) .word s.drawn (afterGteRead rt s) = .exc e) :
    Traps (.swc2 rt imm rs) s e.code e.ce (reported e) :=
  traps_of_finish (by rw [swc2_eq hu, ha]; rfl)

theorem lwc2_stop {r : Refusal} (hu : s.cop0.sr.getLsbD 30 = true)
    (ha : memRead (eaOf s rs imm) .word .load s = .stop r) :
    exec (.lwc2 rt imm rs) s = .refused r := by rw [lwc2_eq hu, ha]; rfl

theorem swc2_stop {r : Refusal} (hu : s.cop0.sr.getLsbD 30 = true)
    (ha : memWrite (eaOf s rs imm) .word s.drawn (afterGteRead rt s) = .stop r) :
    exec (.swc2 rt imm rs) s = .refused r := by rw [swc2_eq hu, ha]; rfl

end Cop2

/-! ## Accesses that fail: the obligations -/

/-- Settles O26: the alignment is checked first, then the privilege, and both before the region. -/
theorem addressErrors : Obligations.AddressErrors := by
  rintro rt rs imm s va rfl
  refine ⟨fun hodd => ?_, fun hodd => ?_, fun hu hb => ?_⟩
  · have hm : misaligned (eaOf s rs imm) .half = true := misaligned_iff.mpr hodd
    exact ⟨traps_load rfl (memRead_adEL _ (.inl hm)), traps_load rfl (memRead_adEL _ (.inl hm)),
      traps_store rfl (memWrite_adES _ (.inl hm))⟩
  · have hm : misaligned (eaOf s rs imm) .word = true := misaligned_iff.mpr hodd
    exact ⟨traps_load rfl (memRead_adEL _ (.inl hm)), traps_store rfl (memWrite_adES _ (.inl hm)),
      fun hcu => ⟨traps_lwc2 hcu (memRead_adEL _ (.inl hm)), traps_swc2 hcu (memWrite_adES _ (.inl hm))⟩⟩
  · have hp : s.privileged (eaOf s rs imm) = true := privileged_iff.mpr ⟨hu, hb⟩
    have hpw : s.privileged (wordOf (eaOf s rs imm)) = true := (privileged_wordOf _ _).trans hp
    have hload (w : Width) := memRead_adEL (w := w) .load (.inr hp)
    have hstore (w : Width) (v : Word) := memWrite_adES (w := w) v (.inr hp)
    have hloadw := memRead_adEL (w := .word) .load (.inr hpw)
    have hstorew (m : BitVec 4) (v : Word) := memWriteMasked_adES m v hpw
    simp only [List.forall_mem_cons, List.not_mem_nil, IsEmpty.forall_iff, implies_true, and_true]
    exact ⟨⟨traps_load rfl (hload _), traps_load rfl (hload _), traps_load rfl (hload _),
        traps_load rfl (hload _), traps_load rfl (hload _)⟩,
      ⟨traps_store rfl (hstore _ _), traps_store rfl (hstore _ _), traps_store rfl (hstore _ _)⟩,
      ⟨traps_load rfl hloadw, traps_load rfl hloadw⟩,
      ⟨traps_masked rfl (hstorew _ _), traps_masked rfl (hstorew _ _)⟩,
      fun hcu => ⟨traps_lwc2 hcu (hload _), traps_swc2 hcu (memWrite_adES _ (.inr hp))⟩⟩

/-- Settles O27: an access that passes the checks is its region's, and Unmapped answers DBE. -/
theorem dataBusErrors : Obligations.DataBusErrors := by
  rintro rt rs imm s va rfl hr hrw
  simp only [List.forall_mem_cons, List.not_mem_nil, IsEmpty.forall_iff, implies_true, and_true]
  refine ⟨fun hb => ?_, fun hh => ?_, fun hw => ⟨?_, fun hcu => ?_⟩⟩
  · have hload := memRead_dbe hb hr
    have hloadw := memRead_dbe hb.wordOf hrw
    have hstorew (m : BitVec 4) (v : Word) := memWriteMasked_dbe m v hb.wordOf hrw
    exact ⟨traps_load rfl hload, traps_load rfl hload, traps_store rfl (memWrite_dbe _ hb hr),
      traps_load rfl hloadw, traps_load rfl hloadw, traps_masked rfl (hstorew _ _),
      traps_masked rfl (hstorew _ _)⟩
  · have hload := memRead_dbe hh hr
    exact ⟨traps_load rfl hload, traps_load rfl hload, traps_store rfl (memWrite_dbe _ hh hr)⟩
  · exact ⟨traps_load rfl (memRead_dbe hw hr), traps_store rfl (memWrite_dbe _ hw hr)⟩
  · have hwc : Reaches (afterGteRead rt s) (eaOf s rs imm) .word :=
      ⟨hw.aligned, hw.permitted, hw.ordinary, hw.notIsolated⟩
    exact ⟨traps_lwc2 hcu (memRead_dbe hw hr), traps_swc2 hcu (memWrite_dbe _ hwc hr)⟩

/-- Settles O28: the refusal comes after the address errors and before everything else. -/
theorem reverseEndianRefused : Obligations.ReverseEndianRefused := by
  intro rt rs imm s hu hre hb
  have hr : s.reversed = true := reversed_iff.mpr ⟨hu, hre⟩
  have hp (w : Width) (ha : (eaOf s rs imm).toNat % w.bytes = 0) : Permitted s (eaOf s rs imm) w :=
    permitted_of ha fun hc => Bool.eq_false_iff.mp hb hc.2
  simp only [List.forall_mem_cons, List.not_mem_nil, IsEmpty.forall_iff, implies_true, and_true]
  refine ⟨?_, fun ha => ?_, fun ha => ⟨?_, fun hcu => ?_⟩⟩
  · have hpb := hp .byte (Nat.mod_one _)
    have hload := memRead_reversed hpb hr
    have hloadw := memRead_reversed hpb.wordOf hr
    have hstorew (m : BitVec 4) (v : Word) := memWriteMasked_reversed m v hpb.wordOf hr
    exact ⟨loadWith_stop hload, loadWith_stop hload, storeWith_stop (memWrite_reversed _ hpb hr),
      loadWith_stop hloadw, loadWith_stop hloadw, storeMasked_stop (hstorew _ _),
      storeMasked_stop (hstorew _ _)⟩
  · have hload := memRead_reversed (hp .half ha) hr
    exact ⟨loadWith_stop hload, loadWith_stop hload, storeWith_stop (memWrite_reversed _ (hp .half ha) hr)⟩
  · exact ⟨loadWith_stop (memRead_reversed (hp .word ha) hr),
      storeWith_stop (memWrite_reversed _ (hp .word ha) hr)⟩
  · have hpc : Permitted (afterGteRead rt s) (eaOf s rs imm) .word :=
      ⟨(hp .word ha).aligned, (hp .word ha).permitted⟩
    exact ⟨lwc2_stop hcu (memRead_reversed (hp .word ha) hr),
      swc2_stop hcu (memWrite_reversed _ hpc hr)⟩

/-! ## Instruction fetch (R62, R95) -/

/-- With no event due, no interrupt taken and no mark, a step is an instruction step (R92, R244). -/
theorem step_eq_instructionStep {s : State} (h : AtInstruction s) : step s = instructionStep s := by
  simp [step, iterate, cpuStep, h.unmarked, h.noEvent, h.noInterrupt]

theorem fetch_busRead {s : State} (h : Permitted s s.pc .word) :
    fetch s = busRead s.pc .word .fetch s := by
  simp [fetch, memRead, h.aligned, h.permitted]

theorem fetch_fails {s : State} {e : Exc} (h : AtInstruction s) (hf : fetch s = .exc e) :
    ∃ u, Trapped e.code e.ce (reported e) s.pc (s.bslot.map BranchSlot.bpc) s u ∧
      step s = .next (u.addCycles s.cfg.cycleCostNone) :=
  ⟨takeException e s, trapped_exceptionEntry e _ _ s, by
    rw [step_eq_instructionStep h, instructionStep, hf]⟩

/-- Settles O31: the fetch is a read of the bus after the two checks, and each region answers for itself. -/
theorem fetchErrors : Obligations.FetchErrors := by
  intro s h
  refine ⟨fun hbad => fetch_fails (e := .adEL s.pc) h (memRead_adEL .fetch ?_), fun ha hp => ?_⟩
  · exact hbad.imp misaligned_iff.mpr privileged_iff.mpr
  · have hbus := fetch_busRead (permitted_of (w := .word) ha hp)
    refine ⟨fun hr => fetch_fails (e := .ibe) h ?_, fun hdev => ?_⟩
    · rw [hbus, busRead, hr]; rfl
    · have hstop : fetch s = .stop .fetchFromDevice := by
        rw [hbus, busRead]
        rcases hdev with ⟨d, o, hr⟩ | ⟨o, hr⟩ | ⟨o, hr⟩ <;> rw [hr] <;> rfl
      rw [step_eq_instructionStep h, instructionStep, hstop]

/-! ## Bytes of a value (R61) -/

theorem readLE_byte (m : Memory) (a : Nat) : m.readLE a 1 = (m.get a).setWidth 32 := by
  simp [Memory.readLE]

theorem readLE_half (m : Memory) (a : Nat) : m.readLE a 2 = (m.get (a + 1) ++ m.get a).setWidth 32 := by
  apply BitVec.eq_of_getLsbD_eq
  intro i hi
  simp only [Memory.readLE, BitVec.getLsbD_or, BitVec.getLsbD_shiftLeft, BitVec.getLsbD_setWidth,
    BitVec.getLsbD_append]
  interval_cases i <;> simp

theorem readLE_word (m : Memory) (a : Nat) :
    m.readLE a 4 = m.get (a + 3) ++ m.get (a + 2) ++ m.get (a + 1) ++ m.get a := by
  apply BitVec.eq_of_getLsbD_eq
  intro i hi
  simp only [Memory.readLE, BitVec.getLsbD_or, BitVec.getLsbD_shiftLeft, BitVec.getLsbD_setWidth,
    BitVec.getLsbD_append]
  interval_cases i <;> simp

theorem sextByte_setWidth (b : Byte) : sextByte (b.setWidth 32) = b.signExtend 32 := by
  simp [sextByte]

theorem sextHalf_setWidth (h : Half) : sextHalf (h.setWidth 32) = h.signExtend 32 := by
  simp [sextHalf]

/-- The eight bits of a byte. -/
theorem byteMask_getLsbD (i : Nat) : (0xFF#32).getLsbD i = decide (i < 8) := by
  rw [show (0xFF#32) = (BitVec.allOnes 8).setWidth 32 from rfl, BitVec.getLsbD_setWidth,
    BitVec.getLsbD_allOnes, ← Bool.decide_and]
  exact decide_eq_decide.mpr (by omega)

theorem byteOf_setByte (old : Word) (k : Nat) (b : Byte) {j : Nat} (hj : j < 4) :
    byteOf (setByte old k b) j = if j = k then b else byteOf old j := by
  apply BitVec.eq_of_getLsbD_eq
  intro i hi
  have h32 : 8 * j + i < 32 := by omega
  simp only [byteOf, setByte, BitVec.getLsbD_extractLsb', BitVec.getLsbD_or, BitVec.getLsbD_and,
    BitVec.getLsbD_not, BitVec.getLsbD_shiftLeft, BitVec.getLsbD_setWidth, byteMask_getLsbD, hi, h32,
    decide_true, Bool.true_and]
  rcases lt_trichotomy j k with h | rfl | h
  · have hlt : 8 * j + i < 8 * k := by omega
    simp [hlt, h.ne, hi]
  · simp [hi, show i < 32 by omega]
  · have hge : ¬ 8 * j + i < 8 * k := by omega
    have hout : 8 ≤ 8 * j + i - 8 * k := by omega
    simp [hge, hout, h.ne', hi, Nat.not_lt.mpr hout]

/-- The bytes of CACHE_CTRL after a write of `n` bytes (R59, R63). -/
theorem byteOf_cacheCtrlWrite (old : Word) (k n : Nat) (v : Word) {j : Nat} (hj : j < 4) :
    byteOf (cacheCtrlWrite old k n v) j = if k ≤ j ∧ j < k + n then byteOf v (j - k) else byteOf old j := by
  induction n generalizing old k v with
  | zero => rw [cacheCtrlWrite, if_neg (by omega)]
  | succ n ih =>
    rw [cacheCtrlWrite, ih, byteOf_setByte _ _ _ hj]
    by_cases hin : k + 1 ≤ j ∧ j < k + 1 + n
    · rw [if_pos hin, if_pos (by omega)]
      unfold byteOf
      ext i hi
      simp [show 8 + (8 * (j - (k + 1)) + i) = 8 * (j - k) + i by omega]
    · rw [if_neg hin]
      by_cases hjk : j = k
      · subst hjk
        rw [if_pos rfl, if_pos (by omega), Nat.sub_self, byteOf]
        rfl
      · rw [if_neg hjk, if_neg (by omega)]

/-- The byte of CACHE_CTRL at an address (R59). -/
theorem cacheCtrlRead_byte (v va : Word) :
    cacheCtrlRead v va .byte = (byteOf v (va.toNat % 4)).setWidth 32 := rfl

theorem cacheCtrlRead_half (v va : Word) :
    cacheCtrlRead v va .half = (v.extractLsb' (8 * (va.toNat % 4)) 16).setWidth 32 := rfl

theorem cacheCtrlRead_word {v va : Word} (h : va.toNat % 4 = 0) : cacheCtrlRead v va .word = v := by
  simp [cacheCtrlRead, Width.trunc, h]

/-! ## Loads (R162 to R166) -/

/-- A load whose access changes nothing leaves its value pending and changes nothing else. -/
theorem loads_of_read {i : Instr} {s : State} {rt : Reg} {va : Word} {w : Width} {f : Word → Word}
    {v x : Word} (h : exec i s = loadWith rt va w f s) (ha : memRead va w .load s = .ok v s) (hx : f v = x)
    (h1 : readsHilo i = false) (h2 : multipliesOrDivides i = false) : Loads i s rt x :=
  load_completes h ha hx rfl rfl h1 h2

theorem memRead_key {s : State} {va : Word} {w : Width} {k : Nat} (h : Reaches s va w)
    (hk : (s.region va).key = some k) : memRead va w .load s = .ok (s.mem.readLE k w.bytes) s := by
  rw [memRead_reaches h, busRead_key hk]

/-- Settles O19: memory answers with its bytes, and the instruction extends them. -/
theorem loadsFromMemory : Obligations.LoadsFromMemory := by
  rintro rt rs imm s va k rfl hk
  refine ⟨fun hb => ?_, fun hh => ?_, fun hw => ?_⟩
  · have hread : memRead (eaOf s rs imm) .byte .load s = .ok ((s.mem.get k).setWidth 32) s := by
      rw [memRead_key hb hk, Width.bytes, readLE_byte]
    exact ⟨loads_of_read rfl hread (sextByte_setWidth _) rfl rfl, loads_of_read rfl hread rfl rfl rfl⟩
  · have hread : memRead (eaOf s rs imm) .half .load s =
        .ok ((s.mem.get (k + 1) ++ s.mem.get k).setWidth 32) s := by
      rw [memRead_key hh hk, Width.bytes, readLE_half]
    exact ⟨loads_of_read rfl hread (sextHalf_setWidth _) rfl rfl, loads_of_read rfl hread rfl rfl rfl⟩
  · exact loads_of_read rfl (memRead_key hw hk) (readLE_word _ _) rfl rfl

/-! ## Stores to RAM and SCRATCH (R169 to R173) -/

theorem memWrite_key {s : State} {va : Word} {w : Width} {k : Nat} (v : Word) (h : Reaches s va w)
    (hk : (s.region va).storeKey = some k) :
    memWrite va w v s = .ok () { s with mem := s.mem.writeLE k w.bytes v } := by
  rw [memWrite_reaches h, busWrite_key hk]

theorem memWriteMasked_key {s : State} {va : Word} {k : Nat} (m : BitVec 4) (v : Word)
    (h : Reaches s va .word) (hk : (s.region va).storeKey = some k) :
    memWriteMasked va m v s = .ok () { s with mem := s.mem.writeMasked k m v } := by
  unfold memWriteMasked
  simp only [h.misaligned, h.privileged, h.reversed, h.notIsolated, Bool.false_eq_true, if_false]
  cases hr : s.region va <;> simp_all [Region.storeKey]

/-- A completed store that leaves the memory `m`: what its memory reads, and everything else as before. -/
theorem Leaves.memory {i : Instr} {s : State} {m : Memory} (h : Leaves i s { s with mem := m }) :
    ∃ t, exec i s = .next t ∧ Completed i s t none none none ∧
      Frame { stallTaken s with mem := t.mem } t ∧ ∀ a, t.mem.get a = m.get a := by
  obtain ⟨t, hexec, hcomp, hframe⟩ := h
  exact ⟨t, hexec, hcomp, { hframe with memory := fun _ => rfl }, hframe.memory⟩

/-- The instruction that stores a value of a width. -/
theorem exec_store {rt rs : Reg} {imm : Half} {s : State} {w : Width} {i : Instr}
    (hi : i = match w with
      | .byte => .sb rt imm rs
      | .half => .sh rt imm rs
      | .word => .sw rt imm rs) :
    exec i s = storeWith (eaOf s rs imm) w (s.x rt) s ∧ readsHilo i = false ∧
      multipliesOrDivides i = false := by
  cases w <;> subst hi <;> exact ⟨rfl, rfl, rfl⟩

/-- Settles O22: a store writes its bytes little-endian, and the canonical form keeps every other byte. -/
theorem storesToMemory : Obligations.StoresToMemory := by
  rintro rt rs imm s va k w i rfl hk hreach hmem hi
  obtain ⟨hexec, h1, h2⟩ := exec_store (s := s) hi
  obtain ⟨t, hnext, hcomp, hframe, hget⟩ :=
    (store_leaves hexec (memWrite_key _ hreach hk) rfl rfl h1 h2).memory
  refine ⟨t, hnext, hcomp, hframe, fun j hj => ?_, fun a ha => ?_⟩
  · rw [hget, Memory.get_writeLE_inside _ _ _ _ _ hmem hj]
  · rw [hget, Memory.get_writeLE_outside _ _ _ _ _ hmem ha]

theorem lane_toNat (va : Word) : (lane va).toNat = va.toNat % 4 := by simp [lane]

theorem lane_cases (l : BitVec 2) : l = 0 ∨ l = 1 ∨ l = 2 ∨ l = 3 := by revert l; decide

/-- The lanes that SWL writes, and what it puts on them (R172). -/
theorem leftMask_getLsbD (l : BitVec 2) {j : Nat} (hj : j < 4) :
    (leftMask l).getLsbD j = decide (j ≤ l.toNat) := by
  have : ∀ l : BitVec 2, ∀ j : Fin 4, (leftMask l).getLsbD j = decide (j.val ≤ l.toNat) := by decide
  exact this l ⟨j, hj⟩

theorem byteOf_leftValue (l : BitVec 2) (v : Word) {j : Nat} (hj : j ≤ l.toNat) :
    byteOf (leftValue l v) j = byteOf v (3 - l.toNat + j) := by
  have hshift : leftValue l v = v >>> (8 * (3 - l.toNat)) := by
    rcases lane_cases l with rfl | rfl | rfl | rfl <;> simp [leftValue]
  rw [hshift]
  unfold byteOf
  ext i hi
  simp [show 8 * (3 - l.toNat) + (8 * j + i) = 8 * (3 - l.toNat + j) + i by omega]

/-- The lanes that SWR writes, and what it puts on them (R173). -/
theorem rightMask_getLsbD (l : BitVec 2) {j : Nat} (hj : j < 4) :
    (rightMask l).getLsbD j = decide (l.toNat ≤ j) := by
  have : ∀ l : BitVec 2, ∀ j : Fin 4, (rightMask l).getLsbD j = decide (l.toNat ≤ j.val) := by decide
  exact this l ⟨j, hj⟩

theorem byteOf_rightValue (l : BitVec 2) (v : Word) {j : Nat} (hj : l.toNat ≤ j) (hj4 : j < 4) :
    byteOf (rightValue l v) j = byteOf v (j - l.toNat) := by
  have hshift : rightValue l v = v <<< (8 * l.toNat) := by
    rcases lane_cases l with rfl | rfl | rfl | rfl <;> simp [rightValue]
  rw [hshift]
  unfold byteOf
  ext i hi
  simp [show 8 * j + i < 32 by omega, show ¬ 8 * j + i < 8 * l.toNat by omega,
    show 8 * j + i - 8 * l.toNat = 8 * (j - l.toNat) + i by omega,
    show 8 * (j - l.toNat) + i < 32 by omega]

theorem exec_swl (rt rs : Reg) (imm : Half) (s : State) :
    exec (.swl rt imm rs) s = storeMasked (wordOf (eaOf s rs imm)) (leftMask (lane (eaOf s rs imm)))
      (leftValue (lane (eaOf s rs imm)) (s.x rt)) s := rfl

theorem exec_swr (rt rs : Reg) (imm : Half) (s : State) :
    exec (.swr rt imm rs) s = storeMasked (wordOf (eaOf s rs imm)) (rightMask (lane (eaOf s rs imm)))
      (rightValue (lane (eaOf s rs imm)) (s.x rt)) s := rfl

/-- Settles O23: the mask selects the lanes up to (from) the address, and the value is shifted onto them. -/
theorem unalignedStores : Obligations.UnalignedStores := by
  rintro rt rs imm s va k n rfl rfl hk hreach hmem
  rw [← lane_toNat]
  have hlane := (lane (eaOf s rs imm)).isLt
  constructor
  · obtain ⟨t, hnext, hcomp, hframe, hget⟩ := (masked_leaves (exec_swl rt rs imm s)
      (memWriteMasked_key _ _ hreach hk) rfl rfl rfl rfl).memory
    refine ⟨t, hnext, hcomp, hframe, fun j hj => ?_, fun a ha => ?_⟩
    · rw [hget, Memory.get_writeMasked _ _ _ _ _ hmem, Nat.add_sub_cancel_left,
        leftMask_getLsbD _ (by omega), if_pos ⟨by omega, by omega, by simpa using hj⟩,
        byteOf_leftValue _ _ hj]
    · rw [hget, Memory.get_writeMasked _ _ _ _ _ hmem, if_neg]
      rintro ⟨hlo, hhi, hm⟩
      rw [leftMask_getLsbD _ (by omega), decide_eq_true_eq] at hm
      omega
  · obtain ⟨t, hnext, hcomp, hframe, hget⟩ := (masked_leaves (exec_swr rt rs imm s)
      (memWriteMasked_key _ _ hreach hk) rfl rfl rfl rfl).memory
    refine ⟨t, hnext, hcomp, hframe, fun j hj hj4 => ?_, fun a ha => ?_⟩
    · rw [hget, Memory.get_writeMasked _ _ _ _ _ hmem, Nat.add_sub_cancel_left,
        rightMask_getLsbD _ hj4, if_pos ⟨by omega, by omega, by simpa using hj⟩,
        byteOf_rightValue _ _ hj hj4]
    · rw [hget, Memory.get_writeMasked _ _ _ _ _ hmem, if_neg]
      rintro ⟨hlo, hhi, hm⟩
      rw [rightMask_getLsbD _ (by omega), decide_eq_true_eq] at hm
      omega

/-! ## Accesses that reach no memory (R60, R69) -/

/-- BIOS begins at a word, so the aligned word of an address in BIOS lies in BIOS. -/
theorem region_bios_wordOf {s : State} {va : Word} {o : Nat} (h : s.region va = .bios o) :
    ∃ o', s.region (wordOf va) = .bios o' := by
  cases hseg : segmentOf (va.toNat / 2 ^ 29) with
  | none =>
    rw [region_unmapped hseg] at h
    split at h <;> cases h
  | some g =>
    rw [region_mapped hseg] at h
    obtain ⟨ho, hp⟩ := physRegion_bios h
    rw [region_mapped (by rwa [wordOf_segment]), wordOf_toNat, physRegion_eq]
    unfold biosBase biosSize at *
    simp (disch := omega) only [if_pos, if_neg]
    exact ⟨_, rfl⟩

theorem nowhere_wordOf {s : State} {va : Word} (h : s.isolated va = true ∨ ∃ o, s.region va = .bios o) :
    s.isolated (wordOf va) = true ∨ ∃ o, s.region (wordOf va) = .bios o :=
  h.imp (isolated_wordOf s va).trans fun ⟨_, hb⟩ => region_bios_wordOf hb

/-- An isolated load completes with a draw of its width (R69). -/
theorem load_draws {i : Instr} {s : State} {rt : Reg} {va : Word} {w : Width} {f : Word → Word} {x : Word}
    (h : exec i s = loadWith rt va w f s) (hp : Permitted s va w) (hr : s.reversed = false)
    (hi : s.isolated va = true) (hx : f (w.trunc s.drawn) = x) (h1 : readsHilo i = false)
    (h2 : multipliesOrDivides i = false) : LoadsDraw i s rt x :=
  load_completes h (memRead_isolated hp hr hi) hx rfl rfl h1 h2

/-- LWL at the last byte of a word takes the whole word (R167), and LWR at the first one (R168). -/
theorem mergeLeft_whole {va : Word} (h : va.toNat % 4 = 3) (cur m : Word) :
    mergeLeft (lane va) cur m = m := by
  rw [show lane va = 3 from BitVec.eq_of_toNat_eq ((lane_toNat va).trans h)]
  rfl

theorem mergeRight_whole {va : Word} (h : va.toNat % 4 = 0) (cur m : Word) :
    mergeRight (lane va) cur m = m := by
  rw [show lane va = 0 from BitVec.eq_of_toNat_eq ((lane_toNat va).trans h)]
  rfl

/-- Settles O24: the access does nothing, or draws, whatever the width and the mask. -/
theorem accessesThatReachNoMemory : Obligations.AccessesThatReachNoMemory := by
  rintro rt rs imm s va rfl hpriv hre
  have hr : s.reversed = false := Bool.eq_false_iff.mpr (mt reversed_iff.mp hre)
  have hp {w : Width} (ha : (eaOf s rs imm).toNat % w.bytes = 0) : Permitted s (eaOf s rs imm) w :=
    permitted_of ha hpriv
  have hpb : Permitted s (eaOf s rs imm) .byte := hp (Nat.mod_one _)
  refine ⟨fun hno => ⟨?_, ?_, ?_, fun ha => ?_, fun ha => ?_⟩, fun hi i v hv => ?_⟩
  · exact store_leaves rfl (memWrite_nowhere _ hpb hr hno) rfl rfl rfl rfl
  · exact masked_leaves (exec_swl rt rs imm s)
      (memWriteMasked_nowhere _ _ hpb.wordOf hr (nowhere_wordOf hno)) rfl rfl rfl rfl
  · exact masked_leaves (exec_swr rt rs imm s)
      (memWriteMasked_nowhere _ _ hpb.wordOf hr (nowhere_wordOf hno)) rfl rfl rfl rfl
  · exact store_leaves rfl (memWrite_nowhere _ (hp (w := .half) ha) hr hno) rfl rfl rfl rfl
  · exact store_leaves rfl (memWrite_nowhere _ (hp (w := .word) ha) hr hno) rfl rfl rfl rfl
  · have hiw := (isolated_wordOf s (eaOf s rs imm)).trans hi
    rcases hv with ⟨rfl, rfl⟩ | ⟨rfl, rfl⟩ | ⟨rfl, ha, rfl⟩ | ⟨rfl, ha, rfl⟩ | ⟨rfl, ha, rfl⟩ |
      ⟨rfl, ha, rfl⟩ | ⟨rfl, ha, rfl⟩
    · exact load_draws rfl hpb hr hi (sextByte_setWidth _) rfl rfl
    · exact load_draws rfl hpb hr hi rfl rfl rfl
    · exact load_draws rfl (hp (w := .half) ha) hr hi (sextHalf_setWidth _) rfl rfl
    · exact load_draws rfl (hp (w := .half) ha) hr hi rfl rfl rfl
    · exact load_draws rfl (hp (w := .word) ha) hr hi rfl rfl rfl
    · exact load_draws rfl hpb.wordOf hr hiw (mergeLeft_whole ha _ _) rfl rfl
    · exact load_draws rfl hpb.wordOf hr hiw (mergeRight_whole ha _ _) rfl rfl

/-! ## CACHE_CTRL (R59) -/

section CacheCtrl

variable {s : State} {va : Word} (hva : wordOf va = 0xFFFE0130) (hk : ¬ inUserMode s)

include hva

theorem cacheCtrl_segment : segmentOf (va.toNat / 2 ^ 29) = none := by
  rw [segment_of_cacheCtrl hva]
  rfl

theorem region_cacheCtrl : s.region va = .cacheCtrl := by
  rw [region_unmapped (cacheCtrl_segment hva), if_pos hva]

include hk

theorem reaches_cacheCtrl {w : Width} (ha : va.toNat % w.bytes = 0) : Reaches s va w where
  aligned := ha
  permitted := fun h => hk h.1
  ordinary := fun h => hk h.1
  notIsolated := by rw [isolated_eq, cacheCtrl_segment hva]; simp

theorem memRead_cacheCtrl {w : Width} (ha : va.toNat % w.bytes = 0) :
    memRead va w .load s = .ok (cacheCtrlRead s.cacheCtrl va w) s := by
  rw [memRead_reaches (reaches_cacheCtrl hva hk ha), busRead, region_cacheCtrl hva]

theorem memWrite_cacheCtrl {w : Width} (v : Word) (ha : va.toNat % w.bytes = 0) :
    memWrite va w v s =
      .ok () { s with cacheCtrl := cacheCtrlWrite s.cacheCtrl (va.toNat % 4) w.bytes v } := by
  rw [memWrite_reaches (reaches_cacheCtrl hva hk ha), busWrite, region_cacheCtrl hva]

end CacheCtrl

/-- The alignment of an address is that of its place in its word. -/
theorem mod_four_mod_bytes (a : Nat) (w : Width) : a % 4 % w.bytes = a % w.bytes := by
  cases w <;> simp only [Width.bytes] <;> omega

/-- Settles O25: each access of CACHE_CTRL is of the bytes it addresses. -/
theorem cacheControlIsStorage : Obligations.CacheControlIsStorage := by
  rintro rt rs imm s va n rfl hva rfl hk
  have hbyte := memRead_cacheCtrl (w := .byte) hva hk (Nat.mod_one _)
  rw [cacheCtrlRead_byte] at hbyte
  refine ⟨loads_of_read rfl hbyte (sextByte_setWidth _) rfl rfl, loads_of_read rfl hbyte rfl rfl rfl,
    fun ha => ?_, fun ha => ?_, fun w i ha hi => ?_⟩
  · have hread := memRead_cacheCtrl (w := .half) hva hk ((mod_four_mod_bytes _ .half).symm.trans ha)
    rw [cacheCtrlRead_half] at hread
    exact ⟨loads_of_read rfl hread (sextHalf_setWidth _) rfl rfl, loads_of_read rfl hread rfl rfl rfl⟩
  · exact loads_of_read rfl (memRead_cacheCtrl hva hk ha) (cacheCtrlRead_word ha) rfl rfl
  · rw [mod_four_mod_bytes] at ha
    obtain ⟨hexec, h1, h2⟩ := exec_store (s := s) hi
    exact ⟨_, store_leaves hexec (memWrite_cacheCtrl hva hk _ ha) rfl rfl h1 h2, fun j hj =>
      byteOf_cacheCtrlWrite _ _ _ _ hj⟩

/-! ## External devices (R58, R161) -/

section Device

variable {s : State} {va : Word} {w : Width} {d : ExtDevice} {o : Nat}

/-- A call of a device that schedules nothing is recorded, and that is all (R242). -/
theorem deviceCall_quiet (c : ExtCall) (h : s.inputs.regReplies = []) : deviceCall c s = s.record c := by
  have hin : { s.inputs with regReplies := s.inputs.regReplies.tail } = s.inputs := by
    rw [h, List.tail_nil, ← h]
  rw [deviceCall, hin, h]
  rfl

theorem memRead_device (h : Reaches s va w) (hr : s.region va = .device d o)
    (hq : s.inputs.regReplies = []) :
    memRead va w .load s = .ok (w.trunc s.drawn) (s.nextDraw.record (.devRead d o w.bytes)) := by
  rw [memRead_reaches h, busRead, hr]
  simp only [reduceCtorEq, if_false, deviceRead, deviceCall_quiet _ hq]
  rfl

theorem memWrite_device (v : Word) (h : Reaches s va w) (hr : s.region va = .device d o)
    (hq : s.inputs.regReplies = []) :
    memWrite va w v s = .ok () (s.record (.devWrite d o w.bytes (w.trunc v))) := by
  rw [memWrite_reaches h, busWrite, hr]
  simp only [deviceWrite, deviceCall_quiet _ hq]

end Device

/-- Settles O29: the device answers with one recorded call, a read with a draw of its width. -/
theorem deviceAccesses : Obligations.DeviceAccesses := by
  rintro rt rs imm s va d o rfl hr hq
  refine ⟨fun hb => ⟨?_, ?_⟩, fun hh => ⟨?_, ?_⟩, fun hw => ⟨?_, ?_⟩⟩
  · exact load_completes rfl (memRead_device hb hr hq) rfl rfl rfl rfl rfl
  · exact store_leaves rfl (memWrite_device _ hb hr hq) rfl rfl rfl rfl
  · exact load_completes rfl (memRead_device hh hr hq) rfl rfl rfl rfl rfl
  · exact store_leaves rfl (memWrite_device _ hh hr hq) rfl rfl rfl rfl
  · exact load_completes rfl (memRead_device hw hr hq) rfl rfl rfl rfl rfl
  · exact store_leaves rfl (memWrite_device _ hw hr hq) rfl rfl rfl rfl

end Sys2Proof.Claims

namespace Sys2Proof.Machine

open Sys2Proof.Claims

/-! ## RAM words as the DMA addresses them (R70) -/

theorem dmaKey_eq (a : BitVec 24) : dmaKey a = a.toNat % 0x200000 / 4 * 4 := by
  have hbits : a &&& 0x1FFFFC#24 = ((a.setWidth 21) >>> 2).setWidth 24 <<< 2 := by
    ext i hi
    interval_cases i <;> simp
  unfold dmaKey ramSize
  rw [show (0x1FFFFC : BitVec 24) = 0x1FFFFC#24 from rfl, hbits]
  simp [Nat.shiftRight_eq_div_pow, Nat.shiftLeft_eq]
  omega

/-- Different words do not overlap. -/
theorem dmaKey_disjoint {a b : BitVec 24} (h : dmaKey a ≠ dmaKey b) :
    dmaKey a + 4 ≤ dmaKey b ∨ dmaKey b + 4 ≤ dmaKey a := by
  rw [dmaKey_eq, dmaKey_eq] at *
  omega

/-- The memory with `val i` at the RAM word of `addr i` for each `i < k`, in this order. -/
def Memory.writeWords (m : Memory) (addr : Nat → BitVec 24) (val : Nat → Word) : Nat → Memory
  | 0 => m
  | k + 1 => (m.writeWords addr val k).writeLE (dmaKey (addr k)) 4 (val k)

section WriteWords

variable {m : Memory} (hm : m.wf = true) (addr : Nat → BitVec 24) (val : Nat → Word) (k : Nat)

include hm

theorem Memory.wf_writeWords : (m.writeWords addr val k).wf = true := by
  induction k with
  | zero => exact hm
  | succ k ih => exact Memory.wf_writeLE _ _ _ _ ih

/-- The writes stay in RAM. -/
theorem Memory.get_writeWords_above {p : Nat} (hp : ramSize ≤ p) :
    (m.writeWords addr val k).get p = m.get p := by
  induction k with
  | zero => rfl
  | succ k ih =>
    have hbound := dmaKey_bound (addr k)
    rw [Memory.writeWords, Memory.get_writeLE_outside _ _ _ _ _ (Memory.wf_writeWords hm addr val k)
      (by omega), ih]

/-- A word read is not changed by a write of another word. -/
theorem Memory.readLE_writeLE_ne {a b : BitVec 24} (v : Word) (h : dmaKey b ≠ dmaKey a) :
    (m.writeLE (dmaKey a) 4 v).readLE (dmaKey b) 4 = m.readLE (dmaKey b) 4 :=
  Memory.readLE_congr _ _ _ _ fun j hj =>
    Memory.get_writeLE_outside _ _ _ _ _ hm (by have := dmaKey_disjoint h; omega)

theorem Memory.readLE_writeWords_outside {b : BitVec 24} (hb : ∀ i < k, dmaKey b ≠ dmaKey (addr i)) :
    (m.writeWords addr val k).readLE (dmaKey b) 4 = m.readLE (dmaKey b) 4 := by
  induction k with
  | zero => rfl
  | succ k ih =>
    rw [Memory.writeWords, Memory.readLE_writeLE_ne (Memory.wf_writeWords hm addr val k) _ (hb k (by omega)),
      ih fun i hi => hb i (by omega)]

/-- Of distinct words each holds what was written to it. -/
theorem Memory.readLE_writeWords_inside
    (hdist : ∀ i j, i < j → j < k → dmaKey (addr i) ≠ dmaKey (addr j)) {i : Nat} (hi : i < k) :
    (m.writeWords addr val k).readLE (dmaKey (addr i)) 4 = val i := by
  induction k with
  | zero => omega
  | succ k ih =>
    have hwf := Memory.wf_writeWords hm addr val k
    rw [Memory.writeWords]
    rcases Nat.lt_succ_iff_lt_or_eq.mp hi with hlt | rfl
    · rw [Memory.readLE_writeLE_ne hwf _ (hdist i k hlt (by omega)),
        ih (fun i j hij hj => hdist i j hij (by omega)) hlt]
    · exact Memory.readLE_writeLE _ _ _ hwf

end WriteWords

/-! ## The addresses of a transfer (R228, R232) -/

/-- The address of channel `n` after `i` words; `dmaStep` says it of channels 0 to 5. -/
def addrAfter (n : ChanNum) (c : DmaChannel) (i : Nat) : BitVec 24 :=
  if chcrStep (chcrOf n c) then c.addr - 4 * BitVec.ofNat 24 i else c.addr + 4 * BitVec.ofNat 24 i

/-- Only channel 6 has a fixed bit in CHCR (R228). -/
theorem chcrOf_ne_six {n : ChanNum} (h : n ≠ 6) (c : DmaChannel) : chcrOf n c = c.chcr := if_neg h

theorem addrAfter_eq_dmaStep {n : ChanNum} (h : n ≠ 6) (c : DmaChannel) (i : Nat) :
    addrAfter n c i = dmaStep c i := by
  rw [addrAfter, dmaStep, chcrOf_ne_six h, chcrStep]

/-- Channel 6 always goes down (R228). -/
theorem addrAfter_six (c : DmaChannel) (i : Nat) : addrAfter 6 c i = c.addr - 4 * BitVec.ofNat 24 i := by
  simp [addrAfter, chcrOf, chcrStep]

theorem addrAfter_zero (n : ChanNum) (c : DmaChannel) : addrAfter n c 0 = c.addr := by
  simp [addrAfter]

theorem steppedAddr_addrAfter (n : ChanNum) {c c' : DmaChannel} {i : Nat} (ha : c'.addr = addrAfter n c i)
    (hc : c'.chcr = c.chcr) : steppedAddr n c' = addrAfter n c (i + 1) := by
  have hof : chcrOf n c' = chcrOf n c := by rw [chcrOf, chcrOf, hc]
  rw [steppedAddr, hof, ha, addrAfter, addrAfter, BitVec.ofNat_add, show BitVec.ofNat 24 1 = 1 from rfl]
  split
  · ring
  · ring

/-- The words of a transfer of up to all of RAM are distinct. -/
theorem dmaKey_addrAfter_ne (n : ChanNum) (c : DmaChannel) {i j : Nat} (hij : i < j) (hj : j < 0x80000) :
    dmaKey (addrAfter n c i) ≠ dmaKey (addrAfter n c j) := by
  have ha := c.addr.isLt
  have h4 : (4 : BitVec 24).toNat = 4 := rfl
  rw [dmaKey_eq, dmaKey_eq, addrAfter, addrAfter]
  split
  · simp only [BitVec.toNat_sub, BitVec.toNat_mul, BitVec.toNat_ofNat, h4]
    omega
  · simp only [BitVec.toNat_add, BitVec.toNat_mul, BitVec.toNat_ofNat, h4]
    omega

/-! ## Moving words (R232, R233, R235) -/

theorem State.setChan_setChan (s : State) (n : ChanNum) (c d : DmaChannel) :
    (s.setChan n c).setChan n d = s.setChan n d := by
  simp [State.setChan]

/-- One word of a manual transfer (R235). -/
def manualWord (n : ChanNum) (s : State) : State :=
  let s1 := transferWord n ((s.chan n).wordsLeft == 1) s
  s1.setChan n { s1.chan n with wordsLeft := (s1.chan n).wordsLeft - 1 }

/-- What channel `n`, whose registers are those of `c`, leaves of `s` beside itself when it moves `k` words:
the OTC generator's into memory, memory's to the device, or the device's into memory (R232, R233). -/
def dataMoved (n : ChanNum) (c : DmaChannel) (last : Nat → Bool) (k : Nat) (s : State) : State :=
  if n = 6 then
    { s with mem := s.mem.writeWords (addrAfter n c) (fun i => otcWord (addrAfter n c i) (last i)) k }
  else if chcrDir c.chcr then
    { s with calls := ((List.range k).map fun i =>
        ExtCall.dmaWrite n (s.ramWord (addrAfter n c i))).reverse ++ s.calls }
  else
    { s with
      mem := s.mem.writeWords (addrAfter n c) (fun i => Config.freeWord (s.inputs.drawIndex + i)) k
      calls := List.replicate k (.dmaRead n) ++ s.calls
      inputs := { s.inputs with drawIndex := s.inputs.drawIndex + k } }

section DataMoved

variable (n : ChanNum) (c : DmaChannel) (last : Nat → Bool) (k : Nat) (s : State)

theorem dataMoved_zero : dataMoved n c last 0 s = s := by
  unfold dataMoved
  split
  · rfl
  · split <;> rfl

theorem dataMoved_setChan (d : DmaChannel) :
    dataMoved n c last k (s.setChan n d) = (dataMoved n c last k s).setChan n d := by
  unfold dataMoved
  split
  · rfl
  · split <;> rfl

/-- Nothing but memory, the recorded calls and the draws changes. -/
theorem dataMoved_rest : dataMoved n c last k s =
    { s with
      mem := (dataMoved n c last k s).mem
      calls := (dataMoved n c last k s).calls
      inputs := (dataMoved n c last k s).inputs } := by
  unfold dataMoved
  split
  · rfl
  · split <;> rfl

@[simp] theorem dataMoved_dma : (dataMoved n c last k s).dma = s.dma := by rw [dataMoved_rest]
@[simp] theorem dataMoved_sched : (dataMoved n c last k s).sched = s.sched := by rw [dataMoved_rest]

variable {n c last k s}

/-- One more word. -/
theorem moveWord_dataMoved {c' : DmaChannel} (ha : c'.addr = addrAfter n c k) (hc : c'.chcr = c.chcr) :
    moveWord n (last k) ((dataMoved n c last k s).setChan n c') =
      (dataMoved n c last (k + 1) s).setChan n c' := by
  unfold moveWord
  simp only [State.setChan_chan_same, ha, hc]
  by_cases hn : n = 6
  · simp only [dataMoved, if_pos hn]
    rfl
  · by_cases hd : chcrDir c.chcr = true
    · simp only [dataMoved, if_neg hn, if_pos hd, List.range_succ, List.map_append, List.reverse_append]
      rfl
    · simp only [dataMoved, if_neg hn, if_neg hd]
      rfl

theorem transferWord_dataMoved {c' : DmaChannel} (ha : c'.addr = addrAfter n c k) (hc : c'.chcr = c.chcr) :
    transferWord n (last k) ((dataMoved n c last k s).setChan n c') =
      (dataMoved n c last (k + 1) s).setChan n { c' with addr := addrAfter n c (k + 1) } := by
  rw [transferWord, moveWord_dataMoved ha hc, State.setChan_chan_same, State.setChan_setChan,
    steppedAddr_addrAfter n ha hc]

theorem manualWord_dataMoved {c' : DmaChannel} (ha : c'.addr = addrAfter n c k) (hc : c'.chcr = c.chcr)
    (hw : last k = (c'.wordsLeft == 1)) :
    manualWord n ((dataMoved n c last k s).setChan n c') = (dataMoved n c last (k + 1) s).setChan n
      { c' with addr := addrAfter n c (k + 1), wordsLeft := c'.wordsLeft - 1 } := by
  simp only [manualWord, State.setChan_chan_same, ← hw, transferWord_dataMoved ha hc, State.setChan_setChan]

end DataMoved

theorem transferManual_eq_iterate (n : ChanNum) (k : Nat) (s : State) :
    transferManual n k s = (manualWord n)^[k] s := by
  induction k generalizing s with
  | zero => rfl
  | succ k ih => exact ih _

theorem transferBlock_eq_iterate (n : ChanNum) (k : Nat) (s : State) :
    transferBlock n k s = (transferWord n false)^[k] s := by
  induction k generalizing s with
  | zero => rfl
  | succ k ih => exact ih _

/-- `k` words of a manual transfer: the data, and the channel's own address and count. -/
theorem transferManual_eq {n : ChanNum} {s : State} {c : DmaChannel} (hc : s.chan n = c) (k : Nat) :
    transferManual n k s = (dataMoved n c (fun i => c.wordsLeft - i == 1) k s).setChan n
      { c with addr := addrAfter n c k, wordsLeft := c.wordsLeft - k } := by
  rw [transferManual_eq_iterate]
  induction k with
  | zero =>
    rw [dataMoved_zero, addrAfter_zero, Nat.sub_zero]
    exact (hc ▸ State.setChan_self s n).symm
  | succ k ih =>
    rw [Function.iterate_succ_apply', ih]
    exact manualWord_dataMoved (last := fun i => c.wordsLeft - i == 1) rfl rfl rfl

theorem transferBlock_eq {n : ChanNum} {s : State} {c : DmaChannel} (hc : s.chan n = c) (k : Nat) :
    transferBlock n k s =
      (dataMoved n c (fun _ => false) k s).setChan n { c with addr := addrAfter n c k } := by
  rw [transferBlock_eq_iterate]
  induction k with
  | zero =>
    rw [dataMoved_zero, addrAfter_zero]
    exact (hc ▸ State.setChan_self s n).symm
  | succ k ih =>
    rw [Function.iterate_succ_apply', ih]
    exact transferWord_dataMoved (last := fun _ => false) rfl rfl

/-! ## The end of an event (R237) -/

/-- A channel whose transfer is complete (R237). -/
def completedChan (c : DmaChannel) : DmaChannel :=
  { c with chcr := c.chcr &&& ~~~chcrBusyBit, phase := .idle }

section Complete

variable (n : ChanNum) (s : State)

/-- DICR is the DMA's and I_STAT the interrupt controller's; nothing else changes (R238). -/
theorem setDicr_rest (ctl : BitVec 24) (flag : BitVec 7) :
    ∃ q, s.setDicr ctl flag =
      { s with dma := { s.dma with dicrCtl := ctl, dicrFlag := flag }, irq := q } := by
  unfold State.setDicr
  dsimp only
  split
  · exact ⟨_, rfl⟩
  · exact ⟨_, rfl⟩

/-- A completion makes the channel Idle without BUSY, and beside it changes DICR's flags and I_STAT only. -/
theorem dmaComplete_rest :
    ∃ q flag, dmaComplete n s =
      { s.setChan n (completedChan (s.chan n)) with
        irq := q
        dma := { (s.setChan n (completedChan (s.chan n))).dma with dicrFlag := flag } } := by
  unfold dmaComplete
  dsimp only
  split
  · obtain ⟨q, hq⟩ := setDicr_rest (s.setChan n (completedChan (s.chan n))) s.dma.dicrCtl
      (s.dma.dicrFlag ||| flagBit n)
    exact ⟨q, _, hq⟩
  · exact ⟨s.irq, s.dma.dicrFlag, rfl⟩

@[simp] theorem dmaComplete_mem : (dmaComplete n s).mem = s.mem := by
  obtain ⟨q, flag, h⟩ := dmaComplete_rest n s
  rw [h]
  rfl

@[simp] theorem dmaComplete_sched : (dmaComplete n s).sched = s.sched := by
  obtain ⟨q, flag, h⟩ := dmaComplete_rest n s
  rw [h]
  rfl

@[simp] theorem dmaComplete_calls : (dmaComplete n s).calls = s.calls := by
  obtain ⟨q, flag, h⟩ := dmaComplete_rest n s
  rw [h]
  rfl

@[simp] theorem dmaComplete_inputs : (dmaComplete n s).inputs = s.inputs := by
  obtain ⟨q, flag, h⟩ := dmaComplete_rest n s
  rw [h]
  rfl

@[simp] theorem dmaComplete_phase : ((dmaComplete n s).chan n).phase = .idle := by
  obtain ⟨q, flag, h⟩ := dmaComplete_rest n s
  rw [h]
  exact congrArg DmaChannel.phase (State.setChan_chan_same s n _)

end Complete

/-! ## The events (R235) -/

/-- The state after `k` words of channel `n` and their bus time, with the channel left as `c'`. -/
def afterWords (n : ChanNum) (c : DmaChannel) (last : Nat → Bool) (k : Nat) (c' : DmaChannel) (s : State) :
    State :=
  ((dataMoved n c last k s).setChan n c').addCycles (k * s.cfg.dmaWordCycles)

@[simp] theorem afterWords_chan (n : ChanNum) (c : DmaChannel) (last : Nat → Bool) (k : Nat)
    (c' : DmaChannel) (s : State) : (afterWords n c last k c' s).chan n = c' :=
  State.setChan_chan_same _ n c'

@[simp] theorem afterWords_mem (n : ChanNum) (c : DmaChannel) (last : Nat → Bool) (k : Nat)
    (c' : DmaChannel) (s : State) : (afterWords n c last k c' s).mem = (dataMoved n c last k s).mem := rfl

@[simp] theorem afterWords_sched (n : ChanNum) (c : DmaChannel) (last : Nat → Bool) (k : Nat)
    (c' : DmaChannel) (s : State) : (afterWords n c last k c' s).sched =
      { s.sched with cycle := s.sched.cycle + k * s.cfg.dmaWordCycles } := by
  simp [afterWords]

theorem afterWords_setChan (n : ChanNum) (c : DmaChannel) (last : Nat → Bool) (k : Nat)
    (c' d : DmaChannel) (s : State) :
    (afterWords n c last k c' s).setChan n d = afterWords n c last k d s :=
  congrArg (State.addCycles · _) (State.setChan_setChan _ n c' d)

/-- The words of an event are moved from the state in which it found the channel. -/
theorem afterWords_activated (n : ChanNum) (c : DmaChannel) (last : Nat → Bool) (k : Nat) (c' : DmaChannel)
    (s : State) : afterWords n c last k c' (activated n s) = afterWords n c last k c' s := by
  rw [afterWords, activated, dataMoved_setChan, State.setChan_setChan]
  rfl

/-- The state after a burst of `k` words of a manual transfer. -/
def afterBurst (n : ChanNum) (c : DmaChannel) (k : Nat) (s : State) : State :=
  afterWords n c (fun i => c.wordsLeft - i == 1) k
    { c with addr := addrAfter n c k, wordsLeft := c.wordsLeft - k } s

/-- The state after a block of a request transfer. -/
def afterBlock (n : ChanNum) (c : DmaChannel) (s : State) : State :=
  afterWords n c (fun _ => false) (bcrLow c.bcr)
    { c with addr := addrAfter n c (bcrLow c.bcr), blocksLeft := c.blocksLeft - 1 } s

theorem burstSize_le (c : DmaChannel) : burstSize c ≤ c.wordsLeft := by
  unfold burstSize
  split
  · exact Nat.min_le_right _ _
  · exact le_rfl

/-- A manual event (R235): the burst, and a completion or the next burst's event. -/
theorem runManual_eq {n : ChanNum} {s : State} {c : DmaChannel} {k : Nat} (hc : s.chan n = c)
    (hk : burstSize c = k) :
    runManual n s = if k = c.wordsLeft then dmaComplete n (afterBurst n c k s)
      else ((afterBurst n c k s).setChan n
        { (afterBurst n c k s).chan n with phase := .chopWait }).schedule
          (2 ^ chcrCwin c.chcr) (.dma n) 0 := by
  have hle := burstSize_le c
  have hdone : (c.wordsLeft - k = 0) = (k = c.wordsLeft) := propext (by omega)
  unfold runManual
  simp only [hc, hk, transferManual_eq hc]
  rw [← afterWords, ← afterBurst]
  simp only [afterBurst, afterWords_chan, hdone]

/-- A request event with DREQ = 1 (R235): one block, and a completion or the next poll. -/
theorem runBlock_eq {n : ChanNum} {s : State} {c : DmaChannel} (hc : s.chan n = c) :
    runBlock n s = if c.blocksLeft - 1 = 0 then dmaComplete n (afterBlock n c s)
      else (afterBlock n c s).schedule s.cfg.dmaDreqPoll (.dma n) 0 := by
  unfold runBlock
  simp only [hc, transferBlock_eq hc]
  rw [← afterWords]
  simp only [afterWords_chan, afterWords_setChan]
  rw [← afterBlock]

theorem nextWord_addr (a : BitVec 24) (i : Nat) :
    a + 4 + 4 * BitVec.ofNat 24 i = a + 4 * BitVec.ofNat 24 (i + 1) := by
  rw [BitVec.ofNat_add, show BitVec.ofNat 24 1 = 1 from rfl]
  ring

/-- The payload of a node (R235): its words are sent, and nothing else happens. -/
theorem sendPayload_eq (n : ChanNum) (k : Nat) (a : BitVec 24) (s : State) :
    sendPayload n k a s = { s with calls := ((List.range k).map fun i =>
      ExtCall.dmaWrite n (s.ramWord (a + 4 * BitVec.ofNat 24 i))).reverse ++ s.calls } := by
  induction k generalizing a s with
  | zero => rfl
  | succ k ih =>
    have hfirst : a = a + 4 * BitVec.ofNat 24 0 := by simp
    rw [sendPayload, ih, List.range_succ_eq_map, List.map_cons, List.map_map, List.reverse_cons, ← hfirst,
      List.append_assoc]
    simp only [nextWord_addr]
    rfl

/-- The state after a linked-list node at `p` with `count` payload words. -/
def afterNode (n : ChanNum) (p : BitVec 24) (count : Nat) (s : State) : State :=
  { s with calls := ((List.range count).map fun i =>
      ExtCall.dmaWrite n (s.ramWord (p + 4 * BitVec.ofNat 24 (i + 1)))).reverse ++ s.calls }.addCycles
    ((count + 1) * s.cfg.dmaWordCycles)

/-- A linked-list event with DREQ = 1 (R235): one node, and a completion or the next node's event. -/
theorem runNode_eq {n : ChanNum} {s : State} {c : DmaChannel} {h : Word} (hc : s.chan n = c)
    (hh : s.ramWord c.listPtr = h) :
    runNode n s = if h.getLsbD 23 then dmaComplete n (afterNode n c.listPtr (h.toNat / 2 ^ 24) s)
      else ((afterNode n c.listPtr (h.toNat / 2 ^ 24) s).setChan n
        { c with listPtr := h.setWidth 24 }).schedule s.cfg.dmaDreqPoll (.dma n) 0 := by
  have hcount : (h.extractLsb' 24 8).toNat = h.toNat / 2 ^ 24 := by
    have := h.isLt
    simp [Nat.shiftRight_eq_div_pow]
    omega
  have hnode : (sendPayload n (h.toNat / 2 ^ 24) (c.listPtr + 4) s).addCycles
      ((h.toNat / 2 ^ 24 + 1) * s.cfg.dmaWordCycles) = afterNode n c.listPtr (h.toNat / 2 ^ 24) s := by
    simp only [sendPayload_eq, nextWord_addr, afterNode]
  have hchan : (afterNode n c.listPtr (h.toNat / 2 ^ 24) s).chan n = c := hc
  unfold runNode
  simp only [hc, hh, hcount, hnode, hchan]

end Sys2Proof.Machine

namespace Sys2Proof.Claims

open Sys2Proof.Machine

/-- What moving `k` words leaves is what the statements say of it. -/
theorem dmaMoved_afterWords {n : ChanNum} (hn : n ≠ 6) {s : State} (hmem : s.memOk = true) {k : Nat}
    (hk : k ≤ 0x80000) {c : DmaChannel} (ha : c.addr = (s.chan n).addr) (hc : c.chcr = (s.chan n).chcr)
    (last : Nat → Bool) (c' : DmaChannel) : DmaMoved n k s (afterWords n c last k c' s) := by
  have haddr (i : Nat) : dmaStep (s.chan n) i = addrAfter n c i := by
    rw [addrAfter_eq_dmaStep hn, dmaStep, dmaStep, ha, hc]
  refine ⟨?_, fun m hm => ?_, ⟨?_, ?_, ?_⟩, ?_, fun hdir => ?_, fun hdir => ?_⟩
  · rw [afterWords, dataMoved_rest]; rfl
  · exact (State.setChan_chan_ne _ _ hm.symm).trans (State.chan_congr (dataMoved_dma _ _ _ _ _) m)
  · simp [afterWords]
  · simp [afterWords]
  · simp [afterWords]
  · exact afterWords_sched _ _ _ _ _ _
  · have hsend : dataMoved n c last k s = { s with calls := ((List.range k).map fun i =>
        ExtCall.dmaWrite n (s.ramWord (addrAfter n c i))).reverse ++ s.calls } := by
      rw [dataMoved, if_neg hn, if_pos (by rw [chcrDir, hc, hdir])]
    simp only [haddr, afterWords, hsend]
    exact ⟨rfl, rfl, rfl⟩
  · have hdata : dataMoved n c last k s = { s with
        mem := s.mem.writeWords (addrAfter n c) (fun i => Config.freeWord (s.inputs.drawIndex + i)) k
        calls := List.replicate k (.dmaRead n) ++ s.calls
        inputs := { s.inputs with drawIndex := s.inputs.drawIndex + k } } := by
      rw [dataMoved, if_neg hn, if_neg (by rw [chcrDir, hc, hdir]; decide)]
    simp only [haddr, afterWords, hdata]
    refine ⟨rfl, rfl, fun i hi => ?_, fun b hb => ?_, fun p hp => ?_⟩
    · exact Memory.readLE_writeWords_inside hmem _ _ _
        (fun i j hij hj => dmaKey_addrAfter_ne n c hij (by omega)) hi
    · exact Memory.readLE_writeWords_outside hmem _ _ _ hb
    · exact Memory.get_writeWords_above hmem _ _ _ hp

/-! ## The event by its mode (R235) -/

section Modes

variable {n : ChanNum} {s : State}

theorem dmaRun_manual (h : chcrSync (chcrOf n (s.chan n)) = 0) :
    dmaRun n s = .ok () (runManual n (activated n s)) := by
  rw [dmaRun, h]; rfl

theorem dmaRun_request (h : chcrSync (chcrOf n (s.chan n)) = 1) :
    dmaRun n s = .ok () (onDreq n (runBlock n) (activated n s)) := by
  rw [dmaRun, h]; rfl

theorem dmaRun_linkedList (h : chcrSync (chcrOf n (s.chan n)) = 2) :
    dmaRun n s = .ok () (onDreq n (runNode n) (activated n s)) := by
  rw [dmaRun, h]; rfl

theorem activated_chan {c : DmaChannel} (hc : c = s.chan n) :
    (activated n s).chan n = { c with phase := .active } := by
  rw [activated, State.setChan_chan_same, hc]

/-- A sample of 1 lets the event run, of 0 makes it poll again (R234). -/
theorem onDreq_one (run : State → State) (h : s.inputs.dreq.headD true = true) :
    onDreq n run (activated n s) = run (activated n (dreqTaken s)) :=
  if_pos h

theorem onDreq_zero (run : State → State) (h : s.inputs.dreq.headD true = false) :
    onDreq n run (activated n s) =
      (activated n (dreqTaken s)).schedule s.cfg.dmaDreqPoll (.dma n) 0 :=
  if_neg (Bool.eq_false_iff.mp h)

end Modes

section Events

variable {n : ChanNum} {s : State} {c : DmaChannel}

theorem manual_transfers (hn : n ≠ 6) (hc : c = s.chan n) (hmem : s.memOk = true) {k : Nat}
    (hk : burstSize c = k) (hsync : c.chcr.extractLsb' 9 2 = 0) (hle : k ≤ 0x80000) :
    ∃ u, DmaMoved n k s u ∧
      u.chan n = { c with phase := .active, addr := dmaStep c k, wordsLeft := c.wordsLeft - k } ∧
      dmaRun n s = .ok () (if k = c.wordsLeft then dmaComplete n u
        else (u.setChan n { u.chan n with phase := .chopWait }).schedule
          (2 ^ (c.chcr.extractLsb' 20 3).toNat) (.dma n) 0) := by
  have hmode : chcrSync (chcrOf n (s.chan n)) = 0 := by rw [chcrOf_ne_six hn, ← hc]; exact hsync
  refine ⟨afterBurst n { c with phase := .active } k s,
    dmaMoved_afterWords hn hmem hle (by rw [hc]) (by rw [hc]) _ _, ?_, ?_⟩
  · rw [afterBurst, afterWords_chan, addrAfter_eq_dmaStep hn]
    rfl
  · rw [dmaRun_manual hmode, runManual_eq (activated_chan hc) hk, afterBurst, afterWords_activated]
    rfl

theorem request_transfers (hn : n ≠ 6) (hc : c = s.chan n) (hmem : s.memOk = true)
    (hsync : c.chcr.extractLsb' 9 2 = 1) (hblocks : 1 ≤ c.blocksLeft)
    (hdreq : s.inputs.dreq.headD true = true) :
    ∃ u, DmaMoved n (bcrLow c.bcr) (dreqTaken s) u ∧
      u.chan n = { c with
        phase := .active, addr := dmaStep c (bcrLow c.bcr), blocksLeft := c.blocksLeft - 1 } ∧
      dmaRun n s = .ok () (if c.blocksLeft = 1 then dmaComplete n u
        else u.schedule s.cfg.dmaDreqPoll (.dma n) 0) := by
  have hmode : chcrSync (chcrOf n (s.chan n)) = 1 := by rw [chcrOf_ne_six hn, ← hc]; exact hsync
  have hle : bcrLow c.bcr ≤ 0x80000 := by
    have := (c.bcr.extractLsb' 0 16).isLt
    rw [bcrLow, countField]
    split <;> omega
  have hdone : (c.blocksLeft - 1 = 0) = (c.blocksLeft = 1) := propext (by omega)
  refine ⟨afterBlock n { c with phase := .active } (dreqTaken s),
    dmaMoved_afterWords hn (s := dreqTaken s) hmem hle (by rw [hc]; rfl) (by rw [hc]; rfl) _ _, ?_, ?_⟩
  · rw [afterBlock, afterWords_chan, addrAfter_eq_dmaStep hn]
    rfl
  · rw [dmaRun_request hmode, onDreq_one _ hdreq, runBlock_eq (activated_chan (s := dreqTaken s) hc),
      afterBlock, afterWords_activated]
    simp only [hdone]
    rfl

theorem linkedList_transfers (hn : n ≠ 6) (hc : c = s.chan n) {p : BitVec 24} {h : Word}
    (hp : p = c.listPtr) (hh : h = s.ramWord p) (hsync : c.chcr.extractLsb' 9 2 = 2)
    (hdreq : s.inputs.dreq.headD true = true) :
    ∃ t, dmaRun n s = .ok () t ∧ t.mem = s.mem ∧
      t.calls = ((List.range (h.toNat / 2 ^ 24)).map fun i =>
        ExtCall.dmaWrite n (s.ramWord (p + 4 * BitVec.ofNat 24 (i + 1)))).reverse ++ s.calls ∧
      t.sched.cycle = s.sched.cycle + (h.toNat / 2 ^ 24 + 1) * s.cfg.dmaWordCycles ∧
      t.inputs = (dreqTaken s).inputs ∧
      (h.getLsbD 23 = true → (t.chan n).phase = .idle ∧ t.sched.queue = s.sched.queue) ∧
      (h.getLsbD 23 = false → (t.chan n).phase = .active ∧ (t.chan n).listPtr = h.setWidth 24 ∧
        t.sched.queue = s.sched.queue ++
          [⟨t.sched.cycle + s.cfg.dmaDreqPoll, s.sched.nextSeq, .dma n, 0⟩]) := by
  have hmode : chcrSync (chcrOf n (s.chan n)) = 2 := by rw [chcrOf_ne_six hn, ← hc]; exact hsync
  rw [dmaRun_linkedList hmode, onDreq_one _ hdreq,
    runNode_eq (h := h) (activated_chan (s := dreqTaken s) hc) (by rw [hh, hp]; rfl), ← hp]
  refine ⟨_, rfl, ?_⟩
  cases h.getLsbD 23 with
  | true =>
    have hsched := dmaComplete_sched n (afterNode n p (h.toNat / 2 ^ 24) (activated n (dreqTaken s)))
    exact ⟨dmaComplete_mem _ _, dmaComplete_calls _ _, congrArg Sched.cycle hsched, dmaComplete_inputs _ _,
      fun _ => ⟨dmaComplete_phase _ _, (congrArg Sched.queue hsched :)⟩, nofun⟩
  | false =>
    have hchan := State.setChan_chan_same (afterNode n p (h.toNat / 2 ^ 24) (activated n (dreqTaken s))) n
      { c with phase := .active, listPtr := h.setWidth 24 }
    exact ⟨rfl, rfl, rfl, rfl, nofun, fun _ =>
      ⟨congrArg DmaChannel.phase hchan, congrArg DmaChannel.listPtr hchan, rfl⟩⟩

theorem sampleZero_polls (hn : n ≠ 6) (hc : c = s.chan n)
    (hsync : c.chcr.extractLsb' 9 2 = 1 ∨ c.chcr.extractLsb' 9 2 = 2)
    (hdreq : s.inputs.dreq.headD true = false) :
    dmaRun n s = .ok ()
      (((dreqTaken s).setChan n { c with phase := .active }).schedule s.cfg.dmaDreqPoll (.dma n) 0) := by
  have hof : chcrOf n (s.chan n) = c.chcr := by rw [chcrOf_ne_six hn, hc]
  rcases hsync with hsync | hsync
  · rw [dmaRun_request (by rw [hof]; exact hsync), onDreq_zero _ hdreq, hc]
    rfl
  · rw [dmaRun_linkedList (by rw [hof]; exact hsync), onDreq_zero _ hdreq, hc]
    rfl

end Events

/-- What the OTC generator supplies for word `i` of `k` (R232). -/
theorem otcWord_addrAfter (c : DmaChannel) {i k : Nat} (hi : i < k) :
    otcWord (addrAfter 6 c i) (k - i == 1) =
      if i + 1 = k then 0x00FFFFFF
      else ((c.addr - 4 * BitVec.ofNat 24 (i + 1)) &&& 0x1FFFFF).setWidth 32 := by
  have hlast : ((k - i == 1) = true) = (i + 1 = k) := by
    rw [beq_iff_eq]
    exact propext (by omega)
  have hbelow : addrAfter 6 c i - 4 = c.addr - 4 * BitVec.ofNat 24 (i + 1) := by
    rw [addrAfter_six, BitVec.ofNat_add, show BitVec.ofNat 24 1 = 1 from rfl]
    ring
  simp only [otcWord, hlast, hbelow]

/-- An unchopped channel 6 transfer is one burst of all its words (R228, R235). -/
theorem otc_mode {c : DmaChannel} (h : c.chcr &&& 0xAEFFFFFF = 0) :
    chcrSync (chcrOf 6 c) = 0 ∧ burstSize c = c.wordsLeft := by
  have hbit (i : Nat) (hi : (0xAEFFFFFF#32).getLsbD i = true) : c.chcr.getLsbD i = false := by
    have hzero : (c.chcr &&& 0xAEFFFFFF#32).getLsbD i = (0#32).getLsbD i := congrArg (BitVec.getLsbD · i) h
    rwa [BitVec.getLsbD_and, hi, Bool.and_true, BitVec.getLsbD_zero] at hzero
  have hsync (i : Nat) (hi : i < 2) : c.chcr.getLsbD (9 + i) = false := by
    interval_cases i <;> exact hbit _ (by decide)
  constructor
  · apply BitVec.eq_of_getLsbD_eq
    intro i hi
    rw [chcrSync, chcrOf, if_pos rfl, BitVec.getLsbD_extractLsb', BitVec.getLsbD_or, hsync i hi]
    interval_cases i <;> rfl
  · rw [burstSize, chcrChop, hbit 8 (by decide)]
    rfl

/-- Settles O48: the words are distinct, so each holds what the generator supplied, and every other one and
all memory beyond RAM is as before. -/
theorem otcClearsTable : Obligations.OtcClearsTable := by
  rintro s a k rfl hk - hle hchcr hmem
  obtain ⟨hsync, hburst⟩ := otc_mode hchcr
  have hrun : dmaRun 6 s = .ok () (dmaComplete 6 (afterBurst 6 { s.chan 6 with phase := .active } k s)) := by
    rw [dmaRun_manual hsync, runManual_eq (activated_chan rfl) (hburst.trans hk), if_pos hk.symm, afterBurst,
      afterWords_activated]
    rfl
  have hsched := dmaComplete_sched 6 (afterBurst 6 { s.chan 6 with phase := .active } k s)
  have htable : (dmaComplete 6 (afterBurst 6 { s.chan 6 with phase := .active } k s)).mem =
      s.mem.writeWords (addrAfter 6 (s.chan 6))
        (fun i => otcWord (addrAfter 6 (s.chan 6) i) (k - i == 1)) k := by
    rw [dmaComplete_mem, afterBurst, afterWords_mem, dataMoved, if_pos rfl, ← hk]
    rfl
  refine ⟨_, hrun, dmaComplete_phase _ _, ?_, ?_, fun i hi => ?_, fun b hb => ?_, fun p hp => ?_⟩
  · rw [hsched, afterBurst, afterWords_sched]
  · rw [hsched, afterBurst, afterWords_sched]
  · rw [← otcWord_addrAfter _ hi, ← addrAfter_six, State.ramWord, htable]
    exact Memory.readLE_writeWords_inside hmem _ _ _
      (fun i j hij hj => dmaKey_addrAfter_ne 6 _ hij (by omega)) hi
  · simp only [← addrAfter_six] at hb
    rw [State.ramWord, htable]
    exact Memory.readLE_writeWords_outside hmem _ _ _ hb
  · rw [htable]
    exact Memory.get_writeWords_above hmem _ _ _ hp

/-- Settles O49: each mode's event moves its words from the state in which it found the channel. -/
theorem dmaEventTransfers : Obligations.DmaEventTransfers := by
  intro s n c hn hc hmem
  refine ⟨fun k hk hsync _ hle => ?_, fun k hk hsync hblocks hdreq => ?_, fun p h hp hh hsync hdreq => ?_,
    fun hsync hdreq => ?_⟩
  · exact manual_transfers hn hc hmem hk.symm hsync hle
  · rw [hk]
    exact request_transfers hn hc hmem hsync hblocks hdreq
  · exact linkedList_transfers hn hc hp hh hsync hdreq
  · exact sampleZero_polls hn hc hsync hdreq

end Sys2Proof.Claims

/-! PROOFS that the decoder and the encoder agree (30_encoding.md). -/

namespace Sys2Proof

/-! ## The selector field of REGIMM (R83) -/

theorem selectsBltz_iff : ∀ rt : BitVec 5,
    selectsBltz rt = true ↔ rt ≠ 0b10000#5 ∧ rt ≠ 0b10001#5 ∧ rt[0] = false := by decide

theorem selectsBgez_iff : ∀ rt : BitVec 5,
    selectsBgez rt = true ↔ rt ≠ 0b10000#5 ∧ rt ≠ 0b10001#5 ∧ rt[0] = true := by decide

/-! ## What the decoder answers for each format (R81 to R84)

The operands are arbitrary, also in the fields that the decoder ignores (R86). -/

@[simp] theorem decode_encodeR (rs rt rd sa : BitVec 5) (f : BitVec 6) :
    decode (encodeR rs rt rd sa f) = decodeSpecial (encodeR rs rt rd sa f) := by simp [decode]

@[simp] theorem decode_encodeTrap (code : BitVec 20) (f : BitVec 6) :
    decode (encodeTrap code f) = decodeSpecial (encodeTrap code f) := by simp [decode]

@[simp] theorem decode_encodeI_regimm (rs rt : BitVec 5) (imm : Half) :
    decode (encodeI 0x01#6 rs rt imm) =
      if rt = 0b10000#5 then .instr (.bltzal rs imm)
      else if rt = 0b10001#5 then .instr (.bgezal rs imm)
      else if rt.getLsbD 0 then .instr (.bgez rs rt imm)
      else .instr (.bltz rs rt imm) := by simp [decode, decodeRegimm]

@[simp] theorem decode_encodeMove_cop0 (sub rt rd : BitVec 5) :
    decode (encodeMove 0x10#6 sub rt rd) = decodeCop0 (encodeMove 0x10#6 sub rt rd) := by simp [decode]

@[simp] theorem decode_encodeMove_cop2 (sub rt rd : BitVec 5) :
    decode (encodeMove 0x12#6 sub rt rd) = decodeCop2 (encodeMove 0x12#6 sub rt rd) := by simp [decode]

@[simp] theorem decode_encodeCo_cop0 (cofun : BitVec 25) :
    decode (encodeCo 0x10#6 cofun) =
      if cofun.extractLsb' 0 6 = 0x10#6 then .instr .rfe else .unmodelledCop 0 := by
  simp [decode, decodeCop0]

@[simp] theorem decode_encodeCo_cop2 (cofun : BitVec 25) :
    decode (encodeCo 0x12#6 cofun) = .instr (.cop2Command cofun) := by simp [decode, decodeCop2]

/-- Settles O2: format by format, the decoder selects the instruction by the fields that the encoder fixes
and reads its operands from the others; only the selector of BLTZ and BGEZ is both (R83). -/
theorem decodeOfEncode : Obligations.DecodeOfEncode := by
  intro i hwf
  cases i
  -- SPECIAL: R-type
  case sll | srl | sra | sllv | srlv | srav | jr | jalr | mfhi | mthi | mflo | mtlo | mult | multu | div | divu
      | add | addu | sub | subu | and | or | xor | nor | slt | sltu => simp [encode, decodeSpecial]
  -- SPECIAL: traps
  case syscall | brk => simp [encode, decodeSpecial]
  -- REGIMM
  case bltz rs rt imm =>
    obtain ⟨hbltzal, hbgezal, heven⟩ := (selectsBltz_iff rt).mp hwf
    simp [encode, hbltzal, hbgezal, heven]
  case bgez rs rt imm =>
    obtain ⟨hbltzal, hbgezal, hodd⟩ := (selectsBgez_iff rt).mp hwf
    simp [encode, hbltzal, hbgezal, hodd]
  case bltzal | bgezal => simp [encode]
  -- J-type, and the words of an absent coprocessor
  case j | jal | cop1 | cop3 => simp [encode, decode]
  -- the other I-types
  case beq | bne | blez | bgtz | addi | addiu | slti | sltiu | andi | ori | xori | lui => simp [encode, decode]
  case lb | lh | lwl | lw | lbu | lhu | lwr | sb | sh | swl | sw | swr => simp [encode, decode]
  case lwc0 | lwc1 | lwc2 | lwc3 | swc0 | swc1 | swc2 | swc3 => simp [encode, decode]
  -- COP0 and COP2
  case mfc0 | mtc0 => simp [encode, decodeCop0]
  case mfc2 | cfc2 | mtc2 | ctc2 => simp [encode, decodeCop2]
  case rfe | cop2Command => simp [encode]

/-! ## A word under a mask is its fields under the mask's (R77) -/

theorem and_fieldsR (w : Word) (mop : BitVec 6) (mrs mrt mrd msa : BitVec 5) (mf : BitVec 6) :
    w &&& (mop ++ mrs ++ mrt ++ mrd ++ msa ++ mf) =
      (fieldOp w &&& mop) ++ (fieldRs w &&& mrs) ++ (fieldRt w &&& mrt) ++ (fieldRd w &&& mrd) ++
        (fieldShamt w &&& msa) ++ (fieldFunct w &&& mf) := by
  have hw : w = fieldOp w ++ fieldRs w ++ fieldRt w ++ fieldRd w ++ fieldShamt w ++ fieldFunct w := by
    simp only [fieldOp, fieldRs, fieldRt, fieldRd, fieldShamt, fieldFunct]
    repeat rw [BitVec.extractLsb'_append_extractLsb'_eq_extractLsb' (by rfl)]
    rw [BitVec.extractLsb'_eq_self]
  conv_lhs => rw [hw]
  repeat rw [BitVec.and_append]

theorem and_fieldsI (w : Word) (mop : BitVec 6) (mrs mrt : BitVec 5) (mimm : Half) :
    w &&& (mop ++ mrs ++ mrt ++ mimm) =
      (fieldOp w &&& mop) ++ (fieldRs w &&& mrs) ++ (fieldRt w &&& mrt) ++ (fieldImm w &&& mimm) := by
  have hw : w = fieldOp w ++ fieldRs w ++ fieldRt w ++ fieldImm w := by
    simp only [fieldOp, fieldRs, fieldRt, fieldImm]
    repeat rw [BitVec.extractLsb'_append_extractLsb'_eq_extractLsb' (by rfl)]
    rw [BitVec.extractLsb'_eq_self]
  conv_lhs => rw [hw]
  repeat rw [BitVec.and_append]

theorem and_fieldsMove (w : Word) (mop : BitVec 6) (msub mrt mrd : BitVec 5) (mlow : BitVec 11) :
    w &&& (mop ++ msub ++ mrt ++ mrd ++ mlow) =
      (fieldOp w &&& mop) ++ (fieldRs w &&& msub) ++ (fieldRt w &&& mrt) ++ (fieldRd w &&& mrd) ++
        (w.extractLsb' 0 11 &&& mlow) := by
  have hw : w = fieldOp w ++ fieldRs w ++ fieldRt w ++ fieldRd w ++ w.extractLsb' 0 11 := by
    simp only [fieldOp, fieldRs, fieldRt, fieldRd]
    repeat rw [BitVec.extractLsb'_append_extractLsb'_eq_extractLsb' (by rfl)]
    rw [BitVec.extractLsb'_eq_self]
  conv_lhs => rw [hw]
  repeat rw [BitVec.and_append]

theorem extractLsb'_eq_ofBool_fieldCo (w : Word) : w.extractLsb' 25 1 = BitVec.ofBool (fieldCo w) := by
  ext i hi
  simp [fieldCo, show i = 0 by omega]

theorem and_fieldsRfe (w : Word) (mop : BitVec 6) (mco : BitVec 1) (mmid : BitVec 19) (mf : BitVec 6) :
    w &&& (mop ++ mco ++ mmid ++ mf) =
      (fieldOp w &&& mop) ++ (BitVec.ofBool (fieldCo w) &&& mco) ++ (w.extractLsb' 6 19 &&& mmid) ++
        (fieldFunct w &&& mf) := by
  have hw : w = fieldOp w ++ BitVec.ofBool (fieldCo w) ++ w.extractLsb' 6 19 ++ fieldFunct w := by
    simp only [fieldOp, ← extractLsb'_eq_ofBool_fieldCo, fieldFunct]
    repeat rw [BitVec.extractLsb'_append_extractLsb'_eq_extractLsb' (by rfl)]
    rw [BitVec.extractLsb'_eq_self]
  conv_lhs => rw [hw]
  repeat rw [BitVec.and_append]

/-! ## A word without the ignored fields (R86) is the encoder's, format by format

A lemma's name lists the operands that its mask keeps. -/

section Special

variable {w : Word} {f : BitVec 6} (hop : fieldOp w = 0x00#6) (hf : fieldFunct w = f)
include hop hf

theorem and_maskR {rs rt rd sa mrs mrt mrd msa : BitVec 5} (hrs : fieldRs w &&& mrs = rs)
    (hrt : fieldRt w &&& mrt = rt) (hrd : fieldRd w &&& mrd = rd) (hsa : fieldShamt w &&& msa = sa) :
    w &&& (BitVec.allOnes 6 ++ mrs ++ mrt ++ mrd ++ msa ++ BitVec.allOnes 6) = encodeR rs rt rd sa f := by
  rw [and_fieldsR, hop, hf, hrs, hrt, hrd, hsa, BitVec.and_allOnes, BitVec.and_allOnes]
  rfl

theorem keep_rt_rd_shamt : w &&& 0xFC1FFFFF = encodeR 0 (fieldRt w) (fieldRd w) (fieldShamt w) f :=
  (and_maskR hop hf BitVec.and_zero BitVec.and_allOnes BitVec.and_allOnes BitVec.and_allOnes :)

theorem keep_rs_rt_rd : w &&& 0xFFFFF83F = encodeR (fieldRs w) (fieldRt w) (fieldRd w) 0 f :=
  (and_maskR hop hf BitVec.and_allOnes BitVec.and_allOnes BitVec.and_allOnes BitVec.and_zero :)

theorem keep_rs : w &&& 0xFFE0003F = encodeR (fieldRs w) 0 0 0 f :=
  (and_maskR hop hf BitVec.and_allOnes BitVec.and_zero BitVec.and_zero BitVec.and_zero :)

theorem keep_rs_rd : w &&& 0xFFE0F83F = encodeR (fieldRs w) 0 (fieldRd w) 0 f :=
  (and_maskR hop hf BitVec.and_allOnes BitVec.and_zero BitVec.and_allOnes BitVec.and_zero :)

theorem keep_rd : w &&& 0xFC00F83F = encodeR 0 0 (fieldRd w) 0 f :=
  (and_maskR hop hf BitVec.and_zero BitVec.and_zero BitVec.and_allOnes BitVec.and_zero :)

theorem keep_rs_rt : w &&& 0xFFFF003F = encodeR (fieldRs w) (fieldRt w) 0 0 f :=
  (and_maskR hop hf BitVec.and_allOnes BitVec.and_allOnes BitVec.and_zero BitVec.and_zero :)

theorem keep_code : w &&& 0xFFFFFFFF = encodeTrap (fieldCode w) f := by
  rw [← hf, encodeTrap, ← hop, fieldOp, fieldCode, fieldFunct]
  repeat rw [BitVec.extractLsb'_append_extractLsb'_eq_extractLsb' (by rfl)]
  rw [BitVec.extractLsb'_eq_self]
  exact BitVec.and_allOnes

end Special

section Opcode

variable {w : Word} {op : BitVec 6} (hop : fieldOp w = op)
include hop

theorem and_maskI {rs rt mrs mrt : BitVec 5} (hrs : fieldRs w &&& mrs = rs) (hrt : fieldRt w &&& mrt = rt) :
    w &&& (BitVec.allOnes 6 ++ mrs ++ mrt ++ BitVec.allOnes 16) = encodeI op rs rt (fieldImm w) := by
  rw [and_fieldsI, hop, hrs, hrt, BitVec.and_allOnes, BitVec.and_allOnes]
  rfl

theorem keep_rs_rt_imm : w &&& 0xFFFFFFFF = encodeI op (fieldRs w) (fieldRt w) (fieldImm w) :=
  (and_maskI hop BitVec.and_allOnes BitVec.and_allOnes :)

theorem keep_rs_imm : w &&& 0xFFE0FFFF = encodeI op (fieldRs w) 0 (fieldImm w) :=
  (and_maskI hop BitVec.and_allOnes BitVec.and_zero :)

theorem keep_rt_imm : w &&& 0xFC1FFFFF = encodeI op 0 (fieldRt w) (fieldImm w) :=
  (and_maskI hop BitVec.and_zero BitVec.and_allOnes :)

theorem keep_target : w &&& 0xFFFFFFFF = encodeJ op (fieldTarget w) := by
  rw [encodeJ, ← hop, fieldOp, fieldTarget]
  repeat rw [BitVec.extractLsb'_append_extractLsb'_eq_extractLsb' (by rfl)]
  rw [BitVec.extractLsb'_eq_self]
  exact BitVec.and_allOnes

theorem keep_sub_rt_rd {sub : BitVec 5} (hsub : fieldRs w = sub) :
    w &&& 0xFFFFF800 = encodeMove op sub (fieldRt w) (fieldRd w) := by
  refine (and_fieldsMove w (.allOnes 6) (.allOnes 5) (.allOnes 5) (.allOnes 5) 0#11).trans ?_
  simp only [BitVec.and_allOnes, BitVec.and_zero, hop, hsub]
  rfl

theorem keep_cofun (hco : fieldCo w = true) : w &&& 0xFFFFFFFF = encodeCo op (fieldCofun w) := by
  have hbit : 1#1 = w.extractLsb' 25 1 := by rw [extractLsb'_eq_ofBool_fieldCo, hco]; rfl
  rw [encodeCo, ← hop, hbit, fieldOp, fieldCofun]
  repeat rw [BitVec.extractLsb'_append_extractLsb'_eq_extractLsb' (by rfl)]
  rw [BitVec.extractLsb'_eq_self]
  exact BitVec.and_allOnes

end Opcode

theorem keep_rfe {w : Word} (hop : fieldOp w = 0x10#6) (hco : fieldCo w = true)
    (hf : fieldFunct w = 0x10#6) : w &&& 0xFE00003F = encodeCo 0x10 0x10 := by
  refine (and_fieldsRfe w (.allOnes 6) 1#1 0#19 (.allOnes 6)).trans ?_
  rw [hop, hco, hf, BitVec.and_zero]
  rfl

/-! ## What the decoder answers is encoded by the word -/

/-- A word read as an instruction is that instruction's but for the ignored fields (R86). -/
def Decoded.EncodedBy (w : Word) : Decoded → Prop
  | .instr i => i.wellFormed = true ∧ w &&& Claims.significant i = encode i
  | .reserved => True
  | .unmodelledCop _ => True

theorem decodeSpecial_encodedBy {w : Word} (hop : fieldOp w = 0x00#6) : (decodeSpecial w).EncodedBy w := by
  unfold decodeSpecial
  split
  -- SLL, SRL, SRA
  case h_1 hf | h_2 hf | h_3 hf => exact ⟨rfl, keep_rt_rd_shamt hop hf⟩
  -- SLLV, SRLV, SRAV
  case h_4 hf | h_5 hf | h_6 hf => exact ⟨rfl, keep_rs_rt_rd hop hf⟩
  -- JR, MTHI, MTLO
  case h_7 hf | h_12 hf | h_14 hf => exact ⟨rfl, keep_rs hop hf⟩
  -- JALR
  case h_8 hf => exact ⟨rfl, keep_rs_rd hop hf⟩
  -- SYSCALL, BREAK
  case h_9 hf | h_10 hf => exact ⟨rfl, keep_code hop hf⟩
  -- MFHI, MFLO
  case h_11 hf | h_13 hf => exact ⟨rfl, keep_rd hop hf⟩
  -- MULT, MULTU, DIV, DIVU
  case h_15 hf | h_16 hf | h_17 hf | h_18 hf => exact ⟨rfl, keep_rs_rt hop hf⟩
  -- ADD to SLTU
  case h_19 hf | h_20 hf | h_21 hf | h_22 hf | h_23 hf | h_24 hf | h_25 hf | h_26 hf | h_27 hf | h_28 hf =>
    exact ⟨rfl, keep_rs_rt_rd hop hf⟩
  -- reserved (R87)
  case h_29 => trivial

theorem decodeRegimm_encodedBy {w : Word} (hop : fieldOp w = 0x01#6) : (decodeRegimm w).EncodedBy w := by
  unfold decodeRegimm
  split_ifs with hbltzal hbgezal hodd
  · exact ⟨rfl, (keep_rs_rt_imm hop).trans (by rw [hbltzal]; rfl)⟩
  · exact ⟨rfl, (keep_rs_rt_imm hop).trans (by rw [hbgezal]; rfl)⟩
  · exact ⟨(selectsBgez_iff _).mpr ⟨hbltzal, hbgezal, hodd⟩, keep_rs_rt_imm hop⟩
  · exact ⟨(selectsBltz_iff _).mpr ⟨hbltzal, hbgezal, Bool.not_eq_true _ ▸ hodd⟩, keep_rs_rt_imm hop⟩

theorem decodeCop0_encodedBy {w : Word} (hop : fieldOp w = 0x10#6) : (decodeCop0 w).EncodedBy w := by
  unfold decodeCop0
  split_ifs with hco hf
  · exact ⟨rfl, keep_rfe hop hco hf⟩
  · trivial
  · split
    -- MFC0, MTC0
    case h_1 hsub | h_2 hsub => exact ⟨rfl, keep_sub_rt_rd hop hsub⟩
    case h_3 => trivial

theorem decodeCop2_encodedBy {w : Word} (hop : fieldOp w = 0x12#6) : (decodeCop2 w).EncodedBy w := by
  unfold decodeCop2
  split_ifs with hco
  · exact ⟨rfl, keep_cofun hop hco⟩
  · split
    -- MFC2, CFC2, MTC2, CTC2
    case h_1 hsub | h_2 hsub | h_3 hsub | h_4 hsub => exact ⟨rfl, keep_sub_rt_rd hop hsub⟩
    case h_5 => trivial

theorem decode_encodedBy (w : Word) : (decode w).EncodedBy w := by
  unfold decode
  split
  case h_1 hop => exact decodeSpecial_encodedBy hop
  case h_2 hop => exact decodeRegimm_encodedBy hop
  case h_17 hop => exact decodeCop0_encodedBy hop
  case h_19 hop => exact decodeCop2_encodedBy hop
  -- J, JAL, and the words of an absent coprocessor
  case h_3 hop | h_4 hop | h_18 hop | h_20 hop => exact ⟨rfl, keep_target hop⟩
  -- BLEZ, BGTZ
  case h_7 hop | h_8 hop => exact ⟨rfl, keep_rs_imm hop⟩
  -- LUI
  case h_16 hop => exact ⟨rfl, keep_rt_imm hop⟩
  -- reserved (R87)
  case h_41 => trivial
  -- the I-types with three operands
  all_goals exact ⟨rfl, keep_rs_rt_imm ‹fieldOp w = _›⟩

/-- Settles O3: each branch of the decoder knows the fields that select it, and the word is these and the
operands' fields once the ignored ones are cleared. -/
theorem encodeOfDecode : Obligations.EncodeOfDecode := by
  intro w i h
  have hw : (decode w).EncodedBy w := decode_encodedBy w
  rwa [h] at hw

end Sys2Proof

/-! PROOFS about how instructions are executed: the pending branch and the registers they leave, the unaligned
loads, the fetch and the interrupt before it (40_execution.md). -/

namespace Sys2Proof.Machine

/-! ## The pending branch (R100) -/

/-- What an instruction does before its commit leaves where control stands: only the commit and exception
entry move it (R98, R100). -/
theorem Immediate.control {i : Instr} {s t : State} (h : Immediate i s t) :
    t.pc = s.pc ∧ t.bslot = s.bslot ∧ t.cfg = s.cfg := by
  cases h with
  | bus h => exact ⟨h.sameCpu.pc, h.sameCpu.bslot, h.sameCpu.cfg⟩
  | hilo | cop0 | command => exact ⟨rfl, rfl, rfl⟩

/-- A branch that a completed instruction leaves pending is its own (R100). -/
theorem State.nextSlot_bpc {s : State} {br : Option BranchTarget} {b : BranchSlot}
    (h : s.nextSlot br = some b) : b.bpc = s.pc := by
  unfold State.nextSlot at h
  cases br with
  | none => cases h
  | some target =>
    dsimp only at h
    split at h
    · exact Option.some.inj h ▸ rfl
    · split at h
      · cases h
      · exact Option.some.inj h ▸ rfl

/-! ## The registers an effect names (R98) -/

/-- The direct and the delayed write of an effect are of the register `d`, if they are made. -/
structure Effect.WritesOnly (d : Option Reg) (e : Effect) : Prop where
  direct : ∀ r v, e.wreg = some (r, v) → d = some r
  delayed : ∀ l, e.lnew = some l → d = some l.reg

section WritesOnly

variable {d : Option Reg} (r : Reg) (v : Word) (b : Option BranchTarget) (u : HiloUse)

theorem Effect.writesOnly_none : Effect.WritesOnly d ⟨none, none, b, u⟩ :=
  ⟨nofun, nofun⟩

theorem Effect.writesOnly_direct : Effect.WritesOnly (some r) ⟨some (r, v), none, b, u⟩ :=
  ⟨fun | _, _, rfl => rfl, nofun⟩

theorem Effect.writesOnly_delayed : Effect.WritesOnly (some r) ⟨none, some ⟨r, v⟩, b, u⟩ :=
  ⟨nofun, fun | _, rfl => rfl⟩

end WritesOnly

/-- An answer leaves the general registers and the pending load for the commit (R98, R99). -/
def Res.KeepsRegs {α : Type} (s : State) (r : Res α) : Prop :=
  ∀ v t, r = .ok v t → t.regs = s.regs ∧ t.lslot = s.lslot

theorem Res.moves.keepsRegs {α : Type} {s : State} {r : Res α} (h : r.moves s) : r.KeepsRegs s :=
  fun v t hr => ⟨(h v t hr).sameCpu.regs, (h v t hr).sameCpu.lslot⟩

theorem writeCop0_keepsRegs (n : BitVec 5) (v : Word) (s : State) : (writeCop0 n v s).KeepsRegs s := by
  intro _ t h
  obtain ⟨c, rfl, _⟩ := writeCop0_ok h
  exact ⟨rfl, rfl⟩

/-- The part of an instruction before its commit: the registers wait for the commit, and the effect names
`d` only. -/
structure Res.Delivers (d : Option Reg) (s : State) (r : Res Effect) : Prop where
  keeps : r.KeepsRegs s
  writes : ∀ e t, r = .ok e t → e.WritesOnly d

section Delivers

variable {d : Option Reg} {s s' : State} {e : Effect}

theorem Res.delivers_ok (he : e.WritesOnly d) (hr : s'.regs = s.regs) (hl : s'.lslot = s.lslot) :
    (Res.ok e s').Delivers d s :=
  ⟨fun | _, _, rfl => ⟨hr, hl⟩, fun | _, _, rfl => he⟩

theorem Res.delivers_exc (x : Exc) : (Res.exc x : Res Effect).Delivers d s where
  keeps _ _ h := by cases h
  writes _ _ h := by cases h

theorem Res.delivers_stop (x : Refusal) : (Res.stop x : Res Effect).Delivers d s where
  keeps _ _ h := by cases h
  writes _ _ h := by cases h

theorem Res.delivers_bind {α : Type} {r : Res α} {f : α → State → Res Effect} (hr : r.KeepsRegs s)
    (hf : ∀ v t, (f v t).Delivers d t) : (r.bind f).Delivers d s := by
  constructor
  · intro eff u h
    obtain ⟨v, t, hv, hu⟩ := Res.bind_eq_ok.mp h
    obtain ⟨hregs, hlslot⟩ := (hf v t).keeps eff u hu
    exact ⟨hregs.trans (hr v t hv).1, hlslot.trans (hr v t hv).2⟩
  · intro eff u h
    obtain ⟨v, t, _, hu⟩ := Res.bind_eq_ok.mp h
    exact (hf v t).writes eff u hu

end Delivers

end Sys2Proof.Machine

namespace Sys2Proof.Claims

open Sys2Proof.Machine

/-! ## The delay slot (R105, R159, R201) -/

/-- Settles O16: a commit enters the pending branch, and an exception reports it. -/
theorem delaySlotLaw : Obligations.DelaySlotLaw := by
  intro i s t b hb h
  rcases exec_cases h with ⟨e, rfl⟩ | ⟨eff, s', himm, rfl⟩
  · right
    simp [takeException, State.slotBranch, hb]
  · left
    obtain ⟨hpc, hslot, hcfg⟩ := himm.control
    have hafter : PcAfter s (commit eff s') eff.branch := pcAfter_commit eff hpc hslot hcfg
    refine ⟨fun a ha => hafter.taken a b.bpc (by rw [hb, ← ha]),
      fun hn => hafter.notTaken b.bpc (by rw [hb, ← hn]), fun hfirst => ?_, fun b' hb' => ?_⟩
    · cases hbr : eff.branch with
      | none => exact hafter.noBranch hbr
      | some target => exact hafter.discarded target hbr (by simp [hb]) hfirst
    · exact (State.nextSlot_bpc hb').trans hpc

/-! ## The destination (R97, R99, R104) -/

/-- Every register but `d` holds the value of the load that was pending for it, or else what it held. -/
def OthersKept (d : Option Reg) (s t : State) : Prop :=
  ∀ r, d ≠ some r → (∀ v, s.lslot = some ⟨r, v⟩ → r ≠ 0 → t.x r = v) ∧
    ((∀ v, s.lslot ≠ some ⟨r, v⟩) → t.x r = s.x r)

/-- R99 says it of writes that name `d` only. -/
theorem RegsAfter.othersKept {d : Option Reg} {s t : State} {e : Effect}
    (h : RegsAfter s t e.wreg e.lnew) (he : e.WritesOnly d) : OthersKept d s t := by
  intro r hr
  have hdirect (v : Word) : e.wreg ≠ some (r, v) := fun hw => hr (he.direct r v hw)
  refine ⟨fun v hv h0 => ?_, fun hno => ?_⟩
  · exact h.loaded ⟨r, v⟩ hv h0 hdirect fun n hn (hnr : n.reg = r) => hr (hnr ▸ he.delayed n hn)
  · refine h.kept r hdirect fun l hl hlr => ?_
    subst hlr
    exact absurd hl (hno l.val)

section Outcomes

variable {d : Option Reg} {s t : State} {r : Res Effect}

theorem finish_othersKept (h : finish s r = .next t) (hr : r.Delivers d s) : OthersKept d s t := by
  rcases finish_eq_next.mp h with ⟨eff, s', hok, rfl⟩ | ⟨e, _, rfl⟩
  · obtain ⟨hregs, hlslot⟩ := hr.keeps eff s' hok
    exact (regsAfter_commit eff hregs hlslot).othersKept (hr.writes eff s' hok)
  · exact RegsAfter.othersKept (e := {}) (trapped_exceptionEntry e s.pc s.slotBranch s).regs
      (Effect.writesOnly_none _ _)

theorem whenUsable_othersKept {z : CopNum} (h : whenUsable z r s = .next t) (hr : r.Delivers d s) :
    OthersKept d s t := by
  unfold whenUsable at h
  split at h
  · exact finish_othersKept h hr
  · exact finish_othersKept h (Res.delivers_exc _)

theorem direct_othersKept {q : Reg} {v : Word} {b : Option BranchTarget} {u : HiloUse}
    (h : finish s (.ok ⟨some (q, v), none, b, u⟩ s) = .next t) : OthersKept (some q) s t :=
  finish_othersKept h (Res.delivers_ok (Effect.writesOnly_direct q v b u) rfl rfl)

theorem branchResult_othersKept {b : BranchTarget} (h : branchResult b s = .next t) : OthersKept d s t :=
  finish_othersKept h (Res.delivers_ok (Effect.writesOnly_none _ _) rfl rfl)

theorem writeChecked_othersKept {q : Reg} {n : Int} (h : writeChecked q n s = .next t) :
    OthersKept (some q) s t := by
  unfold writeChecked at h
  split at h
  · exact finish_othersKept h (Res.delivers_exc _)
  · exact direct_othersKept h

theorem writeHilo_othersKept {u : HiloUse} {hi lo : Word} (h : writeHilo u hi lo s = .next t) :
    OthersKept d s t := by
  obtain ⟨hi', lo', n, heq⟩ := applyHiloHazard_eq u { s with hi := hi, lo := lo }
  rw [writeHilo, heq] at h
  exact finish_othersKept h (Res.delivers_ok (Effect.writesOnly_none _ _) rfl rfl)

theorem loadWith_othersKept {q : Reg} {va : Word} {w : Width} {f : Word → Word}
    (h : loadWith q va w f s = .next t) : OthersKept (some q) s t :=
  finish_othersKept h <| Res.delivers_bind (memRead_moves _ _ _ _).keepsRegs fun _ _ =>
    Res.delivers_ok (Effect.writesOnly_delayed _ _ _ _) rfl rfl

theorem storeWith_othersKept {va : Word} {w : Width} {v : Word} (h : storeWith va w v s = .next t) :
    OthersKept d s t :=
  finish_othersKept h <| Res.delivers_bind (memWrite_moves _ _ _ _).keepsRegs fun _ _ =>
    Res.delivers_ok (Effect.writesOnly_none _ _) rfl rfl

theorem storeMasked_othersKept {va : Word} {m : BitVec 4} {v : Word} (h : storeMasked va m v s = .next t) :
    OthersKept d s t :=
  finish_othersKept h <| Res.delivers_bind (memWriteMasked_moves _ _ _ _).keepsRegs fun _ _ =>
    Res.delivers_ok (Effect.writesOnly_none _ _) rfl rfl

theorem absentCop_othersKept {z : CopNum} (h : absentCop z s = .next t) : OthersKept d s t :=
  whenUsable_othersKept h (Res.delivers_stop _)

theorem moveFromGte_othersKept {q : Reg} {c : ExtCall} (h : moveFromGte q c s = .next t) :
    OthersKept (some q) s t :=
  whenUsable_othersKept h <| Res.delivers_bind (gteRead_moves c s).keepsRegs fun _ _ =>
    Res.delivers_ok (Effect.writesOnly_delayed _ _ _ _) rfl rfl

theorem moveToGte_othersKept {c : ExtCall} (h : moveToGte c s = .next t) : OthersKept d s t :=
  whenUsable_othersKept h <| Res.delivers_bind (gteWrite_moves c s).keepsRegs fun _ _ =>
    Res.delivers_ok (Effect.writesOnly_none _ _) rfl rfl

theorem execMfc0_othersKept {rt : Reg} {rd : BitVec 5} (h : execMfc0 rt rd s = .next t) :
    OthersKept (some rt) s t := by
  refine whenUsable_othersKept h ?_
  cases readCop0 rd s with
  | some v => exact Res.delivers_ok (Effect.writesOnly_delayed _ _ _ _) rfl rfl
  | none => exact Res.delivers_ok (Effect.writesOnly_delayed _ _ _ _) rfl rfl

end Outcomes

/-- No instruction writes a register but its destination, at once or delayed. -/
theorem exec_othersKept {i : Instr} {s t : State} (h : exec i s = .next t) :
    OthersKept (destination i) s t := by
  cases i with
  | sll | srl | sra | sllv | srlv | srav | addu | subu | and | or | xor | nor | slt | sltu
  | addiu | slti | sltiu | andi | ori | xori | lui | jalr | jal | bltzal | bgezal | mfhi | mflo =>
    exact direct_othersKept h
  | add | sub | addi => exact writeChecked_othersKept h
  | jr | beq | bne | blez | bgtz | bltz | bgez | j => exact branchResult_othersKept h
  | syscall | brk => exact finish_othersKept (r := .exc _) h (Res.delivers_exc _)
  | mthi | mtlo | mult | multu | div | divu => exact writeHilo_othersKept h
  | lb | lh | lwl | lw | lbu | lhu | lwr => exact loadWith_othersKept h
  | sb | sh | sw => exact storeWith_othersKept h
  | swl | swr => exact storeMasked_othersKept h
  | lwc0 | swc0 => exact finish_othersKept (r := .stop _) h (Res.delivers_stop _)
  | lwc1 | lwc3 | swc1 | swc3 | cop1 | cop3 => exact absentCop_othersKept h
  | mfc2 | cfc2 => exact moveFromGte_othersKept h
  | mtc2 | ctc2 => exact moveToGte_othersKept h
  | mfc0 => exact execMfc0_othersKept h
  | mtc0 =>
    exact whenUsable_othersKept h <| Res.delivers_bind (writeCop0_keepsRegs _ _ s) fun _ _ =>
      Res.delivers_ok (Effect.writesOnly_none _ _) rfl rfl
  | rfe | cop2Command =>
    exact whenUsable_othersKept h (Res.delivers_ok (Effect.writesOnly_none _ _) rfl rfl)
  | lwc2 =>
    exact whenUsable_othersKept h <| Res.delivers_bind (memRead_moves _ _ _ _).keepsRegs fun _ _ =>
      Res.delivers_bind (gteWrite_moves _ _).keepsRegs fun _ _ =>
        Res.delivers_ok (Effect.writesOnly_none _ _) rfl rfl
  | swc2 =>
    exact whenUsable_othersKept h <| Res.delivers_bind (gteRead_moves _ _).keepsRegs fun _ _ =>
      Res.delivers_bind (memWrite_moves _ _ _ _).keepsRegs fun _ _ =>
        Res.delivers_ok (Effect.writesOnly_none _ _) rfl rfl

/-- Settles O17: the commit writes the registers its effect names, and that is the destination. -/
theorem onlyTheDestinationChanges : Obligations.OnlyTheDestinationChanges :=
  fun _ _ _ r h hd => exec_othersKept h r hd

/-! ## LWL and LWR (R97, R167, R168) -/

theorem byteOf_or (v w : Word) (j : Nat) : byteOf (v ||| w) j = byteOf v j ||| byteOf w j := by
  unfold byteOf
  ext i hi
  simp

theorem byteOf_and (v w : Word) (j : Nat) : byteOf (v &&& w) j = byteOf v j &&& byteOf w j := by
  unfold byteOf
  ext i hi
  simp

/-- A shift by whole bytes moves the bytes. -/
theorem byteOf_shiftLeft (v : Word) (k : Nat) {j : Nat} (hj : j < 4) :
    byteOf (v <<< (8 * k)) j = if k ≤ j then byteOf v (j - k) else 0 := by
  unfold byteOf
  split
  · ext i hi
    simp [show 8 * j + i < 32 by omega, show ¬ 8 * j + i < 8 * k by omega,
      show 8 * j + i - 8 * k = 8 * (j - k) + i by omega, show 8 * (j - k) + i < 32 by omega]
  · ext i hi
    simp [show 8 * j + i < 8 * k by omega]

theorem byteOf_shiftRight (v : Word) (k j : Nat) : byteOf (v >>> (8 * k)) j = byteOf v (j + k) := by
  unfold byteOf
  ext i hi
  simp [show 8 * k + (8 * j + i) = 8 * (j + k) + i by omega]

theorem byteOf_above (v : Word) {j : Nat} (hj : 4 ≤ j) : byteOf v j = 0 := by
  unfold byteOf
  ext i hi
  simp [BitVec.getLsbD_of_ge v (8 * j + i) (by omega)]

/-- LWL keeps the lanes below its own of the register (R167). -/
theorem mergeLeft_eq (l : BitVec 2) (cur m : Word) :
    mergeLeft l cur m = (cur &&& 0xFFFFFFFF#32 >>> (8 * (l.toNat + 1))) ||| m <<< (8 * (3 - l.toNat)) := by
  rcases lane_cases l with rfl | rfl | rfl | rfl <;> simp [mergeLeft]

/-- LWR keeps the lanes above its own of the register (R168). -/
theorem mergeRight_eq (l : BitVec 2) (cur m : Word) :
    mergeRight l cur m = (cur &&& 0xFFFFFFFF#32 <<< (8 * (4 - l.toNat))) ||| m >>> (8 * l.toNat) := by
  rcases lane_cases l with rfl | rfl | rfl | rfl <;> simp [mergeRight]

theorem byteOf_ones {j : Nat} (hj : j < 4) : byteOf 0xFFFFFFFF#32 j = BitVec.allOnes 8 := by
  interval_cases j <;> rfl

theorem byteOf_mergeLeft (l : BitVec 2) (cur m : Word) {j : Nat} (hj : j < 4) :
    byteOf (mergeLeft l cur m) j = if 3 ≤ j + l.toNat then byteOf m (j + l.toNat - 3) else byteOf cur j := by
  have hl := l.isLt
  rw [mergeLeft_eq, byteOf_or, byteOf_and, byteOf_shiftRight, byteOf_shiftLeft _ _ hj]
  by_cases h : 3 ≤ j + l.toNat
  · rw [byteOf_above 0xFFFFFFFF#32 (by omega), if_pos (by omega), if_pos h,
      show j - (3 - l.toNat) = j + l.toNat - 3 by omega]
    simp
  · rw [byteOf_ones (by omega), if_neg (by omega), if_neg h, BitVec.and_allOnes]
    simp

theorem byteOf_mergeRight (l : BitVec 2) (cur m : Word) {j : Nat} (hj : j < 4) :
    byteOf (mergeRight l cur m) j = if j + l.toNat < 4 then byteOf m (j + l.toNat) else byteOf cur j := by
  have hl := l.isLt
  rw [mergeRight_eq, byteOf_or, byteOf_and, byteOf_shiftRight, byteOf_shiftLeft _ _ hj]
  by_cases h : j + l.toNat < 4
  · rw [if_neg (by omega), if_pos h]
    simp
  · rw [byteOf_above m (by omega), if_pos (by omega), byteOf_ones (by omega), if_neg h,
      BitVec.and_allOnes]
    simp

/-- The operand that LWL and LWR merge into is the one the statement describes (R97). -/
theorem eq_mergeOperand {s : State} {rt : Reg} {cur : Word} (hp : ∀ v, s.lslot = some ⟨rt, v⟩ → cur = v)
    (hr : (∀ v, s.lslot ≠ some ⟨rt, v⟩) → cur = s.x rt) : cur = s.mergeOperand rt := by
  by_cases h : ∃ v, s.lslot = some ⟨rt, v⟩
  · obtain ⟨v, hv⟩ := h
    rw [mergeOperand_pending hv, hp v hv]
  · have hno : ∀ v, s.lslot ≠ some ⟨rt, v⟩ := not_exists.mp h
    rw [mergeOperand_register hno, hr hno]

/-- Settles O20: the word read supplies the lanes of the merge, and the operand the others. -/
theorem unalignedLoads : Obligations.UnalignedLoads := by
  rintro rt rs imm s va cur k n rfl rfl hk hreach hpend hreg
  obtain rfl := eq_mergeOperand hpend hreg
  have hread := memRead_key hreach hk
  have hbyte {j : Nat} (hj : j < 4) := s.mem.byteOf_readLE k 4 j le_rfl hj
  rw [← lane_toNat]
  refine ⟨⟨_, loads_of_read rfl hread rfl rfl rfl, fun j hj => ?_⟩,
    ⟨_, loads_of_read rfl hread rfl rfl rfl, fun j hj => ?_⟩⟩
  · have hlane := (lane (eaOf s rs imm)).isLt
    refine (byteOf_mergeLeft (lane (eaOf s rs imm)) _ _ hj).trans (if_congr Iff.rfl ?_ rfl)
    exact hbyte (by omega)
  · refine (byteOf_mergeRight (lane (eaOf s rs imm)) _ _ hj).trans ?_
    split
    · next hlt => exact hbyte hlt
    · rfl

/-! ## The fetch (R62, R95) -/

/-- The word a fetch reads is the fetched word of the statements. -/
theorem fetch_eq_ok_iff {s : State} {w : Word} : fetch s = .ok w s ↔ fetched s = some w := by
  by_cases hbad : misaligned s.pc .word = true ∨ s.privileged s.pc = true
  · have hno : ¬ (s.pc.toNat % 4 = 0 ∧ ¬ (inUserMode s ∧ s.pc.getLsbD 31 = true)) := by
      rintro ⟨ha, hp⟩
      exact hbad.elim (misaligned_iff.mp · ha) (hp <| privileged_iff.mp ·)
    simp only [fetch, memRead_adEL .fetch hbad, fetched, if_neg hno, reduceCtorEq]
  · obtain ⟨ha, hp⟩ := not_or.mp hbad
    have hperm : Permitted s s.pc .word := ⟨Bool.eq_false_iff.mpr ha, Bool.eq_false_iff.mpr hp⟩
    have hyes : s.pc.toNat % 4 = 0 ∧ ¬ (inUserMode s ∧ s.pc.getLsbD 31 = true) :=
      ⟨misaligned_eq_false.mp hperm.aligned, fun h => hp (privileged_iff.mpr h)⟩
    rw [fetch_busRead hperm, fetched, if_pos hyes, busRead]
    cases s.region s.pc with
    | ram | scratch | bios => simp [Region.key, Width.bytes, readLE_word, wordOfBytes]
    | cacheCtrl => simp [cacheCtrlRead_word hyes.1]
    | irqCtl | dmaCtl | device | unmapped => simp [Region.key]

theorem wordOfBytes_bytesOfWord (w : Word) :
    wordOfBytes (w.extractLsb' 0 8) (w.extractLsb' 8 8) (w.extractLsb' 16 8) (w.extractLsb' 24 8) = w := by
  apply BitVec.eq_of_getLsbD_eq
  intro i hi
  simp only [wordOfBytes, BitVec.getLsbD_append]
  interval_cases i <;> simp

/-- Decoding the bytes of a word is decoding the word (R76). -/
theorem decodeBytes_bytesOfWord (w : Word) : decodeBytes (bytesOfWord w) = .ok (decode w, []) := by
  rw [bytesOfWord, decodeBytes, wordOfBytes_bytesOfWord]

/-- Settles O1: the step is an instruction step, and the fetch reads the word that the bytes decode. -/
theorem stepRunsDecodedInstruction : Obligations.StepRunsDecodedInstruction := by
  intro s w i hat hw hdec _
  rw [decodeBytes_bytesOfWord] at hdec
  have hi : decode w = .instr i := by injection hdec with hdec; injection hdec
  rw [step_eq_instructionStep hat, instructionStep, fetch_eq_ok_iff.mpr hw]
  simp only [execWord, hi, execDecoded]

/-! ## Interrupts (R93, R94) -/

/-- The requests: the software bits, and on line 2 the controller's signal; no other line is connected
(R209). -/
theorem causeIp_getLsbD (s : State) (i : Nat) : s.causeIp.getLsbD i =
    if i < 2 then s.cop0.ipSw.getLsbD i else decide (i = 2) && s.irqPending := by
  rw [State.causeIp, BitVec.getLsbD_append, BitVec.getLsbD_append]
  split
  · rfl
  · rw [BitVec.getLsbD_ofBool, BitVec.getLsbD_zero]
    rcases (show i = 2 ∨ 3 ≤ i by omega) with rfl | h
    · simp
    · simp [show ¬ i - 2 < 1 by omega, show i ≠ 2 by omega]

/-- A request is enabled when one bit stands in the mask and in the requests. -/
theorem and_ne_zero_iff {n : Nat} (u v : BitVec n) :
    u &&& v ≠ 0 ↔ ∃ i, u.getLsbD i = true ∧ v.getLsbD i = true := by
  constructor
  · contrapose!
    exact fun h => BitVec.eq_of_getLsbD_eq fun i _ => by simpa using h i
  · rintro ⟨i, hu, hv⟩ h
    have hbit : (u &&& v).getLsbD i = true := by simp [hu, hv]
    simp [h] at hbit

theorem intMask_getLsbD (s : State) {i : Nat} (h : i < 8) :
    s.intMask.getLsbD i = s.cop0.sr.getLsbD (8 + i) := by simp [State.intMask, h]

theorem irqPending_iff {s : State} : s.irqPending = true ↔ s.irq.stat &&& s.irq.mask ≠ 0 := bne_iff_ne

/-- The interrupt of a step is the one of R93. -/
theorem irqTaken_iff {s : State} : s.irqTaken = true ↔ InterruptHolds s := by
  rw [State.irqTaken, Bool.and_eq_true, bne_iff_ne, and_ne_zero_iff]
  refine and_congr Iff.rfl ⟨?_, ?_⟩
  · rintro ⟨i, hmask, hreq⟩
    have h8 : i < 8 := BitVec.lt_of_getLsbD hmask
    rw [intMask_getLsbD s h8] at hmask
    rw [causeIp_getLsbD] at hreq
    split at hreq
    · next h2 =>
      obtain rfl | rfl : i = 0 ∨ i = 1 := by omega
      · exact .inl ⟨hmask, hreq⟩
      · exact .inr (.inl ⟨hmask, hreq⟩)
    · obtain ⟨rfl, hp⟩ : i = 2 ∧ s.irqPending = true := by simpa using hreq
      exact .inr (.inr ⟨hmask, irqPending_iff.mp hp⟩)
  · rintro (⟨hm, hr⟩ | ⟨hm, hr⟩ | ⟨hm, hr⟩)
    · exact ⟨0, (intMask_getLsbD s (by omega)).trans hm, (causeIp_getLsbD s 0).trans hr⟩
    · exact ⟨1, (intMask_getLsbD s (by omega)).trans hm, (causeIp_getLsbD s 1).trans hr⟩
    · exact ⟨2, (intMask_getLsbD s (by omega)).trans hm,
        (causeIp_getLsbD s 2).trans (irqPending_iff.mpr hr)⟩

/-- A step without mark and due event is the interrupt step or the instruction step (R92, R93, R244). -/
theorem step_eq_cpuStep {s : State} (hm : s.refusedMark = none) (he : s.dueEvent = none) :
    step s = cpuStep s := by
  simp [step, iterate, hm, he]

/-- The quirk's command: a fetched COP2 command outside a delay slot, with CU2 set (R94). -/
theorem quirkWord_eq_some_iff {s : State} {w : Word} : quirkWord s = some w ↔
    s.cfg.gteIrqQuirk = true ∧ s.bslot = none ∧ s.cop0.sr.getLsbD 30 = true ∧ fetched s = some w ∧
      ∃ cofun, decode w = .instr (.cop2Command cofun) := by
  have hcu : s.cu 2 = s.cop0.sr.getLsbD 30 := rfl
  unfold quirkWord
  split
  · next hq =>
    simp only [hcu, Bool.and_eq_true, Option.isNone_iff_eq_none] at hq
    obtain ⟨⟨hquirk, hslot⟩, hcu2⟩ := hq
    simp only [hquirk, hslot, hcu2, true_and, ← fetch_eq_ok_iff]
    cases hf : fetch s with
    | ok v s1 =>
      obtain rfl := fetch_ok hf
      simp only [Res.ok.injEq, and_true]
      split
      · next cofun hdec =>
        rw [Option.some.injEq]
        exact ⟨fun hw => ⟨hw, cofun, hw ▸ hdec⟩, And.left⟩
      · next hno =>
        refine ⟨nofun, fun ⟨hw, cofun, hdec⟩ => absurd (hw ▸ hdec) (hno cofun)⟩
    | exc e => simp
    | stop r => simp
  · next hq =>
    refine ⟨nofun, fun ⟨hquirk, hslot, hcu2, _⟩ => absurd ?_ hq⟩
    rw [hquirk, hslot, hcu, hcu2]
    rfl

theorem interruptStep_plain {s : State} (h : quirkWord s = none) :
    interruptStep s = .next (takeException .int s) := by
  rw [interruptStep, h]

theorem trapped_takeException (e : Exc) (s : State) :
    Trapped e.code e.ce (reported e) s.pc (s.bslot.map BranchSlot.bpc) s (takeException e s) :=
  trapped_exceptionEntry e _ _ s

theorem exec_cop2Command {s : State} (cofun : BitVec 25) (hu : s.cop0.sr.getLsbD 30 = true) :
    exec (.cop2Command cofun) s = .next (commit {} (gteCommand cofun s)) :=
  if_pos ((usable_two s).trans hu)

/-- The interrupt step after the quirk's command: the command's step, then the entry (R94). -/
theorem interruptStep_quirk {s u : State} {w : Word} {i : Instr} (hq : quirkWord s = some w)
    (hdec : decode w = .instr i) (hexec : exec i s = .next u) : interruptStep s =
      .next (exceptionEntry .int s.pc none (u.addCycles (s.cfg.cycleCost w))) := by
  rw [interruptStep, hq]
  simp only [execWord, hdec, execDecoded, hexec, mapNext_next]

/-- Settles O40: the CPU step asks for the interrupt first, and the quirk's word exists exactly under the
conditions of R94. -/
theorem interruptTaken : Obligations.InterruptTaken := by
  intro s hm he
  have hstep (hint : InterruptHolds s) : step s = interruptStep s := by
    rw [step_eq_cpuStep hm he, cpuStep, if_pos (irqTaken_iff.mpr hint)]
  have hplain (hint : InterruptHolds s) (hno : quirkWord s = none) :
      ∃ t, step s = .next t ∧ Trapped 0 0 none s.pc (s.bslot.map BranchSlot.bpc) s t :=
    ⟨_, (hstep hint).trans (interruptStep_plain hno), trapped_takeException .int s⟩
  refine ⟨fun hint hoff => hplain hint ?_, fun hint hon hslot hcu w cofun hw hdec => ?_,
    fun hint _ hout => hplain hint ?_, fun hint => ?_⟩
  · refine Option.eq_none_iff_forall_ne_some.mpr fun w hq => ?_
    obtain ⟨hon, _⟩ := quirkWord_eq_some_iff.mp hq
    exact absurd hon (by simp [hoff])
  · have hq : quirkWord s = some w := quirkWord_eq_some_iff.mpr ⟨hon, hslot, hcu, hw, cofun, hdec⟩
    have hexec := exec_cop2Command cofun hcu
    exact ⟨_, _, hexec, (hstep hint).trans (interruptStep_quirk hq hdec hexec),
      trapped_exceptionEntry .int s.pc none _⟩
  · refine Option.eq_none_iff_forall_ne_some.mpr fun w hq => ?_
    obtain ⟨_, hslot, hcu, hw, cofun, hdec⟩ := quirkWord_eq_some_iff.mp hq
    rcases hout with hin | hno | hother
    · exact hin hslot
    · exact Bool.eq_false_iff.mp hno hcu
    · exact hother w cofun hw hdec
  · rw [step_eq_cpuStep hm he, cpuStep, if_neg (mt irqTaken_iff.mp hint)]

end Sys2Proof.Claims

/-! PROOFS about the integer ALU instructions (41_alu.md): their words, their results, the overflow that
traps; and the example words of the spec's rules. -/

namespace Sys2Proof.Claims

open Sys2Proof.Machine

/-! ## Example words (R108 to R197) -/

theorem decode_of_encode_eq {i : Instr} {w : Word} (hwf : i.wellFormed = true) (h : encode i = w) :
    decode w = .instr i := h ▸ decodeOfEncode i hwf

/-- Settles O4: each word written out is the encoder's word of its instruction. -/
theorem writtenWordsDecode : Obligations.WrittenWordsDecode := by
  refine ⟨?_, ?_, ?_, ?_, ?_, ?_, ?_, ?_, ?_, ?_, ?_, ?_, ?_⟩
  all_goals exact decode_of_encode_eq rfl rfl

/-! ## What the comparisons and the shift amount are in numbers (R79, R116, R117) -/

theorem boolWord_ltSigned (a b : Word) :
    boolWord (ltSigned a b) = if a.toInt < b.toInt then 1 else 0 := by simp [boolWord, ltSigned]

theorem boolWord_ltUnsigned (a b : Word) :
    boolWord (ltUnsigned a b) = if a.toNat < b.toNat then 1 else 0 := by simp [boolWord, ltUnsigned]

theorem shiftAmount_eq_mod (s : State) (rs : Reg) : s.shiftAmount rs = (s.x rs).toNat % 32 :=
  BitVec.toNat_setWidth 5 (s.x rs)

theorem sext16_toInt (imm : Half) : (sext16 imm).toInt = imm.toInt :=
  BitVec.toInt_signExtend_of_le (by decide)

/-! ## Instructions that never trap (R98) -/

theorem writes_of_eq {i : Instr} {s : State} {r : Reg} {v x : Word} (h : exec i s = writeResult r v s)
    (hv : v = x) (h1 : readsHilo i = false) (h2 : multipliesOrDivides i = false) : Writes i s r x :=
  hv ▸ writes_writeResult h h1 h2

/-- Settles O6: the word selects the instruction by its function field alone (R82, R86), and the instruction
is one direct write. -/
theorem registerResults : Obligations.RegisterResults := by
  intro rd rs rt sa s
  refine ⟨⟨?_, ?addu⟩, ⟨?_, ?subu⟩, ⟨?_, ?and⟩, ⟨?_, ?or⟩, ⟨?_, ?xor⟩, ⟨?_, ?nor⟩, ⟨?_, ?slt⟩, ⟨?_, ?sltu⟩⟩
  case addu | subu | and | or | xor | nor => exact writes_writeResult rfl rfl rfl
  case slt => exact writes_of_eq rfl (boolWord_ltSigned _ _) rfl rfl
  case sltu => exact writes_of_eq rfl (boolWord_ltUnsigned _ _) rfl rfl
  -- what remains: the words decode
  all_goals simp [decodeSpecial]

/-- Settles O7: as O6, with the word selected by its opcode and the immediate extended as R79 says. -/
theorem immediateResults : Obligations.ImmediateResults := by
  intro rt rs imm s
  refine ⟨⟨?_, ?addiu⟩, ⟨?_, ?slti⟩, ⟨?_, ?sltiu⟩, ⟨?_, ?andi⟩, ⟨?_, ?ori⟩, ⟨?_, ?xori⟩, ⟨?_, ?lui⟩⟩
  case addiu | andi | ori | xori | lui => exact writes_writeResult rfl rfl rfl
  case slti => exact writes_of_eq rfl (by rw [boolWord_ltSigned, sext16_toInt]) rfl rfl
  case sltiu => exact writes_of_eq rfl (boolWord_ltUnsigned _ _) rfl rfl
  -- what remains: the words decode
  all_goals simp [decode]

/-- Settles O8: a variable amount is the register's value modulo 32. -/
theorem shiftResults : Obligations.ShiftResults := by
  intro rd rt rs sa s
  rw [← shiftAmount_eq_mod]
  refine ⟨⟨?_, ?sll⟩, ⟨?_, ?srl⟩, ⟨?_, ?sra⟩, ⟨?_, ?sllv⟩, ⟨?_, ?srlv⟩, ⟨?_, ?srav⟩⟩
  case sll | srl | sra | sllv | srlv | srav => exact writes_writeResult rfl rfl rfl
  -- what remains: the words decode
  all_goals simp [decodeSpecial]

/-! ## Checked arithmetic (R107) -/

section Checked

variable {i : Instr} {s : State} {r : Reg} {n : Int}

theorem outsideS32_iff : outsideS32 n = true ↔ ¬ (-2147483648 ≤ n ∧ n ≤ 2147483647) := by
  rw [outsideS32, Bool.or_eq_true, decide_eq_true_iff, decide_eq_true_iff]
  omega

theorem toInt_ofInt_of_inside (h : -2147483648 ≤ n ∧ n ≤ 2147483647) : (BitVec.ofInt 32 n).toInt = n := by
  rw [BitVec.toInt_ofInt]
  exact Int.bmod_eq_of_le (by omega) (by omega)

theorem writeChecked_inside (h : -2147483648 ≤ n ∧ n ≤ 2147483647) :
    writeChecked r n s = writeResult r (BitVec.ofInt 32 n) s :=
  if_neg fun hout => outsideS32_iff.mp hout h

theorem writeChecked_outside (h : ¬ (-2147483648 ≤ n ∧ n ≤ 2147483647)) :
    writeChecked r n s = finish s (.exc .ov) :=
  if_pos (outsideS32_iff.mpr h)

/-- A checked result is written exactly, or Ov is taken. -/
theorem writes_or_traps_of_writeChecked (h : exec i s = writeChecked r n s) (h1 : readsHilo i = false)
    (h2 : multipliesOrDivides i = false) :
    (-2147483648 ≤ n ∧ n ≤ 2147483647 → ∃ v : Word, v.toInt = n ∧ Writes i s r v) ∧
      (¬ (-2147483648 ≤ n ∧ n ≤ 2147483647) → Traps i s 12 0 none) := by
  refine ⟨fun hin => ⟨_, toInt_ofInt_of_inside hin, ?_⟩, fun hout => ?_⟩
  · exact writes_writeResult (h.trans (writeChecked_inside hin)) h1 h2
  · exact traps_of_finish (h.trans (writeChecked_outside hout))

end Checked

/-- Settles O9: the exact sum or difference is the number that the instruction checks; ADDI's second operand
is the immediate's own signed value. -/
theorem checkedArithmetic : Obligations.CheckedArithmetic := by
  intro rd rs rt sa imm s
  refine ⟨⟨?_, ?add⟩, ⟨?_, ?sub⟩, ⟨?_, ?addi⟩⟩
  case add | sub =>
    rintro _ rfl
    exact writes_or_traps_of_writeChecked rfl rfl rfl
  case addi =>
    rw [← sext16_toInt]
    rintro _ rfl
    exact writes_or_traps_of_writeChecked rfl rfl rfl
  -- what remains: the words decode
  all_goals simp [decode, decodeSpecial]

end Sys2Proof.Claims

/-! PROOFS about multiply, divide and the HI/LO registers (42_muldiv.md): the exact products, quotients and
remainders, the moves, and the draws that the hazard of R142 leaves. -/

namespace Sys2Proof.Machine

/-! ## The hazard, case by case (R142) -/

/-- The draws of the hazard use up no stall of the input (R245). -/
@[simp] theorem applyHiloHazard_stalls (u : HiloUse) (s : State) :
    (applyHiloHazard u s).inputs.stalls = s.inputs.stalls := by
  unfold applyHiloHazard
  repeat' split
  all_goals rfl

/-- Case (a): both registers are draws, whatever the instruction has written. -/
theorem applyHiloHazard_afterRead (u : HiloUse) (hi lo : Word) {s : State}
    (hc : s.cfg.hiloHazard = .undefinedAfter) (hr : s.hist.readLast = true ∨ s.hist.readBefore = true) :
    applyHiloHazard u { s with hi := hi, lo := lo } =
      { s.nextDraw.nextDraw with hi := s.drawn, lo := s.nextDraw.drawn } := by
  rw [← Bool.or_eq_true] at hr
  simp only [applyHiloHazard, hc, hr]
  rfl

section MulDivOpen

variable {s : State} (hi lo : Word) (hc : s.cfg.hiloHazard = .undefinedAfter)
  (h1 : s.hist.readLast = false) (h2 : s.hist.readBefore = false) (h3 : s.hist.mulDivOpen = true)

include hc h1 h2 h3

/-- Case (b) for MTHI: the other register is a draw. -/
theorem applyHiloHazard_moveHi :
    applyHiloHazard .moveHi { s with hi := hi, lo := lo } = { s.nextDraw with hi := hi, lo := s.drawn } := by
  simp only [applyHiloHazard, hc, h1, h2, h3]
  rfl

/-- Case (b) for MTLO: the other register is a draw. -/
theorem applyHiloHazard_moveLo :
    applyHiloHazard .moveLo { s with hi := hi, lo := lo } = { s.nextDraw with lo := lo, hi := s.drawn } := by
  simp only [applyHiloHazard, hc, h1, h2, h3]
  rfl

end MulDivOpen

/-! ## Exact products (R132) -/

/-- No product of signed words overflows 64 bits. -/
theorem toInt_signedProduct (a b : Word) : (BitVec.ofInt 64 (a.toInt * b.toInt)).toInt = a.toInt * b.toInt := by
  have hlow : -(2 ^ 62) ≤ a.toInt * b.toInt := BitVec.le_toInt_mul_toInt
  have hhigh : a.toInt * b.toInt ≤ 2 ^ 62 := BitVec.toInt_mul_toInt_le
  exact BitVec.toInt_ofInt_eq_self (by omega) (by omega) (by omega)

/-- No product of unsigned words overflows 64 bits. -/
theorem toNat_unsignedProduct (a b : Word) :
    (BitVec.ofNat 64 (a.toNat * b.toNat)).toNat = a.toNat * b.toNat := by
  have hlt : a.toNat * b.toNat < 2 ^ 32 * 2 ^ 32 := Nat.mul_lt_mul'' a.isLt b.isLt
  rw [BitVec.toNat_ofNat]
  exact Nat.mod_eq_of_lt hlt

/-! ## Quotients and remainders (R136, R137) -/

theorem divSigned_zero (a : Word) :
    divSigned a 0 = (a, if 0 ≤ a.toInt then 0xFFFFFFFF else 1) := rfl

theorem divSigned_overflow : divSigned 0x80000000 0xFFFFFFFF = (0, 0x80000000) := by decide

/-- Away from the two special cases DIV is the signed remainder and quotient of machine words. -/
theorem divSigned_exact {a b : Word} (hb : b ≠ 0) (hov : ¬ (a = 0x80000000 ∧ b = 0xFFFFFFFF)) :
    divSigned a b = (a.srem b, a.sdiv b) := by
  have hd : b.toInt ≠ 0 := fun h => hb (BitVec.eq_of_toInt_eq h)
  have hq : (a.sdiv b).toInt = a.toInt.tdiv b.toInt :=
    BitVec.toInt_sdiv_of_ne_or_ne a b (not_and_or.mp hov)
  have hr : (a.srem b).toInt = a.toInt - a.toInt.tdiv b.toInt * b.toInt := by
    rw [BitVec.toInt_srem, Int.tmod_def, Int.mul_comm]
  simp only [divSigned, if_neg hd, if_neg hov]
  rw [← hr, ← hq, BitVec.ofInt_toInt, BitVec.ofInt_toInt]

theorem divSigned_exact_toInt {a b : Word} (hb : b ≠ 0) (hov : ¬ (a = 0x80000000 ∧ b = 0xFFFFFFFF)) :
    (divSigned a b).2.toInt = a.toInt.tdiv b.toInt ∧ (divSigned a b).1.toInt = a.toInt.tmod b.toInt := by
  rw [divSigned_exact hb hov]
  exact ⟨BitVec.toInt_sdiv_of_ne_or_ne a b (not_and_or.mp hov), BitVec.toInt_srem a b⟩

theorem divUnsigned_zero (a : Word) : divUnsigned a 0 = (a, 0xFFFFFFFF) := rfl

theorem divUnsigned_exact_toNat {a b : Word} (hb : b ≠ 0) :
    (divUnsigned a b).2.toNat = a.toNat / b.toNat ∧ (divUnsigned a b).1.toNat = a.toNat % b.toNat := by
  rw [divUnsigned, if_neg hb, ← BitVec.umod_def, ← BitVec.udiv_def]
  exact ⟨BitVec.toNat_udiv, BitVec.toNat_umod⟩

end Sys2Proof.Machine

namespace Sys2Proof.Claims

open Sys2Proof.Machine

/-! ## Instructions that write HI and LO -/

/-- In `s`, the meaning of `i` is to write `hi` and `lo`; its part in the hazard is `u`. -/
structure HiloWriter (i : Instr) (s : State) (u : HiloUse) (hi lo : Word) : Prop where
  meaning : exec i s = writeHilo u hi lo s
  reads : (u == .read) = readsHilo i
  mulDiv : (u == .mulDiv) = multipliesOrDivides i

section Writers

variable (rs rt : Reg) (s : State)

theorem hiloWriter_mult : HiloWriter (.mult rs rt) s .mulDiv
    ((BitVec.ofInt 64 ((s.x rs).toInt * (s.x rt).toInt)).extractLsb' 32 32)
    ((BitVec.ofInt 64 ((s.x rs).toInt * (s.x rt).toInt)).extractLsb' 0 32) := ⟨rfl, rfl, rfl⟩

theorem hiloWriter_multu : HiloWriter (.multu rs rt) s .mulDiv
    ((BitVec.ofNat 64 ((s.x rs).toNat * (s.x rt).toNat)).extractLsb' 32 32)
    ((BitVec.ofNat 64 ((s.x rs).toNat * (s.x rt).toNat)).extractLsb' 0 32) := ⟨rfl, rfl, rfl⟩

theorem hiloWriter_div : HiloWriter (.div rs rt) s .mulDiv
    (divSigned (s.x rs) (s.x rt)).1 (divSigned (s.x rs) (s.x rt)).2 := ⟨rfl, rfl, rfl⟩

theorem hiloWriter_divu : HiloWriter (.divu rs rt) s .mulDiv
    (divUnsigned (s.x rs) (s.x rt)).1 (divUnsigned (s.x rs) (s.x rt)).2 := ⟨rfl, rfl, rfl⟩

theorem hiloWriter_mthi : HiloWriter (.mthi rs) s .moveHi (s.x rs) s.lo := ⟨rfl, rfl, rfl⟩

theorem hiloWriter_mtlo : HiloWriter (.mtlo rs) s .moveLo s.hi (s.x rs) := ⟨rfl, rfl, rfl⟩

end Writers

section Writer

variable {i : Instr} {s : State} {u : HiloUse} {hi lo : Word}

/-- Such an instruction completes and leaves the written registers as the hazard has them. -/
theorem HiloWriter.leaves (w : HiloWriter i s u hi lo) :
    Leaves i s (applyHiloHazard u { s with hi := hi, lo := lo }) := by
  obtain ⟨hi', lo', n, heq⟩ := applyHiloHazard_eq u { s with hi := hi, lo := lo }
  have hst := applyHiloHazard_stalls u { s with hi := hi, lo := lo }
  refine ⟨_, w.meaning, completed_commit { hilo := u } (.inr ?cpu) ?cycle hst w.reads w.mulDiv,
    frame_commit _ _⟩
  case cpu => rw [heq]; exact ⟨rfl, rfl, rfl, rfl, rfl, rfl⟩
  case cycle => rw [heq]; rfl

/-- Outside both cases of the hazard the registers are as written. -/
theorem HiloWriter.leaves_quiet (w : HiloWriter i s u hi lo) (hn : NoHazard s)
    (ho : s.cfg.hiloHazard = .sequential ∨ s.hist.mulDivOpen = false ∨ u = .mulDiv) :
    Leaves i s { s with hi := hi, lo := lo } := by
  have hquiet : applyHiloHazard u { s with hi := hi, lo := lo } = { s with hi := hi, lo := lo } := by
    rcases hn with hseq | ⟨h1, h2⟩
    · exact applyHiloHazard_sequential u hseq
    · rcases ho with hseq | hopen
      · exact applyHiloHazard_sequential u hseq
      · exact applyHiloHazard_quiet u h1 h2 hopen
  exact hquiet ▸ w.leaves

/-- A multiply or divide is never undefined by case (b), and its next state holds its results. -/
theorem HiloWriter.mulDiv_next (w : HiloWriter i s .mulDiv hi lo) (hn : NoHazard s) :
    ∃ t, exec i s = .next t ∧ Completed i s t none none none ∧ t.hi = hi ∧ t.lo = lo ∧
      Frame { stallTaken s with hi := t.hi, lo := t.lo } t := by
  obtain ⟨t, hexec, hdone, hframe⟩ := w.leaves_quiet hn (.inr (.inr rfl))
  have hhi : t.hi = hi := hframe.hi
  have hlo : t.lo = lo := hframe.lo
  refine ⟨t, hexec, hdone, hhi, hlo, ?_⟩
  rw [hhi, hlo]
  exact hframe

end Writer

/-! ## The obligations -/

/-- Settles O10: HI and LO are the two halves of the product, which fits in 64 bits. -/
theorem productInHiLo : Obligations.ProductInHiLo := by
  intro rs rt rd sa s
  refine ⟨by simp [decodeSpecial], by simp [decodeSpecial], fun hn => ⟨?mult, ?multu⟩⟩
  case mult =>
    obtain ⟨t, hexec, hdone, hhi, hlo, hframe⟩ := (hiloWriter_mult rs rt s).mulDiv_next hn
    refine ⟨t, hexec, hdone, ?_, hframe⟩
    rw [hhi, hlo, BitVec.extractLsb'_append_extractLsb', toInt_signedProduct]
  case multu =>
    obtain ⟨t, hexec, hdone, hhi, hlo, hframe⟩ := (hiloWriter_multu rs rt s).mulDiv_next hn
    refine ⟨t, hexec, hdone, ?_, hframe⟩
    rw [hhi, hlo, BitVec.extractLsb'_append_extractLsb', toNat_unsignedProduct]

/-- Settles O11: the results by the case of the divisor, and for DIV the one overflowing quotient. -/
theorem quotientAndRemainder : Obligations.QuotientAndRemainder := by
  intro rs rt rd sa s
  refine ⟨by simp [decodeSpecial], by simp [decodeSpecial], fun hn => ⟨?div, ?divu⟩⟩
  case div =>
    obtain ⟨t, hexec, hdone, hhi, hlo, hframe⟩ := (hiloWriter_div rs rt s).mulDiv_next hn
    refine ⟨t, hexec, hdone, hframe, ?_, ?_, ?_⟩
    · intro hzero
      rw [hhi, hlo, hzero, divSigned_zero]
      exact ⟨rfl, rfl⟩
    · intro ha hb
      rw [hhi, hlo, ha, hb, divSigned_overflow]
      exact ⟨rfl, rfl⟩
    · intro hb hov
      rw [hhi, hlo]
      exact divSigned_exact_toInt hb hov
  case divu =>
    obtain ⟨t, hexec, hdone, hhi, hlo, hframe⟩ := (hiloWriter_divu rs rt s).mulDiv_next hn
    refine ⟨t, hexec, hdone, hframe, ?_, ?_⟩
    · intro hzero
      rw [hhi, hlo, hzero, divUnsigned_zero]
      exact ⟨rfl, rfl⟩
    · intro hb
      rw [hhi, hlo]
      exact divUnsigned_exact_toNat hb

/-- Settles O12: MFHI and MFLO are direct writes; MTHI and MTLO leave the other register as it was. -/
theorem hiLoMoves : Obligations.HiLoMoves := by
  intro r p q sa s
  refine ⟨⟨?_, ?mfhi⟩, ⟨?_, ?mflo⟩, ?_, ?_, ?moves⟩
  case mfhi => exact completes_ok (e := { wreg := some (r, s.hi), hilo := .read }) rfl rfl rfl
  case mflo => exact completes_ok (e := { wreg := some (r, s.lo), hilo := .read }) rfl rfl rfl
  case moves =>
    intro hn ho
    have hquiet (u : HiloUse) := ho.imp_right (Or.inl (b := u = .mulDiv))
    exact ⟨(hiloWriter_mthi r s).leaves_quiet hn (hquiet _),
      (hiloWriter_mtlo r s).leaves_quiet hn (hquiet _)⟩
  -- what remains: the words decode
  all_goals simp [decodeSpecial]

/-- Settles O13: in case (a) what the instruction wrote does not matter; in case (b) one register is kept. -/
theorem hiLoHazard : Obligations.HiLoHazard := by
  intro rs rt s hc
  constructor
  · intro hread i hmem
    have hwriter : ∃ u hi lo, HiloWriter i s u hi lo := by
      simp only [List.mem_cons, List.not_mem_nil, or_false] at hmem
      rcases hmem with rfl | rfl | rfl | rfl | rfl | rfl
      · exact ⟨_, _, _, hiloWriter_mult rs rt s⟩
      · exact ⟨_, _, _, hiloWriter_multu rs rt s⟩
      · exact ⟨_, _, _, hiloWriter_div rs rt s⟩
      · exact ⟨_, _, _, hiloWriter_divu rs rt s⟩
      · exact ⟨_, _, _, hiloWriter_mthi rs s⟩
      · exact ⟨_, _, _, hiloWriter_mtlo rs s⟩
    obtain ⟨u, hi, lo, w⟩ := hwriter
    exact applyHiloHazard_afterRead u hi lo hc hread ▸ w.leaves
  · intro h1 h2 h3
    exact ⟨applyHiloHazard_moveHi _ _ hc h1 h2 h3 ▸ (hiloWriter_mthi rs s).leaves,
      applyHiloHazard_moveLo _ _ hc h1 h2 h3 ▸ (hiloWriter_mtlo rs s).leaves⟩

end Sys2Proof.Claims

/-! PROOFS about branches and jumps (43_branch.md): their words, conditions, targets and links. -/

namespace Sys2Proof.Claims

open Sys2Proof.Machine

/-! ## Instructions with a branch result (R143) -/

theorem branches_of_eq {i : Instr} {s : State} {b b' : BranchTarget} (h : exec i s = branchResult b s)
    (hb : b = b') (h1 : readsHilo i = false) (h2 : multipliesOrDivides i = false) : Branches i s b' :=
  hb ▸ completes_ok (e := { branch := some b }) h (by rw [h1]; rfl) (by rw [h2]; rfl)

theorem links_of_eq {i : Instr} {s : State} {r : Reg} {b b' : BranchTarget}
    (h : exec i s = branchAndLink r b s) (hb : b = b') (h1 : readsHilo i = false)
    (h2 : multipliesOrDivides i = false) : Links i s r b' :=
  hb ▸ completes_ok (e := { wreg := some (r, s.linkValue), branch := some b }) h
    (by rw [h1]; rfl) (by rw [h2]; rfl)

/-! ## The conditions (R145 to R152) -/

theorem branchIf_of_iff {c : Bool} {p : Prop} [Decidable p] (h : c = true ↔ p) (t : Word) :
    branchIf c t = if p then .taken t else .notTaken := by
  by_cases hp : p <;> simp [branchIf, h, hp]

theorem branchIf_of_iff_not {c : Bool} {p : Prop} [Decidable p] (h : c = true ↔ ¬ p) (t : Word) :
    branchIf c t = if p then .notTaken else .taken t := by
  by_cases hp : p <;> simp [branchIf, h, hp]

/-! ## The selector of REGIMM (R83) -/

theorem decode_bltz {rt : BitVec 5} (rs : Reg) (imm : Half) (heven : rt.toNat % 2 = 0) (h : rt ≠ 16) :
    decode (encodeI 0x01 rs rt imm) = .instr (.bltz rs rt imm) := by
  refine decodeOfEncode (.bltz rs rt imm) ((selectsBltz_iff rt).mpr ⟨h, ?_, ?_⟩)
  · rintro rfl
    exact absurd heven (by decide)
  · simp [BitVec.getElem_eq_testBit_toNat, heven]

theorem decode_bgez {rt : BitVec 5} (rs : Reg) (imm : Half) (hodd : rt.toNat % 2 = 1) (h : rt ≠ 17) :
    decode (encodeI 0x01 rs rt imm) = .instr (.bgez rs rt imm) := by
  refine decodeOfEncode (.bgez rs rt imm) ((selectsBgez_iff rt).mpr ⟨?_, h, ?_⟩)
  · rintro rfl
    exact absurd hodd (by decide)
  · simp [BitVec.getElem_eq_testBit_toNat, hodd]

/-! ## The obligations -/

/-- Settles O14: each instruction ends in a branch result, taken by its condition; BLTZ and BGEZ share their
opcode and are told apart by the selector (R83). -/
theorem conditionalBranches : Obligations.ConditionalBranches := by
  rintro rs rt imm s _ rfl
  refine ⟨⟨?_, ?beq⟩, ⟨?_, ?bne⟩, ⟨?_, ?blez⟩, ⟨?_, ?bgtz⟩, decode_bltz rs imm, ?bltz, decode_bgez rs imm, ?bgez⟩
  case beq => exact branches_of_eq rfl (branchIf_of_iff beq_iff_eq _) rfl rfl
  case bne => exact branches_of_eq rfl (branchIf_of_iff_not bne_iff_ne _) rfl rfl
  case blez | bltz => exact branches_of_eq rfl (branchIf_of_iff decide_eq_true_iff _) rfl rfl
  case bgtz =>
    exact branches_of_eq rfl (branchIf_of_iff_not (decide_eq_true_iff.trans Int.not_le.symm) _) rfl rfl
  case bgez =>
    exact branches_of_eq rfl (branchIf_of_iff_not (decide_eq_true_iff.trans Int.not_lt.symm) _) rfl rfl
  -- what remains: the words decode
  all_goals simp [decode]

/-- Settles O15: the effect of each instruction is made from the state before it, so a register target and
the condition do not see the link, which is written whatever the branch result. -/
theorem jumpsAndLinks : Obligations.JumpsAndLinks := by
  rintro rd rs p q sa imm target s _ _ rfl rfl
  refine ⟨⟨decodeOfEncode (.bltzal rs imm) rfl, ?bltzal⟩, ⟨decodeOfEncode (.bgezal rs imm) rfl, ?bgezal⟩,
    ⟨decodeOfEncode (.j target) rfl, ?j⟩, ⟨decodeOfEncode (.jal target) rfl, ?jal⟩, ⟨?_, ?jr⟩, ⟨?_, ?jalr⟩⟩
  case bltzal => exact links_of_eq rfl (branchIf_of_iff decide_eq_true_iff _) rfl rfl
  case bgezal =>
    exact links_of_eq rfl (branchIf_of_iff_not (decide_eq_true_iff.trans Int.not_lt.symm) _) rfl rfl
  case j | jr => exact branches_of_eq rfl rfl rfl rfl
  case jal | jalr => exact links_of_eq rfl rfl rfl rfl
  -- what remains: the words of JR and JALR decode, whatever stands in their ignored fields (R86)
  all_goals simp [decodeSpecial]

end Sys2Proof.Claims

/-! PROOFS about unaligned words (44_loadstore.md R174): where the bytes of a word stand in memory, and the
pair LWR, LWL. -/

namespace Sys2Proof.Machine

open Sys2Proof.Claims

/-! ## The bytes of a word in memory (R54, R56, R57) -/

theorem deviceAt_key (map : List DevRange) (p : Nat) : (deviceAt map p).key = none := by
  unfold deviceAt
  split <;> rfl

/-- The physical addresses that stand in the memory image: RAM's images, SCRATCH and BIOS. -/
theorem physRegion_key (map : List DevRange) (p : Nat) (g : Segment) :
    (physRegion map p g).key =
      if p < 0x800000 then some (p % 0x200000)
      else if 0x1F800000 ≤ p ∧ p < 0x1F800400 then if g = .kseg1 then none else some p
      else if 0x1FC00000 ≤ p ∧ p < 0x1FC80000 then some p
      else none := by
  rw [physRegion_eq]
  by_cases hram : p < 0x800000
  · rw [if_pos hram, if_pos hram, Region.key]
  by_cases hscratch : 0x1F800000 ≤ p ∧ p < 0x1F800400
  · simp (disch := omega) only [if_pos, if_neg]
    split
    · rfl
    · rw [Region.key, scratchBase, Nat.add_sub_cancel' hscratch.1]
  by_cases hbios : 0x1FC00000 ≤ p ∧ p < 0x1FC80000
  · simp (disch := omega) only [if_pos, if_neg]
    rw [Region.key, biosBase, Nat.add_sub_cancel' hbios.1]
  · simp only [if_neg hram, if_neg hscratch, if_neg hbios]
    -- what remains: devices, the two controllers and unmapped addresses
    simp only [apply_ite Region.key, deviceAt_key]
    simp only [Region.key, ite_self]

/-- The bounds of RAM, SCRATCH and BIOS are those of words, so a word lies in one of them as a whole. -/
theorem physRegion_key_of_word {map : List DevRange} {p k : Nat} {g : Segment}
    (h : (physRegion map (p / 4 * 4) g).key = some k) : (physRegion map p g).key = some (k + p % 4) := by
  have hram : p / 4 * 4 < 0x800000 ↔ p < 0x800000 := by omega
  have hscratch : 0x1F800000 ≤ p / 4 * 4 ∧ p / 4 * 4 < 0x1F800400 ↔ 0x1F800000 ≤ p ∧ p < 0x1F800400 := by
    omega
  have hbios : 0x1FC00000 ≤ p / 4 * 4 ∧ p / 4 * 4 < 0x1FC80000 ↔ 0x1FC00000 ≤ p ∧ p < 0x1FC80000 := by
    omega
  simp only [physRegion_key, hram, hscratch, hbios] at h ⊢
  clear hram hscratch hbios
  split_ifs at h ⊢
  all_goals
    injection h with h
    congr 1
    omega

/-- The byte at an address stands in the word of the address, in its lane. -/
theorem region_key_of_wordOf {s : State} {va : Word} {k : Nat}
    (h : (s.region (wordOf va)).key = some k) : (s.region va).key = some (k + va.toNat % 4) := by
  cases hseg : segmentOf (va.toNat / 2 ^ 29) with
  | none =>
    rw [region_unmapped (by rwa [wordOf_segment])] at h
    split at h <;> cases h
  | some g =>
    rw [region_mapped (by rwa [wordOf_segment]), wordOf_toNat,
      show va.toNat / 4 * 4 % 2 ^ 29 = va.toNat % 2 ^ 29 / 4 * 4 by omega] at h
    rw [region_mapped hseg, physRegion_key_of_word h,
      show va.toNat % 2 ^ 29 % 4 = va.toNat % 4 by omega]

theorem byteAt_of_wordOf {s : State} {va : Word} {k : Nat} (h : (s.region (wordOf va)).key = some k) :
    byteAt s va = some (s.mem.get (k + va.toNat % 4)) := by
  rw [byteAt, region_key_of_wordOf h, Option.map_some]

/-! ## The addresses of an unaligned word (R174) -/

theorem wordOf_congr {va va' : Word} (h : va.toNat / 4 = va'.toNat / 4) : wordOf va = wordOf va' :=
  BitVec.eq_of_toNat_eq (by rw [wordOf_toNat, wordOf_toNat, h])

/-- A byte of the unaligned word at `va` that lies in the word of `va`. -/
theorem word_of_low_byte {va : Word} {j : Nat} (h : j + va.toNat % 4 < 4) :
    wordOf (va + BitVec.ofNat 32 j) = wordOf va ∧
      (va + BitVec.ofNat 32 j).toNat % 4 = j + va.toNat % 4 := by
  have hlt := va.isLt
  have hj : (va + BitVec.ofNat 32 j).toNat = va.toNat + j := by
    rw [BitVec.toNat_add, BitVec.toNat_ofNat]
    omega
  exact ⟨wordOf_congr (by omega), by omega⟩

/-- A byte of the unaligned word at `va` that lies in the word of its last byte. -/
theorem word_of_high_byte {va : Word} {j : Nat} (hj : j < 4) (h : 3 ≤ j + (va + 3).toNat % 4) :
    wordOf (va + BitVec.ofNat 32 j) = wordOf (va + 3) ∧
      (va + BitVec.ofNat 32 j).toNat % 4 = j + (va + 3).toNat % 4 - 3 := by
  have hadd : (va + BitVec.ofNat 32 j).toNat = ((va + 3).toNat + j + 2 ^ 32 - 3) % 2 ^ 32 := by
    rw [BitVec.toNat_add, BitVec.toNat_add, BitVec.toNat_ofNat, show (3 : Word).toNat = 3 from rfl]
    omega
  have hlt := (va + 3).isLt
  exact ⟨wordOf_congr (by omega), by omega⟩

end Sys2Proof.Machine

namespace Sys2Proof.Claims

open Sys2Proof.Machine

/-! ## An access after a completed instruction -/

/-- Where an address leads is decided by the parameters of the machine. -/
theorem region_congr {s t : State} (h : t.cfg = s.cfg) (va : Word) : t.region va = s.region va := by
  rw [State.region, State.region, h]

/-- Whether an access reaches its region is decided by SR. -/
theorem Reaches.congr {s t : State} {va : Word} {w : Width} (h : Reaches s va w) (hc : t.cop0 = s.cop0) :
    Reaches t va w where
  aligned := h.aligned
  permitted := by simpa only [inUserMode, hc] using h.permitted
  ordinary := by simpa only [inUserMode, hc] using h.ordinary
  notIsolated := by simpa only [State.isolated, State.cacheIsolated, hc] using h.notIsolated

/-- A load leaves every register but the ones that the pending load changes; its own register it changes
only later, and a load pending for that register it cancels (R99). -/
theorem RegsAfter.x_load {s t : State} {rt r : Reg} {v : Word} (h : RegsAfter s t none (some ⟨rt, v⟩))
    (hr : ∀ v, s.lslot = some ⟨r, v⟩ → r = 0 ∨ r = rt ∨ v = s.x r) : t.x r = s.x r := by
  by_cases h0 : r = 0
  · subst h0
    exact h.zero
  · by_cases hpend : ∃ v, s.lslot = some ⟨r, v⟩ ∧ r ≠ rt
    · obtain ⟨u, hu, hne⟩ := hpend
      have hux : u = s.x r := ((hr u hu).resolve_left h0).resolve_left hne
      exact (h.loaded ⟨r, u⟩ hu h0 nofun fun | _, rfl => hne.symm).trans hux
    · refine h.kept r nofun fun l hl hlr => ⟨_, rfl, ?_⟩
      subst hlr
      by_contra hne
      exact hpend ⟨l.val, hl, Ne.symm hne⟩

/-! ## The pair LWR, LWL (R167, R168, R174) -/

/-- Settles O21: LWR leaves pending the bytes that lie in the word of `va`, and LWL merges into that value
the bytes that lie in the word of `va + 3`. -/
theorem unalignedPairLoadsWord : Obligations.UnalignedPairLoadsWord := by
  rintro rt rs imm imm' s va hva hva' hbase hkey hkey' hreach hreach'
  obtain ⟨k, hk⟩ := Option.isSome_iff_exists.mp hkey
  obtain ⟨k', hk'⟩ := Option.isSome_iff_exists.mp hkey'
  obtain ⟨_, low, ⟨t, hlwr, hdone, hframe⟩, hlow⟩ := unalignedLoads rt rs imm s va (s.mergeOperand rt) k _
    hva rfl hk hreach (fun _ => mergeOperand_pending) mergeOperand_register
  have hpend : t.lslot = some ⟨rt, low⟩ := hdone.regs.pending
  have hea : eaOf t rs imm' = va + 3 := by rw [eaOf, hdone.regs.x_load hbase, ← hva', eaOf]
  have hkt : (t.region (wordOf (va + 3))).key = some k' := by rw [region_congr hframe.cfg]; exact hk'
  obtain ⟨⟨word, ⟨u, hlwl, hdone', _⟩, hword⟩, _⟩ := unalignedLoads rt rs imm' t (va + 3) low k' _
    hea.symm rfl hkt (hreach'.congr hframe.cop0) (fun v hv => by rw [hpend] at hv; cases hv; rfl)
    (fun hno => absurd hpend (hno low))
  refine ⟨t, u, word, hlwr, hlwl, hdone'.regs.pending, fun j hj => ?_⟩
  rw [hword j hj]
  by_cases hhigh : 3 ≤ j + (va + 3).toNat % 4
  · obtain ⟨hw, hlane⟩ := word_of_high_byte hj hhigh
    rw [if_pos hhigh, byteAt_of_wordOf (hw ▸ hk'), hlane, hframe.memory]
    rfl
  · have hfit : j + va.toNat % 4 < 4 := by
      have hlast : (va + 3).toNat = (va.toNat + 3) % 2 ^ 32 := BitVec.toNat_add va 3
      omega
    obtain ⟨hw, hlane⟩ := word_of_low_byte hfit
    rw [if_neg hhigh, hlow j hj, if_pos hfit, byteAt_of_wordOf (hw ▸ hk), hlane]

end Sys2Proof.Claims

/-! PROOFS about the system instructions (45_system.md): the traps, COP0 access, RFE, the absent coprocessors,
the words outside the opcode table; and that user mode keeps COP0. -/

namespace Sys2Proof.Machine

/-! ## A step keeps COP0 unless an exception is taken or COP0 is usable (R177, R200, R201) -/

theorem dmaComplete_cop0 (n : ChanNum) (s : State) : (dmaComplete n s).cop0 = s.cop0 := by
  obtain ⟨q, flag, h⟩ := dmaComplete_rest n s
  rw [h]
  rfl

theorem DmaEnds.cop0 {n : ChanNum} {s t : State} (h : DmaEnds n s t) : t.cop0 = s.cop0 := by
  obtain ⟨s', hbus, rfl | ⟨c, d, _, _, rfl⟩⟩ := h
  · exact (dmaComplete_cop0 n s').trans hbus.sameCpu.cop0
  · exact hbus.sameCpu.cop0

/-- An event changes nothing of COP0 (R243). -/
theorem fireEvent_cop0 {e : Event} {s t : State} (h : fireEvent e s = .next t) : t.cop0 = s.cop0 := by
  rcases fireEvent_cases h with ⟨_, _, hends⟩ | ⟨_, _, hbus⟩
  · exact hends.cop0
  · exact hbus.sameCpu.cop0

/-- The effects that change COP0 are those of RFE and MTC0, which need COP0 usable (R178 to R180). -/
theorem Immediate.cop0_of_unusable {i : Instr} {s t : State} (h : Immediate i s t)
    (hu : s.usable 0 = false) : t.cop0 = s.cop0 := by
  cases h with
  | bus hbus => exact hbus.sameCpu.cop0
  | hilo => rfl
  | cop0 _ husable => exact absurd husable (Bool.eq_false_iff.mp hu)
  | command => rfl

theorem execDecoded_cop0_of_unusable {d : Decoded} {s t : State} (h : execDecoded d s = .next t)
    (hu : s.usable 0 = false) : t.cop0 = s.cop0 ∨ ∃ e, t = takeException e s := by
  rcases execDecoded_cases h with hexc | ⟨_, _, hexc | ⟨eff, s', himm, rfl⟩⟩
  · exact .inr hexc
  · exact .inr hexc
  · exact .inl (himm.cop0_of_unusable hu)

/-- Where an exception goes is decided by SR (R204). -/
theorem vector_congr {s t : State} (h : t.cop0 = s.cop0) : t.vector = s.vector := by
  rw [State.vector, State.vector, State.bootVectors, State.bootVectors, h]

end Sys2Proof.Machine

namespace Sys2Proof.Claims

open Sys2Proof.Machine

/-! ## The usability check (R200) -/

theorem usable_zero_eq_false_iff {s : State} :
    s.usable 0 = false ↔ inUserMode s ∧ s.cop0.sr.getLsbD 28 = false := by
  simp [State.usable, State.userMode, State.cu]

theorem usable_zero_of_not {s : State} (h : ¬ (inUserMode s ∧ s.cop0.sr.getLsbD 28 = false)) :
    s.usable 0 = true := by
  rwa [← usable_zero_eq_false_iff, Bool.not_eq_false] at h

theorem usable_one (s : State) : s.usable 1 = s.cop0.sr.getLsbD 29 := rfl

theorem usable_three (s : State) : s.usable 3 = s.cop0.sr.getLsbD 31 := rfl

section Usability

variable {i : Instr} {s : State} {z : CopNum} {r : Res Effect}

theorem whenUsable_of_usable (hu : s.usable z = true) : whenUsable z r s = finish s r := if_pos hu

theorem whenUsable_of_unusable (hu : s.usable z = false) : whenUsable z r s = finish s (.exc (.cpU z)) :=
  if_neg (Bool.eq_false_iff.mp hu)

/-- A coprocessor instruction takes CpU when its coprocessor is unusable. -/
theorem traps_of_unusable (h : exec i s = whenUsable z r s) (hu : s.usable z = false) :
    Traps i s 11 z none :=
  traps_of_finish (e := .cpU z) (h.trans (whenUsable_of_unusable hu))

/-- In user mode without CU0 every COP0 instruction takes CpU with CE = 0 (R177). -/
theorem traps_of_inUserMode (h : exec i s = whenUsable 0 r s) (huser : inUserMode s)
    (hcu : s.cop0.sr.getLsbD 28 = false) : Traps i s 11 0 none :=
  traps_of_unusable h (usable_zero_eq_false_iff.mpr ⟨huser, hcu⟩)

theorem refused_of_usable (h : exec i s = absentCop z s) (hu : s.usable z = true) :
    exec i s = .refused .unmodelledCop :=
  h.trans (whenUsable_of_usable hu)

theorem execOtherCop_of_unusable (hu : s.usable z = false) : ∃ t, execOtherCop z s = .next t ∧
    Trapped 11 z none s.pc (s.bslot.map BranchSlot.bpc) s t :=
  ⟨_, whenUsable_of_unusable hu, trapped_takeException (.cpU z) s⟩

theorem execOtherCop_of_usable (hu : s.usable z = true) : execOtherCop z s = .refused .unmodelledCop :=
  whenUsable_of_usable hu

end Usability

/-! ## User mode keeps COP0 (R177, R210) -/

/-- The push makes the mode kernel mode (R203). -/
theorem not_inUserMode_exceptionEntry (e : Exc) (pc : Word) (slot : Option Word) (s : State) :
    ¬ inUserMode (exceptionEntry e pc slot s) := by
  have hbit : (pushSr s.cfg.ieStackLevels s.cop0.sr).getLsbD 1 = false := by
    cases s.cfg.ieStackLevels <;> simp [pushSr, IeStackLevels.stackMask]
  exact Bool.eq_false_iff.mp hbit

/-- Settles O41: an event and a completed instruction keep COP0, and what else a step does is to take an
exception; the command before an interrupt keeps COP0, and so the vector. -/
theorem userModeKeepsCop0 : Obligations.UserModeKeepsCop0 := by
  intro s t huser hcu h
  have hu : s.usable 0 = false := usable_zero_eq_false_iff.mpr ⟨huser, hcu⟩
  obtain ⟨_, ⟨e, _, hfire⟩ | ⟨_, _, hint⟩ | ⟨_, _, hinstr⟩⟩ := step_cases h
  · exact .inl (fireEvent_cop0 hfire)
  · rcases interruptStep_cases hint with rfl | ⟨w, u, hquirk, hexec, rfl⟩
    · exact .inr ⟨rfl, not_inUserMode_exceptionEntry _ _ _ s⟩
    · obtain ⟨_, _, hcu2, _, cofun, hdec⟩ := quirkWord_eq_some_iff.mp hquirk
      rw [hdec, execDecoded, exec_cop2Command cofun hcu2] at hexec
      injection hexec with hexec
      subst hexec
      exact .inr ⟨vector_congr rfl, not_inUserMode_exceptionEntry _ _ _ _⟩
  · rcases instructionStep_cases hinstr with ⟨e, rfl⟩ | ⟨w, u, _, hexec, rfl⟩
    · exact .inr ⟨rfl, not_inUserMode_exceptionEntry e _ _ s⟩
    · rcases execDecoded_cop0_of_unusable hexec hu with hkept | ⟨e, rfl⟩
      · exact .inl hkept
      · exact .inr ⟨rfl, not_inUserMode_exceptionEntry e _ _ s⟩

/-! ## Traps (R175, R176) and absent coprocessors (R182 to R186) -/

/-- Settles O32: the word selects the instruction by its function field alone, and the exception is all that
the instruction does. -/
theorem syscallAndBreakTrap : Obligations.SyscallAndBreakTrap := fun code _ =>
  ⟨⟨decodeOfEncode (.syscall code) rfl, traps_of_finish (e := .syscall) rfl⟩,
    ⟨decodeOfEncode (.brk code) rfl, traps_of_finish (e := .bp) rfl⟩⟩

/-- Settles O36: the instructions of one absent coprocessor have one meaning. -/
theorem absentCoprocessors : Obligations.AbsentCoprocessors := by
  intro rt imm rs bits s
  have hcop1 : ∀ i ∈ [Instr.cop1 bits, .lwc1 rt imm rs, .swc1 rt imm rs], exec i s = absentCop 1 s := by
    simp [exec, execCop1, execLwc1, execSwc1]
  have hcop3 : ∀ i ∈ [Instr.cop3 bits, .lwc3 rt imm rs, .swc3 rt imm rs], exec i s = absentCop 3 s := by
    simp [exec, execCop3, execLwc3, execSwc3]
  refine ⟨decodeOfEncode (.cop1 bits) rfl, decodeOfEncode (.cop3 bits) rfl,
    decodeOfEncode (.lwc1 rt imm rs) rfl, decodeOfEncode (.swc1 rt imm rs) rfl,
    decodeOfEncode (.lwc3 rt imm rs) rfl, decodeOfEncode (.swc3 rt imm rs) rfl,
    decodeOfEncode (.lwc0 rt imm rs) rfl, decodeOfEncode (.swc0 rt imm rs) rfl,
    fun hu i hi => traps_of_unusable (hcop1 i hi) ((usable_one s).trans hu),
    fun hu i hi => refused_of_usable (hcop1 i hi) ((usable_one s).trans hu),
    fun hu i hi => traps_of_unusable (hcop3 i hi) ((usable_three s).trans hu),
    fun hu i hi => refused_of_usable (hcop3 i hi) ((usable_three s).trans hu), ?_⟩
  simp [exec, execLwc0, execSwc0]

/-! ## The primary opcodes with a table of their own (R81) -/

theorem decode_of_special {w : Word} (hop : fieldOp w = 0x00#6) : decode w = decodeSpecial w := by
  rw [decode, hop]
  rfl

theorem decode_of_cop0 {w : Word} (hop : fieldOp w = 0x10#6) : decode w = decodeCop0 w := by
  rw [decode, hop]
  rfl

theorem decode_of_cop2 {w : Word} (hop : fieldOp w = 0x12#6) : decode w = decodeCop2 w := by
  rw [decode, hop]
  rfl

/-! ## Words outside the opcode table (R87, R181, R187, R198) -/

/-- The primary opcodes that R87 lists. -/
def reservedOps : List Nat :=
  [20, 21, 22, 23, 24, 25, 26, 27, 28, 29, 30, 31, 39, 44, 45, 47, 52, 53, 54, 55, 60, 61, 62, 63]

/-- The SPECIAL functions that R87 lists. -/
def reservedFuncts : List Nat :=
  [1, 5, 10, 11, 14, 15, 20, 21, 22, 23, 28, 29, 30, 31, 40, 41, 44, 45, 46, 47, 48, 49, 50, 51, 52,
    53, 54, 55, 56, 57, 58, 59, 60, 61, 62, 63]

/-- Whether a word of SPECIAL is reserved is decided by its function field. -/
theorem decodeSpecial_eq_reserved_iff (w : Word) :
    decodeSpecial w = .reserved ↔ (fieldFunct w).toNat ∈ reservedFuncts := by
  have hall : ∀ f : BitVec 6,
      decodeSpecial (encodeR 0 0 0 0 f) = .reserved ↔ f.toNat ∈ reservedFuncts := by decide
  rw [← hall]
  unfold decodeSpecial
  rw [fieldFunct_encodeR]
  split <;> simp only [reduceCtorEq]

theorem decodeRegimm_ne_reserved (w : Word) : decodeRegimm w ≠ .reserved := by
  unfold decodeRegimm
  split_ifs <;> nofun

theorem decodeCop0_ne_reserved (w : Word) : decodeCop0 w ≠ .reserved := by
  unfold decodeCop0
  split_ifs
  · nofun
  · nofun
  · split <;> nofun

theorem decodeCop2_ne_reserved (w : Word) : decodeCop2 w ≠ .reserved := by
  unfold decodeCop2
  split_ifs
  · nofun
  · split <;> nofun

/-- Whether another word is reserved is decided by its opcode. -/
theorem decode_eq_reserved_iff_of_ne {w : Word} (h : fieldOp w ≠ 0) :
    decode w = .reserved ↔ (fieldOp w).toNat ∈ reservedOps := by
  have hall : ∀ op : BitVec 6, op ≠ 0 →
      (decode (encodeJ op 0) = .reserved ↔ op.toNat ∈ reservedOps) := by decide
  rw [← hall _ h]
  unfold decode
  rw [fieldOp_encodeJ]
  split
  case h_1 hop => exact absurd hop h
  all_goals simp only [decodeRegimm_ne_reserved, decodeCop0_ne_reserved, decodeCop2_ne_reserved, reduceCtorEq]

theorem decode_eq_reserved_iff (w : Word) : decode w = .reserved ↔
    (fieldOp w).toNat ∈ reservedOps ∨ (fieldOp w).toNat = 0 ∧ (fieldFunct w).toNat ∈ reservedFuncts := by
  by_cases h : fieldOp w = 0
  · rw [decode_of_special h, decodeSpecial_eq_reserved_iff, h]
    simp [reservedOps]
  · have hn : (fieldOp w).toNat ≠ 0 := fun hz => h (BitVec.eq_of_toNat_eq hz)
    rw [decode_eq_reserved_iff_of_ne h]
    simp [hn]

/-- A COP0 word that is no RFE, MFC0 or MTC0 (R181). -/
theorem decode_otherCop0 {w : Word} (hop : fieldOp w = 0x10#6)
    (hrfe : ¬ (fieldCo w = true ∧ fieldFunct w = 0x10#6))
    (hmove : ¬ (fieldCo w = false ∧ (fieldRs w = 0#5 ∨ fieldRs w = 4#5))) :
    decode w = .unmodelledCop 0 := by
  rw [decode_of_cop0 hop, decodeCop0]
  split_ifs with hco hf
  · exact absurd ⟨hco, hf⟩ hrfe
  · rfl
  · rw [Bool.not_eq_true] at hco
    split
    · next h => exact absurd ⟨hco, .inl h⟩ hmove
    · next h => exact absurd ⟨hco, .inr h⟩ hmove
    · rfl

/-- A COP2 word with bit 25 clear that is no move (R198). -/
theorem decode_otherCop2 {w : Word} (hop : fieldOp w = 0x12#6) (hco : fieldCo w = false)
    (hmove : ¬ (fieldRs w = 0#5 ∨ fieldRs w = 2#5 ∨ fieldRs w = 4#5 ∨ fieldRs w = 6#5)) :
    decode w = .unmodelledCop 2 := by
  rw [decode_of_cop2 hop, decodeCop2, if_neg (Bool.eq_false_iff.mp hco)]
  split
  · next h => exact absurd (.inl h) hmove
  · next h => exact absurd (.inr (.inl h)) hmove
  · next h => exact absurd (.inr (.inr (.inl h))) hmove
  · next h => exact absurd (.inr (.inr (.inr h))) hmove
  · rfl

/-- Settles O5: the decoder's answer decides what the word does, and the usability check comes first. -/
theorem wordsOutsideTheTable : Obligations.WordsOutsideTheTable := by
  intro w s
  refine ⟨(decode_eq_reserved_iff w).symm, fun h => ?_, fun hop hrfe hmove => ?_, fun hop hco hmove => ?_⟩
  · rw [h]
    exact ⟨_, rfl, trapped_takeException .ri s⟩
  · rw [decode_otherCop0 hop hrfe hmove]
    exact ⟨fun hu => execOtherCop_of_unusable (usable_zero_eq_false_iff.mpr hu),
      fun hu => execOtherCop_of_usable (usable_zero_of_not hu)⟩
  · rw [decode_otherCop2 hop hco hmove]
    exact ⟨fun hu => execOtherCop_of_unusable ((usable_two s).trans hu),
      fun hu => execOtherCop_of_usable ((usable_two s).trans hu)⟩

/-! ## The words of MFC0, MTC0 and RFE (R84, R86) -/

theorem fieldCo_eq_fieldRs_getLsbD (w : Word) : fieldCo w = (fieldRs w).getLsbD 4 := by simp [fieldCo, fieldRs]

/-- The fields of a coprocessor move, whatever stands in its ignored bits 10:0. -/
theorem fields_move (op : BitVec 6) (sub rt rd : BitVec 5) (low : BitVec 11) :
    fieldOp (op ++ sub ++ rt ++ rd ++ low) = op ∧ fieldRs (op ++ sub ++ rt ++ rd ++ low) = sub ∧
      fieldRt (op ++ sub ++ rt ++ rd ++ low) = rt ∧ fieldRd (op ++ sub ++ rt ++ rd ++ low) = rd := by
  simp only [fieldOp, fieldRs, fieldRt, fieldRd]
  refine ⟨?_, ?_, ?_, ?_⟩
  all_goals
    repeat first
      | rw [BitVec.extractLsb'_append_eq_of_le (by omega)]
      | rw [BitVec.extractLsb'_append_eq_of_add_le (by omega)]
    simp

theorem decode_mfc0 (rt rd : BitVec 5) (low : BitVec 11) :
    decode (0x10#6 ++ 0x00#5 ++ rt ++ rd ++ low) = .instr (.mfc0 rt rd) := by
  obtain ⟨hop, hrs, hrt, hrd⟩ := fields_move 0x10#6 0x00#5 rt rd low
  rw [decode_of_cop0 hop, decodeCop0, fieldCo_eq_fieldRs_getLsbD, hrs, hrt, hrd]
  rfl

theorem decode_mtc0 (rt rd : BitVec 5) (low : BitVec 11) :
    decode (0x10#6 ++ 0x04#5 ++ rt ++ rd ++ low) = .instr (.mtc0 rt rd) := by
  obtain ⟨hop, hrs, hrt, hrd⟩ := fields_move 0x10#6 0x04#5 rt rd low
  rw [decode_of_cop0 hop, decodeCop0, fieldCo_eq_fieldRs_getLsbD, hrs, hrt, hrd]
  rfl

theorem decode_rfe (mid : BitVec 19) : decode (0x10#6 ++ 1#1 ++ mid ++ 0x10#6) = .instr .rfe := by
  have hcofun : (0x10#6 ++ 1#1 ++ mid ++ 0x10#6 : Word) = encodeCo 0x10#6 (mid ++ 0x10#6) :=
    BitVec.append_assoc
  rw [hcofun, decode_encodeCo_cop0]
  exact if_pos BitVec.extractLsb'_append_eq_right

/-! ## Cause as MFC0 reads it (R35) -/

theorem causeWord_fields (s : State) : s.causeWord.extractLsb' 2 5 = s.cop0.excCode ∧
    s.causeWord.extractLsb' 8 2 = s.cop0.ipSw ∧ s.causeWord.extractLsb' 28 2 = s.cop0.ce := by
  unfold State.causeWord State.causeIp
  refine ⟨?_, ?_, ?_⟩
  all_goals
    repeat first
      | rw [BitVec.extractLsb'_append_eq_of_le (by omega)]
      | rw [BitVec.extractLsb'_append_eq_of_add_le (by omega)]
    simp

theorem causeWord_bits (s : State) :
    s.causeWord.getLsbD 31 = s.cop0.bd ∧ s.causeWord.getLsbD 10 = s.irqPending := by
  unfold State.causeWord State.causeIp
  refine ⟨?_, ?_⟩
  all_goals
    repeat rw [BitVec.getLsbD_append]
    simp

/-- The other bits read 0 (R35). -/
theorem causeWord_reserved (s : State) : s.causeWord &&& 0x4FFFF883 = 0 := by
  have hmask : (0x4FFFF883 : Word) =
    0#1 ++ 1#1 ++ 0#2 ++ BitVec.allOnes 12 ++ (BitVec.allOnes 5 ++ 0#1 ++ 0#2) ++ 1#1 ++ 0#5 ++ 3#2 := rfl
  rw [hmask, State.causeWord, State.causeIp]
  repeat rw [BitVec.and_append]
  simp only [BitVec.and_zero, BitVec.zero_and]
  rfl

/-! ## MFC0 (R178) -/

section Mfc0

variable {s : State} {rt : Reg} {rd : BitVec 5} {v : Word}

theorem loads_mfc0 (hu : s.usable 0 = true) (h : readCop0 rd s = some v) : Loads (.mfc0 rt rd) s rt v := by
  refine loads_ok ?_ rfl rfl
  rw [exec, execMfc0, h, whenUsable_of_usable hu]

/-- The numbers without a register (R31). -/
theorem readCop0_eq_none (s : State) (h : rd.toNat ∈ [0, 1, 2, 4, 6, 10] ∨ 16 ≤ rd.toNat) :
    readCop0 rd s = none := by
  unfold readCop0
  split
  case h_11 => rfl
  all_goals exact absurd h (by decide)

theorem loadsDraw_mfc0 (hu : s.usable 0 = true) (h : readCop0 rd s = none) :
    LoadsDraw (.mfc0 rt rd) s rt s.drawn := by
  refine ⟨_, ?_, completed_commit { lnew := some ⟨rt, s.drawn⟩ } (.inl (nextDraw_moves s).sameCpu) rfl rfl
    rfl rfl, frame_commit _ s.nextDraw⟩
  rw [exec, execMfc0, h, whenUsable_of_usable hu, finish_ok]

end Mfc0

/-- Settles O33: the value is made from the state before the instruction, and pending like a load's. -/
theorem mfc0Reads : Obligations.Mfc0Reads := by
  intro rt s
  refine ⟨fun n low => ⟨decode_mfc0 rt n low, traps_of_inUserMode rfl⟩, fun h => ?_⟩
  have hu : s.usable 0 = true := usable_zero_of_not h
  obtain ⟨hexcCode, hip, hce⟩ := causeWord_fields s
  obtain ⟨hbd, hpending⟩ := causeWord_bits s
  have hcause : Loads (.mfc0 rt 13) s rt s.causeWord := loads_mfc0 hu rfl
  exact ⟨loads_mfc0 hu rfl,
    ⟨_, hcause, hexcCode, hip, hce, hbd, hpending, causeWord_reserved s⟩,
    loads_mfc0 hu rfl, loads_mfc0 hu rfl, loads_mfc0 hu rfl, loads_mfc0 hu rfl, loads_mfc0 hu rfl,
    loads_mfc0 hu rfl, loads_mfc0 hu rfl, loads_mfc0 hu rfl,
    fun _ hrd => loadsDraw_mfc0 hu (readCop0_eq_none s hrd)⟩

/-! ## MTC0 (R179) -/

section Mtc0

variable {s : State} {rt : Reg} {rd : BitVec 5}

theorem leaves_mtc0 {c : Cop0} (hu : s.usable 0 = true)
    (h : writeCop0 rd (s.x rt) s = .ok () { s with cop0 := c }) :
    Leaves (.mtc0 rt rd) s { s with cop0 := c } := by
  refine leaves_ok ?_ ⟨rfl, rfl, rfl, rfl, rfl, rfl⟩ rfl rfl rfl rfl
  rw [exec, execMtc0, h, whenUsable_of_usable hu, Res.bind_ok]

theorem exec_mtc0_stop {r : Refusal} (hu : s.usable 0 = true) (h : writeCop0 rd (s.x rt) s = .stop r) :
    exec (.mtc0 rt rd) s = .refused r := by
  rw [exec, execMtc0, h, whenUsable_of_usable hu, Res.bind_stop, finish_stop]

/-- The numbers without a register, and the registers that are only read (R31, R179). -/
theorem writeCop0_eq_self (v : Word) (s : State)
    (h : rd.toNat ∈ [0, 1, 2, 4, 6, 8, 10, 14, 15] ∨ 16 ≤ rd.toNat) : writeCop0 rd v s = .ok () s := by
  unfold writeCop0
  split
  case h_8 => rfl
  all_goals exact absurd h (by decide)

theorem writeCop0_sr (v : Word) (s : State) : writeCop0 12 v s =
    .ok () { s with cop0 := { s.cop0 with sr := v &&& s.cfg.ieStackLevels.srWriteMask } } := rfl

end Mtc0

/-- Settles O34: the write is done at once, number by number; SR's mask is the parameter's, and only DCIC can
refuse a value. -/
theorem mtc0Writes : Obligations.Mtc0Writes := by
  rintro rt s _ rfl
  refine ⟨fun n low => ⟨decode_mtc0 rt n low, traps_of_inUserMode rfl⟩, fun h => ?_⟩
  have hu : s.usable 0 = true := usable_zero_of_not h
  refine ⟨fun hl => leaves_mtc0 hu ?_, fun hl => leaves_mtc0 hu ?_, leaves_mtc0 hu rfl, leaves_mtc0 hu rfl,
    leaves_mtc0 hu rfl, leaves_mtc0 hu rfl, leaves_mtc0 hu rfl, fun hv => leaves_mtc0 hu (if_pos hv),
    fun hv => exec_mtc0_stop hu (if_neg hv), fun rd hrd => leaves_mtc0 hu (writeCop0_eq_self _ s hrd)⟩
  all_goals rw [writeCop0_sr, hl]; rfl

/-! ## RFE (R180) -/

theorem popped_popSr (l : IeStackLevels) (sr : Word) : Popped l sr (popSr l sr) := by
  cases l <;> refine ⟨?_, ?_⟩ <;> ext i hi <;> interval_cases i <;>
    simp [popSr, IeStackLevels.stackMask, IeStackLevels.topMask]

/-- Settles O35: the pop is RFE's one effect, and the bits between opcode and function are not read. -/
theorem rfePopsStack : Obligations.RfePopsStack := fun _ =>
  ⟨decode_rfe,
    fun h => ⟨_, popped_popSr _ _, leaves_ok (whenUsable_of_usable (usable_zero_of_not h))
      ⟨rfl, rfl, rfl, rfl, rfl, rfl⟩ rfl rfl rfl rfl⟩,
    traps_of_inUserMode rfl⟩

end Sys2Proof.Claims

/-! PROOFS about coprocessor 2 (46_cop2.md): the moves to and from it, its loads and stores, and the stall of
its commands. -/

namespace Sys2Proof.Claims

open Sys2Proof.Machine

/-! ## The moves (R191 to R194) -/

section Moves

variable {i : Instr} {s : State} {rt : Reg} {c : ExtCall}

/-- A move from the coprocessor leaves its answer pending. -/
theorem completes_moveFromGte (h : exec i s = moveFromGte rt c s) (hu : s.cop0.sr.getLsbD 30 = true)
    (h1 : readsHilo i = false) (h2 : multipliesOrDivides i = false) :
    ∃ t, exec i s = .next t ∧ Completed i s t none (some ⟨rt, s.drawn⟩) none ∧
      Frame (stallTaken (s.nextDraw.record c)) t :=
  ⟨_, h.trans (whenUsable_of_usable ((usable_two s).trans hu)),
    completed_commit { lnew := some ⟨rt, s.drawn⟩ } (.inl (gteRead_moves c s _ _ rfl).sameCpu) rfl rfl
      (by rw [h1]; rfl) (by rw [h2]; rfl),
    frame_commit _ (s.nextDraw.record c)⟩

/-- A move to the coprocessor is its call and nothing else. -/
theorem leaves_moveToGte (h : exec i s = moveToGte c s) (hu : s.cop0.sr.getLsbD 30 = true)
    (h1 : readsHilo i = false) (h2 : multipliesOrDivides i = false) : Leaves i s (s.record c) :=
  leaves_ok (h.trans (whenUsable_of_usable ((usable_two s).trans hu))) ⟨rfl, rfl, rfl, rfl, rfl, rfl⟩
    rfl rfl h1 h2

end Moves

/-! ## LWC2 and SWC2 in memory (R195, R196) -/

/-- What `Leaves.memory` says, for an instruction that leaves more than its memory. -/
theorem Leaves.memory_beside {i : Instr} {s u : State} {m : Memory} (h : Leaves i s { u with mem := m }) :
    ∃ t, exec i s = .next t ∧ Completed i s t none none none ∧
      Frame { stallTaken u with mem := t.mem } t ∧ ∀ a, t.mem.get a = m.get a := by
  obtain ⟨t, hexec, hcomp, hframe⟩ := h
  exact ⟨t, hexec, hcomp, { hframe with memory := fun _ => rfl }, hframe.memory⟩

section Memory

variable {s : State} {rt : BitVec 5} {imm : Half} {rs : Reg} {k : Nat}

theorem leaves_lwc2 (hu : s.cop0.sr.getLsbD 30 = true) (hreach : Reaches s (eaOf s rs imm) .word)
    (hk : (s.region (eaOf s rs imm)).key = some k) : Leaves (.lwc2 rt imm rs) s (s.record
      (.gteWriteData rt (s.mem.get (k + 3) ++ s.mem.get (k + 2) ++ s.mem.get (k + 1) ++ s.mem.get k))) := by
  refine leaves_ok ?_ ⟨rfl, rfl, rfl, rfl, rfl, rfl⟩ rfl rfl rfl rfl
  rw [lwc2_eq hu, memRead_key hreach hk, Width.bytes, readLE_word, Res.bind_ok]
  rfl

/-- The store comes after the coprocessor's answer, which decides nothing about where it goes. -/
theorem leaves_swc2 (hu : s.cop0.sr.getLsbD 30 = true) (hreach : Reaches s (eaOf s rs imm) .word)
    (hk : (s.region (eaOf s rs imm)).storeKey = some k) : Leaves (.swc2 rt imm rs) s
      { afterGteRead rt s with mem := s.mem.writeLE k 4 s.drawn } := by
  have hwrite : memWrite (eaOf s rs imm) .word s.drawn (afterGteRead rt s) =
      .ok () { afterGteRead rt s with mem := s.mem.writeLE k 4 s.drawn } :=
    memWrite_key _ (hreach.congr rfl) ((congrArg Region.storeKey (region_congr rfl _)).trans hk)
  refine leaves_ok ?_ ⟨rfl, rfl, rfl, rfl, rfl, rfl⟩ rfl rfl rfl rfl
  rw [swc2_eq hu, hwrite, Res.bind_ok]

end Memory

/-- Settles O37: the usability check comes first; each transfer is then its one call, and LWC2 and SWC2 access
memory as LW and SW do. -/
theorem cop2Transfers : Obligations.Cop2Transfers := by
  rintro rt rs rd imm s _ k rfl
  refine ⟨fun hu => ⟨completes_moveFromGte rfl hu rfl rfl, completes_moveFromGte rfl hu rfl rfl,
    leaves_moveToGte rfl hu rfl rfl, leaves_moveToGte rfl hu rfl rfl, leaves_lwc2 hu,
    fun hreach hk hmem => ?swc2⟩, fun hu => ?unusable⟩
  case swc2 =>
    obtain ⟨t, hexec, hcomp, hframe, hget⟩ := (leaves_swc2 (rt := rd) hu hreach hk).memory_beside
    refine ⟨t, hexec, hcomp, hframe, fun j hj => ?_, fun a ha => ?_⟩
    · rw [hget, Memory.get_writeLE_inside _ _ _ _ _ hmem hj]
    · rw [hget, Memory.get_writeLE_outside _ _ _ _ _ hmem ha]
  case unusable =>
    simp only [List.forall_mem_cons, List.not_mem_nil, IsEmpty.forall_iff, implies_true, and_true]
    refine ⟨?_, ?_, ?_, ?_, ?_, ?_⟩
    all_goals exact traps_of_unusable rfl ((usable_two s).trans hu)

/-! ## Commands (R190, R197) -/

/-- A command issues at the later of its own cycle and the end of the last one's latency (R190). -/
theorem gteCommand_gteReady (cofun : BitVec 25) (s : State) : (gteCommand cofun s).gteReady =
    max s.sched.cycle s.gteReady + Config.freeLatency s.inputs.drawIndex := by
  rw [← add_tsub_eq_max]
  rfl

/-- The stall is the command's cost, and `gte_ready` is all that the call changes beside. -/
theorem completed_gteCommand (cofun : BitVec 25) (s : State) :
    Completed (.cop2Command cofun) s (commit {} (gteCommand cofun s)) none none none
      (s.gteReady - s.sched.cycle) :=
  completed_commit {} (.inr ⟨rfl, rfl, rfl, rfl, rfl, rfl⟩) rfl rfl rfl rfl

/-- Settles O38: with CU2 the command is its commit after the stalled call; its latency is the answer that
`gteCommand` draws. -/
theorem cop2CommandStalls : Obligations.Cop2CommandStalls := fun cofun s =>
  ⟨decodeOfEncode (.cop2Command cofun) rfl,
    fun hu => ⟨_, _, exec_cop2Command cofun hu, completed_gteCommand cofun s, gteCommand_gteReady cofun s,
      { frame_commit {} (gteCommand cofun s) with gteReady := rfl }⟩,
    fun hu => traps_of_unusable rfl ((usable_two s).trans hu)⟩

end Sys2Proof.Claims

/-! PROOFS about exceptions, the interrupt controller, the DMA controller and the scheduler
(60_exceptions.md), and the state after reset. -/

namespace Sys2Proof.Machine

/-! ## The order of the events (R242, R243, R247) -/

/-- A queue in insertion order holds no other event with the number of one that has been taken from it. -/
theorem seq_ne_of_mem_dequeue {s : State} (hs : s.queueOk = true) {e f : Event} (he : e ∈ s.sched.queue)
    (hf : f ∈ (s.dequeue e).sched.queue) : f.seq ≠ e.seq := by
  have hseqs : (s.sched.queue.map Event.seq).Nodup :=
    List.pairwise_map.mpr ((seqsRise_iff.mp hs).1.imp Nat.ne_of_lt)
  obtain ⟨hne, hfq⟩ := hseqs.of_map.mem_erase_iff.mp hf
  exact fun h => hne (List.inj_on_of_nodup_map hseqs hfq he h)

/-- `e` comes before every event of the queue, and before every one that can be scheduled. -/
structure Sched.FiresAfter (q : Sched) (e : Event) : Prop where
  queued : ∀ f ∈ q.queue, e.before f = true
  cycle : e.target ≤ q.cycle
  seq : e.seq < q.nextSeq

/-- A new event is not before the cycle count, and its number is above all others (R242). -/
theorem Sched.FiresAfter.schedule {s : State} {e : Event} (h : s.sched.FiresAfter e) (d : Nat) (r : Source)
    (p : Nat) : (s.schedule d r p).sched.FiresAfter e where
  queued := by
    obtain ⟨hqueued, hcycle, hseq⟩ := h
    rw [State.schedule_sched, List.forall_mem_append, List.forall_mem_singleton, Event.before_iff]
    exact ⟨hqueued, by dsimp only; omega⟩
  cycle := h.cycle
  seq := h.seq.trans (Nat.lt_succ_self _)

theorem Sched.FiresAfter.dequeue {s : State} {e : Event} (h : s.sched.FiresAfter e) (f : Event) :
    (s.dequeue f).sched.FiresAfter e :=
  ⟨fun g hg => h.queued g (List.mem_of_mem_erase hg), h.cycle, h.seq⟩

theorem Sched.FiresAfter.later {q : Sched} {e : Event} (h : q.FiresAfter e) (c : Nat) :
    { q with cycle := q.cycle + c }.FiresAfter e :=
  ⟨h.queued, h.cycle.trans (Nat.le_add_right _ c), h.seq⟩

theorem BusPrim.firesAfter {s t : State} {e : Event} (h : BusPrim s t) (hs : s.sched.FiresAfter e) :
    t.sched.FiresAfter e := by
  cases h with
  | schedule | start => exact Sched.FiresAfter.schedule (s := s) hs _ _ _
  | cycles c => exact hs.later c
  | _ => exact hs

theorem StepPrim.firesAfter {s t : State} {p q : Option ChanNum} {e : Event} (h : StepPrim (s, p) (t, q))
    (hs : s.sched.FiresAfter e) : t.sched.FiresAfter e := by
  cases h with
  | bus h => exact h.firesAfter hs
  | takeExt f | takeDma f => exact hs.dequeue f
  | wait => exact hs.schedule _ _ _
  | commit | entry => exact hs.later _
  | _ => exact hs

theorem StepMoves.firesAfter {s t : State} {p q : Option ChanNum} {e : Event}
    (h : StepMoves (s, p) (t, q)) (hs : s.sched.FiresAfter e) : t.sched.FiresAfter e := by
  have key : ∀ x, StepMoves (s, p) x → x.1.sched.FiresAfter e := fun x hx => by
    induction hx with
    | refl => exact hs
    | tail _ hprim ih => exact hprim.firesAfter ih
  exact key _ h

/-- The handler of a fired event works on the state without it. -/
theorem fireEvent_dequeued {e : Event} {s t : State} (h : fireEvent e s = .next t) :
    ∃ p, StepMoves (s.dequeue e, p) (t, none) := by
  rcases fireEvent_cases h with ⟨n, _, hends⟩ | ⟨d, _, hbus⟩
  · exact ⟨some n, .head (activated_stepPrim n _) hends.stepMoves⟩
  · exact ⟨none, hbus.stepMoves none⟩

/-- The due event is the least one, and every other event has a sequence number of its own. -/
theorem dueEvent_dequeue_firesAfter {s : State} {e : Event} (hs : s.queueOk = true)
    (he : s.dueEvent = some e) : (s.dequeue e).sched.FiresAfter e := by
  obtain ⟨hmem, hdue⟩ := leastDue_mem he
  refine ⟨fun f hf => ?_, hdue, (seqsRise_iff.mp hs).2 e hmem⟩
  have hfq : f ∈ s.sched.queue := List.mem_of_mem_erase hf
  have hseq : f.seq ≠ e.seq := seq_ne_of_mem_dequeue hs hmem hf
  rw [Event.before_iff]
  by_cases hft : f.target ≤ s.sched.cycle
  · have hleast := leastDue_least he f hfq hft
    rw [Bool.eq_false_iff, ne_eq, Event.before_iff] at hleast
    omega
  · omega

/-- Settles O51: the fired event is the least, and what its handler schedules is not before the cycle count
and has a new sequence number. -/
theorem eventsFireInOrder : Obligations.EventsFireInOrder := by
  intro s t e hs he h f hf
  obtain ⟨_, ⟨e', he', hfire⟩ | ⟨hnone, _⟩ | ⟨hnone, _⟩⟩ := step_cases h
  · obtain rfl : e = e' := Option.some.inj (he.symm.trans he')
    obtain ⟨p, hmoves⟩ := fireEvent_dequeued hfire
    exact Event.before_iff.mp ((hmoves.firesAfter (dueEvent_dequeue_firesAfter hs he)).queued f hf)
  · simp [hnone] at he
  · simp [hnone] at he

/-- Some event is due exactly when the queue holds one whose target is not beyond the cycle count (R243). -/
theorem dueEvent_eq_none_iff {s : State} :
    s.dueEvent = none ↔ ∀ e ∈ s.sched.queue, s.sched.cycle < e.target := by
  refine ⟨leastDue_none, fun h => Option.eq_none_iff_forall_ne_some.mpr fun e he => ?_⟩
  obtain ⟨hmem, hdue⟩ := leastDue_mem he
  exact absurd (h e hmem) (Nat.not_lt.mpr hdue)

theorem step_eq_fireEvent {s : State} {e : Event} (hm : s.refusedMark = none) (he : s.dueEvent = some e) :
    step s = fireEvent e s := by simp [step, iterate, hm, he]

/-- Settles O50: the event fired is the one that `leastDue` selects. -/
theorem dueEventFirst : Obligations.DueEventFirst := by
  intro s hm
  refine ⟨fun ⟨f, hf, hft⟩ => ?_, fun hnone => Claims.step_eq_cpuStep hm (dueEvent_eq_none_iff.mpr hnone)⟩
  cases he : s.dueEvent with
  | none => exact absurd hft (Nat.not_le.mpr (dueEvent_eq_none_iff.mp he f hf))
  | some e =>
    obtain ⟨hmem, hdue⟩ := leastDue_mem he
    refine ⟨e, hmem, hdue, step_eq_fireEvent hm he, fun g hg hgt => ?_⟩
    have hleast := leastDue_least he g hg hgt
    rw [Bool.eq_false_iff, ne_eq, Event.before_iff] at hleast
    omega

/-! ## The state after reset (R50, R251) -/

/-- Settles O58: the state after reset is one closed state; only the DMA channels are many. -/
theorem resetState : Obligations.ResetState := by
  refine ⟨rfl, rfl, rfl, rfl, rfl, rfl, rfl, rfl, rfl, rfl, ?_, rfl, rfl, rfl, rfl, rfl, nofun, rfl⟩
  decide

/-! ## The interrupt controller (R216 to R219) -/

theorem sourceBit_getLsbD {k : Nat} (hk : k < 11) (j : Nat) : (sourceBit k).getLsbD j = decide (j = k) := by
  rw [sourceBit, ← BitVec.twoPow_eq, BitVec.getLsbD_twoPow]
  by_cases h : j = k
  · simp [h, hk]
  · simp [h, Ne.symm h]

theorem latchSource_stat_getLsbD {k : Nat} (hk : k < 11) (s : State) (j : Nat) :
    (latchSource k s).irq.stat.getLsbD j = (s.irq.stat.getLsbD j || decide (j = k)) := by
  rw [latchSource_irq, BitVec.getLsbD_or, sourceBit_getLsbD hk]

theorem latchSource_idem (k : Nat) (s : State) : latchSource k (latchSource k s) = latchSource k s := by
  simp only [latchSource, BitVec.or_assoc, BitVec.or_self]

theorem ackSources_idem (v : BitVec 11) (s : State) : ackSources v (ackSources v s) = ackSources v s := by
  cases h : s.cfg.ackPolarity <;> simp [ackSources, h, BitVec.and_assoc]

/-- An acknowledgement masks I_STAT, so it sets no flag (R218). -/
theorem stat_of_ackSources {v : BitVec 11} {s : State} {j : Nat}
    (h : (ackSources v s).irq.stat.getLsbD j = true) : s.irq.stat.getLsbD j = true := by
  rw [ackSources_eq] at h
  cases hp : s.cfg.ackPolarity <;> simp only [hp, BitVec.getLsbD_and, Bool.and_eq_true] at h <;> exact h.1

/-- Settles O43: a source's bit is one bit, and both operations are a mask of I_STAT. -/
theorem irqLatchLaws : Obligations.IrqLatchLaws := fun k v s =>
  ⟨fun hk => ⟨if_pos hk, latchSource_stat_getLsbD hk s, rfl, latchSource_idem k s⟩,
    fun hk => if_neg (Nat.not_lt.mpr hk), ackSources_idem v s, fun _ => stat_of_ackSources⟩

end Sys2Proof.Machine

namespace Sys2Proof.Claims

open Sys2Proof.Machine

/-! ## Exceptions (R199, R201 to R204) -/

/-- Settles O39: each exception has its code, its CE and the address it reports. -/
theorem Exceptions.exceptionEntry : Obligations.ExceptionEntry := fun s p a slot z =>
  ⟨trapped_exceptionEntry .int p slot s, trapped_exceptionEntry (.adEL a) p slot s,
    trapped_exceptionEntry (.adES a) p slot s, trapped_exceptionEntry .ibe p slot s,
    trapped_exceptionEntry .dbe p slot s, trapped_exceptionEntry .syscall p slot s,
    trapped_exceptionEntry .bp p slot s, trapped_exceptionEntry .ri p slot s,
    trapped_exceptionEntry (.cpU z) p slot s, trapped_exceptionEntry .ov p slot s⟩

end Sys2Proof.Claims

namespace Sys2Proof.Machine

open Sys2Proof.Claims

/-! ## DICR (R230, R238) -/

theorem dicrWord_getLsbD_31 (s : State) :
    s.dicrWord.getLsbD 31 = dicrMaster s.dma.dicrCtl s.dma.dicrFlag := by
  simp only [State.dicrWord, BitVec.getLsbD_append]
  simp

/-- A change of DICR latches source 3 exactly on the rising edge of the master flag, and changes nothing
else. -/
theorem setDicr_eq (s : State) (ctl : BitVec 24) (flag : BitVec 7) :
    s.setDicr ctl flag =
      { s with
        dma := { s.dma with dicrCtl := ctl, dicrFlag := flag }
        irq := { s.irq with
          stat := if dicrMaster s.dma.dicrCtl s.dma.dicrFlag = false ∧ dicrMaster ctl flag = true
            then s.irq.stat ||| 8 else s.irq.stat } } := by
  unfold State.setDicr
  cases dicrMaster s.dma.dicrCtl s.dma.dicrFlag <;> cases dicrMaster ctl flag <;> rfl

@[simp] theorem setDicr_chan (s : State) (ctl : BitVec 24) (flag : BitVec 7) (m : ChanNum) :
    (s.setDicr ctl flag).chan m = s.chan m := by rw [setDicr_eq]; rfl

@[simp] theorem setDicr_dicrCtl (s : State) (ctl : BitVec 24) (flag : BitVec 7) :
    (s.setDicr ctl flag).dma.dicrCtl = ctl := by rw [setDicr_eq]

@[simp] theorem setDicr_dicrFlag (s : State) (ctl : BitVec 24) (flag : BitVec 7) :
    (s.setDicr ctl flag).dma.dicrFlag = flag := by rw [setDicr_eq]

@[simp] theorem setDicr_mem (s : State) (ctl : BitVec 24) (flag : BitVec 7) :
    (s.setDicr ctl flag).mem = s.mem := by rw [setDicr_eq]

@[simp] theorem setDicr_sched (s : State) (ctl : BitVec 24) (flag : BitVec 7) :
    (s.setDicr ctl flag).sched = s.sched := by rw [setDicr_eq]

@[simp] theorem setDicr_inputs (s : State) (ctl : BitVec 24) (flag : BitVec 7) :
    (s.setDicr ctl flag).inputs = s.inputs := by rw [setDicr_eq]

/-- The edge is that of MFLAG as DICR reads it. -/
theorem setDicr_stat (s : State) (ctl : BitVec 24) (flag : BitVec 7) :
    (s.setDicr ctl flag).irq.stat =
      if s.dicrWord.getLsbD 31 = false ∧ (s.setDicr ctl flag).dicrWord.getLsbD 31 = true
      then s.irq.stat ||| 8 else s.irq.stat := by
  rw [dicrWord_getLsbD_31, dicrWord_getLsbD_31, setDicr_dicrCtl, setDicr_dicrFlag, setDicr_eq]

/-- Settles O46: the write is one change of DICR, with the control bits and the flags it asks for. -/
theorem dicrWrite : Obligations.DicrWrite := by
  intro s v
  refine ⟨_, rfl, setDicr_dicrCtl _ _ _, fun j hj => ?_, ?_, setDicr_stat _ _ _, ?_, setDicr_mem _ _ _,
    setDicr_sched _ _ _, ?_⟩
  · simp [hj]
  · rw [dicrWord_getLsbD_31, setDicr_dicrCtl, setDicr_dicrFlag, dicrMaster]
    have henable : (v.setWidth 24 &&& 0xFF803F).extractLsb' 16 7 = v.extractLsb' 16 7 := by
      ext i hi
      interval_cases i <;> simp
    rw [henable]
    simp
  · rw [setDicr_eq]
  · rw [setDicr_eq]

/-! ## Completion (R237) -/

/-- A change of DICR to what it is changes nothing. -/
theorem setDicr_self (s : State) : s.setDicr s.dma.dicrCtl s.dma.dicrFlag = s := by
  rw [setDicr_eq, if_neg (by simp)]

/-- The flag that a completion sets: the channel's, when it is enabled (R237). -/
def raisedFlag (n : ChanNum) (ctl : BitVec 24) : BitVec 7 := if ctl.getLsbD (16 + n) then flagBit n else 0

theorem raisedFlag_getLsbD (n : ChanNum) (ctl : BitVec 24) (j : Nat) :
    (raisedFlag n ctl).getLsbD j = (decide (j = n.val) && ctl.getLsbD (16 + j)) := by
  have hbit : (flagBit n).getLsbD j = decide (j = n.val) := by
    rw [flagBit, ← BitVec.twoPow_eq, BitVec.getLsbD_twoPow]
    simp [eq_comm]
  rw [raisedFlag, apply_ite (BitVec.getLsbD · j), hbit]
  by_cases h : j = n.val
  · simp [h]
  · simp [h]

/-- A completion is a change of the channel and of DICR. -/
theorem dmaComplete_eq (n : ChanNum) (s : State) :
    dmaComplete n s = (s.setChan n (completedChan (s.chan n))).setDicr s.dma.dicrCtl
      (s.dma.dicrFlag ||| raisedFlag n s.dma.dicrCtl) := by
  unfold dmaComplete raisedFlag
  dsimp only
  split
  · rfl
  · rw [show s.dma.dicrFlag ||| 0 = s.dma.dicrFlag from BitVec.or_zero]
    exact (setDicr_self (s.setChan n (completedChan (s.chan n)))).symm

/-- Settles O47: the channel is the completed one, and DICR has at most the channel's flag more. -/
theorem dmaCompletion : Obligations.DmaCompletion := by
  rintro s n t rfl
  have hstat := setDicr_stat (s.setChan n (completedChan (s.chan n))) s.dma.dicrCtl
      (s.dma.dicrFlag ||| raisedFlag n s.dma.dicrCtl)
  rw [dmaComplete_eq, setDicr_chan, State.setChan_chan_same]
  refine ⟨rfl, rfl, fun m hm => ?_, setDicr_dicrCtl _ _ _, fun j _ => ?_, hstat, setDicr_mem _ _ _,
    setDicr_sched _ _ _⟩
  · rw [setDicr_chan, State.setChan_chan_ne _ _ hm.symm]
  · rw [setDicr_dicrFlag, BitVec.getLsbD_or, raisedFlag_getLsbD]

/-! ## Starting a transfer (R231) -/

/-- The fixed bit of channel 6 is not one of the fields that a start looks at (R228). -/
theorem chcrOf_getLsbD (n : ChanNum) (c : DmaChannel) (i : Nat) :
    (chcrOf n c).getLsbD i = (c.chcr.getLsbD i || decide (n = 6 ∧ i = 1)) := by
  have hbit : (2#32).getLsbD i = decide (i = 1) := by
    rw [show 2#32 = BitVec.twoPow 32 1 from rfl, BitVec.getLsbD_twoPow]
    simp [eq_comm]
  unfold chcrOf
  by_cases hn : n = 6
  · simp [hn, hbit]
  · simp [hn]

theorem chcrSync_chcrOf (n : ChanNum) (c : DmaChannel) : chcrSync (chcrOf n c) = c.chcr.extractLsb' 9 2 := by
  apply BitVec.eq_of_getLsbD_eq
  intro i hi
  rw [chcrSync, BitVec.getLsbD_extractLsb', BitVec.getLsbD_extractLsb', chcrOf_getLsbD]
  simp [show 9 + i ≠ 1 by omega]

theorem chcrDir_chcrOf (n : ChanNum) (c : DmaChannel) : chcrDir (chcrOf n c) = c.chcr.getLsbD 0 := by
  rw [chcrDir, chcrOf_getLsbD]
  simp

theorem startCond_iff {s : State} {n : ChanNum} : startCond s n = true ↔ (s.chan n).phase = .idle ∧
    (chcrOf n (s.chan n)).getLsbD 24 = true ∧ s.dma.dpcr.getLsbD (4 * n + 3) = true ∧
      ((chcrOf n (s.chan n)).extractLsb' 9 2 ≠ 0 ∨ (chcrOf n (s.chan n)).getLsbD 28 = true) := by
  simp [startCond, State.dmaEnabled, chcrBusy, chcrTrig, chcrSync, and_assoc]

/-- What a start makes of its configuration (R231). -/
theorem dmaStart_eq (n : ChanNum) (s : State) : dmaStart n s =
    if BadDmaConfig s n then .stop .dmaConfig
    else .ok () (((resolveOpen n s).setChan n
      (startedChan ((resolveOpen n s).chan n) ((s.chan n).chcr.extractLsb' 9 2))).schedule 0 (.dma n) 0) := by
  unfold dmaStart
  simp only [chcrSync_chcrOf, chcrDir_chcrOf, BadDmaConfig, Bool.or_eq_true, Bool.and_eq_true,
    decide_eq_true_eq, Bool.not_eq_true']

/-- Where MADR and BCR have values a start needs no draw. -/
theorem resolveOpen_closed {s : State} {n : ChanNum} (hm : (s.chan n).madrOpen = false)
    (hb : (s.chan n).bcrOpen = false) : resolveOpen n s = s := by simp [resolveOpen, hm, hb]

theorem startedChan_addr (c : DmaChannel) (y : BitVec 2) : (startedChan c y).addr = c.madr := by
  unfold startedChan
  dsimp only
  split <;> rfl

/-- Settles O44: with MADR and BCR specified, the start changes the channel and queues its event. -/
theorem DmaRegisters.dmaStart : Obligations.DmaStart := by
  rintro s n c v rfl hv hm hb
  obtain rfl : v = chcrOf n (s.chan n) := hv
  have hsync : (chcrOf n (s.chan n)).extractLsb' 9 2 = (s.chan n).chcr.extractLsb' 9 2 := chcrSync_chcrOf _ _
  have hdir : (chcrOf n (s.chan n)).getLsbD 0 = (s.chan n).chcr.getLsbD 0 := chcrDir_chcrOf _ _
  refine ⟨startCond_iff, ?_, ?_⟩ <;> rw [hsync, hdir] <;> intro hbad
  · exact (dmaStart_eq n s).trans (if_pos hbad)
  · refine ⟨_, (dmaStart_eq n s).trans (if_neg hbad), ?_⟩
    rw [resolveOpen_closed hm hb]
    have hchan (m : ChanNum) (d : DmaChannel) :
        ((s.setChan n d).schedule 0 (.dma n) 0).chan m = if n = m then d else s.chan m :=
      State.setChan_chan s m n d
    simp only [hchan, if_true]
    refine ⟨rfl, fun m hne => if_neg hne.symm, startedChan_phase _ _, startedChan_addr _ _,
      startedChan_chcr _ _, fun h => ?_, fun h => ?_, fun h => ?_, rfl, rfl⟩
    all_goals
      rw [h]
      rfl

end Sys2Proof.Machine

namespace Sys2Proof.Claims

open Sys2Proof.Machine

/-! ## Where the two controllers stand (R56, R57) -/

/-- A device of DEVICE_MAP is not one of the two controllers. -/
theorem deviceAt_cases (map : List DevRange) (p : Nat) :
    deviceAt map p = .unmapped ∨ ∃ d o, deviceAt map p = .device d o := by
  unfold deviceAt
  split
  · exact .inr ⟨_, _, rfl⟩
  · exact .inl rfl

theorem physRegion_irqCtl_iff {map : List DevRange} {p o : Nat} {g : Segment} :
    physRegion map p g = .irqCtl o ↔ p = 0x1F801070 + o ∧ o < 8 := by
  rw [physRegion_eq]
  constructor
  · intro h
    have hdev := deviceAt_cases map p
    split_ifs at h <;> simp_all
    omega
  · rintro ⟨rfl, ho⟩
    simp (disch := omega) only [if_pos, if_neg, Nat.add_sub_cancel_left]

theorem physRegion_dmaCtl_iff {map : List DevRange} {p o : Nat} {g : Segment} :
    physRegion map p g = .dmaCtl o ↔ p = 0x1F801080 + o ∧ o < 0x80 := by
  rw [physRegion_eq]
  constructor
  · intro h
    have hdev := deviceAt_cases map p
    split_ifs at h <;> simp_all
    omega
  · rintro ⟨rfl, ho⟩
    simp (disch := omega) only [if_pos, if_neg, Nat.add_sub_cancel_left]

/-- An address that reaches the interrupt controller or the DMA controller. -/
def OnController (s : State) (va : Word) : Prop := ∃ o, s.region va = .irqCtl o ∨ s.region va = .dmaCtl o

section Controllers

variable {s : State} {va va' : Word} {w w' : Width} {m : BitVec 4} {v : Word} {o k : Nat}

theorem region_irqCtl_iff : s.region va = .irqCtl o ↔
    (∃ g, segmentOf (va.toNat / 2 ^ 29) = some g) ∧ va.toNat % 2 ^ 29 = 0x1F801070 + o ∧ o < 8 := by
  cases hseg : segmentOf (va.toNat / 2 ^ 29) with
  | some g => rw [region_mapped hseg, physRegion_irqCtl_iff]; simp
  | none => rw [region_unmapped hseg]; split <;> simp

theorem region_dmaCtl_iff : s.region va = .dmaCtl o ↔
    (∃ g, segmentOf (va.toNat / 2 ^ 29) = some g) ∧ va.toNat % 2 ^ 29 = 0x1F801080 + o ∧ o < 0x80 := by
  cases hseg : segmentOf (va.toNat / 2 ^ 29) with
  | some g => rw [region_mapped hseg, physRegion_dmaCtl_iff]; simp
  | none => rw [region_unmapped hseg]; split <;> simp

/-- Both controllers begin and end at a word. -/
theorem region_irqCtl_sameWord (h : s.region va = .irqCtl o) (hw : va'.toNat / 4 = va.toNat / 4) :
    s.region va' = .irqCtl (o / 4 * 4 + va'.toNat % 4) := by
  have hseg : va'.toNat / 2 ^ 29 = va.toNat / 2 ^ 29 := by omega
  obtain ⟨hg, hp, ho⟩ := region_irqCtl_iff.mp h
  exact region_irqCtl_iff.mpr ⟨hseg ▸ hg, by omega, by omega⟩

theorem region_dmaCtl_sameWord (h : s.region va = .dmaCtl o) (hw : va'.toNat / 4 = va.toNat / 4) :
    s.region va' = .dmaCtl (o / 4 * 4 + va'.toNat % 4) := by
  have hseg : va'.toNat / 2 ^ 29 = va.toNat / 2 ^ 29 := by omega
  obtain ⟨hg, hp, ho⟩ := region_dmaCtl_iff.mp h
  exact region_dmaCtl_iff.mpr ⟨hseg ▸ hg, by omega, by omega⟩

theorem OnController.sameWord (h : OnController s va) (hw : va'.toNat / 4 = va.toNat / 4) :
    OnController s va' := by
  obtain ⟨o, h | h⟩ := h
  · exact ⟨_, .inl (region_irqCtl_sameWord h hw)⟩
  · exact ⟨_, .inr (region_dmaCtl_sameWord h hw)⟩

/-- Whether an access reaches its region is decided by its word and its alignment. -/
theorem Reaches.sameWord (h : Reaches s va w) (hw : va'.toNat / 4 = va.toNat / 4)
    (ha : va'.toNat % w'.bytes = 0) : Reaches s va' w' where
  aligned := ha
  permitted := by
    have hword := h.wordOf.permitted
    rw [← wordOf_congr hw] at hword
    simpa using hword
  ordinary := h.ordinary
  notIsolated := by rw [← isolated_wordOf, wordOf_congr hw, isolated_wordOf, h.notIsolated]

/-! ## Accesses that a controller refuses (R64, R215, R224) -/

/-- An access of a width that the controller at its address does not take. -/
inductive NarrowAccess (s : State) (va : Word) (w : Width) : Prop
  | irq {o : Nat} (hr : s.region va = .irqCtl o) (hw : irqRegAt o w = none)
  | dma {o : Nat} (hr : s.region va = .dmaCtl o) (hw : w ≠ .word)

theorem OnController.narrow_byte (h : OnController s va) : NarrowAccess s va .byte := by
  obtain ⟨o, hr | hr⟩ := h
  · exact .irq hr rfl
  · exact .dma hr nofun

theorem OnController.narrow_half (h : OnController s va) (hlane : va.toNat % 4 = 2) :
    NarrowAccess s va .half := by
  obtain ⟨o, hr | hr⟩ := h
  · obtain ⟨_, hp, _⟩ := region_irqCtl_iff.mp hr
    exact .irq hr (by simp [irqRegAt, show o ≠ 0 by omega, show o ≠ 4 by omega])
  · exact .dma hr nofun

theorem memRead_narrow (h : Reaches s va w) (hn : NarrowAccess s va w) :
    memRead va w .load s = .stop .narrowDeviceAccess := by
  rw [memRead_reaches h, busRead]
  cases hn with
  | irq hr hw => simp [hr, irqRead, hw]
  | dma hr hw => simp [hr, dmaRead, hw]

theorem memWrite_narrow (v : Word) (h : Reaches s va w) (hn : NarrowAccess s va w) :
    memWrite va w v s = .stop .narrowDeviceAccess := by
  rw [memWrite_reaches h, busWrite]
  cases hn with
  | irq hr hw => simp [hr, irqWrite, hw]
  | dma hr hw => simp [hr, dmaWrite, hw]

/-- A masked store to a controller is the store that its mask stands for (R64). -/
theorem memWriteMasked_controller (m : BitVec 4) (v : Word) (h : Reaches s va .word)
    (hc : OnController s va) : memWriteMasked va m v s = maskedDevice va m v s := by
  unfold memWriteMasked
  simp only [h.misaligned, h.privileged, h.reversed, h.notIsolated, Bool.false_eq_true, if_false]
  obtain ⟨o, hr | hr⟩ := hc <;> rw [hr]

theorem OnController.wordOf (h : OnController s va) : OnController s (wordOf va) :=
  h.sameWord (by rw [wordOf_toNat]; omega)

/-- A mask that selects no aligned byte, half-word or word (R64). -/
theorem storeMasked_refused (h : Reaches s va .byte) (hc : OnController s va) (hm : maskAccess m = none) :
    storeMasked (wordOf va) m v s = .refused .maskedDeviceWrite :=
  storeMasked_stop (by rw [memWriteMasked_controller m v h.wordOf hc.wordOf, maskedDevice, hm])

theorem maskAccess_aligned (hm : maskAccess m = some (k, w)) : k < 4 ∧ k % w.bytes = 0 := by
  have : ∀ m : BitVec 4, ∀ a ∈ maskAccess m, a.1 < 4 ∧ a.1 % a.2.bytes = 0 := by decide
  exact this m (k, w) hm

/-- The address of a lane of a word. -/
theorem wordOf_add_toNat (va : Word) (hk : k < 4) :
    (wordOf va + BitVec.ofNat 32 k).toNat = va.toNat / 4 * 4 + k := by
  have hlt := va.isLt
  rw [BitVec.toNat_add, BitVec.toNat_ofNat, wordOf_toNat]
  omega

/-- A mask that selects lanes of a width which the controller does not take. -/
theorem storeMasked_narrow (h : Reaches s va .byte) (hc : OnController s va)
    (hm : maskAccess m = some (k, w)) (hn : NarrowAccess s (wordOf va + BitVec.ofNat 32 k) w) :
    storeMasked (wordOf va) m v s = .refused .narrowDeviceAccess := by
  obtain ⟨hk, ha⟩ := maskAccess_aligned hm
  have hto := wordOf_add_toNat va hk
  have hreach : Reaches s (wordOf va + BitVec.ofNat 32 k) w := h.sameWord (by omega) (by
    cases w <;> simp only [Width.bytes] at ha ⊢ <;> omega)
  exact storeMasked_stop (by
    rw [memWriteMasked_controller m v h.wordOf hc.wordOf, maskedDevice, hm]
    exact memWrite_narrow _ hreach hn)

end Controllers

section Refusals

variable {s : State} {va : Word} {rt rs : Reg} {imm : Half}

theorem lane_eq {k : Nat} (h : va.toNat % 4 = k) : lane va = BitVec.ofNat 2 k :=
  BitVec.eq_of_toNat_eq (by rw [lane_toNat, BitVec.toNat_ofNat, ← h]; omega)

/-- The loads and the store of a width that the controller does not take. -/
theorem halves_refused (h : Reaches s (eaOf s rs imm) .half) (hn : NarrowAccess s (eaOf s rs imm) .half) :
    ∀ i ∈ [Instr.lh rt imm rs, .lhu rt imm rs, .sh rt imm rs], exec i s = .refused .narrowDeviceAccess := by
  simp only [List.forall_mem_cons, List.not_mem_nil, IsEmpty.forall_iff, implies_true, and_true]
  exact ⟨loadWith_stop (memRead_narrow h hn), loadWith_stop (memRead_narrow h hn),
    storeWith_stop (memWrite_narrow _ h hn)⟩

theorem bytes_refused (h : Reaches s (eaOf s rs imm) .byte) (hn : NarrowAccess s (eaOf s rs imm) .byte) :
    ∀ i ∈ [Instr.lb rt imm rs, .lbu rt imm rs, .sb rt imm rs], exec i s = .refused .narrowDeviceAccess := by
  simp only [List.forall_mem_cons, List.not_mem_nil, IsEmpty.forall_iff, implies_true, and_true]
  exact ⟨loadWith_stop (memRead_narrow h hn), loadWith_stop (memRead_narrow h hn),
    storeWith_stop (memWrite_narrow _ h hn)⟩

/-- SWL with a mask that stands for a narrow store (R64, R172). -/
theorem swl_narrow {k : Nat} {w : Width} (h : Reaches s (eaOf s rs imm) .byte)
    (hc : OnController s (eaOf s rs imm)) (hm : maskAccess (leftMask (lane (eaOf s rs imm))) = some (k, w))
    (hn : NarrowAccess s (wordOf (eaOf s rs imm) + BitVec.ofNat 32 k) w) :
    exec (.swl rt imm rs) s = .refused .narrowDeviceAccess :=
  (exec_swl rt rs imm s).trans (storeMasked_narrow h hc hm hn)

theorem swr_narrow {k : Nat} {w : Width} (h : Reaches s (eaOf s rs imm) .byte)
    (hc : OnController s (eaOf s rs imm)) (hm : maskAccess (rightMask (lane (eaOf s rs imm))) = some (k, w))
    (hn : NarrowAccess s (wordOf (eaOf s rs imm) + BitVec.ofNat 32 k) w) :
    exec (.swr rt imm rs) s = .refused .narrowDeviceAccess :=
  (exec_swr rt rs imm s).trans (storeMasked_narrow h hc hm hn)

/-- SWL and SWR where their mask selects a byte, the upper half-word or no aligned width (R64). -/
theorem masked_refused (h : Reaches s (eaOf s rs imm) .byte) (hc : OnController s (eaOf s rs imm)) :
    ((eaOf s rs imm).toNat % 4 = 0 → exec (.swl rt imm rs) s = .refused .narrowDeviceAccess) ∧
    ((eaOf s rs imm).toNat % 4 = 1 → exec (.swr rt imm rs) s = .refused .maskedDeviceWrite) ∧
    ((eaOf s rs imm).toNat % 4 = 2 → exec (.swl rt imm rs) s = .refused .maskedDeviceWrite ∧
      exec (.swr rt imm rs) s = .refused .narrowDeviceAccess) ∧
    ((eaOf s rs imm).toNat % 4 = 3 → exec (.swr rt imm rs) s = .refused .narrowDeviceAccess) := by
  have hlane {k : Nat} (hk : k < 4) : OnController s (wordOf (eaOf s rs imm) + BitVec.ofNat 32 k) :=
    hc.sameWord (by rw [wordOf_add_toNat _ hk]; omega)
  refine ⟨fun ha => ?_, fun ha => ?_, fun ha => ⟨?_, ?_⟩, fun ha => ?_⟩
  · exact swl_narrow h hc (by rw [lane_eq ha]; rfl) (hlane (by omega)).narrow_byte
  · exact (exec_swr rt rs imm s).trans (storeMasked_refused h hc (by rw [lane_eq ha]; rfl))
  · exact (exec_swl rt rs imm s).trans (storeMasked_refused h hc (by rw [lane_eq ha]; rfl))
  · exact swr_narrow h hc (by rw [lane_eq ha]; rfl)
      ((hlane (k := 2) (by omega)).narrow_half (by rw [wordOf_add_toNat _ (by omega)]; omega))
  · exact swr_narrow h hc (by rw [lane_eq ha]; rfl) (hlane (by omega)).narrow_byte

end Refusals

/-! ## Accesses of I_STAT and I_MASK (R214, R215, R218, R219) -/

section IrqAccess

variable {s s' : State} {va : Word} {w : Width} {rt rs : Reg} {imm : Half} {o : Nat}

/-- A register of the controller has 11 bits, so it is no negative half-word. -/
theorem sextHalf_irq (x : BitVec 11) : sextHalf (x.setWidth 32) = x.setWidth 32 := by
  unfold sextHalf
  rw [BitVec.signExtend_eq_setWidth_of_msb_false (by simp [BitVec.msb_eq_getLsbD_last])]
  ext i hi
  simp

/-- What LW, LH and LHU leave pending where the controller answers both widths with `x`. -/
theorem loads_irq {x : BitVec 11} (h : Reaches s (eaOf s rs imm) .half)
    (hr : s.region (eaOf s rs imm) = .irqCtl o)
    (hx : ∀ w, w ≠ .byte → irqRead o w s = .ok (x.setWidth 32) s) :
    Loads (.lhu rt imm rs) s rt (x.setWidth 32) ∧ Loads (.lh rt imm rs) s rt (x.setWidth 32) ∧
      ((eaOf s rs imm).toNat % 4 = 0 → Loads (.lw rt imm rs) s rt (x.setWidth 32)) := by
  have hread {w : Width} (hreach : Reaches s (eaOf s rs imm) w) (hw : w ≠ .byte) :
      memRead (eaOf s rs imm) w .load s = .ok (x.setWidth 32) s := by
    rw [memRead_reaches hreach, busRead, hr]
    exact hx w hw
  exact ⟨loads_of_read rfl (hread h nofun) rfl rfl rfl,
    loads_of_read rfl (hread h nofun) (sextHalf_irq x) rfl rfl,
    fun ha => loads_of_read rfl (hread (w := .word) (h.sameWord rfl ha) nofun) rfl rfl rfl⟩

/-- What SH and SW leave where the controller does the same at both widths. -/
theorem leaves_irq (h : Reaches s (eaOf s rs imm) .half) (hr : s.region (eaOf s rs imm) = .irqCtl o)
    (hx : ∀ w, w ≠ .byte → irqWrite o w (s.x rt) s = .ok () s')
    (hcyc : s'.sched.cycle = s.sched.cycle) (hst : s'.inputs.stalls = s.inputs.stalls) :
    ∀ i, (i = .sh rt imm rs ∨ (i = .sw rt imm rs ∧ (eaOf s rs imm).toNat % 4 = 0)) → Leaves i s s' := by
  have hwrite {w : Width} (hreach : Reaches s (eaOf s rs imm) w) (hw : w ≠ .byte) :
      memWrite (eaOf s rs imm) w (s.x rt) s = .ok () s' := by
    rw [memWrite_reaches hreach, busWrite, hr]
    exact hx w hw
  rintro i (rfl | ⟨rfl, ha⟩)
  · exact store_leaves rfl (hwrite h nofun) hcyc hst rfl rfl
  · exact store_leaves rfl (hwrite (w := .word) (h.sameWord rfl ha) nofun) hcyc hst rfl rfl

theorem irqRegAt_stat (hw : w ≠ .byte) : irqRegAt 0 w = some .stat := by simp [irqRegAt, hw]

theorem irqRegAt_mask (hw : w ≠ .byte) : irqRegAt 4 w = some .mask := by simp [irqRegAt, hw]

end IrqAccess

/-- Settles O42: a register answers at both widths, and an access of no register is refused. -/
theorem irqControllerAccess : Obligations.IrqControllerAccess := by
  rintro rt rs imm s va rfl
  refine ⟨fun hh => ⟨fun hr => ?_, fun hr => ?_, fun hr => ?_⟩, fun hb o hr => ?_⟩
  · obtain ⟨hlhu, hlh, hlw⟩ := loads_irq (rt := rt) hh hr fun w hw => by rw [irqRead, irqRegAt_stat hw]
    have hack := leaves_irq (rt := rt) (s' := ackSources ((s.x rt).setWidth 11) s) hh hr
      (fun w hw => by rw [irqWrite, irqRegAt_stat hw]) (by rw [ackSources_eq]) (by rw [ackSources_eq])
    refine ⟨hlhu, hlh, hlw, fun i hi => ⟨fun hp => ?_, fun hp => ?_⟩⟩
    · simpa only [ackSources_eq, hp] using hack i hi
    · simpa only [ackSources_eq, hp] using hack i hi
  · obtain ⟨hlhu, hlh, hlw⟩ := loads_irq (rt := rt) hh hr fun w hw => by rw [irqRead, irqRegAt_mask hw]
    exact ⟨hlhu, hlh, hlw, leaves_irq (s' := setIrqMask ((s.x rt).setWidth 11) s) hh hr
      (fun w hw => by rw [irqWrite, irqRegAt_mask hw]) rfl rfl⟩
  · rcases hr with hr | hr
    · exact halves_refused hh (.irq hr rfl)
    · exact halves_refused hh (.irq hr rfl)
  · have hc : OnController s (eaOf s rs imm) := ⟨o, .inl hr⟩
    exact ⟨bytes_refused hb hc.narrow_byte, masked_refused hb hc⟩

end Sys2Proof.Claims

namespace Sys2Proof.Machine

open Sys2Proof.Claims

/-! ## Starting the channels in turn (R231) -/

/-- Channel `n` changed, and draws made. -/
def chanDrawn (n : ChanNum) (c : DmaChannel) (draws : Nat) (s : State) : State :=
  { s.setChan n c with inputs := { s.inputs with drawIndex := draws } }

/-- A start works on its channel, draws, and queues its event; nothing else changes. -/
def startOf (n : ChanNum) (c : DmaChannel) (draws : Nat) (s : State) : State :=
  (chanDrawn n c draws s).schedule 0 (.dma n) 0

theorem chanDrawn_self (n : ChanNum) (s : State) : chanDrawn n (s.chan n) s.inputs.drawIndex s = s :=
  State.setChan_self s n

theorem chanDrawn_setChan (n : ChanNum) (c d : DmaChannel) (draws : Nat) (s : State) :
    (chanDrawn n c draws s).setChan n d = chanDrawn n d draws s :=
  congrArg (fun u : State => { u with inputs := { s.inputs with drawIndex := draws } })
    (State.setChan_setChan s n c d)

/-- The draws of a start go to its channel (R226, R227). -/
theorem resolveOpen_eq (n : ChanNum) (s : State) :
    ∃ c draws, resolveOpen n s = chanDrawn n c draws s := by
  have hself : ∃ c draws, s = chanDrawn n c draws s := ⟨_, _, (chanDrawn_self n s).symm⟩
  have hdraw {t : State} (ht : ∃ c draws, t = chanDrawn n c draws s) (d : DmaChannel) :
      ∃ c draws, (t.setChan n d).nextDraw = chanDrawn n c draws s := by
    obtain ⟨c, draws, rfl⟩ := ht
    exact ⟨d, draws + 1, congrArg State.nextDraw (chanDrawn_setChan n c d draws s)⟩
  unfold resolveOpen
  dsimp only
  split <;> split
  · exact hdraw (hdraw hself _) _
  · exact hdraw hself _
  · exact hdraw hself _
  · exact hself

theorem dmaStart_ok {n : ChanNum} {s : State} (h : ¬ BadDmaConfig s n) :
    ∃ c draws, dmaStart n s = .ok () (startOf n c draws s) := by
  obtain ⟨c, draws, hres⟩ := resolveOpen_eq n s
  rw [dmaStart_eq, if_neg h, hres, chanDrawn_setChan]
  exact ⟨_, draws, rfl⟩

section StartOf

variable (n : ChanNum) (c : DmaChannel) (draws : Nat) (s : State)

theorem startOf_chan_ne {m : ChanNum} (h : n ≠ m) : (startOf n c draws s).chan m = s.chan m :=
  State.setChan_chan_ne s c h

theorem startCond_startOf {m : ChanNum} (h : n ≠ m) : startCond (startOf n c draws s) m = startCond s m := by
  unfold startCond
  rw [startOf_chan_ne n c draws s h]
  rfl

end StartOf

/-- One channel of the list with an undefined configuration is enough to refuse the start of all. -/
theorem dmaStartAll_stop {l : List ChanNum} {s : State} (hl : l.Nodup)
    (h : ∃ m ∈ l, startCond s m = true ∧ BadDmaConfig s m) : dmaStartAll l s = .stop .dmaConfig := by
  induction l generalizing s with
  | nil => simp at h
  | cons n l ih =>
    obtain ⟨hn, hl⟩ := List.nodup_cons.mp hl
    obtain ⟨m, hm, hcond, hbad⟩ := h
    have hne : m ∈ l → n ≠ m := fun hml he => hn (he ▸ hml)
    unfold dmaStartAll
    by_cases hstart : startCond s n = true
    · rw [if_pos hstart]
      by_cases hb : BadDmaConfig s n
      · rw [dmaStart_eq, if_pos hb, Res.bind_stop]
      · obtain ⟨c, draws, hok⟩ := dmaStart_ok hb
        have hml : m ∈ l := (List.mem_cons.mp hm).resolve_left fun he => hb (he ▸ hbad)
        rw [hok, Res.bind_ok]
        refine ih hl ⟨m, hml, (startCond_startOf n c draws s (hne hml)).trans hcond, ?_⟩
        rwa [BadDmaConfig, startOf_chan_ne n c draws s (hne hml)]
    · rw [if_neg hstart]
      have hml : m ∈ l := (List.mem_cons.mp hm).resolve_left fun he => hstart (he ▸ hcond)
      exact ih hl ⟨m, hml, hcond, hbad⟩

/-- Otherwise each channel of the list for which StartCond holds is started, and no time passes. -/
theorem dmaStartAll_ok {l : List ChanNum} {s : State} (hl : l.Nodup)
    (h : ∀ m ∈ l, startCond s m = true → ¬ BadDmaConfig s m) :
    ∃ t, dmaStartAll l s = .ok () t ∧ Started l s t ∧ t.sched.cycle = s.sched.cycle ∧
      t.inputs.stalls = s.inputs.stalls := by
  induction l generalizing s with
  | nil => exact ⟨s, rfl, rfl, rfl, rfl⟩
  | cons n l ih =>
    obtain ⟨hn, hl⟩ := List.nodup_cons.mp hl
    obtain ⟨hfirst, hrest⟩ := List.forall_mem_cons.mp h
    unfold dmaStartAll
    by_cases hstart : startCond s n = true
    · obtain ⟨c, draws, hok⟩ := dmaStart_ok (hfirst hstart)
      have hne {m : ChanNum} (hm : m ∈ l) : n ≠ m := fun he => hn (he ▸ hm)
      obtain ⟨t, ht, hstarted, hcycle, hstalls⟩ := ih (s := startOf n c draws s) hl fun m hm hcond => by
        rw [BadDmaConfig, startOf_chan_ne n c draws s (hne hm)]
        exact hrest m hm ((startCond_startOf n c draws s (hne hm)).symm.trans hcond)
      rw [if_pos hstart, hok, Res.bind_ok]
      exact ⟨t, ht, ⟨fun _ => ⟨_, hok, hstarted⟩, fun hf => by simp [hf] at hstart⟩, hcycle, hstalls⟩
    · obtain ⟨t, ht, hstarted, hcycle, hstalls⟩ := ih hl hrest
      rw [if_neg hstart]
      exact ⟨t, ht, ⟨fun hc => absurd hc hstart, fun _ => hstarted⟩, hcycle, hstalls⟩

/-! ## The registers (R224, R226 to R230) -/

theorem dmaRegAt_channel (n : ChanNum) : dmaRegAt (16 * n) = some (.madr n) ∧
    dmaRegAt (16 * n + 4) = some (.bcr n) ∧ dmaRegAt (16 * n + 8) = some (.chcr n) ∧
    dmaRegAt (16 * n + 12) = none := by
  revert n
  decide

theorem chcrBusyBit_getLsbD (b : Nat) : chcrBusyBit.getLsbD b = decide (b = 24) := by
  rw [show chcrBusyBit = BitVec.twoPow 32 24 from rfl, BitVec.getLsbD_twoPow]
  simp [eq_comm]

/-- What the CPU reads of CHCR (R228). -/
theorem chcrRead_getLsbD (cfg : Params) (n : ChanNum) (c : DmaChannel) {b : Nat} (hb : b < 32) :
    (chcrRead cfg n c).getLsbD b = if b = 24 ∧ c.phase = .chopWait then cfg.chopGapBusy
      else c.chcr.getLsbD b || decide (n = 6 ∧ b = 1) := by
  rw [← chcrOf_getLsbD]
  unfold chcrRead
  cases c.phase with
  | idle | active => simp
  | chopWait =>
    cases cfg.chopGapBusy with
    | true =>
      simp only [if_true, BitVec.getLsbD_or, chcrBusyBit_getLsbD]
      by_cases h : b = 24 <;> simp [h]
    | false =>
      simp only [Bool.false_eq_true, if_false, BitVec.getLsbD_and, BitVec.getLsbD_not, chcrBusyBit_getLsbD]
      by_cases h : b = 24 <;> simp [h, hb]

/-- DICR as the CPU reads it (R230). -/
theorem dicrWord_fields (s : State) : s.dicrWord.extractLsb' 0 24 = s.dma.dicrCtl ∧
    s.dicrWord.extractLsb' 24 7 = s.dma.dicrFlag := by
  unfold State.dicrWord
  constructor
  · exact BitVec.extractLsb'_append_eq_right
  · rw [BitVec.extractLsb'_append_eq_of_le le_rfl]
    exact BitVec.extractLsb'_append_eq_right

end Sys2Proof.Machine

namespace Sys2Proof.Claims

open Sys2Proof.Machine

section DmaAccess

variable {s s' : State} {rt rs : Reg} {imm : Half} {o : Nat} {r : DmaReg}

theorem memRead_dma (h : Reaches s (eaOf s rs imm) .word) (hr : s.region (eaOf s rs imm) = .dmaCtl o)
    (ho : dmaRegAt o = some r) : memRead (eaOf s rs imm) .word .load s = dmaRegRead r s := by
  rw [memRead_reaches h, busRead, hr]
  simp [dmaRead, ho]

theorem memWrite_dma (v : Word) (h : Reaches s (eaOf s rs imm) .word)
    (hr : s.region (eaOf s rs imm) = .dmaCtl o) (ho : dmaRegAt o = some r) :
    memWrite (eaOf s rs imm) .word v s = dmaRegWrite r v s := by
  rw [memWrite_reaches h, busWrite, hr]
  simp [dmaWrite, ho]

theorem loads_dma {x : Word} (h : Reaches s (eaOf s rs imm) .word)
    (hr : s.region (eaOf s rs imm) = .dmaCtl o) (ho : dmaRegAt o = some r) (hx : dmaRegRead r s = .ok x s) :
    Loads (.lw rt imm rs) s rt x :=
  loads_of_read rfl ((memRead_dma h hr ho).trans hx) rfl rfl rfl

theorem loadsDraw_dma {x : Word} (h : Reaches s (eaOf s rs imm) .word)
    (hr : s.region (eaOf s rs imm) = .dmaCtl o) (ho : dmaRegAt o = some r)
    (hx : dmaRegRead r s = .ok x s.nextDraw) : LoadsDraw (.lw rt imm rs) s rt x :=
  load_completes rfl ((memRead_dma h hr ho).trans hx) rfl rfl rfl rfl rfl

theorem leaves_dma (h : Reaches s (eaOf s rs imm) .word) (hr : s.region (eaOf s rs imm) = .dmaCtl o)
    (ho : dmaRegAt o = some r) (hx : dmaRegWrite r (s.x rt) s = .ok () s')
    (hcyc : s'.sched.cycle = s.sched.cycle) (hst : s'.inputs.stalls = s.inputs.stalls) :
    Leaves (.sw rt imm rs) s s' :=
  store_leaves rfl ((memWrite_dma _ h hr ho).trans hx) hcyc hst rfl rfl

theorem sw_dma_stop {x : Refusal} (h : Reaches s (eaOf s rs imm) .word)
    (hr : s.region (eaOf s rs imm) = .dmaCtl o) (ho : dmaRegAt o = some r)
    (hx : dmaRegWrite r (s.x rt) s = .stop x) : exec (.sw rt imm rs) s = .refused x :=
  storeWith_stop ((memWrite_dma _ h hr ho).trans hx)

/-- A write of CHCR or DPCR stores and then starts the channels (R231). -/
theorem storesAndStarts_dma (h : Reaches s (eaOf s rs imm) .word)
    (hr : s.region (eaOf s rs imm) = .dmaCtl o) (ho : dmaRegAt o = some r)
    (hx : dmaRegWrite r (s.x rt) s = dmaStartAll allChannels s')
    (hcyc : s'.sched.cycle = s.sched.cycle) (hst : s'.inputs.stalls = s.inputs.stalls) :
    StoresAndStarts (.sw rt imm rs) s s' := by
  have hnodup : allChannels.Nodup := by decide
  refine ⟨fun ⟨m, hcond, hbad⟩ => ?_, fun hgood => ?_⟩
  · exact sw_dma_stop h hr ho (hx.trans (dmaStartAll_stop hnodup ⟨m, mem_allChannels m, hcond, hbad⟩))
  · obtain ⟨t, ht, hstarted, hcycle, hstalls⟩ := dmaStartAll_ok hnodup fun m _ => hgood m
    exact ⟨t, hstarted, leaves_dma h hr ho (hx.trans ht) (hcycle.trans hcyc) (hstalls.trans hst)⟩

/-- An offset without a register (R224). -/
theorem noRegister_refused (h : Reaches s (eaOf s rs imm) .word)
    (hr : s.region (eaOf s rs imm) = .dmaCtl o) (ho : dmaRegAt o = none) :
    exec (.sw rt imm rs) s = .refused .unmodelledDeviceReg ∧
      exec (.lw rt imm rs) s = .refused .unmodelledDeviceReg := by
  have hwrite : memWrite (eaOf s rs imm) .word (s.x rt) s = .stop .unmodelledDeviceReg := by
    rw [memWrite_reaches h, busWrite, hr]
    simp [dmaWrite, ho]
  have hread : memRead (eaOf s rs imm) .word .load s = .stop .unmodelledDeviceReg := by
    rw [memRead_reaches h, busRead, hr]
    simp [dmaRead, ho]
  exact ⟨storeWith_stop hwrite, loadWith_stop hread⟩

theorem writeChan_idle {n : ChanNum} (c : DmaChannel) (h : (s.chan n).phase = .idle) :
    writeChan n c s = .ok () (s.setChan n c) := if_pos h

theorem writeChan_busy {n : ChanNum} (c : DmaChannel) (h : (s.chan n).phase ≠ .idle) :
    writeChan n c s = .stop .dmaBusyWrite := if_neg h

/-- MADR (R226). -/
theorem madr_accesses (h : Reaches s (eaOf s rs imm) .word) {n : ChanNum}
    (hr : s.region (eaOf s rs imm) = .dmaCtl (16 * n)) :
    ((s.chan n).madrOpen = false → Loads (.lw rt imm rs) s rt ((s.chan n).madr.setWidth 32)) ∧
    ((s.chan n).madrOpen = true → LoadsDraw (.lw rt imm rs) s rt ((s.drawn.setWidth 24).setWidth 32)) ∧
    ((s.chan n).phase = .idle → Leaves (.sw rt imm rs) s
      (s.setChan n { s.chan n with madr := (s.x rt).setWidth 24, madrOpen := false })) := by
  obtain ⟨ho, _⟩ := dmaRegAt_channel n
  refine ⟨fun hm => loads_dma h hr ho ?_, fun hm => loadsDraw_dma h hr ho ?_, fun hidle =>
    leaves_dma h hr ho (writeChan_idle _ hidle) rfl rfl⟩ <;> simp [dmaRegRead, hm]

/-- BCR (R227). -/
theorem bcr_accesses (h : Reaches s (eaOf s rs imm) .word) {n : ChanNum}
    (hr : s.region (eaOf s rs imm) = .dmaCtl (16 * n + 4)) :
    ((s.chan n).bcrOpen = false → Loads (.lw rt imm rs) s rt (s.chan n).bcr) ∧
    ((s.chan n).bcrOpen = true → LoadsDraw (.lw rt imm rs) s rt s.drawn) ∧
    ((s.chan n).phase = .idle → Leaves (.sw rt imm rs) s
      (s.setChan n { s.chan n with bcr := s.x rt, bcrOpen := false })) := by
  obtain ⟨_, ho, _⟩ := dmaRegAt_channel n
  refine ⟨fun hm => loads_dma h hr ho ?_, fun hm => loadsDraw_dma h hr ho ?_, fun hidle =>
    leaves_dma h hr ho (writeChan_idle _ hidle) rfl rfl⟩ <;> simp [dmaRegRead, hm]

/-- CHCR (R228, R231). -/
theorem chcr_accesses (h : Reaches s (eaOf s rs imm) .word) {n : ChanNum}
    (hr : s.region (eaOf s rs imm) = .dmaCtl (16 * n + 8)) :
    (∃ w : Word, Loads (.lw rt imm rs) s rt w ∧
      ∀ b < 32, w.getLsbD b =
        if b = 24 ∧ (s.chan n).phase = .chopWait then s.cfg.chopGapBusy
        else (s.chan n).chcr.getLsbD b || decide (n = 6 ∧ b = 1)) ∧
    ((s.chan n).phase = .idle → StoresAndStarts (.sw rt imm rs) s (s.setChan n
      { s.chan n with chcr := s.x rt &&& (if n = 6 then 0x51000000 else 0x71770703) })) := by
  obtain ⟨_, _, ho, _⟩ := dmaRegAt_channel n
  refine ⟨⟨_, loads_dma h hr ho rfl, fun b hb => chcrRead_getLsbD _ _ _ hb⟩, fun hidle =>
    storesAndStarts_dma h hr ho ?_ rfl rfl⟩
  rw [dmaRegWrite, writeChan_idle _ hidle, Res.bind_ok, chcrStored, ← apply_ite (s.x rt &&& ·)]

/-- A channel that is not Idle takes no write (R224). -/
theorem channel_busy (h : Reaches s (eaOf s rs imm) .word) {n : ChanNum}
    (hr : s.region (eaOf s rs imm) = .dmaCtl (16 * n) ∨ s.region (eaOf s rs imm) = .dmaCtl (16 * n + 4) ∨
      s.region (eaOf s rs imm) = .dmaCtl (16 * n + 8)) (hbusy : (s.chan n).phase ≠ .idle) :
    exec (.sw rt imm rs) s = .refused .dmaBusyWrite := by
  obtain ⟨hmadr, hbcr, hchcr, _⟩ := dmaRegAt_channel n
  rcases hr with hr | hr | hr
  · exact sw_dma_stop h hr hmadr (writeChan_busy _ hbusy)
  · exact sw_dma_stop h hr hbcr (writeChan_busy _ hbusy)
  · exact sw_dma_stop h hr hchcr (by rw [dmaRegWrite, writeChan_busy _ hbusy, Res.bind_stop])

/-- DICR (R230, R238): what its write does is `dicrWrite`. -/
theorem dicr_accesses (h : Reaches s (eaOf s rs imm) .word)
    (hr : s.region (eaOf s rs imm) = .dmaCtl 0x74) :
    (∃ w : Word, Loads (.lw rt imm rs) s rt w ∧ w.extractLsb' 0 24 = s.dma.dicrCtl ∧
      w.extractLsb' 24 7 = s.dma.dicrFlag ∧
      w.getLsbD 31 = (s.dma.dicrCtl.getLsbD 15 || (s.dma.dicrCtl.getLsbD 23 &&
        (s.dma.dicrCtl.extractLsb' 16 7 &&& s.dma.dicrFlag != 0)))) ∧
    ∃ after, dmaRegWrite .dicr (s.x rt) s = .ok () after ∧ Leaves (.sw rt imm rs) s after := by
  obtain ⟨hctl, hflag⟩ := dicrWord_fields s
  refine ⟨⟨_, loads_dma h hr rfl rfl, hctl, hflag, dicrWord_getLsbD_31 s⟩, _, rfl,
    leaves_dma h hr rfl rfl ?_ ?_⟩
  · rw [setDicr_sched]
  · rw [setDicr_inputs]

end DmaAccess

/-- Settles O45: a word access is that of the register at its offset, and every other access is refused. -/
theorem dmaRegisterAccesses : Obligations.DmaRegisterAccesses := by
  rintro rt rs imm s va v n rfl rfl
  refine ⟨fun h => ⟨madr_accesses h, bcr_accesses h, chcr_accesses h, channel_busy h, fun hr => ⟨?_, ?_⟩,
    dicr_accesses h, fun hr => ?_⟩, fun h o hr => ?_, fun h o hr => ?_⟩
  · exact loads_dma h hr rfl rfl
  · exact storesAndStarts_dma h hr rfl rfl rfl rfl
  · obtain ⟨_, _, _, ho⟩ := dmaRegAt_channel n
    rcases hr with hr | hr | hr
    · exact noRegister_refused h hr ho
    · exact noRegister_refused h hr rfl
    · exact noRegister_refused h hr rfl
  · exact halves_refused h (.dma hr nofun)
  · have hc : OnController s (eaOf s rs imm) := ⟨o, .inr hr⟩
    obtain ⟨hzero, hone, htwo, hthree⟩ := masked_refused (rt := rt) h hc
    refine ⟨bytes_refused h hc.narrow_byte, hzero, fun ha => ⟨?_, hone ha⟩, htwo, hthree⟩
    have hword := region_dmaCtl_sameWord hr (va' := wordOf (eaOf s rs imm) + BitVec.ofNat 32 0)
      (by rw [wordOf_add_toNat _ (by omega)]; omega)
    exact swl_narrow h hc (w := .half) (by rw [lane_eq ha]; rfl) (.dma hword nofun)

end Sys2Proof.Claims

/-! PROOFS about power-on: the boot image in BIOS, and the images that are not accepted
(70_reset_and_hazards.md). -/

namespace Sys2Proof.Machine

/-! ## An image in memory -/

/-- Storing an image keeps the canonical form. -/
theorem Memory.wf_storeImage {m : Memory} (hm : m.wf = true) (image : List Byte) (a : Nat) :
    (storeImage image a m).wf = true := by
  induction image generalizing a m with
  | nil => exact hm
  | cons b rest ih => exact ih (Memory.wf_set _ _ _ hm) (a + 1)

theorem Memory.get_storeImage_outside {m : Memory} (hm : m.wf = true) (image : List Byte) (a : Nat)
    {k : Nat} (hk : k < a ∨ a + image.length ≤ k) : (storeImage image a m).get k = m.get k := by
  induction image generalizing a m with
  | nil => rfl
  | cons b rest ih =>
    rw [List.length_cons] at hk
    rw [storeImage, ih (Memory.wf_set _ _ _ hm) (a + 1) (by omega), Memory.get_set _ _ _ _ hm,
      if_neg (by omega)]

/-- Byte `i` of a stored image stands at `a + i`: it is written there, and the bytes behind it are stored at
higher addresses. -/
theorem Memory.get_storeImage_inside {m : Memory} (hm : m.wf = true) (image : List Byte) (a : Nat)
    {i : Nat} (hi : i < image.length) : (storeImage image a m).get (a + i) = image[i] := by
  induction image generalizing a m i with
  | nil => exact absurd hi (Nat.not_lt_zero i)
  | cons b rest ih =>
    have hset := Memory.wf_set m a b hm
    rw [storeImage]
    cases i with
    | zero =>
      rw [Memory.get_storeImage_outside hset rest (a + 1) (by omega), Memory.get_set _ _ _ _ hm]
      exact if_pos rfl
    | succ i =>
      rw [show a + (i + 1) = a + 1 + i by omega]
      exact ih hset (a + 1) (Nat.lt_of_succ_lt_succ hi)

/-! ## What power-on answers (R250, R256) -/

theorem bootImageOk_iff (p : Params) (image : List Byte) :
    bootImageOk p image = true ↔
      image.length = biosSize ∧ (p.bootChecksumOn = false ∨ Config.bootChecksum image = true) := by
  simp [bootImageOk]

variable {p : Params} {image : List Byte}

theorem powerOn_accepted (hp : p.valid = true) (hi : bootImageOk p image = true) :
    powerOn p image =
      .ok () { State.reset with cfg := p, mem := storeImage image biosBase State.reset.mem } := by
  simp [powerOn, hp, hi]

theorem powerOn_not_accepted (hp : p.valid = true) (hi : ¬ bootImageOk p image = true) :
    powerOn p image = .error .invalidBootImage := by
  simp [powerOn, hp, hi]

end Sys2Proof.Machine

namespace Sys2Proof.Claims

open Sys2Proof.Machine

/-- Settles O60: an accepted image is stored from `biosBase` up in the memory of the reset state, and it
fills BIOS. -/
theorem bootImageLoaded : Obligations.BootImageLoaded := by
  intro p image hp
  have hreset : State.reset.mem.wf = true := rfl
  refine ⟨fun hlen hsum => ?_, fun hbad => ?_⟩
  · have haccepted := (bootImageOk_iff p image).2 ⟨hlen, hsum⟩
    refine ⟨_, powerOn_accepted hp haccepted, Memory.wf_storeImage hreset image biosBase,
      fun i hi => Memory.get_storeImage_inside hreset image biosBase hi, fun a ha => ?_, rfl, rfl⟩
    exact Memory.get_storeImage_outside hreset image biosBase (by rw [hlen, biosBase]; omega)
  · exact powerOn_not_accepted hp fun haccepted => hbad ((bootImageOk_iff p image).1 haccepted)

end Sys2Proof.Claims
